-- ==== Sys2Proof/Word.lean ====
section
/-! DEFINITION. The widths of the bridge: a byte, a radio register address, a mask over the six pins
(00_scope.md rules R7 and R11). Bit 0 is the least significant bit of each. -/

namespace Sys2Proof

/-- A byte, 8 bits (R11); also the content of one radio register (`REG_W`, R7). -/
abbrev Byte := BitVec 8

/-- A radio register address, 7 bits (`ADDR_W`, R7; R61). -/
abbrev RegAddr := BitVec 7

/-- A mask over the six pins: bit p stands for pin p (`PIN_MASK`, R7; R24, R25, R49). -/
abbrev PinMask := BitVec 6

end Sys2Proof
end

