-- ==== Sys2Proof/Config.lean ====
section
/-! DEFINITION. The parameters of one instantiation of the bridge (00_scope.md rules R7 to R10): the constants the
source fixes, the named parameters with the spec's defaults, and the constraints every instantiation meets. -/

namespace Sys2Proof

namespace Config

/-- `DIR_OPEN` (R7): all six pins as outputs. -/
def dirOpen : PinMask := 0x3F#6

/-- `WRITE_FLAG` (R7): bit 7 of the serial address byte. -/
def writeFlag : Byte := 0x80#8

/-- `ADDR_MASK` (R7). -/
def addrMask : Byte := 0x7F#8

/-- `DUMMY` (R7): the byte clocked out to read one byte. -/
def dummy : Byte := 0xFF#8

/-- `MAX_PAYLOAD` (R7). -/
def maxPayload : Nat := 255

/-- `SEND_TIMEOUT` in seconds (R7). -/
def sendTimeout : Rat := 2

/-- `2^19 / 32`, register units per MHz (`F_XOSC`, `FRF_SHIFT` of R7; R241). -/
def frfPerMHz : Rat := 16384

/-- `BW_TABLE` in kHz, indices 0 to 9 (R7, R248). -/
def bwTable : List Rat := [39/5, 52/5, 78/5, 104/5, 125/4, 417/10, 125/2, 125, 250, 500]

/-- `RSSI_OFFSET` (R7). -/
def rssiOffset : Int := 137

end Config

/-- `BEACON_ENC` (R9, 47_packet_sequencers.md R302): how a whole number of seconds is split over the beacon register pair. The spec
leaves it open with one default; `other` names every other split by a number (log 2). -/
inductive BeaconSplit where
  /-- The default: `(secs[15:8], secs[7:0])`. -/
  | highLow
  | other (id : Nat)
deriving DecidableEq, Repr

namespace Config

/-- Free value: a split of the seconds that is not the default one (U20, log 2). -/
opaque beaconOther : Nat → Nat → Byte × Byte

end Config

/-- The pair a split gives for a number of seconds. -/
def BeaconSplit.apply : BeaconSplit → Nat → Byte × Byte
  | .highLow, secs => (BitVec.ofNat 8 (secs / 256), BitVec.ofNat 8 secs)
  | .other id, secs => Config.beaconOther id secs

/-- The parameters of 00_scope.md rules R8 and R9, with `DEV_INDEX` and the bit order as the arguments of creation (R52).
They are never written by any step (R21); State carries them because `exec` has no other argument (log 1). -/
structure Params where
  usbVid : BitVec 16
  usbPid : BitVec 16
  epOut : Byte
  epIn : Byte
  devIndex : Nat
  opPinStream : Byte
  opClkStream : Byte
  opSpeedCfg : Byte
  subOut : BitVec 2
  subDir : BitVec 2
  subIn : Byte
  endMark : Byte
  speedSetTag : Byte
  speedValue : BitVec 3
  speedEnd : Byte
  csPin : Fin 6
  irqPin : Fin 6
  lsbFirstDefault : Bool
  regFifo : RegAddr
  regOpMode : RegAddr
  regFrfMsb : RegAddr
  regFrfMid : RegAddr
  regFrfLsb : RegAddr
  regPaConfig : RegAddr
  regLna : RegAddr
  regFifoAddrPtr : RegAddr
  regFifoTxBase : RegAddr
  regFifoRxBase : RegAddr
  regFifoRxCurrent : RegAddr
  regIrqFlags : RegAddr
  regRxNbBytes : RegAddr
  regPktSnr : RegAddr
  regPktRssi : RegAddr
  regModemConfig1 : RegAddr
  regModemConfig2 : RegAddr
  regPreambleMsb : RegAddr
  regPreambleLsb : RegAddr
  regPayloadLength : RegAddr
  regModemConfig3 : RegAddr
  regDetectOpt : RegAddr
  regInvertIq : RegAddr
  regDetectThr : RegAddr
  regSyncWord : RegAddr
  regInvertIq2 : RegAddr
  regDioMapping1 : RegAddr
  regBeaconA : RegAddr
  regBeaconB : RegAddr
  regTemp : RegAddr
  regTempCal : RegAddr
  irqRxTimeout : Byte
  irqRxDone : Byte
  irqCrcError : Byte
  irqValidHeader : Byte
  irqTxDone : Byte
  irqCadDone : Byte
  irqFhssChange : Byte
  irqCadDetected : Byte
  modeSleep : BitVec 3
  modeStandby : BitVec 3
  modeTx : BitVec 3
  modeRxContinuous : BitVec 3
  modeRxSingle : BitVec 3
  modeLoraBit : Byte
  modeBeacon : Byte
  detOptSf6 : Byte
  detThrSf6 : Byte
  detOptSf7to12 : Byte
  detThrSf7to12 : Byte
  dioMapTxDone : Byte
  dioMapRxDone : Byte
  iqNormal : List (RegAddr × Byte)
  iqInverted : List (RegAddr × Byte)
  beaconPayload : List Byte
  beaconEnc : BeaconSplit
  tempModeByte : Byte
  pollTxInterval : Rat
  pollRxInterval : Rat
  pollIrqInterval : Rat
  settleDelay : Rat
deriving DecidableEq, Repr

/-- The parameter values of a machine at reset: the defaults of R8 and R9 (UNVERIFIED, log 3). The parameters the spec leaves
without a default (OPEN) have the values log 2 names (DESIGN CHOICE): `devIndex`, `speedValue`, `irqPin`, `modeBeacon`,
`beaconPayload`, `regBeaconA`, `regBeaconB`, `regTemp`, `regTempCal`, `tempModeByte` and the four intervals. -/
def Params.default : Params where
  usbVid := 0x1A86
  usbPid := 0x5512
  epOut := 0x02
  epIn := 0x82
  devIndex := 0
  opPinStream := 0xAB
  opClkStream := 0xA8
  opSpeedCfg := 0xAA
  subOut := 0b10
  subDir := 0b01
  subIn := 0x00
  endMark := 0x20
  speedSetTag := 0x60
  speedValue := 1
  speedEnd := 0x00
  csPin := 0
  irqPin := 2
  lsbFirstDefault := false
  regFifo := 0x00
  regOpMode := 0x01
  regFrfMsb := 0x06
  regFrfMid := 0x07
  regFrfLsb := 0x08
  regPaConfig := 0x09
  regLna := 0x0C
  regFifoAddrPtr := 0x0D
  regFifoTxBase := 0x0E
  regFifoRxBase := 0x0F
  regFifoRxCurrent := 0x10
  regIrqFlags := 0x12
  regRxNbBytes := 0x13
  regPktSnr := 0x19
  regPktRssi := 0x1A
  regModemConfig1 := 0x1D
  regModemConfig2 := 0x1E
  regPreambleMsb := 0x20
  regPreambleLsb := 0x21
  regPayloadLength := 0x22
  regModemConfig3 := 0x26
  regDetectOpt := 0x31
  regInvertIq := 0x33
  regDetectThr := 0x37
  regSyncWord := 0x39
  regInvertIq2 := 0x3B
  regDioMapping1 := 0x40
  regBeaconA := 0x50
  regBeaconB := 0x51
  regTemp := 0x52
  regTempCal := 0x53
  irqRxTimeout := 0x80
  irqRxDone := 0x40
  irqCrcError := 0x20
  irqValidHeader := 0x10
  irqTxDone := 0x08
  irqCadDone := 0x04
  irqFhssChange := 0x02
  irqCadDetected := 0x01
  modeSleep := 0
  modeStandby := 1
  modeTx := 3
  modeRxContinuous := 5
  modeRxSingle := 6
  modeLoraBit := 0x80
  modeBeacon := 0x8B
  detOptSf6 := 0xC5
  detThrSf6 := 0x0C
  detOptSf7to12 := 0xC3
  detThrSf7to12 := 0x0A
  dioMapTxDone := 0x40
  dioMapRxDone := 0x00
  iqNormal := [(0x33, 0x27), (0x3B, 0x1D)]
  iqInverted := [(0x33, 0x66), (0x3B, 0x19)]
  beaconPayload := [0x42]
  beaconEnc := .highLow
  tempModeByte := 0x00
  pollTxInterval := 1/1000
  pollRxInterval := 1/1000
  pollIrqInterval := 1/1000
  settleDelay := 1/1000

/-- `IQ_WRITES(inv)` (R9, R270). -/
def Params.iqWrites (p : Params) (inv : Bool) : List (RegAddr × Byte) :=
  if inv then p.iqInverted else p.iqNormal

/-- Every `REG_*` address of R9. -/
def Params.regs (p : Params) : List RegAddr :=
  [p.regFifo, p.regOpMode, p.regFrfMsb, p.regFrfMid, p.regFrfLsb, p.regPaConfig, p.regLna, p.regFifoAddrPtr,
   p.regFifoTxBase, p.regFifoRxBase, p.regFifoRxCurrent, p.regIrqFlags, p.regRxNbBytes, p.regPktSnr, p.regPktRssi,
   p.regModemConfig1, p.regModemConfig2, p.regPreambleMsb, p.regPreambleLsb, p.regPayloadLength, p.regModemConfig3,
   p.regDetectOpt, p.regInvertIq, p.regDetectThr, p.regSyncWord, p.regInvertIq2, p.regDioMapping1, p.regBeaconA,
   p.regBeaconB, p.regTemp, p.regTempCal]

/-- The eight masks of `REG_IRQ_FLAGS` (R9, R44). -/
def Params.irqMasks (p : Params) : List Byte :=
  [p.irqRxTimeout, p.irqRxDone, p.irqCrcError, p.irqValidHeader, p.irqTxDone, p.irqCadDone, p.irqFhssChange,
   p.irqCadDetected]

/-- The five `MODE_*` codes (R9, R41). -/
def Params.modeCodes (p : Params) : List (BitVec 3) :=
  [p.modeSleep, p.modeStandby, p.modeTx, p.modeRxContinuous, p.modeRxSingle]

/-- The constraints every instantiation meets (R10 (a) to (i)); the last five fields are stated by other rules or read from
them (log 14). -/
structure Params.Ok (p : Params) : Prop where
  /-- R10 (a) -/
  opcodes : p.opPinStream ≠ p.opClkStream ∧ p.opPinStream ≠ p.opSpeedCfg ∧ p.opClkStream ≠ p.opSpeedCfg
  /-- R10 (b) -/
  subTags : p.subOut ≠ p.subDir
  /-- R10 (b): an item byte is told from `END_MARK` and `SUB_IN` by its tag. -/
  subMarks : p.endMark.extractLsb' 6 2 ≠ p.subOut ∧ p.endMark.extractLsb' 6 2 ≠ p.subDir ∧
    p.subIn.extractLsb' 6 2 ≠ p.subOut ∧ p.subIn.extractLsb' 6 2 ≠ p.subDir
  /-- R10 (c) -/
  endMark : p.endMark ≠ p.subIn
  /-- R10 (d) -/
  pins : p.csPin ≠ p.irqPin
  /-- R10 (e) -/
  regs : p.regs.Nodup
  /-- R10 (f) -/
  irqMasks : p.irqMasks.Nodup ∧ ∀ m ∈ p.irqMasks, ∃ i : Fin 8, m = 1#8 <<< i.val
  /-- R10 (g) -/
  modes : p.modeCodes.Nodup
  /-- R10 (g) -/
  beaconMode : ∀ c ∈ p.modeCodes, p.modeBeacon ≠ (p.modeLoraBit ||| c.setWidth 8)
  /-- R10 (h) -/
  detection : (p.detOptSf6, p.detThrSf6) ≠ (p.detOptSf7to12, p.detThrSf7to12)
  /-- R10 (i) -/
  endpoints : p.epOut ≠ p.epIn
  /-- R270: both lists write the same set of addresses. -/
  iqAddrs : ∀ a, (∃ v, (a, v) ∈ p.iqNormal) ↔ ∃ v, (a, v) ∈ p.iqInverted
  /-- R9: the beacon payload has at most 255 bytes. -/
  beaconLen : p.beaconPayload.length ≤ Config.maxPayload
  /-- R306 -/
  tempMode : p.tempModeByte &&& p.modeLoraBit = 0#8
  /-- R41: the bit that selects the normal modulation mode is no bit of the mode field. -/
  loraBit : p.modeLoraBit.extractLsb' 0 3 = 0#3
  /-- R94: the tag and the three bits of `SPEED_VALUE` share no bit (`01100vvv` in the opcode table). -/
  speedTag : p.speedSetTag.extractLsb' 0 3 = 0#3

end Sys2Proof
end

