-- ==== Sys2Proof/Syntax.lean ====
section
/-! DEFINITION. The instruction set: one constructor per row of the opcode map (30_encoding.md rules R105 and R107), in three
levels and one agent step. Operand types are those of R98. -/

namespace Sys2Proof

/-- The five operating modes (10_state.md R41; the operand type `opmode` of R98). -/
inductive OpMode where
  | sleep
  | standby
  | transmit
  | receiveContinuous
  | receiveSingle
deriving DecidableEq, Repr, Inhabited

/-- One constructor per row of the opcode map. `pin` and `mode` operands are natural numbers, as R98 has them: an index above 5
and a mode other than 0 and 1 are well-formed operands that the operation answers with a failure (R180, R185). -/
inductive Instr where
  -- wire commands (40_wire_commands.md)
  | pinSet (out dir : PinMask)
  | pinGet
  | clkByte (data : Byte)
  | speedCfg (value : BitVec 3)
  -- serial transactions (40_wire_commands.md)
  | regRead (addr : RegAddr)
  | regWrite (addr : RegAddr) (value : Byte)
  -- session operations (41_session_ops.md)
  | openSession
  | closeSession
  -- transfer (42_transfer.md)
  | transfer (w : List Byte) (n : Nat)
  -- digital pins (43_digital_pins.md)
  | digitalWrite (pin : Nat) (value : Bool)
  | digitalRead (pin : Nat)
  | pinMode (pin mode : Nat)
  -- interrupt emulation (44_interrupt_emulation.md)
  | configureInterrupt (pin : Nat) (enable : Bool)
  | setInterruptCallback (fn : Nat)
  | enableInterrupt (en : Bool)
  | isActive
  -- register access (45_register_access.md)
  | readRegister (addr : Byte)
  | writeRegister (addr value : Byte)
  | setMode (m : OpMode)
  | getMode
  | getIrqFlags
  | clearIrqFlags
  -- parameter codecs (46_param_codecs.md)
  | setFrequency (fMHz : Rat)
  | getFrequency
  | setBandwidth (bkHz : Rat)
  | getBandwidth
  | setSpreadingFactor (sf : Int)
  | getSpreadingFactor
  | setCodingRate (den : Int)
  | getCodingRate
  | setTxPower (level : Int) (boost : Bool)
  | getTxPower
  | getRssi
  | getSnr
  | setPreambleLength (p : BitVec 16)
  | getPreambleLength
  | setSyncWord (w : Byte)
  | getSyncWord
  | setInvertIQ (inv : Bool)
  -- packet sequencers (47_packet_sequencers.md)
  | send (data : List Byte) (invertIQ : Bool)
  | receive (timeoutSeconds : Rat) (invertIQ : Bool)
  | startBeacon (intervalMs : Nat)
  | stopBeacon
  | readTemperature
  | calibrateTemperature (offset : Byte)
  -- the step of the agent POLLER (44_interrupt_emulation.md R203)
  | pollStep
deriving DecidableEq, Repr

/-- Where an instruction is presented (R90, R107): a frame at the adapter, bytes clocked at the radio, a request at port OP, or
the POLLER's turn. -/
inductive Level where
  | wire
  | serial
  | operation
  | agent
deriving DecidableEq, Repr

/-- The level of an instruction's row (R107). -/
def Instr.level : Instr → Level
  | .pinSet _ _ | .pinGet | .clkByte _ | .speedCfg _ => .wire
  | .regRead _ | .regWrite _ _ => .serial
  | .pollStep => .agent
  | .openSession | .closeSession | .transfer _ _ | .digitalWrite _ _ | .digitalRead _ | .pinMode _ _
  | .configureInterrupt _ _ | .setInterruptCallback _ | .enableInterrupt _ | .isActive | .readRegister _
  | .writeRegister _ _ | .setMode _ | .getMode | .getIrqFlags | .clearIrqFlags | .setFrequency _ | .getFrequency
  | .setBandwidth _ | .getBandwidth | .setSpreadingFactor _ | .getSpreadingFactor | .setCodingRate _ | .getCodingRate
  | .setTxPower _ _ | .getTxPower | .getRssi | .getSnr | .setPreambleLength _ | .getPreambleLength | .setSyncWord _
  | .getSyncWord | .setInvertIQ _ | .send _ _ | .receive _ _ | .startBeacon _ | .stopBeacon | .readTemperature
  | .calibrateTemperature _ => .operation

end Sys2Proof
end

