-- ==== Sys2Proof/WellFormed.lean ====
section
/-! DEFINITION. Which terms of `Instr` are requests at all: R98 types a `rat` operand as a non-negative rational "unless
stated". `setFrequency` states otherwise: it answers a negative frequency with a failure (46_param_codecs.md R245), so its
operand may be negative. -/

namespace Sys2Proof

/-- An instruction whose operands are in the types of R98: `setBandwidth` (R249) and `receive` (R296) take a non-negative
rational. Every other operand type is carried by the constructor's own types. -/
def Instr.wellFormed : Instr → Bool
  | .setBandwidth b => decide (0 ≤ b)
  | .receive t _ => decide (0 ≤ t)
  | .pinSet _ _ | .pinGet | .clkByte _ | .speedCfg _ | .regRead _ | .regWrite _ _ | .pollStep
  | .openSession | .closeSession | .transfer _ _ | .digitalWrite _ _ | .digitalRead _ | .pinMode _ _
  | .configureInterrupt _ _ | .setInterruptCallback _ | .enableInterrupt _ | .isActive | .readRegister _
  | .writeRegister _ _ | .setMode _ | .getMode | .getIrqFlags | .clearIrqFlags | .setFrequency _ | .getFrequency
  | .getBandwidth | .setSpreadingFactor _ | .getSpreadingFactor | .setCodingRate _ | .getCodingRate
  | .setTxPower _ _ | .getTxPower | .getRssi | .getSnr | .setPreambleLength _ | .getPreambleLength | .setSyncWord _
  | .getSyncWord | .setInvertIQ _ | .send _ _ | .startBeacon _ | .stopBeacon | .readTemperature
  | .calibrateTemperature _ => true

end Sys2Proof
end

