-- ==== Sys2Proof/Decode.lean ====
section
/-! DEFINITION. The decoders of the three levels and of the agent step, total on any bytes, each refusal by name; then the
encoder. Frames follow 30_encoding.md rules R91 to R94 and R106, serial transactions R95 to R97, requests the select codes of
R105. How the typed operands of a request (R98) lie in bytes is this model's own (DESIGN CHOICE, log 12). -/

namespace Sys2Proof

/-- Why a byte list is no instruction of its level. -/
inductive DecodeError where
  /-- No frame of R91 to R94 (30_encoding.md R109; U1). -/
  | unknownFrame
  /-- A serial transaction with more than one byte after the address byte (R113, 40_wire_commands.md R136; U9: `refuse`). -/
  | serialShape
  /-- A serial transaction that ends before its data byte: no register is accessed (40_wire_commands.md R136, 10_state.md R51). -/
  | noAccess (bytes : List Byte)
  /-- A request without a select code. -/
  | noRequest
  /-- A select code outside R105 (R110; U14). -/
  | illegalSelect
  /-- Operand bytes that encode no operand tuple (log 12). -/
  | badOperands
  /-- The agent step takes no bytes (R105). -/
  | agentBytes
deriving DecidableEq, Repr

/-! ### Field helpers -/

/-- `item_out(m)`, `item_dir(m)` of R99 for the tag given: the tag in bits 7:6, the mask in bits 5:0. -/
def pinItem (tag : BitVec 2) (m : PinMask) : Byte := tag ++ m

/-- The item byte of the speed frame (R94): the tag OR-ed with the 3-bit value. -/
def speedItem (tag : Byte) (v : BitVec 3) : Byte := tag ||| v.setWidth 8

/-- The address byte of a register read: `addr & 0x7F` (R100). -/
def readAddrByte (addr : Byte) : Byte := addr &&& Config.addrMask

/-- The address byte of a register write: `addr | 0x80` (R100). -/
def writeAddrByte (addr : Byte) : Byte := addr ||| Config.writeFlag

/-! ### Operand readers of port OP -/

/-- Reads one value off the front of the operand bytes, with the bytes that are left. -/
abbrev Reader (α : Type) := List Byte → Option (α × List Byte)

def readNothing (i : Instr) : Reader Instr := fun bs => some (i, bs)

def readByte : Reader Byte
  | [] => none
  | b :: r => some (b, r)

def readBool : Reader Bool
  | [] => none
  | b :: r => if b = 0x00#8 then some (false, r) else if b = 0x01#8 then some (true, r) else none

def readU16 : Reader (BitVec 16)
  | hi :: lo :: r => some (hi ++ lo, r)
  | _ => none

/-- A natural number in groups of seven bits, least significant group first, bit 7 set in every byte but the last; a last group
of zero after another group is refused, so that each number has one encoding. -/
def readNat : Reader Nat
  | [] => none
  | b :: r =>
    if b.toNat < 128 then some (b.toNat, r)
    else
      match readNat r with
      | some (m, r') => if m = 0 then none else some (b.toNat - 128 + 128 * m, r')
      | none => none

/-- An integer as a natural number: 0, -1, 1, -2, … -/
def unzigzag (n : Nat) : Int := if n % 2 = 0 then (n / 2 : Nat) else Int.negSucc (n / 2)

def readInt : Reader Int := fun bs =>
  match readNat bs with
  | some (n, r) => some (unzigzag n, r)
  | none => none

/-- A rational as numerator and denominator less one, refused unless in lowest terms. -/
def ratOf (num : Int) (d : Nat) : Option Rat :=
  if h : num.natAbs.Coprime (d + 1) then some ⟨num, d + 1, Nat.succ_ne_zero d, h⟩ else none

def readRat : Reader Rat := fun bs =>
  match readInt bs with
  | some (num, r) =>
    match readNat r with
    | some (d, r') => (ratOf num d).map (·, r')
    | none => none
  | none => none

/-- A non-negative rational: the numerator is a natural number. -/
def readNonnegRat : Reader Rat := fun bs =>
  match readNat bs with
  | some (num, r) =>
    match readNat r with
    | some (d, r') => (ratOf num d).map (·, r')
    | none => none
  | none => none

/-- A byte list: its length, then its bytes. -/
def readBytes : Reader (List Byte) := fun bs =>
  match readNat bs with
  | some (n, r) => if n ≤ r.length then some (r.take n, r.drop n) else none
  | none => none

def readOpMode : Reader OpMode
  | [] => none
  | b :: r =>
    match b.toNat with
    | 0 => some (.sleep, r)
    | 1 => some (.standby, r)
    | 2 => some (.transmit, r)
    | 3 => some (.receiveContinuous, r)
    | 4 => some (.receiveSingle, r)
    | _ => none

/-- One operand, then the instruction. -/
def with1 {α : Type} (ra : Reader α) (k : α → Instr) : Reader Instr := fun bs =>
  match ra bs with
  | some (a, r) => some (k a, r)
  | none => none

/-- Two operands in the order of R105, then the instruction. -/
def with2 {α β : Type} (ra : Reader α) (rb : Reader β) (k : α → β → Instr) : Reader Instr := fun bs =>
  match ra bs with
  | some (a, r) =>
    match rb r with
    | some (b, r') => some (k a b, r')
    | none => none
  | none => none

/-! ### Decoders -/

/-- The operation select codes of R105 with their operand types; `none` is an illegal code (R110). -/
def operandsOf (opsel : Byte) : Option (Reader Instr) :=
  match opsel.toNat with
  | 0x00 => some (readNothing .openSession)
  | 0x01 => some (readNothing .closeSession)
  | 0x02 => some (with2 readBytes readNat .transfer)
  | 0x03 => some (with2 readNat readBool .digitalWrite)
  | 0x04 => some (with1 readNat .digitalRead)
  | 0x05 => some (with2 readNat readNat .pinMode)
  | 0x06 => some (with2 readNat readBool .configureInterrupt)
  | 0x07 => some (with1 readNat .setInterruptCallback)
  | 0x08 => some (with1 readBool .enableInterrupt)
  | 0x09 => some (readNothing .isActive)
  | 0x10 => some (with1 readByte .readRegister)
  | 0x11 => some (with2 readByte readByte .writeRegister)
  | 0x12 => some (with1 readOpMode .setMode)
  | 0x13 => some (readNothing .getMode)
  | 0x14 => some (readNothing .getIrqFlags)
  | 0x15 => some (readNothing .clearIrqFlags)
  | 0x20 => some (with1 readRat .setFrequency)
  | 0x21 => some (readNothing .getFrequency)
  | 0x22 => some (with1 readNonnegRat .setBandwidth)
  | 0x23 => some (readNothing .getBandwidth)
  | 0x24 => some (with1 readInt .setSpreadingFactor)
  | 0x25 => some (readNothing .getSpreadingFactor)
  | 0x26 => some (with1 readInt .setCodingRate)
  | 0x27 => some (readNothing .getCodingRate)
  | 0x28 => some (with2 readInt readBool .setTxPower)
  | 0x29 => some (readNothing .getTxPower)
  | 0x2A => some (readNothing .getRssi)
  | 0x2B => some (readNothing .getSnr)
  | 0x2C => some (with1 readU16 .setPreambleLength)
  | 0x2D => some (readNothing .getPreambleLength)
  | 0x2E => some (with1 readByte .setSyncWord)
  | 0x2F => some (readNothing .getSyncWord)
  | 0x30 => some (with1 readBool .setInvertIQ)
  | 0x40 => some (with2 readBytes readBool .send)
  | 0x41 => some (with2 readNonnegRat readBool .receive)
  | 0x42 => some (with1 readNat .startBeacon)
  | 0x43 => some (readNothing .stopBeacon)
  | 0x44 => some (readNothing .readTemperature)
  | 0x45 => some (with1 readByte .calibrateTemperature)
  | _ => none

/-- The adapter's decoding of a frame (R106): byte 0 selects the command, the length is the format's (R114). -/
def decodeWire (p : Params) : List Byte → Except DecodeError Instr
  | [b0, d] => if b0 = p.opClkStream then .ok (.clkByte d) else .error .unknownFrame
  | [b0, b1, b2] =>
    if b0 = p.opPinStream ∧ b1 = p.subIn ∧ b2 = p.endMark then .ok .pinGet
    else if b0 = p.opSpeedCfg ∧ b1 = speedItem p.speedSetTag (b1.extractLsb' 0 3) ∧ b2 = p.speedEnd then
      .ok (.speedCfg (b1.extractLsb' 0 3))
    else .error .unknownFrame
  | [b0, b1, b2, b3] =>
    if b0 = p.opPinStream ∧ b1.extractLsb' 6 2 = p.subOut ∧ b2.extractLsb' 6 2 = p.subDir ∧ b3 = p.endMark then
      .ok (.pinSet (b1.extractLsb' 0 6) (b2.extractLsb' 0 6))
    else .error .unknownFrame
  | _ => .error .unknownFrame

/-- The radio's decoding of a serial transaction (R95, R106): bit 7 of the first byte selects S-WR or S-RD, and the byte clocked in
the data phase of a read is ignored (40_wire_commands.md R136). -/
def decodeSerial : List Byte → Except DecodeError Instr
  | [b0, b1] => if b0.getLsbD 7 then .ok (.regWrite (b0.extractLsb' 0 7) b1) else .ok (.regRead (b0.extractLsb' 0 7))
  | [] => .error (.noAccess [])
  | [b0] => .error (.noAccess [b0])
  | _ :: _ :: _ :: _ => .error .serialShape

/-- A request at port OP: the select code and its operands (R98, R105), then only zero bytes. -/
def decodeOperation : List Byte → Except DecodeError Instr
  | [] => .error .noRequest
  | op :: bs =>
    match operandsOf op with
    | none => .error .illegalSelect
    | some r =>
      match r bs with
      | none => .error .badOperands
      | some (i, rest) => if rest.all (· == 0x00#8) then .ok i else .error .badOperands

/-- The decoder of each level; the POLLER's step has no bit pattern (R105). -/
def decode (p : Params) (l : Level) (bs : List Byte) : Except DecodeError Instr :=
  match l with
  | .wire => decodeWire p bs
  | .serial => decodeSerial bs
  | .operation => decodeOperation bs
  | .agent => if bs = [] then .ok .pollStep else .error .agentBytes

/-! ### The opcode table's words -/

/-- The `n` bytes of a table word: the table writes byte 0 in the highest bits (R107 "most significant bit of byte 0 first"). -/
def tableBytes : Nat → Nat → List Byte
  | 0, _ => []
  | n + 1, w => BitVec.ofNat 8 (w / 256 ^ n) :: tableBytes n w

/-- Where an opcode-table word of `nbits` bits is presented, with its bytes (log 13): no bits, the agent step; one byte, a
select code at port OP with operand bytes of zeros; two bytes, a clock frame if the first byte is its opcode and a serial
transaction otherwise; more, a frame. -/
def tablePlace (p : Params) (nbits w : Nat) : Level × List Byte :=
  match nbits / 8 with
  | 0 => (.agent, [])
  | 1 => (.operation, tableBytes 1 w ++ List.replicate 8 0x00#8)
  | 2 => if BitVec.ofNat 8 (w / 256) = p.opClkStream then (.wire, tableBytes 2 w) else (.serial, tableBytes 2 w)
  | n => (.wire, tableBytes n w)

/-- The instruction this decoder reads from an opcode-table word, with the default parameters (the table's own, R107). -/
def decodeTableWord (nbits w : Nat) : Option Instr :=
  let place := tablePlace Params.default nbits w
  match decode Params.default place.1 place.2 with
  | .ok i => some i
  | .error _ => none

/-! ### The encoder -/

/-- The groups of seven bits of `n`, least significant first; the first argument bounds their number. -/
def natGroups : Nat → Nat → List Byte
  | 0, n => [BitVec.ofNat 8 n]
  | fuel + 1, n =>
    if n < 128 then [BitVec.ofNat 8 n] else BitVec.ofNat 8 (128 + n % 128) :: natGroups fuel (n / 128)

def putNat (n : Nat) : List Byte := natGroups n n

def zigzag : Int → Nat
  | .ofNat n => 2 * n
  | .negSucc n => 2 * n + 1

def putInt (z : Int) : List Byte := putNat (zigzag z)

def putRat (q : Rat) : List Byte := putInt q.num ++ putNat (q.den - 1)

def putNonnegRat (q : Rat) : List Byte := putNat q.num.toNat ++ putNat (q.den - 1)

def putBool (b : Bool) : List Byte := [if b then 0x01#8 else 0x00#8]

def putBytes (l : List Byte) : List Byte := putNat l.length ++ l

def putU16 (v : BitVec 16) : List Byte := [v.extractLsb' 8 8, v.extractLsb' 0 8]

def putOpMode : OpMode → List Byte
  | .sleep => [0x00#8]
  | .standby => [0x01#8]
  | .transmit => [0x02#8]
  | .receiveContinuous => [0x03#8]
  | .receiveSingle => [0x04#8]

/-- The bytes of an instruction at its level: the frames of R91 to R94, the serial bytes of R96 and R97, a request's select
code of R105 and its operands. -/
def encode (p : Params) : Instr → List Byte
  | .pinSet out dir => [p.opPinStream, pinItem p.subOut out, pinItem p.subDir dir, p.endMark]
  | .pinGet => [p.opPinStream, p.subIn, p.endMark]
  | .clkByte d => [p.opClkStream, d]
  | .speedCfg v => [p.opSpeedCfg, speedItem p.speedSetTag v, p.speedEnd]
  | .regRead a => [readAddrByte (a.setWidth 8), Config.dummy]
  | .regWrite a v => [writeAddrByte (a.setWidth 8), v]
  | .openSession => [0x00#8]
  | .closeSession => [0x01#8]
  | .transfer w n => 0x02#8 :: (putBytes w ++ putNat n)
  | .digitalWrite pin v => 0x03#8 :: (putNat pin ++ putBool v)
  | .digitalRead pin => 0x04#8 :: putNat pin
  | .pinMode pin m => 0x05#8 :: (putNat pin ++ putNat m)
  | .configureInterrupt pin en => 0x06#8 :: (putNat pin ++ putBool en)
  | .setInterruptCallback fn => 0x07#8 :: putNat fn
  | .enableInterrupt en => 0x08#8 :: putBool en
  | .isActive => [0x09#8]
  | .readRegister a => [0x10#8, a]
  | .writeRegister a v => [0x11#8, a, v]
  | .setMode m => 0x12#8 :: putOpMode m
  | .getMode => [0x13#8]
  | .getIrqFlags => [0x14#8]
  | .clearIrqFlags => [0x15#8]
  | .setFrequency f => 0x20#8 :: putRat f
  | .getFrequency => [0x21#8]
  | .setBandwidth b => 0x22#8 :: putNonnegRat b
  | .getBandwidth => [0x23#8]
  | .setSpreadingFactor sf => 0x24#8 :: putInt sf
  | .getSpreadingFactor => [0x25#8]
  | .setCodingRate den => 0x26#8 :: putInt den
  | .getCodingRate => [0x27#8]
  | .setTxPower level boost => 0x28#8 :: (putInt level ++ putBool boost)
  | .getTxPower => [0x29#8]
  | .getRssi => [0x2A#8]
  | .getSnr => [0x2B#8]
  | .setPreambleLength v => 0x2C#8 :: putU16 v
  | .getPreambleLength => [0x2D#8]
  | .setSyncWord w => [0x2E#8, w]
  | .getSyncWord => [0x2F#8]
  | .setInvertIQ inv => 0x30#8 :: putBool inv
  | .send data inv => 0x40#8 :: (putBytes data ++ putBool inv)
  | .receive t inv => 0x41#8 :: (putNonnegRat t ++ putBool inv)
  | .startBeacon ms => 0x42#8 :: putNat ms
  | .stopBeacon => [0x43#8]
  | .readTemperature => [0x44#8]
  | .calibrateTemperature o => [0x45#8, o]
  | .pollStep => []

end Sys2Proof
end

