-- ==== Sys2Proof/Machine/Env.lean ====
section
/-! DEFINITION. What the environment decides (10_state.md R20, R21; 93_implementation_defined.md U3 to U18): the types of its
answers and the free values. State holds the answers to come as plain data (log 4); past their end an answer is one of the
opaque constants of this file, applied to the number of answers given before it. -/

namespace Sys2Proof

/-- The causes of `LAST_CAUSE` (60_exceptions.md R331), in the order of their codes 0 to 15. -/
inductive Cause where
  | none
  | noDeviceFound
  | indexOutOfRange
  | usbOpenFailed
  | usbConfigFailed
  | interfaceClaimFailed
  | bulkTransferError
  | sessionClosed
  | invalidPin
  | invalidMode
  | interruptActive
  | notConfigured
  | invalidParameter
  | payloadTooLong
  | timeout
  | temperatureFailed
deriving DecidableEq, Repr, Inhabited

/-- The answer to one bulk transaction (20_memory.md R63, R64). A failed one leaves the far end in one of two states, unchanged or
as after the whole transaction (U3). -/
inductive Answer where
  | ok
  | failUnchanged
  | failExecuted
deriving DecidableEq, Repr, Inhabited

/-- RADIO's own steps between two bulk transactions (40_wire_commands.md R140), limited to what its laws allow: flags set and
never cleared (a), a change of any volatile register, the mode register among them (b, c), changes of the FIFO (c). -/
structure RadioEvent where
  setFlags : Byte
  opMode : Option Byte
  rssi : Option Byte
  snr : Option Byte
  nbBytes : Option Byte
  rxCurrent : Option Byte
  temp : Option Byte
  fifo : List (Byte × Byte)
deriving DecidableEq, Repr, Inhabited

/-- RADIO does nothing by itself. -/
def RadioEvent.nothing : RadioEvent :=
  { setFlags := 0#8, opMode := none, rssi := none, snr := none, nbBytes := none, rxCurrent := none, temp := none, fifo := [] }

/-- One request of a running callback to the bridge (44_interrupt_emulation.md R204): an operation, with the values `elapsed()` will
report in its poll loop before it is past every bound (47_packet_sequencers.md R288). -/
structure CbRequest where
  op : Instr
  elapsed : List Rat
deriving DecidableEq, Repr

/-- How many of POLLER's steps fall where, around one bulk transaction of FG (10_state.md R20, 20_memory.md R79): before it, and
after it, before FG goes on to its next step, which may be the operation's failure or return. Where FG changes a shadow mask the
change is four acts: the mask is read, written, the frame is built from the masks, the frame is sent; POLLER's steps can fall before
each (43_digital_pins.md R188, 70_reset_and_hazards.md R386). Any other transaction has all those before it at one place. -/
structure PollOrder where
  beforeLoad : Nat
  beforeStore : Nat
  beforeFrame : Nat
  beforeSend : Nat
  after : Nat
deriving DecidableEq, Repr, Inhabited

/-- No step of POLLER falls there. -/
def PollOrder.none : PollOrder := { beforeLoad := 0, beforeStore := 0, beforeFrame := 0, beforeSend := 0, after := 0 }

/-- How many steps fall before the transaction. -/
def PollOrder.before (o : PollOrder) : Nat := o.beforeLoad + o.beforeStore + o.beforeFrame + o.beforeSend

/-- What the environment decides at one bulk transaction, or at the emission of a callback (then only `callback` counts). -/
structure Tick where
  /-- Where POLLER's steps fall around this transaction of FG (20_memory.md R79). -/
  poll : PollOrder
  /-- The levels driven on the pins from outside (`PINS_EXT`, 10_state.md R49; U15). -/
  ext : PinMask
  /-- RADIO's own steps before this transaction (R140; U16). -/
  radio : RadioEvent
  /-- The answer (U18) and, of a failed transaction, its effect (U3). -/
  answer : Answer
  /-- The byte on the data-in line where the spec gives none (U6); its bits 7:6 are those of a pin response (U5). -/
  echo : Byte
  /-- What a write of a volatile status register leaves there (U8). -/
  junk : Byte
  /-- What RADIO makes of a byte beyond the second of a serial transaction (U9): registers overwritten. -/
  burst : List (RegAddr × Byte)
  /-- The same, in the FIFO. -/
  burstFifo : List (Byte × Byte)
  /-- What the callback emitted asks of the bridge (R204). -/
  callback : List CbRequest
deriving DecidableEq, Repr, Inhabited

/-- The four answers of the environment to `open` (41_session_ops.md R150). -/
structure Enumeration where
  found : Nat
  openOk : Bool
  configOk : Bool
  claimOk : Bool
deriving DecidableEq, Repr, Inhabited

/-- The environment's answers to come. `clocks` holds, for each poll loop to come, the values `elapsed()` reports before it is
past every bound (47_packet_sequencers.md R288); `gaps`, for each operation to come, how many of POLLER's steps fall while FG is
`Idle`, before the operation starts (10_state.md R20). `drawn` counts the answers given. -/
structure Env where
  ticks : List Tick
  enums : List Enumeration
  clocks : List (List Rat)
  gaps : List Nat
  drawn : Nat
deriving DecidableEq, Repr

namespace Config

/-- Free value: what the environment decides at a bulk transaction the tape of State does not give (log 4). -/
opaque tick : Nat → Tick

/-- Free value: the environment's answers to an `open` the tape does not give (U18, log 4). -/
opaque enumeration : Nat → Enumeration

/-- Free value: the values of `elapsed()` in a poll loop the tape does not give (U17, log 4). -/
opaque clock : Nat → List Rat

/-- Free value: how many of POLLER's steps fall before an operation that the tape does not give (R20, log 4). -/
opaque gap : Nat → Nat

/-- Free value: a byte read, delivered or written back after a bus fault in the same operation (45_register_access.md R216; U4). -/
opaque lostByte : Nat → Byte

/-- Free value: what `receive` delivers after a bus fault in it: the bytes of 47_packet_sequencers.md R296 V6, the empty list of
70_reset_and_hazards.md R383, or any other list (U4; log 29). -/
opaque lostBytes : Nat → List Byte

/-- Free value: whether a failed `open` leaves `CB_SET` as it was or clears it (41_session_ops.md R151 against 10_state.md R32;
log 20). -/
opaque keepsCallback : Nat → Bool

end Config

end Sys2Proof
end

