-- ==== Sys2Proof/Machine/State.lean ====
section
/-! DEFINITION. The state of the machine: the bridge's registers, its ports, the adapter, the radio, and the environment's
answers to come (10_state.md rules R20 to R52), as plain data; and the state after reset. -/

namespace Sys2Proof.Machine

/-- `HANDLE` (R29), opaque: only whether it is valid can be said. -/
inductive Handle where
  | invalid
  | valid
deriving DecidableEq, Repr

/-- `LAST_LEVEL` (R34). -/
inductive PinLevel where
  | unknown
  | high
  | low
deriving DecidableEq, Repr

/-- The two halves of a round trip (`out` and `in` of R36). -/
inductive Half where
  | sending
  | taking
deriving DecidableEq, Repr

/-- A step label of an operation's pseudocode (R36): a letter and a number (`O7`, `T4`, `S2`), a round trip of a loop (`T2(i)`),
or, where the pseudocode has no labels, the number of the bus access in it (log 17). -/
inductive Label where
  | none
  | main (letter : Char) (num : Nat)
  | round (letter : Char) (num : Nat) (i : Nat) (half : Half)
  | access (num : Nat)
deriving DecidableEq, Repr

/-- `SEQ` (R36): the running operation's select code (`none` is `Idle`), the step of its own list and the step of the bus
primitive running inside that step. -/
structure Seq where
  op : Option Byte
  step : Label
  bus : Label
deriving DecidableEq, Repr

/-- `SEQ` = `Idle`. -/
def Seq.idle : Seq := { op := none, step := .none, bus := .none }

/-- A change of one bit of a shadow mask: `OUT` (43_digital_pins.md R181 W2) or `DIR` (R185 M3). -/
inductive MaskUpdate where
  | out (pin : Nat) (high : Bool)
  | dir (pin : Nat) (output : Bool)
deriving DecidableEq, Repr

/-- One step of a running callback on the bridge, at the grain POLLER and FG interleave in (R20): one bulk transaction, one read or
write of a shadow mask, the building of a frame, or the write of `IRQ_CFG`. A byte taken is kept in a transfer's read phase. -/
inductive CbStep where
  | loadMask (u : MaskUpdate)
  | storeMask (u : MaskUpdate)
  | buildFrame
  | sendFrame
  | clock (data : Byte)
  | askPins
  | take (keep : Bool)
  | configured
deriving DecidableEq, Repr

/-- A part of a callback's request: a transfer, a step between two of them, or the step at which an operation looks at the byte its
last transfer has read and goes on by it (45_register_access.md R219; 47_packet_sequencers.md R292, R296, R297, R307, R309). -/
inductive CbTask where
  /-- `transfer(w, n)`. -/
  | access (w : List Byte) (n : Nat)
  /-- The write of `rmw(a, hi, lo, v)`. -/
  | insert (a : RegAddr) (hi lo : Nat) (v : Byte)
  /-- A byte read earlier, written back. -/
  | putBack (a : RegAddr) (v : Byte)
  | sleep (seconds : Rat)
  /-- The tests of the send poll loop; `clk` and `now` are those of R292. -/
  | sendTest (clk : List Rat) (now : Rat) (invertIQ : Bool)
  /-- The tests of the receive poll loop (R297). -/
  | receiveTest (bound : Rat) (clk : List Rat) (now : Rat) (invertIQ : Bool)
  /-- `receive` V6 with the number of bytes read. -/
  | payloadCount (invertIQ : Bool)
  /-- `receive` V6 with the number and the address of the bytes read. -/
  | payloadStart (n : Byte) (invertIQ : Bool)
  /-- K1 of `readTemperature` (`none`) or of `calibrateTemperature`, with its read done. -/
  | temperature (offset : Option Byte)
  /-- The check of `rdchk` (R306) in K3. -/
  | checked
  /-- `fail C` (60_exceptions.md R330). -/
  | failWith (c : Cause)
deriving DecidableEq, Repr

/-- A running callback: what is left of the transfer or pin operation in progress, the mask and the frame it holds, the bytes it has
read, what is left of the request behind it, and the requests behind that. -/
structure Callback where
  steps : List CbStep
  held : PinMask
  frameOut : PinMask
  frameDir : PinMask
  got : List Byte
  tasks : List CbTask
  rest : List CbRequest
deriving DecidableEq, Repr

/-- `PSEQ` (R36): POLLER's position in POLL_STEP (44_interrupt_emulation.md R203): before the read request, before taking its
response, before the edge test, in the callback with what is left of it, before `LAST_LEVEL` is stored. -/
inductive PSeq where
  | idle
  | takeResponse
  | test (sample : Bool)
  | callback (c : Callback)
  | store (cur : PinLevel)
deriving DecidableEq, Repr

/-- The buffers of a running transfer (R26). -/
structure Buffers where
  w : List Byte
  n : Nat
  r : List Byte
deriving DecidableEq, Repr

/-- What an operation delivers on port RES (R98, R105), and the bytes a serial transaction clocks back (log 11). -/
inductive Result where
  | unit
  | bool (b : Bool)
  | byte (b : Byte)
  | bytes (l : List Byte)
  | u16 (v : BitVec 16)
  | int (z : Int)
  | rat (q : Rat)
  | opmode (m : OpMode)
  /-- `Other(code)` of `getMode` (45_register_access.md R223). -/
  | other (code : BitVec 3)
  /-- `Reserved(i)` of `getBandwidth` (46_param_codecs.md R251). -/
  | reserved (i : Nat)
  | power (level : Int) (boost : Bool)
  /-- `(true, raw, cal)` of `readTemperature` (47_packet_sequencers.md R307). -/
  | temperature (raw cal : Byte)
  /-- `(false, -, -)` of `readTemperature`. -/
  | noTemperature
deriving DecidableEq, Repr

/-- Which agent of the bridge an event is of, with its position. -/
inductive Who where
  | fg (pos : Seq)
  | poller (pos : PSeq)
deriving DecidableEq, Repr

/-- What passes the ports EP_OUT, EP_IN and CB (R22), and a sleep (70_reset_and_hazards.md R395). `sent` is one `BulkOut` with its
frame and whether it answered `ok`; `taken` is one `BulkIn` with the byte it returned, if any; `enumerated` is the search for
devices with `USB_VID` and `USB_PID`. -/
inductive Event where
  | sent (who : Who) (frame : List Byte) (ok : Bool)
  | taken (who : Who) (byte : Option Byte)
  | callback
  | sleep (seconds : Rat)
  | enumerated (vid pid : BitVec 16)
deriving DecidableEq, Repr

/-- What the outside presents next: at port OP a request, at the adapter a frame, at the radio the bytes of a serial
transaction, or the POLLER's turn (log 13). -/
structure Request where
  level : Level
  bytes : List Byte
deriving DecidableEq, Repr

/-- A space of bytes (20_memory.md R60): address and byte pairs, addresses strictly rising, no pair with the byte an unlisted
address reads as. -/
abbrev Memory := List Host.Cell

/-- What an unlisted address of either space reads as: 0x00 (DESIGN CHOICE, log 7: the spec gives no power-on value, R52). -/
def Memory.blank : Byte := 0x00#8

/-- The canonical form: strictly rising addresses below the size of the space, and no listed byte equal to `Memory.blank`. -/
def Memory.wf (size : Nat) (m : Memory) : Bool :=
  decide (m.Pairwise fun x y => x.1 < y.1) && m.all fun c => decide (c.1 < size) && decide (c.2 ≠ Memory.blank)

/-- The transceiver: the register space (R40), `FIFO_MEM` (R46) and `TXN`, the bytes clocked in since chip-select fell (R51). -/
structure Radio where
  regs : Memory
  fifo : Memory
  txn : List Byte
deriving DecidableEq, Repr

/-- The whole machine. -/
structure State where
  /-- The parameters (00_scope.md R7 to R10), written by no step (R21, log 1). -/
  par : Params
  /-- `OPEN` (R28) -/
  isOpen : Bool
  /-- `HANDLE` (R29) -/
  handle : Handle
  /-- `DIR` (R24) -/
  dir : PinMask
  /-- `OUT` (R25) -/
  out : PinMask
  /-- `LSB_FIRST` (R30) -/
  lsbFirst : Bool
  /-- `IRQ_CFG` (R31) -/
  irqCfg : Bool
  /-- `CB_SET` (R32) -/
  cbSet : Bool
  /-- `IRQ_EN` (R33) -/
  irqEn : Bool
  /-- `LAST_LEVEL` (R34) -/
  lastLevel : PinLevel
  /-- `LAST_CAUSE` (R35) -/
  lastCause : Cause
  /-- `BUS_FAULT` (R35) -/
  busFault : Bool
  /-- The MODEL's own field: a bulk transaction has answered `fail` since the operation of `SEQ` started ("after `BUS_FAULT` = 1 in
  the same operation", U4; log 28). -/
  opFault : Bool
  /-- The MODEL's own field, the same for the callback's request in progress (U4; log 28). -/
  cbFault : Bool
  /-- `SEQ` (R36) -/
  seq : Seq
  /-- `PSEQ` (R36) -/
  pseq : PSeq
  /-- `W`, `n`, `R` (R26) -/
  buf : Option Buffers
  /-- What the outside presents next, port OP among it (R22, log 13). -/
  inbox : List Request
  /-- Port RES (R22, R37) -/
  res : Option Result
  /-- What has passed EP_OUT, EP_IN and CB, newest first (R22, 42_transfer.md R174). -/
  trace : List Event
  /-- `PINS_DIR` of the adapter (R49) -/
  pinsDir : PinMask
  /-- `PINS_OUT` of the adapter (R49) -/
  pinsOut : PinMask
  /-- `PINS_EXT`, the external levels last sampled (R49) -/
  pinsExt : PinMask
  /-- `IN_Q` of the adapter, oldest first (R50) -/
  inQ : List Byte
  /-- The agent RADIO (R40, R46, R51) -/
  radio : Radio
  /-- The environment's answers to come (log 4). -/
  env : Env
deriving DecidableEq, Repr

/-- Why the machine stops with a fault: never. "There is none" (60_exceptions.md R345): a failure is a result of the operation
(R330), so this type has no constructor. -/
inductive Fault where
deriving DecidableEq, Repr

/-- Why a step has no meaning. Each is safe: the machine stops. -/
inductive Refusal where
  /-- Raised by `exec` for an instruction without a meaning: none is left. Safe. -/
  | notModelled (mnemonic : String)
  /-- Raised by `step` for a frame presented to the adapter that the bridge never sends (U1: refuse). Safe. -/
  | unknownFrame
  /-- Raised by `step` for a serial transaction presented to the radio with more than one byte after the address byte (R113, U9:
  refuse). Safe. -/
  | serialShape
  /-- Raised by `step` for a request whose operand bytes encode no operands (log 12). Safe. -/
  | malformedRequest
deriving DecidableEq, Repr

/-- The state right after reset, which is the creation of the session (R52, R370): the column "after creation" of R52, with the
far end's unspecified contents as logs 7 and 8 say and the parameters as logs 2 and 3 say. -/
def State.reset : State where
  par := Params.default
  isOpen := false
  handle := .invalid
  dir := 0x00#6
  out := 0x00#6
  lsbFirst := Params.default.lsbFirstDefault
  irqCfg := false
  cbSet := false
  irqEn := false
  lastLevel := .unknown
  lastCause := .none
  busFault := false
  opFault := false
  cbFault := false
  seq := Seq.idle
  pseq := .idle
  buf := none
  inbox := []
  res := none
  trace := []
  pinsDir := 0x00#6
  pinsOut := 0x00#6
  pinsExt := 0x00#6
  inQ := []
  radio := { regs := [], fifo := [], txn := [] }
  env := { ticks := [], enums := [], clocks := [], gaps := [], drawn := 0 }

end Sys2Proof.Machine
end

