-- ==== Sys2Proof/Machine/Operands.lean ====
section
/-! DEFINITION. Operand forms and pure functions: bit reversal (42_transfer.md R165), fields (30_encoding.md R101), pin masks, the
split of multi-byte values (R102), the register classes (10_state.md R48), and the parameter codecs as functions
(46_param_codecs.md). -/

namespace Sys2Proof.Machine

/-! ### Bits and fields -/

/-- `rev8(b)[i] = b[7-i]` (R165). -/
def rev8 (b : Byte) : Byte := b.reverse

/-- The byte as the wire carries it, or an echo as the caller sees it, in the session's bit order (R104, R171). -/
def inBitOrder (lsbFirst : Bool) (b : Byte) : Byte := if lsbFirst then rev8 b else b

/-- `(1 << (hi-lo+1)) - 1`, the low bits of a field of R101. -/
def fieldOnes (hi lo : Nat) : Byte := (1#8 <<< (hi - lo + 1)) - 1#8

/-- `ins(old, hi, lo, v)` (R101). -/
def insField (old : Byte) (hi lo : Nat) (v : Byte) : Byte :=
  (old &&& ~~~(fieldOnes hi lo <<< lo)) ||| ((v &&& fieldOnes hi lo) <<< lo)

/-- `ext(old, hi, lo)` (R101). -/
def extField (old : Byte) (hi lo : Nat) : Byte := (old >>> lo) &&& fieldOnes hi lo

/-- `PIN_MASK(p) = 1 << p` (43_digital_pins.md R180). -/
def pinMask (p : Nat) : PinMask := 1#6 <<< p

/-- `clamp(x, lo, hi)` (00_scope.md R11). -/
def clamp (x lo hi : Int) : Int := if x < lo then lo else if hi < x then hi else x

/-- `round_haz(q)`: the nearest integer, ties away from zero (46_param_codecs.md R242). -/
def roundHaz (q : Rat) : Int := if 0 ≤ q then (q + 1/2).floor else -((-q + 1/2).floor)

/-! ### Register classes (10_state.md R48) -/

inductive RegClass where
  | plain
  | volatile
  | latched
  | window
deriving DecidableEq, Repr

/-- The volatile status registers; `REG_OP_MODE` is the other volatile register (R41, R46, R47). -/
def statusRegs (p : Params) : List RegAddr :=
  [p.regPktRssi, p.regPktSnr, p.regRxNbBytes, p.regFifoRxCurrent, p.regTemp]

/-- The class of a register (R41 to R48). -/
def regClass (p : Params) (a : RegAddr) : RegClass :=
  if a = p.regFifo then .window
  else if a = p.regIrqFlags then .latched
  else if a = p.regOpMode ∨ a ∈ statusRegs p then .volatile
  else .plain

/-! ### Operating mode (45_register_access.md R221, R223) -/

/-- `code(m)`. -/
def modeCode (p : Params) : OpMode → BitVec 3
  | .sleep => p.modeSleep
  | .standby => p.modeStandby
  | .transmit => p.modeTx
  | .receiveContinuous => p.modeRxContinuous
  | .receiveSingle => p.modeRxSingle

/-- The byte `setMode` writes: `MODE_LORA_BIT | code(m)`. -/
def modeByte (p : Params) (m : OpMode) : Byte := p.modeLoraBit ||| (modeCode p m).setWidth 8

/-- `getMode` of a register value: the mode with that code, or `Other(c)`. -/
def modeDec (p : Params) (v : Byte) : Result :=
  let c := v.extractLsb' 0 3
  if c = p.modeSleep then .opmode .sleep
  else if c = p.modeStandby then .opmode .standby
  else if c = p.modeTx then .opmode .transmit
  else if c = p.modeRxContinuous then .opmode .receiveContinuous
  else if c = p.modeRxSingle then .opmode .receiveSingle
  else .other c

/-! ### Codecs (46_param_codecs.md) -/

/-- `frf_enc(f)` for a frequency in MHz (R244; law 1 of R272). -/
def frfEnc (f : Rat) : Int := roundHaz (f * Config.frfPerMHz)

/-- Whether `setFrequency` takes the frequency: not negative and within the three registers (R244, R245). -/
def frfFits (f : Rat) : Bool := decide (0 ≤ f) && decide (frfEnc f ≤ 0xFFFFFF)

/-- The 24-bit frequency value of a frequency that fits. -/
def frfWord (f : Rat) : BitVec 24 := BitVec.ofNat 24 (frfEnc f).toNat

/-- `frf_dec(v) = v / 16384` MHz (R246; law 1 of R272). -/
def frfDec (v : BitVec 24) : Rat := (v.toNat : Rat) / Config.frfPerMHz

/-- `bw_idx(b)`: the least index whose table entry is at least the request, or 9 (R248; law 2 of R272). -/
def bwIdx (b : Rat) : Nat := (Config.bwTable.findIdx? fun e => decide (b ≤ e)).getD 9

/-- `getBandwidth` of an index: the table entry, or `Reserved(i)` (R251). -/
def bwDec (i : Nat) : Result :=
  match Config.bwTable[i]? with
  | some b => .rat b
  | none => .reserved i

/-- The clamped spreading factor (R253; law 4 of R272). -/
def sfClamp (sf : Int) : Int := clamp sf 6 12

/-- The stored coding rate: the clamped denominator less 4 (R257; law 4 of R272). -/
def crEnc (den : Int) : Byte := BitVec.ofInt 8 (clamp den 5 8 - 4)

/-- `pwr_enc(level, boost)` (R260; law 3 of R272). -/
def pwrEnc (level : Int) (boost : Bool) : Byte :=
  if boost then 0x80#8 ||| BitVec.ofInt 8 (clamp level 2 20 - 2) else BitVec.ofInt 8 (clamp level 0 15)

/-- `pwr_dec(v)` (R260; law 3 of R272). -/
def pwrDec (v : Byte) : Int × Bool :=
  if v.getLsbD 7 then ((extField v 4 0).toNat + 2, true) else ((extField v 4 0).toNat, false)

/-- RSSI in dBm (R264). -/
def rssiDec (v : Byte) : Int := (v.toNat : Int) - Config.rssiOffset

/-- SNR in dB: the signed byte times 1/4 (R265, R103). -/
def snrDec (v : Byte) : Rat := (v.toInt : Rat) / 4

/-- The whole seconds of a beacon interval (47_packet_sequencers.md R302). -/
def beaconSecs (intervalMs : Nat) : Nat := intervalMs / 1000

end Sys2Proof.Machine
end

