-- ==== Sys2Proof/Machine/Flags.lean ====
section
/-! DEFINITION. The status the operations leave and test: `BUS_FAULT` and `LAST_CAUSE` (10_state.md R35), the radio's IRQ Flag Set
(R44) and the edge test of the polling loop (44_interrupt_emulation.md R203). -/

namespace Sys2Proof.Machine

/-- A bulk transaction answered `fail`: `BUS_FAULT <- 1` (20_memory.md R63, R64), in the operation of `SEQ` and in the callback's
request (log 28). -/
def State.busFailed (s : State) : State := { s with busFault := true, opFault := true, cbFault := true }

/-- The IRQ flags after RADIO has set some: bits become 1, none becomes 0 (40_wire_commands.md R140 (a)). -/
def irqSet (flags set : Byte) : Byte := flags ||| set

/-- The IRQ flags after a write of `v`: every bit that is 1 in `v` is cleared (R44, 40_wire_commands.md R139). -/
def irqClear (flags v : Byte) : Byte := flags &&& ~~~v

/-- A flag read shows TX-done (47_packet_sequencers.md R292 L2). -/
def txDone (p : Params) (f : Byte) : Bool := decide (f &&& p.irqTxDone ≠ 0#8)

/-- A flag read shows RX-done (47_packet_sequencers.md R297 L2). -/
def rxDone (p : Params) (f : Byte) : Bool := decide (f ≠ 0#8) && decide (f &&& p.irqRxDone ≠ 0#8)

/-- A flag read shows a CRC error (47_packet_sequencers.md R297 L2). -/
def crcError (p : Params) (f : Byte) : Bool := decide (f &&& p.irqCrcError ≠ 0#8)

/-- The level of a sample (44_interrupt_emulation.md R203 P2). -/
def levelOf (sample : Bool) : PinLevel := if sample then .high else .low

/-- A falling edge is seen and a callback is registered (R203 P3). -/
def edgeSeen (last cur : PinLevel) (cbSet : Bool) : Bool := decide (last = .high) && decide (cur = .low) && cbSet

end Sys2Proof.Machine
end

