-- ==== Sys2Proof/Machine/Ops.lean ====
section
/-! DEFINITION. The named operations every meaning is built from: the byte spaces, the radio (40_wire_commands.md R136 to R140),
the adapter (R130 to R135), the bulk transactions (20_memory.md R63, R64), the `fail` mechanism (60_exceptions.md R330), the return
of an operation, and the checks FG's operations and a callback's share. -/

namespace Sys2Proof.Machine

/-! ### The byte spaces -/

/-- The byte at an address: the listed one, or `Memory.blank`. -/
def Memory.read : Memory → Nat → Byte
  | [], _ => Memory.blank
  | (b, v) :: m, a => if a = b then v else Memory.read m a

/-- The space with one byte replaced, in canonical form. -/
def Memory.write : Memory → Nat → Byte → Memory
  | [], a, v => if v = Memory.blank then [] else [(a, v)]
  | (b, w) :: m, a, v =>
    if a < b then (if v = Memory.blank then (b, w) :: m else (a, v) :: (b, w) :: m)
    else if a = b then (if v = Memory.blank then m else (a, v) :: m)
    else (b, w) :: Memory.write m a v

/-! ### The radio -/

/-- The content of a register as the last access or event left it (R40). -/
def Radio.reg (r : Radio) (a : RegAddr) : Byte := r.regs.read a.toNat

/-- A register set to a byte, whatever its class. -/
def Radio.setReg (r : Radio) (a : RegAddr) (v : Byte) : Radio := { r with regs := r.regs.write a.toNat v }

/-- A byte of `FIFO_MEM`. -/
def Radio.fifoByte (r : Radio) (a : Byte) : Byte := r.fifo.read a.toNat

/-- A byte of `FIFO_MEM` replaced. -/
def Radio.setFifo (r : Radio) (a v : Byte) : Radio := { r with fifo := r.fifo.write a.toNat v }

/-- An optional change of one register by RADIO. -/
def Radio.setIfSome (r : Radio) (a : RegAddr) : Option Byte → Radio
  | none => r
  | some v => r.setReg a v

/-- The FIFO bytes RADIO writes by itself, in order. -/
def Radio.fillFifo (r : Radio) : List (Byte × Byte) → Radio
  | [] => r
  | (a, v) :: l => (r.setFifo a v).fillFifo l

/-- RADIO's own steps (R140): flags set, the mode register changed, volatile status registers changed, FIFO filled. -/
def Radio.act (p : Params) (e : RadioEvent) (r : Radio) : Radio :=
  let r := if e.setFlags = 0#8 then r else r.setReg p.regIrqFlags (irqSet (r.reg p.regIrqFlags) e.setFlags)
  let r := r.setIfSome p.regOpMode e.opMode
  let r := r.setIfSome p.regPktRssi e.rssi
  let r := r.setIfSome p.regPktSnr e.snr
  let r := r.setIfSome p.regRxNbBytes e.nbBytes
  let r := r.setIfSome p.regFifoRxCurrent e.rxCurrent
  let r := r.setIfSome p.regTemp e.temp
  r.fillFifo e.fifo

/-- The FIFO pointer one further, modulo 256 (R46). -/
def Radio.advance (p : Params) (r : Radio) : Radio :=
  r.setReg p.regFifoAddrPtr (r.reg p.regFifoAddrPtr + 1#8)

/-- `RegRead(a)` by the class of the register (R138). -/
def Radio.regRead (p : Params) (a : RegAddr) (r : Radio) : Byte × Radio :=
  match regClass p a with
  | .plain | .volatile | .latched => (r.reg a, r)
  | .window => (r.fifoByte (r.reg p.regFifoAddrPtr), r.advance p)

/-- `RegWrite(a, v)` by the class of the register (R139). A write of a volatile status register leaves the free byte `junk` there
(R48, U8, log 9). -/
def Radio.regWrite (p : Params) (a : RegAddr) (v junk : Byte) (r : Radio) : Radio :=
  match regClass p a with
  | .plain => r.setReg a v
  | .volatile => r.setReg a (if a = p.regOpMode then v else junk)
  | .latched => r.setReg a (irqClear (r.reg a) v)
  | .window => (r.setFifo (r.reg p.regFifoAddrPtr) v).advance p

/-- Registers overwritten in order: part of what RADIO makes of a burst byte, which the spec does not say (U9, log 10). -/
def Radio.overwrite (r : Radio) : List (RegAddr × Byte) → Radio
  | [] => r
  | (a, v) :: l => (r.setReg a v).overwrite l

/-- `RadioClock(d)` (R136): one byte clocked while chip-select is low; the byte clocked back. -/
def Radio.clock (p : Params) (t : Tick) (d : Byte) (r : Radio) : Byte × Radio :=
  match r.txn with
  | [] => (t.echo, { r with txn := [d] })
  | [a] =>
    if a.getLsbD 7 then (t.echo, { r.regWrite p (a.extractLsb' 0 7) d t.junk with txn := [a, d] })
    else
      let vr := r.regRead p (a.extractLsb' 0 7)
      (vr.1, { vr.2 with txn := [a, d] })
  | txn => (t.echo, { (r.overwrite t.burst).fillFifo t.burstFifo with txn := txn ++ [d] })

/-! ### The adapter -/

/-- `level(p)` for all six pins: the driven level of an output, the external level of an input (R49, R129). -/
def State.levels (s : State) : PinMask := (s.pinsOut &&& s.pinsDir) ||| (s.pinsExt &&& ~~~s.pinsDir)

/-- `CS_LEVEL` is low (R51, R129). -/
def State.csLow (s : State) : Bool := !s.levels.getLsbD s.par.csPin.val

/-- A wire command as the bridge builds it and the adapter executes it. -/
inductive WireCmd where
  | pins (out dir : PinMask)
  | askPins
  | clock (data : Byte)
  | speed (value : BitVec 3)
deriving DecidableEq, Repr

/-- The instruction a wire command is. -/
def WireCmd.instr : WireCmd → Instr
  | .pins out dir => .pinSet out dir
  | .askPins => .pinGet
  | .clock d => .clkByte d
  | .speed v => .speedCfg v

/-- The frame of a wire command (30_encoding.md R91 to R94). -/
def WireCmd.frame (p : Params) (c : WireCmd) : List Byte := encode p c.instr

/-- `TXN` emptied: a serial transaction starts or ends (R51). -/
def State.dropTxn (s : State) : State := { s with radio := { s.radio with txn := [] } }

/-- The far end once the pins have changed from those of `old`: an edge of chip-select starts or ends a serial transaction (R51,
R130). -/
def State.edgeSince (s old : State) : State := if old.csLow = s.csLow then s else s.dropTxn

/-- PIN_SET at the adapter (R130): both masks replaced. -/
def adapterPins (out dir : PinMask) (s : State) : State := { s with pinsOut := out, pinsDir := dir }.edgeSince s

/-- PIN_GET at the adapter (R132): the levels in bits 5:0, bits 7:6 a draw, appended to `IN_Q`. -/
def adapterAsk (t : Tick) (s : State) : State :=
  { s with inQ := s.inQ ++ [t.echo.extractLsb' 6 2 ++ s.levels] }

/-- CLK_BYTE at the adapter and the radio (R134): the echo is appended to `IN_Q`; with chip-select high it is a draw and RADIO is
not touched. -/
def adapterClock (t : Tick) (d : Byte) (s : State) : State :=
  if s.csLow then
    let er := s.radio.clock s.par t d
    { s with radio := er.2, inQ := s.inQ ++ [er.1] }
  else { s with inQ := s.inQ ++ [t.echo] }

/-- SPEED_CFG at the adapter (R135): no state of the spec changes. -/
def adapterSpeed (_value : BitVec 3) (s : State) : State := s

/-- The adapter executes a wire command (R128). -/
def adapterRun (t : Tick) (c : WireCmd) (s : State) : State :=
  match c with
  | .pins out dir => adapterPins out dir s
  | .askPins => adapterAsk t s
  | .clock d => adapterClock t d s
  | .speed v => adapterSpeed v s

/-! ### The environment -/

/-- What the environment decides next (log 4). -/
def State.drawTick (s : State) : Tick × State :=
  match s.env.ticks with
  | t :: rest => (t, { s with env := { s.env with ticks := rest, drawn := s.env.drawn + 1 } })
  | [] => (Config.tick s.env.drawn, { s with env := { s.env with drawn := s.env.drawn + 1 } })

/-- The environment's answers to `open` (R150). -/
def State.drawEnumeration (s : State) : Enumeration × State :=
  match s.env.enums with
  | e :: rest => (e, { s with env := { s.env with enums := rest, drawn := s.env.drawn + 1 } })
  | [] => (Config.enumeration s.env.drawn, { s with env := { s.env with drawn := s.env.drawn + 1 } })

/-- The values `elapsed()` will report in a poll loop (R288). -/
def State.drawClock (s : State) : List Rat × State :=
  match s.env.clocks with
  | c :: rest => (c, { s with env := { s.env with clocks := rest, drawn := s.env.drawn + 1 } })
  | [] => (Config.clock s.env.drawn, { s with env := { s.env with drawn := s.env.drawn + 1 } })

/-- A free byte, which stands for element 0 of an empty answer (R216). -/
def State.drawLostByte (s : State) : Byte × State :=
  (Config.lostByte s.env.drawn, { s with env := { s.env with drawn := s.env.drawn + 1 } })

/-- A free list of bytes. -/
def State.drawLostBytes (s : State) : List Byte × State :=
  (Config.lostBytes s.env.drawn, { s with env := { s.env with drawn := s.env.drawn + 1 } })

/-- How many of POLLER's steps fall before an operation starts (10_state.md R20). -/
def State.drawGap (s : State) : Nat × State :=
  match s.env.gaps with
  | n :: rest => (n, { s with env := { s.env with gaps := rest, drawn := s.env.drawn + 1 } })
  | [] => (Config.gap s.env.drawn, { s with env := { s.env with drawn := s.env.drawn + 1 } })

/-- A byte, or a free one. -/
def freeIf (lost : Bool) (b : Byte) (s : State) : Byte × State := if lost then s.drawLostByte else (b, s)

/-- A byte read or to be written back: itself, or a free one after a bus fault in the same operation (U4; log 28). -/
def orFree (b : Byte) (s : State) : Byte × State := freeIf s.opFault b s

/-- The pins as the outside drives them at the moment of `t` (R49). -/
def State.pinsAt (t : Tick) (s : State) : State := { s with pinsExt := t.ext }

/-- The far end at the moment of a transaction: the pins as they are then, with the edge of chip-select that is (R51); and RADIO's
own steps since the last transaction, unless chip-select has been low all that time (R140 (e), log 18). -/
def State.arrive (t : Tick) (s : State) : State :=
  let u := (s.pinsAt t).edgeSince s
  if s.csLow && u.csLow then u else { u with radio := u.radio.act u.par t.radio }

/-- An event on a port. -/
def State.emit (e : Event) (s : State) : State := { s with trace := e :: s.trace }

/-! ### Bulk transactions -/

/-- `BulkOut` of one agent at one tick (20_memory.md R63): whether it answered `ok`. -/
def sendAt (who : Who) (c : WireCmd) (t : Tick) (s : State) : Bool × State :=
  let s := s.arrive t
  match t.answer with
  | .ok => (true, (adapterRun t c s).emit (.sent who (c.frame s.par) true))
  | .failUnchanged => (false, (s.emit (.sent who (c.frame s.par) false)).busFailed)
  | .failExecuted => (false, ((adapterRun t c s).emit (.sent who (c.frame s.par) false)).busFailed)

/-- `BulkIn(1)` of one agent at one tick (R64): the head of `IN_Q`, or `none` for `fail`, which an empty queue always is. -/
def takeAt (who : Who) (t : Tick) (s : State) : Option Byte × State :=
  let s := s.arrive t
  match t.answer, s.inQ with
  | .ok, b :: q => (some b, { s with inQ := q }.emit (.taken who (some b)))
  | .failExecuted, _ :: q => (none, ({ s with inQ := q }.emit (.taken who none)).busFailed)
  | .ok, [] | .failExecuted, [] | .failUnchanged, _ => (none, (s.emit (.taken who none)).busFailed)

/-! ### Failing, and an operation's start and return -/

/-- `fail C` (60_exceptions.md R330): the cause is recorded and nothing else of the state changes; the operation that fails then
returns its failure value. This is all the bridge has of taking an exception (R345). -/
def State.fail (c : Cause) (s : State) : State := { s with lastCause := c }

/-- The start of an operation on FG (R36): the result of the one before is gone (R37), no transaction of this one has failed. -/
def State.enter (opsel : Byte) (s : State) : State :=
  { s with res := none, opFault := false, seq := { op := some opsel, step := .none, bus := .none } }

/-- The return of an operation (R36, R37): the result on port RES, `SEQ` = `Idle`, the buffers without a value. There is no other
return (R347). -/
def State.leave (r : Result) (s : State) : State := { s with res := some r, seq := Seq.idle, buf := none }

/-- One operation from its start to its return. -/
def runOp (opsel : Byte) (body : State → Result × State) (s : State) : State :=
  let rs := body (s.enter opsel)
  rs.2.leave rs.1

/-- `SEQ` at a step of the operation's own list. -/
def State.atStep (l : Label) (s : State) : State := { s with seq := { s.seq with step := l } }

/-- `SEQ` at a step of the bus primitive. -/
def State.atBus (l : Label) (s : State) : State := { s with seq := { s.seq with bus := l } }

/-- `sleep(T)` (70_reset_and_hazards.md R395): no state of the bridge changes. -/
def State.sleepFor (seconds : Rat) (s : State) : State := s.emit (.sleep seconds)

/-! ### The shadow masks (10_state.md R24, R25) -/

/-- One bit of a mask set or cleared. -/
def putBit (pin : Nat) (high : Bool) (m : PinMask) : PinMask := if high then m ||| pinMask pin else m &&& ~~~pinMask pin

/-- The shadow mask an update reads. -/
def MaskUpdate.load (u : MaskUpdate) (s : State) : PinMask :=
  match u with
  | .out _ _ => s.out
  | .dir _ _ => s.dir

/-- The shadow mask written: the mask that had been read, with the bit of the update. -/
def MaskUpdate.store (u : MaskUpdate) (m : PinMask) (s : State) : State :=
  match u with
  | .out pin high => { s with out := putBit pin high m }
  | .dir pin output => { s with dir := putBit pin output m }

/-! ### The checks and effects without bus activity that FG's requests and a callback's share -/

/-- The checks the digital pin operations begin with (43_digital_pins.md R180): an open session, then a pin index of at most 5. -/
def pinChecks (pin : Nat) (s : State) : Option Cause :=
  if !s.isOpen then some .sessionClosed else if 5 < pin then some .invalidPin else none

/-- The checks of `pinMode` (43_digital_pins.md R185 M0 to M2). -/
def pinModeChecks (pin mode : Nat) (s : State) : Option Cause :=
  match pinChecks pin s with
  | some c => some c
  | none => if 1 < mode then some .invalidMode else none

/-- The checks of `configureInterrupt` (44_interrupt_emulation.md R196 I0, I1). -/
def configureChecks (pin : Nat) (s : State) : Option Cause :=
  if !s.isOpen then some .sessionClosed else if pin ≠ s.par.irqPin.val then some .invalidPin else none

/-- `IRQ_CFG` cleared, unless the loop runs (R196 I2). -/
def unconfigure (s : State) : Bool × State :=
  if s.irqEn then (false, s.fail .interruptActive) else (true, { s with irqCfg := false })

/-- A callback registered, unless the loop runs (R198). -/
def registerCallback (s : State) : Bool × State :=
  if s.irqEn then (false, s.fail .interruptActive) else (true, { s with cbSet := true })

/-- The loop started, unless it runs already (R200). -/
def startLoop (s : State) : Bool × State :=
  if !s.isOpen then (false, s.fail .sessionClosed)
  else if !s.irqCfg then (false, s.fail .notConfigured)
  else if !s.cbSet then (false, s.fail .notConfigured)
  else if s.irqEn then (true, s)
  else (true, { s with lastLevel := .unknown, irqEn := true })

/-- `fail BulkTransferError` recorded for a transaction that failed, nothing for one that did not. -/
def recordFailure (ok : Bool) (s : State) : State := if ok then s else s.fail .bulkTransferError

end Sys2Proof.Machine
end

