-- ==== Sys2Proof/Machine/Callback.lean ====
section
/-! DEFINITION. The callback on the bridge (44_interrupt_emulation.md R204): its requests are operations of the table, each run step by
step as its own rule gives it, so that FG's steps can fall between any two; a failure in one is an ordinary failure of that operation
(60_exceptions.md R348). -/

namespace Sys2Proof.Machine

/-! ### The steps on the bus -/

/-- One bit of a shadow mask changed and both masks sent (43_digital_pins.md R187), step by step. -/
def pinSteps (u : MaskUpdate) : List CbStep := [.loadMask u, .storeMask u, .buildFrame, .sendFrame]

/-- A byte clocked out and its echo taken, which is always before the next frame (20_memory.md R81). -/
def clockSteps (keep : Bool) (d : Byte) : List CbStep := [.clock d, .take keep]

/-- A transfer, step by step (42_transfer.md R166 T1 to T4). -/
def transferCbSteps (p : Params) (lsbFirst : Bool) (w : List Byte) (n : Nat) : List CbStep :=
  pinSteps (.out p.csPin.val false) ++ w.flatMap (fun b => clockSteps false (inBitOrder lsbFirst b)) ++
    (List.replicate n (clockSteps true Config.dummy)).flatten ++ pinSteps (.out p.csPin.val true)

/-! ### The parts of an operation -/

/-- `readRegister` of a named register (45_register_access.md R215). -/
def cbRead (a : RegAddr) : CbTask := .access [readAddrByte (a.setWidth 8)] 1

/-- `writeRegister` of a named register (R217). -/
def cbWrite (a : RegAddr) (v : Byte) : CbTask := .access [writeAddrByte (a.setWidth 8), v] 0

/-- `rmw(a, hi, lo, v)` (R219). -/
def cbRmw (a : RegAddr) (hi lo : Nat) (v : Byte) : List CbTask := [cbRead a, .insert a hi lo v]

/-- A list of register writes in order. -/
def cbWrites (l : List (RegAddr × Byte)) : List CbTask := l.map fun av => cbWrite av.1 av.2

/-- The steps of `setMode` (R221). -/
def cbMode (p : Params) (m : OpMode) : CbTask := cbWrite p.regOpMode (modeByte p m)

/-- The steps of `clearIrqFlags` (R227). -/
def cbClear (p : Params) : CbTask := cbWrite p.regIrqFlags 0xFF#8

/-- `StageFifo(data)` (47_packet_sequencers.md R289). -/
def cbStage (p : Params) (data : List Byte) : List CbTask :=
  cbWrites ([(p.regFifoAddrPtr, 0x00#8), (p.regPayloadLength, BitVec.ofNat 8 data.length)] ++ data.map fun b => (p.regFifo, b))

/-- `RestoreIQ(inv)` (R290). -/
def cbRestore (p : Params) (inv : Bool) : List CbTask := if inv then cbWrites p.iqNormal else []

/-- The end of a send or receive whose bound has passed (R291 S9, R296 V7). -/
def cbTimeout (p : Params) (inv : Bool) : List CbTask := cbRestore p inv ++ [.failWith .timeout]

/-- What follows one look at the flags, `f`, in the send poll loop (R292): step S8, step S9, or the next turn. -/
def sendNext (p : Params) (clk : List Rat) (now : Rat) (inv : Bool) (f : Byte) : List CbTask :=
  if txDone p f then [cbClear p, cbMode p .standby] ++ cbRestore p inv
  else
    match clk with
    | [] => cbTimeout p inv
    | e :: rest =>
      if Config.sendTimeout ≤ max now e then cbTimeout p inv
      else [.sleep p.pollTxInterval, cbRead p.regIrqFlags, .sendTest rest (max now e) inv]

/-- What follows a look at the flags that shows no packet in the receive poll loop (R297): step V7 or the next turn, with a sleep unless
`crc` says that a CRC error was cleared. -/
def receiveOn (p : Params) (bound : Rat) (clk : List Rat) (now : Rat) (inv crc : Bool) : List CbTask :=
  match clk with
  | [] => cbClear p :: cbTimeout p inv
  | e :: rest =>
    if bound ≤ max now e then cbClear p :: cbTimeout p inv
    else (if crc then [] else [.sleep p.pollRxInterval]) ++ [cbRead p.regIrqFlags, .receiveTest bound rest (max now e) inv]

/-- What follows one look at the flags, `f`, in the receive poll loop (R297, R298). -/
def receiveNext (p : Params) (bound : Rat) (clk : List Rat) (now : Rat) (inv : Bool) (f : Byte) : List CbTask :=
  if rxDone p f then
    if crcError p f then cbClear p :: receiveOn p bound clk now inv true else [cbRead p.regRxNbBytes, .payloadCount inv]
  else receiveOn p bound clk now inv false

/-- Step V6 from the FIFO pointer on (R296). -/
def payloadNext (p : Params) (n : Byte) (inv : Bool) (a : Byte) : List CbTask :=
  [cbWrite p.regFifoAddrPtr a] ++ List.replicate n.toNat (cbRead p.regFifo) ++ [cbClear p] ++ cbRestore p inv

/-- Steps K2 to K4 of `readTemperature` (R307) or of `calibrateTemperature` (R309), with the mode byte K1 has read. -/
def temperatureNext (p : Params) (offset : Option Byte) (prev : Byte) : List CbTask :=
  [cbWrite p.regOpMode p.tempModeByte, .sleep p.settleDelay] ++
    (match offset with
      | none => [cbRead p.regTemp, .checked, cbRead p.regTempCal, .checked, .sleep p.settleDelay]
      | some b => [cbWrite p.regTempCal b, .sleep p.settleDelay]) ++
    [.putBack p.regOpMode prev, .sleep p.settleDelay]

/-! ### The operations as requests of a callback -/

/-- The checks an operation begins with, before any bus activity, in its own order (60_exceptions.md R343). The others check nothing
first: each of their transfers checks the session itself (R334). -/
def requestCheck (i : Instr) (s : State) : Option Cause :=
  match i with
  | .digitalWrite pin _ | .digitalRead pin => pinChecks pin s
  | .pinMode pin mode => pinModeChecks pin mode s
  | .configureInterrupt pin _ => configureChecks pin s
  | .setFrequency f => if frfFits f then none else some .invalidParameter
  | .startBeacon ms => if 65535 < beaconSecs ms then some .invalidParameter else none
  | .send data _ =>
    if Config.maxPayload < data.length then some .payloadTooLong else if !s.isOpen then some .sessionClosed else none
  | .receive _ _ | .readTemperature | .calibrateTemperature _ => if !s.isOpen then some .sessionClosed else none
  | .pinSet _ _ | .pinGet | .clkByte _ | .speedCfg _ | .regRead _ | .regWrite _ _ | .openSession | .closeSession
  | .transfer _ _ | .setInterruptCallback _ | .enableInterrupt _ | .isActive | .readRegister _ | .writeRegister _ _
  | .setMode _ | .getMode | .getIrqFlags | .clearIrqFlags | .getFrequency | .setBandwidth _ | .getBandwidth
  | .setSpreadingFactor _ | .getSpreadingFactor | .setCodingRate _ | .getCodingRate | .setTxPower _ _ | .getTxPower | .getRssi
  | .getSnr | .setPreambleLength _ | .getPreambleLength | .setSyncWord _ | .getSyncWord | .setInvertIQ _ | .stopBeacon
  | .pollStep => none

/-- What an operation does without bus activity: that of the interrupt operations (44_interrupt_emulation.md R196, R198, R200). `open`
and `isActive` change nothing on the session a callback runs in. -/
def requestAct (i : Instr) (s : State) : State :=
  match i with
  | .configureInterrupt _ enable => if enable then s else (unconfigure s).2
  | .setInterruptCallback _ => (registerCallback s).2
  | .enableInterrupt en => if en then (startLoop s).2 else s
  | .pinSet _ _ | .pinGet | .clkByte _ | .speedCfg _ | .regRead _ | .regWrite _ _ | .openSession | .closeSession
  | .transfer _ _ | .digitalWrite _ _ | .digitalRead _ | .pinMode _ _ | .isActive | .readRegister _ | .writeRegister _ _
  | .setMode _ | .getMode | .getIrqFlags | .clearIrqFlags | .setFrequency _ | .getFrequency | .setBandwidth _ | .getBandwidth
  | .setSpreadingFactor _ | .getSpreadingFactor | .setCodingRate _ | .getCodingRate | .setTxPower _ _ | .getTxPower | .getRssi
  | .getSnr | .setPreambleLength _ | .getPreambleLength | .setSyncWord _ | .getSyncWord | .setInvertIQ _ | .send _ _
  | .receive _ _ | .startBeacon _ | .stopBeacon | .readTemperature | .calibrateTemperature _ | .pollStep => s

/-- The steps on the bus of the pin operations (43_digital_pins.md R181, R183, R185; 44_interrupt_emulation.md R196). -/
def requestSteps (i : Instr) : List CbStep :=
  match i with
  | .digitalWrite pin value => pinSteps (.out pin value)
  | .digitalRead _ => [.askPins, .take false]
  | .pinMode pin mode => pinSteps (.dir pin (decide (mode = 1)))
  | .configureInterrupt pin enable => if enable then pinSteps (.dir pin false) ++ [.configured] else []
  | .pinSet _ _ | .pinGet | .clkByte _ | .speedCfg _ | .regRead _ | .regWrite _ _ | .openSession | .closeSession
  | .transfer _ _ | .setInterruptCallback _ | .enableInterrupt _ | .isActive | .readRegister _ | .writeRegister _ _
  | .setMode _ | .getMode | .getIrqFlags | .clearIrqFlags | .setFrequency _ | .getFrequency | .setBandwidth _ | .getBandwidth
  | .setSpreadingFactor _ | .getSpreadingFactor | .setCodingRate _ | .getCodingRate | .setTxPower _ _ | .getTxPower | .getRssi
  | .getSnr | .setPreambleLength _ | .getPreambleLength | .setSyncWord _ | .getSyncWord | .setInvertIQ _ | .send _ _
  | .receive _ _ | .startBeacon _ | .stopBeacon | .readTemperature | .calibrateTemperature _ | .pollStep => []

/-- The transfers of an operation and the steps between them, up to the first that depends on a byte read, in the operation's own
order (45_register_access.md, 46_param_codecs.md, 47_packet_sequencers.md). -/
def requestTasks (p : Params) (elapsed : List Rat) (i : Instr) : List CbTask :=
  match i with
  | .transfer w n => [.access w n]
  | .readRegister addr => [.access [readAddrByte addr] 1]
  | .writeRegister addr v => [.access [writeAddrByte addr, v] 0]
  | .setMode m => [cbMode p m]
  | .getMode => [cbRead p.regOpMode]
  | .getIrqFlags => [cbRead p.regIrqFlags]
  | .clearIrqFlags => [cbClear p]
  | .setFrequency f =>
    cbWrites [(p.regFrfMsb, (frfWord f).extractLsb' 16 8), (p.regFrfMid, (frfWord f).extractLsb' 8 8),
      (p.regFrfLsb, (frfWord f).extractLsb' 0 8)]
  | .getFrequency => [cbRead p.regFrfMsb, cbRead p.regFrfMid, cbRead p.regFrfLsb]
  | .setBandwidth b => cbRmw p.regModemConfig1 7 4 (BitVec.ofNat 8 (bwIdx b))
  | .getBandwidth => [cbRead p.regModemConfig1]
  | .setSpreadingFactor sf =>
    cbRmw p.regModemConfig2 7 4 (BitVec.ofInt 8 (sfClamp sf)) ++
      cbWrites [(p.regDetectOpt, if sfClamp sf = 6 then p.detOptSf6 else p.detOptSf7to12),
        (p.regDetectThr, if sfClamp sf = 6 then p.detThrSf6 else p.detThrSf7to12)]
  | .getSpreadingFactor => [cbRead p.regModemConfig2]
  | .setCodingRate den => cbRmw p.regModemConfig1 3 1 (crEnc den)
  | .getCodingRate => [cbRead p.regModemConfig1]
  | .setTxPower level boost => [cbWrite p.regPaConfig (pwrEnc level boost)]
  | .getTxPower => [cbRead p.regPaConfig]
  | .getRssi => [cbRead p.regPktRssi]
  | .getSnr => [cbRead p.regPktSnr]
  | .setPreambleLength v => cbWrites [(p.regPreambleMsb, v.extractLsb' 8 8), (p.regPreambleLsb, v.extractLsb' 0 8)]
  | .getPreambleLength => [cbRead p.regPreambleMsb, cbRead p.regPreambleLsb]
  | .setSyncWord w => [cbWrite p.regSyncWord w]
  | .getSyncWord => [cbRead p.regSyncWord]
  | .setInvertIQ inv => cbWrites (p.iqWrites inv)
  | .send data inv =>
    cbWrites (p.iqWrites inv) ++ [cbWrite p.regDioMapping1 p.dioMapTxDone, cbMode p .standby] ++ cbStage p data ++
      [cbMode p .transmit, cbRead p.regIrqFlags, .sendTest elapsed 0 inv]
  | .receive bound inv =>
    cbWrites (p.iqWrites inv) ++ [cbWrite p.regDioMapping1 p.dioMapRxDone, cbMode p .receiveContinuous, cbClear p,
      cbRead p.regIrqFlags, .receiveTest bound elapsed 0 inv]
  | .startBeacon ms =>
    cbStage p p.beaconPayload ++ cbWrites [(p.regBeaconA, (p.beaconEnc.apply (beaconSecs ms)).1),
      (p.regBeaconB, (p.beaconEnc.apply (beaconSecs ms)).2), (p.regOpMode, p.modeBeacon)]
  | .stopBeacon => [cbMode p .standby]
  | .readTemperature => [cbRead p.regOpMode, .temperature none]
  | .calibrateTemperature offset => [cbRead p.regOpMode, .temperature (some offset)]
  | .pinSet _ _ | .pinGet | .clkByte _ | .speedCfg _ | .regRead _ | .regWrite _ _ | .openSession | .closeSession
  | .digitalWrite _ _ | .digitalRead _ | .pinMode _ _ | .configureInterrupt _ _ | .setInterruptCallback _ | .enableInterrupt _
  | .isActive | .pollStep => []

/-! ### A callback, step by step -/

/-- A request a callback may make: an operation, but not `close` and not `enableInterrupt(false)`, which would wait for their own
callback and which the spec tells a model to refuse (93_implementation_defined.md U11, log 6). -/
def requestAdmitted (r : CbRequest) : Bool :=
  decide (r.op.level = .operation) && decide (r.op ≠ .closeSession) && decide (r.op ≠ .enableInterrupt false)

/-- A callback before its first request. -/
def Callback.start (l : List CbRequest) : Callback :=
  { steps := [], held := 0x00#6, frameOut := 0x00#6, frameDir := 0x00#6, got := [], tasks := [],
    rest := l.filter requestAdmitted }

/-- A request begins: its checks, what it does without bus activity, and what is left of it. -/
def beginRequest (r : CbRequest) (c : Callback) (s : State) : Callback × State :=
  let s := { s with cbFault := false }
  match requestCheck r.op s with
  | some e => ({ c with steps := [], tasks := [] }, s.fail e)
  | none => ({ c with steps := requestSteps r.op, tasks := requestTasks s.par r.elapsed r.op }, requestAct r.op s)

/-- The byte `readRegister` answers the callback: the one its transfer has read, or a free one (R216; U4, logs 22 and 28). -/
def callbackByte (c : Callback) (s : State) : Byte × State :=
  match c.got with
  | v :: _ => freeIf s.cbFault v s
  | [] => s.drawLostByte

/-- More parts of the request in progress, before those that are left of it. -/
def Callback.more (l : List CbTask) (c : Callback) : Callback := { c with tasks := l ++ c.tasks }

/-- `fail C` in the request in progress (60_exceptions.md R330): the cause is recorded and the request ends, and no other (R348). -/
def callbackFail (e : Cause) (c : Callback) (s : State) : Callback × State := ({ c with tasks := [] }, s.fail e)

/-- A part of the request in progress that looks at the byte read goes on with more parts. -/
def callbackNext (next : Byte → List CbTask) (c : Callback) (s : State) : Callback × State :=
  let f := callbackByte c s
  (c.more (next f.1), f.2)

/-- A part of the request in progress begins; `c` is what is left of the callback behind it. `TemperatureFailed` needs a read that has
failed (47_packet_sequencers.md R306), `Timeout` a look at the flags that has not shown the end (R292, R297). -/
def beginTask (t : CbTask) (c : Callback) (s : State) : Callback × State :=
  match t with
  | .access w n =>
    if s.isOpen then ({ c with steps := transferCbSteps s.par s.lsbFirst w n, got := [] }, s)
    else ({ c with got := [] }, s.fail .sessionClosed)
  | .insert a hi lo v =>
    let r := callbackByte c s
    let w := freeIf r.2.cbFault (insField r.1 hi lo v) r.2
    (c.more [cbWrite a w.1], w.2)
  | .putBack a v =>
    let w := freeIf s.cbFault v s
    (c.more [cbWrite a w.1], w.2)
  | .sleep seconds => (c, s.sleepFor seconds)
  | .sendTest clk now inv => callbackNext (sendNext s.par clk now inv) c s
  | .receiveTest bound clk now inv => callbackNext (receiveNext s.par bound clk now inv) c s
  | .payloadCount inv => callbackNext (fun n => [cbRead s.par.regFifoRxCurrent, .payloadStart n inv]) c s
  | .payloadStart n inv => callbackNext (payloadNext s.par n inv) c s
  | .temperature offset =>
    if c.got = [] then callbackFail .temperatureFailed c s else callbackNext (temperatureNext s.par offset) c s
  | .checked => if c.got = [] then callbackFail .temperatureFailed c s else (c, s)
  | .failWith e => callbackFail e c s

/-- After a bulk transaction of the callback: its transfer or pin operation goes on, or a failure ends it with nothing read, and its
cause is recorded. -/
def callbackAfter (ok : Bool) (c : Callback) (s : State) : State :=
  recordFailure ok { s with pseq := .callback (if ok then c else { c with steps := [], got := [] }) }

/-- A frame of the callback. -/
def callbackSend (cmd : WireCmd) (c : Callback) (s : State) : State :=
  let ts := s.drawTick
  let r := sendAt (.poller s.pseq) cmd ts.1 ts.2
  callbackAfter r.1 c r.2

/-- The callback with a byte that a transfer of its own has read. -/
def Callback.keep (keep lsbFirst : Bool) (b : Option Byte) (c : Callback) : Callback :=
  if keep then { c with got := c.got ++ (b.map (inBitOrder lsbFirst)).toList } else c

/-- A response byte of the callback. -/
def callbackTake (keep : Bool) (c : Callback) (s : State) : State :=
  let ts := s.drawTick
  let r := takeAt (.poller s.pseq) ts.1 ts.2
  callbackAfter r.1.isSome (c.keep keep s.lsbFirst r.1) r.2

/-- One step on the bus; `c` is what is left of the callback behind it. -/
def callbackAct (a : CbStep) (c : Callback) (s : State) : State :=
  match a with
  | .loadMask u => { s with pseq := .callback { c with held := u.load s } }
  | .storeMask u => { u.store c.held s with pseq := .callback c }
  | .buildFrame => { s with pseq := .callback { c with frameOut := s.out, frameDir := s.dir } }
  | .sendFrame => callbackSend (.pins c.frameOut c.frameDir) c s
  | .clock d => callbackSend (.clock d) c s
  | .askPins => callbackSend .askPins c s
  | .take keep => callbackTake keep c s
  | .configured => { s with irqCfg := true, pseq := .callback c }

/-- One step of a running callback: on the bus, or the start of the next part of its request, or of its next request, or its end. -/
def callbackMicro (c : Callback) (s : State) : State :=
  match c.steps, c.tasks, c.rest with
  | a :: steps, _, _ => callbackAct a { c with steps := steps } s
  | [], t :: tasks, _ =>
    let b := beginTask t { c with tasks := tasks } s
    { b.2 with pseq := .callback b.1 }
  | [], [], r :: rest =>
    let b := beginRequest r { c with rest := rest } s
    { b.2 with pseq := .callback b.1 }
  | [], [], [] => { s with pseq := .store .low }

/-! ### How many steps a callback has at most -/

/-- The steps of a part of a request and of all that can follow from it, at most. -/
def CbTask.size (p : Params) : CbTask → Nat
  | .access w n => 9 + 2 * w.length + 2 * n
  | .insert _ _ _ _ | .putBack _ _ => 14
  | .sleep _ | .checked | .failWith _ => 1
  | .sendTest clk _ _ => 27 + 13 * p.iqNormal.length + 15 * clk.length
  | .receiveTest _ clk _ _ => 3370 + 13 * p.iqNormal.length + 28 * clk.length
  | .payloadCount _ => 3356 + 13 * p.iqNormal.length
  | .payloadStart n _ => 27 + 13 * p.iqNormal.length + 13 * n.toNat
  | .temperature _ => 59

/-- The steps of a list of parts, at most. -/
def tasksSize (p : Params) (l : List CbTask) : Nat := (l.map (·.size p)).sum

/-- The steps of a request, at most. -/
def requestSize (p : Params) (r : CbRequest) : Nat :=
  1 + (requestSteps r.op).length + tasksSize p (requestTasks p r.elapsed r.op)

/-- The steps of a callback, at most. -/
def Callback.size (p : Params) (c : Callback) : Nat :=
  1 + c.steps.length + tasksSize p c.tasks + (c.rest.map (requestSize p)).sum

end Sys2Proof.Machine
end

