-- ==== Sys2Proof/Machine/Poller.lean ====
section
/-! DEFINITION. POLLER (44_interrupt_emulation.md R203) at the grain of 10_state.md R20, its join (R201), and FG's bulk transactions with
POLLER's steps around them (20_memory.md R79). -/

namespace Sys2Proof.Machine

/-! ### The POLLER (44_interrupt_emulation.md R203, R204) -/

/-- P1, the read request of `digitalRead(IRQ_PIN)`: a failed one counts as a low sample. -/
def pollAsk (s : State) : State :=
  let ts := s.drawTick
  let r := sendAt (.poller s.pseq) .askPins ts.1 ts.2
  recordFailure r.1 { r.2 with pseq := if r.1 then .takeResponse else .test false }

/-- P1, the response of `digitalRead(IRQ_PIN)`: a failed one counts as a low sample. -/
def pollTake (s : State) : State :=
  let ts := s.drawTick
  let r := takeAt (.poller s.pseq) ts.1 ts.2
  match r.1 with
  | some b => { r.2 with pseq := .test (b.getLsbD s.par.irqPin.val) }
  | none => ({ r.2 with pseq := .test false }).fail .bulkTransferError

/-- P2 and P3: on a falling edge with a callback registered the event is emitted and the callback starts; what it will ask of
the bridge is drawn. -/
def pollTest (sample : Bool) (s : State) : State :=
  let cur := levelOf sample
  if edgeSeen s.lastLevel cur s.cbSet then
    let ts := s.drawTick
    { ts.2.emit .callback with pseq := .callback (Callback.start ts.1.callback) }
  else { s with pseq := .store cur }

/-- P4 and P5: the level is stored, the POLLER sleeps, and the next POLL_STEP may start. -/
def pollStore (cur : PinLevel) (s : State) : State :=
  { s with lastLevel := cur, pseq := .idle }.sleepFor s.par.pollIrqInterval

/-- One step of the POLLER (10_state.md R20). It starts a POLL_STEP only while `IRQ_EN` = 1 (R33). -/
def pollMicro (s : State) : State :=
  match s.pseq with
  | .idle => if s.irqEn then pollAsk s else s
  | .takeResponse => pollTake s
  | .test sample => pollTest sample s
  | .callback c => callbackMicro c s
  | .store cur => pollStore cur s

/-- The number of POLLER's steps the environment lets fall at one place (20_memory.md R79). -/
def pollSteps : Nat → State → State
  | 0, s => s
  | n + 1, s => pollSteps n (pollMicro s)

/-- POLLER has a step of its own (10_state.md R33). -/
def State.pollerRuns (s : State) : Bool := s.irqEn || decide (s.pseq ≠ .idle)

/-- The steps of POLLER that fall while FG is `Idle`, before its next operation starts (10_state.md R20): a POLL_STEP can be left in
progress, and a request to stop the loop then finds it so (44_interrupt_emulation.md R201). -/
def pollGap (s : State) : State :=
  if s.pollerRuns then
    let g := s.drawGap
    pollSteps g.1 g.2
  else s

/-- At most `n` steps of the running callback, not beyond its end. -/
def finishCallback : Nat → State → State
  | 0, s => s
  | n + 1, s =>
    match s.pseq with
    | .callback _ => finishCallback n (pollMicro s)
    | .idle | .takeResponse | .test _ | .store _ => s

/-- The POLL_STEP in progress runs to its end, callback included; nothing happens when none is (R201, the join). -/
def joinPoller (s : State) : State :=
  let s := if s.pseq = .takeResponse then pollMicro s else s
  let s := match s.pseq with
    | .test _ => pollMicro s
    | _ => s
  let s := match s.pseq with
    | .callback c => finishCallback (c.size s.par) s
    | _ => s
  match s.pseq with
  | .store _ => pollMicro s
  | _ => s

/-- The stop request and the join (44_interrupt_emulation.md R201; step C1 of 41_session_ops.md R155). -/
def stopPoller (s : State) : State := if s.irqEn then joinPoller { s with irqEn := false } else s

/-! ### Bulk transactions of FG, with POLLER's steps around them -/

/-- A transaction of FG with the tick it happens at, and POLLER's steps before FG goes on (10_state.md R20). -/
def thenPoll {α : Type} (t : Tick) (r : α × State) : α × State := (r.1, pollSteps t.poll.after r.2)

/-- `BulkOut` of FG with a frame that does not depend on the shadow masks (20_memory.md R63, R79). -/
def bulkOut (c : WireCmd) (s : State) : Bool × State :=
  let ts := s.drawTick
  let s := pollSteps ts.1.poll.before ts.2
  thenPoll ts.1 (sendAt (.fg s.seq) c ts.1 s)

/-- `BulkIn(1)` of FG (20_memory.md R64, R79). -/
def bulkIn (s : State) : Option Byte × State :=
  let ts := s.drawTick
  let s := pollSteps ts.1.poll.before ts.2
  thenPoll ts.1 (takeAt (.fg s.seq) ts.1 s)

/-- One bit of a shadow mask changed and the frame of both masks sent (43_digital_pins.md R187), the four acts of FG with POLLER's
steps between them: an update of POLLER's in between can be lost, and the frame can be stale (R188, 70_reset_and_hazards.md
R386). -/
def updatePins (u : MaskUpdate) (s : State) : Bool × State :=
  let ts := s.drawTick
  let s := pollSteps ts.1.poll.beforeLoad ts.2
  let m := u.load s
  let s := u.store m (pollSteps ts.1.poll.beforeStore s)
  let s := pollSteps ts.1.poll.beforeFrame s
  let c := WireCmd.pins s.out s.dir
  let s := pollSteps ts.1.poll.beforeSend s
  thenPoll ts.1 (sendAt (.fg s.seq) c ts.1 s)

/-- The PIN_SET frame of the shadow masks as they stand, where no POLLER runs (41_session_ops.md R151 O9, R155 C4). -/
def sendPins (s : State) : Bool × State := bulkOut (.pins s.out s.dir) s

/-- Step after step while each succeeds. -/
def andThen (r : Bool × State) (k : State → Bool × State) : Bool × State := if r.1 then k r.2 else r

end Sys2Proof.Machine
end

