-- ==== Sys2Proof/Machine/Pins.lean ====
section
/-! DEFINITION. The digital pin operations (43_digital_pins.md). -/

namespace Sys2Proof.Machine

/-- One bit of a shadow mask changed, the frame of both masks and `true`, or `BulkTransferError` and `false`; the shadow is not
rolled back. -/
def sendShadow (l : Label) (u : MaskUpdate) (s : State) : Bool × State :=
  let r := updatePins u (s.atBus l)
  if r.1 then (true, r.2) else (false, r.2.fail .bulkTransferError)

/-- Steps W0 to W4 (R181). -/
def digitalWriteOp (pin : Nat) (value : Bool) (s : State) : Result × State :=
  match pinChecks pin s with
  | some c => (.bool false, s.fail c)
  | none =>
    let r := sendShadow (.main 'W' 3) (.out pin value) s
    (.bool r.1, r.2)

/-- `digitalWrite` (R181). -/
def execDigitalWrite (pin : Nat) (value : Bool) (s : State) : Host.Outcome State Fault Refusal :=
  .next (runOp 0x03#8 (digitalWriteOp pin value) s)

/-- Steps G0 to G4 (R183): the queried bit of the adapter's answer; a failure reads as `false`. -/
def digitalReadOp (pin : Nat) (s : State) : Result × State :=
  match pinChecks pin s with
  | some c => (.bool false, s.fail c)
  | none =>
    let g2 := bulkOut .askPins (s.atBus (.main 'G' 2))
    if g2.1 then
      let g3 := bulkIn (g2.2.atBus (.main 'G' 3))
      match g3.1 with
      | some b => (.bool (decide (b &&& (pinMask pin).setWidth 8 ≠ 0#8)), g3.2)
      | none => (.bool false, g3.2.fail .bulkTransferError)
    else (.bool false, g2.2.fail .bulkTransferError)

/-- `digitalRead` (R183). -/
def execDigitalRead (pin : Nat) (s : State) : Host.Outcome State Fault Refusal :=
  .next (runOp 0x04#8 (digitalReadOp pin) s)

/-- Steps M3 to M5 (R185), which `configureInterrupt` runs too. -/
def setDirection (pin : Nat) (output : Bool) (s : State) : Bool × State :=
  sendShadow (.main 'M' 4) (.dir pin output) s

/-- Steps M0 to M5 (R185): `INPUT` is 0, `OUTPUT` is 1. -/
def pinModeOp (pin mode : Nat) (s : State) : Result × State :=
  match pinModeChecks pin mode s with
  | some c => (.bool false, s.fail c)
  | none =>
    let r := setDirection pin (decide (mode = 1)) s
    (.bool r.1, r.2)

/-- `pinMode` (R185). -/
def execPinMode (pin mode : Nat) (s : State) : Host.Outcome State Fault Refusal :=
  .next (runOp 0x05#8 (pinModeOp pin mode) s)

end Sys2Proof.Machine
end

