-- ==== Sys2Proof/Machine/Interrupt.lean ====
section
/-! DEFINITION. Interrupt emulation (44_interrupt_emulation.md). -/

namespace Sys2Proof.Machine

/-- Steps I0 to I3 (R196). -/
def configureInterruptOp (pin : Nat) (enable : Bool) (s : State) : Result × State :=
  match configureChecks pin s with
  | some c => (.bool false, s.fail c)
  | none =>
    if enable then
      let r := setDirection s.par.irqPin.val false (s.atStep (.main 'I' 2))
      if r.1 then (.bool true, { r.2 with irqCfg := true }) else (.bool false, r.2)
    else
      let r := unconfigure s
      (.bool r.1, r.2)

/-- `configureInterrupt` (R196). -/
def execConfigureInterrupt (pin : Nat) (enable : Bool) (s : State) : Host.Outcome State Fault Refusal :=
  .next (runOp 0x06#8 (configureInterruptOp pin enable) s)

/-- The steps of R198; the callback itself is never inspected. -/
def setInterruptCallbackOp (_fn : Nat) (s : State) : Result × State :=
  let r := registerCallback s
  (.bool r.1, r.2)

/-- `setInterruptCallback` (R198). -/
def execSetInterruptCallback (fn : Nat) (s : State) : Host.Outcome State Fault Refusal :=
  .next (runOp 0x07#8 (setInterruptCallbackOp fn) s)

/-- The steps of R200 and, to disable, of R201: the stop request, then the join. `IRQ_EN` stays as the join left it: a callback the
join waited for may have started the loop again. -/
def enableInterruptOp (en : Bool) (s : State) : Result × State :=
  if en then
    let r := startLoop s
    (.bool r.1, r.2)
  else if s.irqEn then (.bool true, { stopPoller s with lastLevel := .unknown })
  else (.bool true, s)

/-- `enableInterrupt` (R200, R201). -/
def execEnableInterrupt (en : Bool) (s : State) : Host.Outcome State Fault Refusal :=
  .next (runOp 0x08#8 (enableInterruptOp en) s)

/-- A whole POLL_STEP (R203): one started if `IRQ_EN` = 1, or the one in progress, run to its end. POLLER has no step otherwise
(R33, log 19). -/
def pollStepRun (s : State) : State :=
  joinPoller (if s.pseq = .idle then pollMicro s else s)

/-- POLL_STEP (R203). -/
def execPollStep (s : State) : Host.Outcome State Fault Refusal := .next (pollStepRun s)

end Sys2Proof.Machine
end

