-- ==== Sys2Proof/Machine/Transfer.lean ====
section
/-! DEFINITION. The transfer operation (42_transfer.md R166 to R172). -/

namespace Sys2Proof.Machine

/-- One round trip (R168): a clock frame and its echo, `none` if either transaction failed. `num` is the step, 2 or 3, and `i`
the index in its loop. -/
def roundTrip (num i : Nat) (d : Byte) (s : State) : Option Byte × State :=
  let o := bulkOut (.clock d) (s.atBus (.round 'T' num i .sending))
  if o.1 then bulkIn (o.2.atBus (.round 'T' num i .taking)) else (none, o.2)

/-- T2: each byte of `W` clocked out in the session's bit order, its echo discarded. -/
def writePhase : List Byte → Nat → State → Bool × State
  | [], _, s => (true, s)
  | b :: w, i, s =>
    let r := roundTrip 2 i (inBitOrder s.lsbFirst b) s
    match r.1 with
    | some _ => writePhase w (i + 1) r.2
    | none => (false, r.2)

/-- The echo is added to the buffer `R`. -/
def State.keepEcho (e : Byte) (s : State) : State :=
  { s with buf := s.buf.map fun b => { b with r := b.r ++ [e] } }

/-- T3: dummy bytes clocked out, each echo kept in the session's bit order. -/
def readPhase : Nat → Nat → State → Bool × State
  | 0, _, s => (true, s)
  | k + 1, j, s =>
    let r := roundTrip 3 j Config.dummy s
    match r.1 with
    | some e => readPhase k (j + 1) (r.2.keepEcho (inBitOrder r.2.lsbFirst e))
    | none => (false, r.2)

/-- T1 and T4: the chip-select bit of `OUT` changed and the full shadow state sent (R167). -/
def chipSelect (high : Bool) (s : State) : Bool × State :=
  updatePins (.out s.par.csPin.val high) (s.atBus (.main 'T' (if high then 4 else 1)))

/-- The buffers get their values at T0 and T3 (R26). -/
def State.startBuffers (w : List Byte) (n : Nat) (s : State) : State := { s with buf := some { w := w, n := n, r := [] } }

/-- The buffers lose their values when the transfer ends. -/
def State.dropBuffers (s : State) : State := { s with buf := none, seq := { s.seq with bus := .none } }

/-- The bytes read so far. -/
def State.echoesKept (s : State) : List Byte :=
  match s.buf with
  | some b => b.r
  | none => []

/-- Steps T1 to T4 in strict order, stopping at the first transaction that fails (R166, R169). -/
def transferSteps (w : List Byte) (n : Nat) (s : State) : Bool × State :=
  andThen (chipSelect false s) fun s =>
  andThen (writePhase w 0 s) fun s =>
  andThen (readPhase n 0 s) fun s =>
  chipSelect true s

/-- `transfer(W, n)` (R166): the bytes read, or the empty list for every failure. -/
def transferBytes (w : List Byte) (n : Nat) (s : State) : List Byte × State :=
  if s.isOpen then
    let r := transferSteps w n (s.startBuffers w n)
    if r.1 then (r.2.echoesKept, r.2.dropBuffers) else ([], (r.2.fail .bulkTransferError).dropBuffers)
  else ([], s.fail .sessionClosed)

/-- `transfer` as a request. -/
def execTransfer (w : List Byte) (n : Nat) (s : State) : Host.Outcome State Fault Refusal :=
  .next (runOp 0x02#8 (fun s => let r := transferBytes w n s; (.bytes r.1, r.2)) s)

end Sys2Proof.Machine
end

