-- ==== Sys2Proof/Machine/Registers.lean ====
section
/-! DEFINITION. Register access (45_register_access.md): the two primitives, the read-modify-write helper, and the accessors of the
operating mode and the IRQ flags. -/

namespace Sys2Proof.Machine

/-- `readRegister(addr) = transfer([addr & 0x7F], 1)[0]` (R215); after a failed transfer, and after any bus fault of the same
operation, the byte is a free value (R216; U4, logs 22 and 28). -/
def readAt (addr : Byte) (s : State) : Byte × State :=
  let r := transferBytes [readAddrByte addr] 1 s
  match r.1 with
  | v :: _ => orFree v r.2
  | [] => r.2.drawLostByte

/-- `writeRegister(addr, value) = transfer([addr | 0x80, value], 0)`, its result ignored (R217). -/
def writeAt (addr value : Byte) (s : State) : State := (transferBytes [writeAddrByte addr, value] 0 s).2

/-- A read of a named register at a step of an operation. -/
def readReg (l : Label) (a : RegAddr) (s : State) : Byte × State := readAt (a.setWidth 8) (s.atStep l)

/-- A write of a named register at a step of an operation. -/
def writeReg (l : Label) (a : RegAddr) (v : Byte) (s : State) : State := writeAt (a.setWidth 8) v (s.atStep l)

/-- A list of writes in order, all at one step (`SetIQ`, 46_param_codecs.md R270). -/
def writeAll (l : Label) : List (RegAddr × Byte) → State → State
  | [], s => s
  | (a, v) :: rest, s => writeAll l rest (writeReg l a v s)

/-- A byte computed from a register and written back: after a bus fault of the same operation the whole byte is a free value (R216,
R219; U4, log 28). -/
def writeBack (l : Label) (a : RegAddr) (v : Byte) (s : State) : State :=
  let w := orFree v s
  writeReg l a w.1 w.2

/-- `rmw(addr, hi, lo, v)` (R219): after a failed read the whole byte written back is a free value (log 28). -/
def rmw (a : RegAddr) (hi lo : Nat) (v : Byte) (s : State) : State :=
  let r := readReg (.access 1) a s
  writeBack (.access 2) a (insField r.1 hi lo v) r.2

/-- The steps of `setMode(m)` (R221): the whole byte is written. -/
def putMode (l : Label) (m : OpMode) (s : State) : State := writeReg l s.par.regOpMode (modeByte s.par m) s

/-- The steps of `clearIrqFlags` (R227). -/
def clearFlags (l : Label) (s : State) : State := writeReg l s.par.regIrqFlags 0xFF#8 s

/-- `readRegister` (R215). -/
def execReadRegister (addr : Byte) (s : State) : Host.Outcome State Fault Refusal :=
  .next (runOp 0x10#8 (fun s => let r := readAt addr s; (.byte r.1, r.2)) s)

/-- `writeRegister` (R217). -/
def execWriteRegister (addr value : Byte) (s : State) : Host.Outcome State Fault Refusal :=
  .next (runOp 0x11#8 (fun s => (.unit, writeAt addr value s)) s)

/-- `setMode` (R221). -/
def execSetMode (m : OpMode) (s : State) : Host.Outcome State Fault Refusal :=
  .next (runOp 0x12#8 (fun s => (.unit, putMode (.access 1) m s)) s)

/-- `getMode` (R223). -/
def execGetMode (s : State) : Host.Outcome State Fault Refusal :=
  .next (runOp 0x13#8 (fun s => let r := readReg (.access 1) s.par.regOpMode s; (modeDec s.par r.1, r.2)) s)

/-- `getIrqFlags` (R225). -/
def execGetIrqFlags (s : State) : Host.Outcome State Fault Refusal :=
  .next (runOp 0x14#8 (fun s => let r := readReg (.access 1) s.par.regIrqFlags s; (.byte r.1, r.2)) s)

/-- `clearIrqFlags` (R227). -/
def execClearIrqFlags (s : State) : Host.Outcome State Fault Refusal :=
  .next (runOp 0x15#8 (fun s => (.unit, clearFlags (.access 1) s)) s)

end Sys2Proof.Machine
end

