-- ==== Sys2Proof/Machine/Codecs.lean ====
section
/-! DEFINITION. The parameter codecs as operations (46_param_codecs.md R244 to R270): the pure functions of Operands applied
through register reads and writes. -/

namespace Sys2Proof.Machine

/-- The steps of R245: most significant byte first; a frequency that does not fit is refused before any transfer. -/
def setFrequencyOp (f : Rat) (s : State) : Result × State :=
  if frfFits f then
    let v := frfWord f
    let s := writeReg (.access 1) s.par.regFrfMsb (v.extractLsb' 16 8) s
    let s := writeReg (.access 2) s.par.regFrfMid (v.extractLsb' 8 8) s
    (.unit, writeReg (.access 3) s.par.regFrfLsb (v.extractLsb' 0 8) s)
  else (.unit, s.fail .invalidParameter)

/-- `setFrequency` (R245). -/
def execSetFrequency (f : Rat) (s : State) : Host.Outcome State Fault Refusal := .next (runOp 0x20#8 (setFrequencyOp f) s)

/-- The steps of R247; after a bus fault in any of them the result is free (R216, log 28). -/
def getFrequencyOp (s : State) : Result × State :=
  let m := readReg (.access 1) s.par.regFrfMsb s
  let d := readReg (.access 2) m.2.par.regFrfMid m.2
  let l := readReg (.access 3) d.2.par.regFrfLsb d.2
  let d' := orFree d.1 l.2
  let m' := orFree m.1 d'.2
  (.rat (frfDec (m'.1 ++ d'.1 ++ l.1)), m'.2)

/-- `getFrequency` (R247). -/
def execGetFrequency (s : State) : Host.Outcome State Fault Refusal := .next (runOp 0x21#8 getFrequencyOp s)

/-- `setBandwidth` (R249). -/
def execSetBandwidth (b : Rat) (s : State) : Host.Outcome State Fault Refusal :=
  .next (runOp 0x22#8 (fun s => (.unit, rmw s.par.regModemConfig1 7 4 (BitVec.ofNat 8 (bwIdx b)) s)) s)

/-- The steps of R251. -/
def getBandwidthOp (s : State) : Result × State :=
  let r := readReg (.access 1) s.par.regModemConfig1 s
  (bwDec (extField r.1 7 4).toNat, r.2)

/-- `getBandwidth` (R251). -/
def execGetBandwidth (s : State) : Host.Outcome State Fault Refusal := .next (runOp 0x23#8 getBandwidthOp s)

/-- The steps of R253: the nibble, then the detection pair, at every call. -/
def setSpreadingFactorOp (sf : Int) (s : State) : Result × State :=
  let v := sfClamp sf
  let s := rmw s.par.regModemConfig2 7 4 (BitVec.ofInt 8 v) s
  let s := writeReg (.access 3) s.par.regDetectOpt (if v = 6 then s.par.detOptSf6 else s.par.detOptSf7to12) s
  (.unit, writeReg (.access 4) s.par.regDetectThr (if v = 6 then s.par.detThrSf6 else s.par.detThrSf7to12) s)

/-- `setSpreadingFactor` (R253). -/
def execSetSpreadingFactor (sf : Int) (s : State) : Host.Outcome State Fault Refusal :=
  .next (runOp 0x24#8 (setSpreadingFactorOp sf) s)

/-- The steps of R255: the raw nibble. -/
def getSpreadingFactorOp (s : State) : Result × State :=
  let r := readReg (.access 1) s.par.regModemConfig2 s
  (.int (extField r.1 7 4).toNat, r.2)

/-- `getSpreadingFactor` (R255). -/
def execGetSpreadingFactor (s : State) : Host.Outcome State Fault Refusal := .next (runOp 0x25#8 getSpreadingFactorOp s)

/-- `setCodingRate` (R257). -/
def execSetCodingRate (den : Int) (s : State) : Host.Outcome State Fault Refusal :=
  .next (runOp 0x26#8 (fun s => (.unit, rmw s.par.regModemConfig1 3 1 (crEnc den) s)) s)

/-- The steps of R259: the field plus 4, without a clamp. -/
def getCodingRateOp (s : State) : Result × State :=
  let r := readReg (.access 1) s.par.regModemConfig1 s
  (.int ((extField r.1 3 1).toNat + 4), r.2)

/-- `getCodingRate` (R259). -/
def execGetCodingRate (s : State) : Host.Outcome State Fault Refusal := .next (runOp 0x27#8 getCodingRateOp s)

/-- `setTxPower` (R261). -/
def execSetTxPower (level : Int) (boost : Bool) (s : State) : Host.Outcome State Fault Refusal :=
  .next (runOp 0x28#8 (fun s => (.unit, writeReg (.access 1) s.par.regPaConfig (pwrEnc level boost) s)) s)

/-- The steps of R263. -/
def getTxPowerOp (s : State) : Result × State :=
  let r := readReg (.access 1) s.par.regPaConfig s
  (.power (pwrDec r.1).1 (pwrDec r.1).2, r.2)

/-- `getTxPower` (R263). -/
def execGetTxPower (s : State) : Host.Outcome State Fault Refusal := .next (runOp 0x29#8 getTxPowerOp s)

/-- The steps of R264. -/
def getRssiOp (s : State) : Result × State :=
  let r := readReg (.access 1) s.par.regPktRssi s
  (.int (rssiDec r.1), r.2)

/-- `getRssi` (R264). -/
def execGetRssi (s : State) : Host.Outcome State Fault Refusal := .next (runOp 0x2A#8 getRssiOp s)

/-- The steps of R265. -/
def getSnrOp (s : State) : Result × State :=
  let r := readReg (.access 1) s.par.regPktSnr s
  (.rat (snrDec r.1), r.2)

/-- `getSnr` (R265). -/
def execGetSnr (s : State) : Host.Outcome State Fault Refusal := .next (runOp 0x2B#8 getSnrOp s)

/-- The steps of R266: most significant byte first. -/
def setPreambleLengthOp (p : BitVec 16) (s : State) : Result × State :=
  let s := writeReg (.access 1) s.par.regPreambleMsb (p.extractLsb' 8 8) s
  (.unit, writeReg (.access 2) s.par.regPreambleLsb (p.extractLsb' 0 8) s)

/-- `setPreambleLength` (R266). -/
def execSetPreambleLength (p : BitVec 16) (s : State) : Host.Outcome State Fault Refusal :=
  .next (runOp 0x2C#8 (setPreambleLengthOp p) s)

/-- The steps of R267; after a bus fault in either of them the result is free (R216, log 28). -/
def getPreambleLengthOp (s : State) : Result × State :=
  let m := readReg (.access 1) s.par.regPreambleMsb s
  let l := readReg (.access 2) m.2.par.regPreambleLsb m.2
  let m' := orFree m.1 l.2
  (.u16 (m'.1 ++ l.1), m'.2)

/-- `getPreambleLength` (R267). -/
def execGetPreambleLength (s : State) : Host.Outcome State Fault Refusal := .next (runOp 0x2D#8 getPreambleLengthOp s)

/-- `setSyncWord` (R268). -/
def execSetSyncWord (w : Byte) (s : State) : Host.Outcome State Fault Refusal :=
  .next (runOp 0x2E#8 (fun s => (.unit, writeReg (.access 1) s.par.regSyncWord w s)) s)

/-- `getSyncWord` (R269). -/
def execGetSyncWord (s : State) : Host.Outcome State Fault Refusal :=
  .next (runOp 0x2F#8 (fun s => let r := readReg (.access 1) s.par.regSyncWord s; (.byte r.1, r.2)) s)

/-- `SetIQ(inv)` (R270): the writes of `IQ_WRITES(inv)` in list order. -/
def setIQ (l : Label) (inv : Bool) (s : State) : State := writeAll l (s.par.iqWrites inv) s

/-- `setInvertIQ` (R270). -/
def execSetInvertIQ (inv : Bool) (s : State) : Host.Outcome State Fault Refusal :=
  .next (runOp 0x30#8 (fun s => (.unit, setIQ (.access 1) inv s)) s)

end Sys2Proof.Machine
end

