-- ==== Sys2Proof/Machine/Packet.lean ====
section
/-! DEFINITION. The packet sequencers (47_packet_sequencers.md): send, receive, beacon, temperature. -/

namespace Sys2Proof.Machine

/-- Each payload byte written to the FIFO register, one transfer a byte. -/
def fillFifo (l : Label) : List Byte → State → State
  | [], s => s
  | b :: data, s => fillFifo l data (writeReg l s.par.regFifo b s)

/-- `StageFifo(data)` (R289): pointer, length, bytes. -/
def stageFifo (l : Label) (data : List Byte) (s : State) : State :=
  let s := writeReg l s.par.regFifoAddrPtr 0x00#8 s
  let s := writeReg l s.par.regPayloadLength (BitVec.ofNat 8 data.length) s
  fillFifo l data s

/-- `RestoreIQ(inv)` (R290): normal polarity written only if it had been inverted. -/
def restoreIQ (l : Label) (inv : Bool) (s : State) : State := if inv then setIQ l false s else s

/-- How a poll loop is left. -/
inductive PollExit where
  | done
  | timedOut
deriving DecidableEq, Repr

/-- The send poll loop (R292). `clk` holds the values `elapsed()` will report, `now` the last one; a test past the end of `clk`
is past every bound (R288, log 5). The flag test comes before the time test. -/
def sendPoll : List Rat → Rat → State → PollExit × State
  | [], _, s =>
    let f := readReg (.main 'L' 1) s.par.regIrqFlags s
    (if txDone f.2.par f.1 then .done else .timedOut, f.2)
  | e :: rest, now, s =>
    let f := readReg (.main 'L' 1) s.par.regIrqFlags s
    if txDone f.2.par f.1 then (.done, f.2)
    else if Config.sendTimeout ≤ max now e then (.timedOut, f.2)
    else sendPoll rest (max now e) (f.2.sleepFor f.2.par.pollTxInterval)

/-- Steps S2 to S6 (R291). -/
def sendSetup (data : List Byte) (invertIQ : Bool) (s : State) : State :=
  let s := setIQ (.main 'S' 2) invertIQ s
  let s := writeReg (.main 'S' 3) s.par.regDioMapping1 s.par.dioMapTxDone s
  let s := putMode (.main 'S' 4) .standby s
  let s := stageFifo (.main 'S' 5) data s
  putMode (.main 'S' 6) .transmit s

/-- Steps S0 to S9 (R291). -/
def sendOp (data : List Byte) (invertIQ : Bool) (s : State) : Result × State :=
  if Config.maxPayload < data.length then (.bool false, s.fail .payloadTooLong)
  else if !s.isOpen then (.bool false, s.fail .sessionClosed)
  else
    let cs := (sendSetup data invertIQ s).drawClock
    let x := sendPoll cs.1 0 cs.2
    match x.1 with
    | .done =>
      let s := clearFlags (.main 'S' 8) x.2
      let s := putMode (.main 'S' 8) .standby s
      (.bool true, restoreIQ (.main 'S' 8) invertIQ s)
    | .timedOut => (.bool false, (restoreIQ (.main 'S' 9) invertIQ x.2).fail .timeout)

/-- `send` (R291). -/
def execSend (data : List Byte) (invertIQ : Bool) (s : State) : Host.Outcome State Fault Refusal :=
  .next (runOp 0x40#8 (sendOp data invertIQ) s)

/-- What one look at the flags shows the receive poll loop (R297 L2, R298). -/
inductive Look where
  | packet
  | crcError
  | nothing
deriving DecidableEq, Repr

/-- L1 and L2 of the receive poll loop (R297, R298): RX-done without CRC error is a packet; with CRC error the flags are cleared;
anything else is no packet yet. -/
def receiveLook (s : State) : Look × State :=
  let f := readReg (.main 'L' 1) s.par.regIrqFlags s
  if rxDone f.2.par f.1 then
    if crcError f.2.par f.1 then (.crcError, clearFlags (.main 'L' 2) f.2) else (.packet, f.2)
  else (.nothing, f.2)

/-- The receive poll loop (R297): a packet ends it, after a CRC error polling goes on without a sleep, after nothing it sleeps; the
flag test comes before the time test. `clk` and `now` are those of the send poll loop. -/
def receivePoll (bound : Rat) : List Rat → Rat → State → PollExit × State
  | [], _, s =>
    let x := receiveLook s
    (if x.1 = .packet then .done else .timedOut, x.2)
  | e :: rest, now, s =>
    let x := receiveLook s
    if x.1 = .packet then (.done, x.2)
    else if bound ≤ max now e then (.timedOut, x.2)
    else receivePoll bound rest (max now e) (if x.1 = .crcError then x.2 else x.2.sleepFor x.2.par.pollRxInterval)

/-- V6: the FIFO register read `n` times, in order. -/
def drainFifo (l : Label) : Nat → State → List Byte × State
  | 0, s => ([], s)
  | n + 1, s =>
    let r := readReg l s.par.regFifo s
    let t := drainFifo l n r.2
    (r.1 :: t.1, t.2)

/-- Steps V1 to V4 (R296). -/
def receiveSetup (invertIQ : Bool) (s : State) : State :=
  let s := setIQ (.main 'V' 1) invertIQ s
  let s := writeReg (.main 'V' 2) s.par.regDioMapping1 s.par.dioMapRxDone s
  let s := putMode (.main 'V' 3) .receiveContinuous s
  clearFlags (.main 'V' 4) s

/-- What `receive` delivers of the bytes it has read: these, or after a bus fault a free list (R296 V6, 70_reset_and_hazards.md R383;
U4, log 29). -/
def deliverPayload (l : List Byte) (s : State) : Result × State :=
  if s.opFault then
    let x := s.drawLostBytes
    (.bytes x.1, x.2)
  else (.bytes l, s)

/-- Step V6 (R296). -/
def receivePayload (invertIQ : Bool) (s : State) : Result × State :=
  let l := Label.main 'V' 6
  let n := readReg l s.par.regRxNbBytes s
  let a := readReg l n.2.par.regFifoRxCurrent n.2
  let s := writeReg l a.2.par.regFifoAddrPtr a.1 a.2
  let p := drainFifo l n.1.toNat s
  deliverPayload p.1 (restoreIQ l invertIQ (clearFlags l p.2))

/-- Steps V0 to V7 (R296). -/
def receiveOp (timeoutSeconds : Rat) (invertIQ : Bool) (s : State) : Result × State :=
  if !s.isOpen then (.bytes [], s.fail .sessionClosed)
  else
    let cs := (receiveSetup invertIQ s).drawClock
    let x := receivePoll timeoutSeconds cs.1 0 cs.2
    match x.1 with
    | .done => receivePayload invertIQ x.2
    | .timedOut =>
      let l := Label.main 'V' 7
      (.bytes [], (restoreIQ l invertIQ (clearFlags l x.2)).fail .timeout)

/-- `receive` (R296). -/
def execReceive (timeoutSeconds : Rat) (invertIQ : Bool) (s : State) : Host.Outcome State Fault Refusal :=
  .next (runOp 0x41#8 (receiveOp timeoutSeconds invertIQ) s)

/-- Steps B0 to B4 (R302). -/
def startBeaconOp (intervalMs : Nat) (s : State) : Result × State :=
  let secs := beaconSecs intervalMs
  if 65535 < secs then (.unit, s.fail .invalidParameter)
  else
    let s := stageFifo (.main 'B' 2) s.par.beaconPayload s
    let s := writeReg (.main 'B' 3) s.par.regBeaconA (s.par.beaconEnc.apply secs).1 s
    let s := writeReg (.main 'B' 3) s.par.regBeaconB (s.par.beaconEnc.apply secs).2 s
    (.unit, writeReg (.main 'B' 4) s.par.regOpMode s.par.modeBeacon s)

/-- `startBeacon` (R302). -/
def execStartBeacon (intervalMs : Nat) (s : State) : Host.Outcome State Fault Refusal :=
  .next (runOp 0x42#8 (startBeaconOp intervalMs) s)

/-- `stopBeacon` (R304): Standby is forced and nothing else undone. -/
def execStopBeacon (s : State) : Host.Outcome State Fault Refusal :=
  .next (runOp 0x43#8 (fun s => (.unit, putMode (.access 1) .standby s)) s)

/-- `rdchk(a)` (R306): a register read whose failure is seen; after a bus fault that was not seen (a write's) the byte is free
(U4, log 28). -/
def readChecked (l : Label) (a : RegAddr) (s : State) : Option Byte × State :=
  let r := transferBytes [readAddrByte (a.setWidth 8)] 1 (s.atStep l)
  match r.1 with
  | v :: _ =>
    let w := orFree v r.2
    (some w.1, w.2)
  | [] => (none, r.2)

/-- Step K2 (R307, R309): the alternate mode entered. -/
def enterTempMode (s : State) : State :=
  let s := writeReg (.main 'K' 2) s.par.regOpMode s.par.tempModeByte s
  s.sleepFor s.par.settleDelay

/-- Step K4 (R307, R309): the prior mode byte written back. -/
def leaveTempMode (prev : Byte) (s : State) : State :=
  let s := writeBack (.main 'K' 4) s.par.regOpMode prev s
  s.sleepFor s.par.settleDelay

/-- Steps K0 to K5 (R307): a read that fails ends the sequence where it is; after a failed write, which nothing reports, the two
bytes are free (R216, log 28). -/
def readTemperatureOp (s : State) : Result × State :=
  if !s.isOpen then (.noTemperature, s.fail .sessionClosed)
  else
    let k1 := readChecked (.main 'K' 1) s.par.regOpMode s
    match k1.1 with
    | none => (.noTemperature, k1.2.fail .temperatureFailed)
    | some prev =>
      let s := enterTempMode k1.2
      let raw := readChecked (.main 'K' 3) s.par.regTemp s
      match raw.1 with
      | none => (.noTemperature, raw.2.fail .temperatureFailed)
      | some rawByte =>
        let cal := readChecked (.main 'K' 3) raw.2.par.regTempCal raw.2
        match cal.1 with
        | none => (.noTemperature, cal.2.fail .temperatureFailed)
        | some calByte =>
          let s := cal.2.sleepFor cal.2.par.settleDelay
          let s := leaveTempMode prev s
          let cal' := orFree calByte s
          let raw' := orFree rawByte cal'.2
          (.temperature raw'.1 cal'.1, raw'.2)

/-- `readTemperature` (R307). -/
def execReadTemperature (s : State) : Host.Outcome State Fault Refusal := .next (runOp 0x44#8 readTemperatureOp s)

/-- Steps K0 to K5 (R309). -/
def calibrateTemperatureOp (offset : Byte) (s : State) : Result × State :=
  if !s.isOpen then (.bool false, s.fail .sessionClosed)
  else
    let k1 := readChecked (.main 'K' 1) s.par.regOpMode s
    match k1.1 with
    | none => (.bool false, k1.2.fail .temperatureFailed)
    | some prev =>
      let s := enterTempMode k1.2
      let s := writeReg (.main 'K' 3) s.par.regTempCal offset s
      (.bool true, leaveTempMode prev (s.sleepFor s.par.settleDelay))

/-- `calibrateTemperature` (R309). -/
def execCalibrateTemperature (offset : Byte) (s : State) : Host.Outcome State Fault Refusal :=
  .next (runOp 0x45#8 (calibrateTemperatureOp offset) s)

end Sys2Proof.Machine
end

