-- ==== Sys2Proof/Machine/Session.lean ====
section
/-! DEFINITION. The session operations (41_session_ops.md): open, close, isActive. -/

namespace Sys2Proof.Machine

/-- Step O6 (R151): the session open, provisionally, so that frames may be sent. -/
def State.openedProvisionally (s : State) : State := { s with handle := .valid, isOpen := true }

/-- Step O8 (R151): every pin an output, chip-select high. -/
def State.openMasks (s : State) : State := { s with dir := Config.dirOpen, out := pinMask s.par.csPin.val }

/-- `CB_SET` after a failed open: R151 gives every session register but two its creation value, R32 lets nothing clear this one and
the pseudocode does not write it: as before or cleared, which is free (log 20). -/
def State.callbackDoubt (s : State) : State := { s with cbSet := s.cbSet && Config.keepsCallback s.env.drawn }

/-- Step O10 (R151): the session closed again after a bulk failure. -/
def openUndo (s : State) : State :=
  ({ s with handle := .invalid, isOpen := false, dir := 0x00#6, out := 0x00#6 }.fail .bulkTransferError).callbackDoubt

/-- The end of a successful open: no cause (R151), and no serial transaction (10_state.md R52, the row `TXN`). -/
def State.openedWell (s : State) : State := { s with lastCause := .none }.dropTxn

/-- Steps O6 to O10 (R151): the speed frame, the shadow masks, the pin frame; a failure undoes all of it. -/
def openBus (s : State) : Result × State :=
  let s := s.openedProvisionally
  let o7 := bulkOut (.speed s.par.speedValue) (s.atBus (.main 'O' 7))
  if o7.1 then
    let o9 := sendPins (o7.2.openMasks.atBus (.main 'O' 9))
    if o9.1 then (.bool true, o9.2.openedWell) else (.bool false, openUndo o9.2)
  else (.bool false, openUndo o7.2)

/-- Steps O1 to O5 (R151, R152): why the environment's answers do not let the session open, the first in this order. -/
def openRefused (p : Params) (e : Enumeration) : Option Cause :=
  if e.found = 0 then some .noDeviceFound
  else if e.found ≤ p.devIndex then some .indexOutOfRange
  else if !e.openOk then some .usbOpenFailed
  else if !e.configOk then some .usbConfigFailed
  else if !e.claimOk then some .interfaceClaimFailed
  else none

/-- Steps O0 to O5 (R151, R153): the environment asked, its answers tested in order. -/
def openOp (s : State) : Result × State :=
  if s.isOpen then (.bool true, s)
  else
    let es := s.drawEnumeration
    let s := es.2.emit (.enumerated s.par.usbVid s.par.usbPid)
    match openRefused s.par es.1 with
    | some c => (.bool false, (s.fail c).callbackDoubt)
    | none => openBus s

/-- `open` (R151). -/
def execOpen (s : State) : Host.Outcome State Fault Refusal := .next (runOp 0x00#8 openOp s)

/-- Steps C2 and C3 (R155); `IRQ_EN` is 0 after close (10_state.md R52) also where a callback has set it during the join
(log 6). -/
def State.closeMasks (s : State) : State :=
  { s with irqCfg := false, irqEn := false, lastLevel := .unknown, dir := 0x00#6, out := 0x00#6 }

/-- Steps C5 and C6 (R155); no serial transaction is left (10_state.md R52, the row `TXN`). -/
def State.dropHandle (s : State) : State := { s with handle := .invalid, isOpen := false }.dropTxn

/-- Steps C0 to C6 (R155): the POLLER is stopped before the last frame is sent and the handle closed; the frame's answer is
ignored. -/
def closeOp (s : State) : Result × State :=
  if s.isOpen then (.unit, (sendPins ((stopPoller s).closeMasks.atBus (.main 'C' 4))).2.dropHandle) else (.unit, s)

/-- `close` (R155). -/
def execClose (s : State) : Host.Outcome State Fault Refusal := .next (runOp 0x01#8 closeOp s)

/-- `isActive` (R157): the session register, nothing sent. -/
def execIsActive (s : State) : Host.Outcome State Fault Refusal := .next (runOp 0x09#8 (fun s => (.bool s.isOpen, s)) s)

end Sys2Proof.Machine
end

