-- ==== Sys2Proof/Machine/Wire.lean ====
section
/-! DEFINITION. The wire commands and the serial transactions as the far end executes them (40_wire_commands.md): a frame that has
reached the adapter (R128), the bytes of one serial transaction at the radio (R138, R139). Nothing of the bridge's own session
changes. -/

namespace Sys2Proof.Machine

/-- A frame reaches the adapter: the environment's answers for the moment are drawn and the command is executed (R128, log 11). -/
def deliver (c : WireCmd) (s : State) : State :=
  let ts := s.drawTick
  adapterRun ts.1 c (ts.2.arrive ts.1)

/-- PIN_SET (R130). -/
def execPinSet (out dir : PinMask) (s : State) : Host.Outcome State Fault Refusal := .next (deliver (.pins out dir) s)

/-- PIN_GET (R132). -/
def execPinGet (s : State) : Host.Outcome State Fault Refusal := .next (deliver .askPins s)

/-- CLK_BYTE (R134). -/
def execClkByte (data : Byte) (s : State) : Host.Outcome State Fault Refusal := .next (deliver (.clock data) s)

/-- SPEED_CFG (R135). -/
def execSpeedCfg (value : BitVec 3) (s : State) : Host.Outcome State Fault Refusal := .next (deliver (.speed value) s)

/-- The bytes of one serial transaction clocked at the radio (R136), RADIO's own steps falling before the first and not between
them (R140 (e)): the bytes clocked back. -/
def clockBytes : List Byte → State → List Byte × State
  | [], s => ([], s)
  | d :: rest, s =>
    let ts := s.drawTick
    let s := ts.2.pinsAt ts.1
    let r := if s.radio.txn = [] then s.radio.act s.par ts.1.radio else s.radio
    let e := r.clock s.par ts.1 d
    let x := clockBytes rest { s with radio := e.2 }
    (e.1 :: x.1, x.2)

/-- One serial transaction at the radio, chip-select falling before it and rising after it: the bytes clocked back are the result
(R136, log 11). -/
def serialTransaction (bytes : List Byte) (s : State) : State :=
  let x := clockBytes bytes s.dropTxn
  { x.2.dropTxn with res := some (.bytes x.1) }

/-- REG_READ (R138): the second byte clocked back is the register's value. -/
def execRegRead (addr : RegAddr) (s : State) : Host.Outcome State Fault Refusal :=
  .next (serialTransaction [readAddrByte (addr.setWidth 8), Config.dummy] s)

/-- REG_WRITE (R139): both bytes clocked back are without meaning. -/
def execRegWrite (addr : RegAddr) (value : Byte) (s : State) : Host.Outcome State Fault Refusal :=
  .next (serialTransaction [writeAddrByte (addr.setWidth 8), value] s)

end Sys2Proof.Machine
end

