-- ==== Sys2Proof/Machine/Dispatch.lean ====
section
/-! DEFINITION. One arm per instruction: which definition gives it its meaning. -/

namespace Sys2Proof.Machine

def exec (i : Instr) (s : State) : Host.Outcome State Fault Refusal :=
  match i with
  | .pinSet out dir => Sys2Proof.Machine.execPinSet out dir s
  | .pinGet => Sys2Proof.Machine.execPinGet s
  | .clkByte data => Sys2Proof.Machine.execClkByte data s
  | .speedCfg value => Sys2Proof.Machine.execSpeedCfg value s
  | .regRead addr => Sys2Proof.Machine.execRegRead addr s
  | .regWrite addr value => Sys2Proof.Machine.execRegWrite addr value s
  | .openSession => Sys2Proof.Machine.execOpen s
  | .closeSession => Sys2Proof.Machine.execClose s
  | .transfer w n => Sys2Proof.Machine.execTransfer w n s
  | .digitalWrite pin value => Sys2Proof.Machine.execDigitalWrite pin value s
  | .digitalRead pin => Sys2Proof.Machine.execDigitalRead pin s
  | .pinMode pin mode => Sys2Proof.Machine.execPinMode pin mode s
  | .configureInterrupt pin enable => Sys2Proof.Machine.execConfigureInterrupt pin enable s
  | .setInterruptCallback fn => Sys2Proof.Machine.execSetInterruptCallback fn s
  | .enableInterrupt en => Sys2Proof.Machine.execEnableInterrupt en s
  | .isActive => Sys2Proof.Machine.execIsActive s
  | .readRegister addr => Sys2Proof.Machine.execReadRegister addr s
  | .writeRegister addr value => Sys2Proof.Machine.execWriteRegister addr value s
  | .setMode m => Sys2Proof.Machine.execSetMode m s
  | .getMode => Sys2Proof.Machine.execGetMode s
  | .getIrqFlags => Sys2Proof.Machine.execGetIrqFlags s
  | .clearIrqFlags => Sys2Proof.Machine.execClearIrqFlags s
  | .setFrequency fMHz => Sys2Proof.Machine.execSetFrequency fMHz s
  | .getFrequency => Sys2Proof.Machine.execGetFrequency s
  | .setBandwidth bkHz => Sys2Proof.Machine.execSetBandwidth bkHz s
  | .getBandwidth => Sys2Proof.Machine.execGetBandwidth s
  | .setSpreadingFactor sf => Sys2Proof.Machine.execSetSpreadingFactor sf s
  | .getSpreadingFactor => Sys2Proof.Machine.execGetSpreadingFactor s
  | .setCodingRate den => Sys2Proof.Machine.execSetCodingRate den s
  | .getCodingRate => Sys2Proof.Machine.execGetCodingRate s
  | .setTxPower level boost => Sys2Proof.Machine.execSetTxPower level boost s
  | .getTxPower => Sys2Proof.Machine.execGetTxPower s
  | .getRssi => Sys2Proof.Machine.execGetRssi s
  | .getSnr => Sys2Proof.Machine.execGetSnr s
  | .setPreambleLength p => Sys2Proof.Machine.execSetPreambleLength p s
  | .getPreambleLength => Sys2Proof.Machine.execGetPreambleLength s
  | .setSyncWord w => Sys2Proof.Machine.execSetSyncWord w s
  | .getSyncWord => Sys2Proof.Machine.execGetSyncWord s
  | .setInvertIQ inv => Sys2Proof.Machine.execSetInvertIQ inv s
  | .send data invertIQ => Sys2Proof.Machine.execSend data invertIQ s
  | .receive timeoutSeconds invertIQ => Sys2Proof.Machine.execReceive timeoutSeconds invertIQ s
  | .startBeacon intervalMs => Sys2Proof.Machine.execStartBeacon intervalMs s
  | .stopBeacon => Sys2Proof.Machine.execStopBeacon s
  | .readTemperature => Sys2Proof.Machine.execReadTemperature s
  | .calibrateTemperature offset => Sys2Proof.Machine.execCalibrateTemperature offset s
  | .pollStep => Sys2Proof.Machine.execPollStep s

end Sys2Proof.Machine
end

