-- ==== Sys2Proof/Machine/Fetch.lean ====
section
/-! DEFINITION. What arrives next and how a byte list that is no instruction is answered (10_state.md R22, 30_encoding.md R109,
R110). The bridge fetches no instruction from a store (20_memory.md R83): requests arrive (log 13). -/

namespace Sys2Proof.Machine

/-- The next arrival taken off the inbox. -/
def State.taken (rest : List Request) (s : State) : State := { s with inbox := rest }

/-- POLLER's steps while FG is `Idle`, before the operation a request starts (10_state.md R20). The rows of the far end and POLL_STEP
are no operations of FG. -/
def beforeStart (i : Instr) (s : State) : State := if i.level = .operation then pollGap s else s

/-- The instruction an arrival is. -/
def State.decodeRequest (s : State) (r : Request) : Except DecodeError Instr := decode s.par r.level r.bytes

/-- A byte list that is no instruction: a request with an unlisted select code leaves every other part of the state as it is
(R110); a serial transaction that ends before its data byte accesses no register (40_wire_commands.md R136); anything else is
refused by name (U1, U9, log 12). -/
def rejected (e : DecodeError) (s : State) : Host.Outcome State Fault Refusal :=
  match e with
  | .illegalSelect => .next s
  | .noAccess bytes => .next (serialTransaction bytes s)
  | .unknownFrame => .refused .unknownFrame
  | .serialShape => .refused .serialShape
  | .noRequest | .badOperands | .agentBytes => .refused .malformedRequest

/-- An opcode-table word as an arrival. -/
def requestOfWord (p : Params) (nbits w : Nat) : Request :=
  { level := (tablePlace p nbits w).1, bytes := (tablePlace p nbits w).2 }

/-- A word put first among the arrivals. -/
def State.presentWord (s : State) (nbits w : Nat) : State :=
  { s with inbox := requestOfWord s.par nbits w :: s.inbox }

end Sys2Proof.Machine
end

