-- ==== Sys2Proof/Machine/Step.lean ====
section
/-! DEFINITION. One step of the machine (10_state.md R20, R22): the next arrival is decoded and run, after POLLER's steps that fall
before it starts; with none, POLLER makes one step of its own while it exists (47_packet_sequencers.md R311), and otherwise the
bridge waits in `Idle` (70_reset_and_hazards.md R373, log 13). -/

namespace Sys2Proof.Machine

def step (s : State) : Host.Outcome State Fault Refusal :=
  match s.inbox with
  | [] => .next (pollMicro s)
  | r :: rest =>
    match s.decodeRequest r with
    | .ok i => exec i (beforeStart i (s.taken rest))
    | .error e => rejected e (s.taken rest)

/-- The state with an opcode-table word as the next arrival. -/
def State.withFetchWord (s : State) (nbits w : Nat) : State := s.presentWord nbits w

end Sys2Proof.Machine
end

