-- ==== Sys2Proof/Safety.lean ====
section
/-! DEFINITION. The terms claims are stated in: the invariant of every state between operations, the serialised session
(20_memory.md R79), the state a fault-free session keeps between operations (42_transfer.md R173), what the environment does
during the next bulk transactions, and what an operation leaves unchanged. -/

namespace Sys2Proof.Machine

/-- What holds of the machine whenever no operation runs (10_state.md R52 and the rules it is read from). Every step keeps it. -/
structure State.Inv (s : State) : Prop where
  /-- `SEQ` is `Idle` between operations (R36). -/
  seqIdle : s.seq = Seq.idle
  /-- The buffers have no value between operations (R26). -/
  noBuffers : s.buf = none
  /-- `HANDLE` is valid exactly when `OPEN` = 1 (R29). -/
  handleValid : s.handle = .valid ↔ s.isOpen = true
  /-- The polling loop exists only in an open session with a configured pin and a callback (44_interrupt_emulation.md R200). -/
  pollerNeeds : s.irqEn = true → s.isOpen = true ∧ s.irqCfg = true ∧ s.cbSet = true
  /-- Without the loop POLLER is `Idle` and no level is remembered (R33, R34, 44_interrupt_emulation.md R201). -/
  pollerIdle : s.irqEn = false → s.pseq = .idle ∧ s.lastLevel = .unknown
  /-- A closed session has the register values of R52. -/
  closedRegs : s.isOpen = false → s.dir = 0x00#6 ∧ s.out = 0x00#6 ∧ s.irqCfg = false
  /-- The register space is in canonical form within its 128 addresses (R40). -/
  regsWf : s.radio.regs.wf 128 = true
  /-- `FIFO_MEM` is in canonical form within its 256 addresses (R46). -/
  fifoWf : s.radio.fifo.wf 256 = true

/-- No polling loop and no POLL_STEP in progress: POLLER has no step (10_state.md R33). -/
def State.LoopOff (s : State) : Prop := s.irqEn = false ∧ s.pseq = .idle

/-- The next `n` bulk transactions are those of a serialised session (20_memory.md R79): FG starts while `PSEQ` = `Idle`, and no step
of POLLER falls among them, whether or not a polling loop exists. -/
def State.Serialised (n : Nat) (s : State) : Prop :=
  s.pseq = .idle ∧ (s.irqEn = true → ∀ t ∈ s.env.ticks.take n, t.poll = PollOrder.none)

/-- The next `n` bulk transactions are those of a serialised session and answer `ok`. -/
structure State.Answers (n : Nat) (s : State) : Prop where
  serialised : s.Serialised n
  given : n ≤ s.env.ticks.length
  ok : ∀ t ∈ s.env.ticks.take n, t.answer = .ok

/-- What a fault-free session keeps between operations (42_transfer.md R173), with parameters that meet R10, the bit order the radio
itself has (20_memory.md R66) and byte spaces in canonical form. -/
structure State.Ready (s : State) : Prop where
  params : s.par.Ok
  isOpen : s.isOpen = true
  msbFirst : s.lsbFirst = false
  csHigh : s.out.getLsbD s.par.csPin.val = true
  csOutput : s.dir.getLsbD s.par.csPin.val = true
  latchOut : s.pinsOut = s.out
  latchDir : s.pinsDir = s.dir
  inQEmpty : s.inQ = []
  txnEmpty : s.radio.txn = []
  regsWf : s.radio.regs.wf 128 = true
  fifoWf : s.radio.fifo.wf 256 = true

/-- RADIO does nothing by itself during the next `n` bulk transactions. -/
def State.RadioStill (n : Nat) (s : State) : Prop := ∀ t ∈ s.env.ticks.take n, t.radio = RadioEvent.nothing

/-- The content of a radio register. -/
def State.reg (s : State) (a : RegAddr) : Byte := s.radio.reg a

/-- A byte of `FIFO_MEM`. -/
def State.fifoAt (s : State) (a : Byte) : Byte := s.radio.fifoByte a

/-- Every register of the session and of the POLLER is as before, and no arrival was taken. -/
structure SameSession (s t : State) : Prop where
  par : t.par = s.par
  isOpen : t.isOpen = s.isOpen
  handle : t.handle = s.handle
  dir : t.dir = s.dir
  out : t.out = s.out
  lsbFirst : t.lsbFirst = s.lsbFirst
  irqCfg : t.irqCfg = s.irqCfg
  cbSet : t.cbSet = s.cbSet
  irqEn : t.irqEn = s.irqEn
  lastLevel : t.lastLevel = s.lastLevel
  lastCause : t.lastCause = s.lastCause
  busFault : t.busFault = s.busFault
  pseq : t.pseq = s.pseq
  inbox : t.inbox = s.inbox

/-- The whole far end and every register of the session but `LAST_CAUSE` is as before, and nothing passed the endpoints. -/
structure NothingSent (s t : State) : Prop where
  par : t.par = s.par
  isOpen : t.isOpen = s.isOpen
  handle : t.handle = s.handle
  dir : t.dir = s.dir
  out : t.out = s.out
  lsbFirst : t.lsbFirst = s.lsbFirst
  irqCfg : t.irqCfg = s.irqCfg
  cbSet : t.cbSet = s.cbSet
  irqEn : t.irqEn = s.irqEn
  lastLevel : t.lastLevel = s.lastLevel
  busFault : t.busFault = s.busFault
  pseq : t.pseq = s.pseq
  inbox : t.inbox = s.inbox
  trace : t.trace = s.trace
  pinsDir : t.pinsDir = s.pinsDir
  pinsOut : t.pinsOut = s.pinsOut
  pinsExt : t.pinsExt = s.pinsExt
  inQ : t.inQ = s.inQ
  radio : t.radio = s.radio

/-- One line of a wire trace (30_encoding.md R116): `> frame`, `< byte`, `!> frame` and `!<`. -/
inductive WireLine where
  | out (frame : List Byte)
  | back (byte : Byte)
  | outFailed (frame : List Byte)
  | backFailed
deriving DecidableEq, Repr

/-- The line of a wire trace an event is. -/
def Event.line : Event → Option WireLine
  | .sent _ f true => some (.out f)
  | .sent _ f false => some (.outFailed f)
  | .taken _ (some b) => some (.back b)
  | .taken _ none => some .backFailed
  | .callback | .sleep _ | .enumerated _ _ => none

/-- The wire trace so far, oldest line first (42_transfer.md R174). -/
def State.wireLog (s : State) : List WireLine := s.trace.reverse.filterMap Event.line

/-- The frame of a PIN_SET command (30_encoding.md R91). -/
def pinFrame (p : Params) (out dir : PinMask) : List Byte := [p.opPinStream, p.subOut ++ out, p.subDir ++ dir, p.endMark]

/-- The frame of a PIN_GET command (R92). -/
def askFrame (p : Params) : List Byte := [p.opPinStream, p.subIn, p.endMark]

/-- The frame of a CLK_BYTE command (R93). -/
def clockFrame (p : Params) (data : Byte) : List Byte := [p.opClkStream, data]

/-- The frames that have gone out, oldest first. -/
def State.framesSent (s : State) : List (List Byte) :=
  s.wireLog.filterMap fun l => match l with
    | .out f => some f
    | .back _ | .outFailed _ | .backFailed => none

/-- One register access: a serial transaction of 30_encoding.md R96 or R97. -/
inductive RegAccess where
  | read (a : RegAddr)
  | write (a : RegAddr) (v : Byte)
deriving DecidableEq, Repr

/-- The two bytes clocked out: the address byte with its write flag (R95), then `DUMMY` or the value. -/
def RegAccess.bytes : RegAccess → Byte × Byte
  | .read a => ((0#1 ++ a : BitVec 8), 0xFF#8)
  | .write a v => ((1#1 ++ a : BitVec 8), v)

/-- The four frames of a register access on a ready session: chip-select low, the two bytes, chip-select high (42_transfer.md
R166). -/
def RegAccess.frames (s : State) (x : RegAccess) : List (List Byte) :=
  [pinFrame s.par (s.out &&& ~~~pinMask s.par.csPin.val) s.dir, clockFrame s.par x.bytes.1, clockFrame s.par x.bytes.2,
    pinFrame s.par s.out s.dir]

/-- An operation made of the register accesses listed, six bulk transactions each, ran to its return on a ready session: it sent
their frames in this order and used their answers, no transaction failed, the session and the adapter's latch are as before, no
echo is left and no serial transaction is open. -/
structure Completed (accesses : List RegAccess) (s t : State) : Prop where
  session : SameSession s t
  noFault : t.opFault = false
  latchOut : t.pinsOut = s.pinsOut
  latchDir : t.pinsDir = s.pinsDir
  inQ : t.inQ = []
  txn : t.radio.txn = []
  seq : t.seq = Seq.idle
  buf : t.buf = none
  ticks : t.env.ticks = s.env.ticks.drop (6 * accesses.length)
  frames : t.framesSent = s.framesSent ++ accesses.flatMap (·.frames s)

/-- The radio but for the registers in `written` and the FIFO bytes in `staged`: a plain register is as before
(40_wire_commands.md R140 (d)); no IRQ flag that was set is cleared (R140 (a)); and if RADIO did nothing by itself in the `n`
transactions, every other register and every other FIFO byte is as before. -/
structure RadioFrame (n : Nat) (written : List RegAddr) (staged : List Byte) (s t : State) : Prop where
  plain : ∀ a, regClass s.par a = .plain → a ∉ written → t.reg a = s.reg a
  latched : s.par.regIrqFlags ∉ written → s.reg s.par.regIrqFlags &&& ~~~t.reg s.par.regIrqFlags = 0#8
  regs : s.RadioStill n → ∀ a, a ∉ written → t.reg a = s.reg a
  fifo : s.RadioStill n → ∀ a, a ∉ staged → t.fifoAt a = s.fifoAt a

/-- The bridge's own state is as before: every register of the session, POLLER's, FG's position, the ports. -/
structure BridgeUntouched (s t : State) : Prop extends SameSession s t where
  seq : t.seq = s.seq
  buf : t.buf = s.buf
  res : t.res = s.res
  trace : t.trace = s.trace
  opFault : t.opFault = s.opFault

/-- Parameters that meet R10 and byte spaces in canonical form: what every statement about the radio's contents needs. -/
structure State.Sound (s : State) : Prop where
  params : s.par.Ok
  regsWf : s.radio.regs.wf 128 = true
  fifoWf : s.radio.fifo.wf 256 = true

/-- Both lists of IQ writes name only the two IQ polarity registers, as the defaults do (10_state.md R47: "IQ polarity; written
only through `IQ_WRITES`"). -/
def State.IqOnly (s : State) : Prop :=
  ∀ inv, ∀ av ∈ s.par.iqWrites inv, av.1 = s.par.regInvertIq ∨ av.1 = s.par.regInvertIq2

/-- `TXN` once the pins are as they are at `t`: an edge of chip-select has emptied it (10_state.md R51). -/
def State.txnAt (t : Tick) (s : State) : List Byte := if s.csLow = (s.pinsAt t).csLow then s.radio.txn else []

/-- `TXN` once the pins are as they are at `t1` and then at `t2`. -/
def State.txnAfter (t1 t2 : Tick) (s : State) : List Byte :=
  if (s.pinsAt t1).csLow = (s.pinsAt t2).csLow then s.txnAt t1 else []

/-- An operation that needs an open session, with operands for which it does not answer something else first (60_exceptions.md
R333, R334): a payload `send` takes, a frequency and an interval that fit, a list of IQ writes that is not empty. -/
def needsOpen (p : Params) : Instr → Bool
  | .transfer _ _ | .digitalWrite _ _ | .digitalRead _ | .pinMode _ _ | .configureInterrupt _ _ | .readRegister _
  | .writeRegister _ _ | .setMode _ | .getMode | .getIrqFlags | .clearIrqFlags | .getFrequency | .setBandwidth _
  | .getBandwidth | .setSpreadingFactor _ | .getSpreadingFactor | .setCodingRate _ | .getCodingRate | .setTxPower _ _
  | .getTxPower | .getRssi | .getSnr | .setPreambleLength _ | .getPreambleLength | .setSyncWord _ | .getSyncWord
  | .receive _ _ | .stopBeacon | .readTemperature | .calibrateTemperature _ => true
  | .enableInterrupt en => en
  | .setFrequency f => decide (0 ≤ f) && decide (frfEnc f ≤ 0xFFFFFF)
  | .setInvertIQ inv => decide (p.iqWrites inv ≠ [])
  | .send data _ => decide (data.length ≤ 255)
  | .startBeacon ms => decide (ms / 1000 ≤ 65535)
  | .pinSet _ _ | .pinGet | .clkByte _ | .speedCfg _ | .regRead _ | .regWrite _ _ | .openSession | .closeSession
  | .setInterruptCallback _ | .isActive | .pollStep => false

/-- What such an operation then answers, where the spec says it: a getter's and `readRegister`'s value is open (45_register_access.md
R216). -/
def closedAnswer : Instr → Option Result
  | .transfer _ _ | .receive _ _ => some (.bytes [])
  | .digitalWrite _ _ | .digitalRead _ | .pinMode _ _ | .configureInterrupt _ _ | .enableInterrupt _ | .send _ _
  | .calibrateTemperature _ => some (.bool false)
  | .readTemperature => some .noTemperature
  | .writeRegister _ _ | .setMode _ | .clearIrqFlags | .setFrequency _ | .setBandwidth _ | .setSpreadingFactor _
  | .setCodingRate _ | .setTxPower _ _ | .setPreambleLength _ | .setSyncWord _ | .setInvertIQ _ | .startBeacon _
  | .stopBeacon => some .unit
  | .pinSet _ _ | .pinGet | .clkByte _ | .speedCfg _ | .regRead _ | .regWrite _ _ | .openSession | .closeSession
  | .setInterruptCallback _ | .isActive | .readRegister _ | .getMode | .getIrqFlags | .getFrequency | .getBandwidth
  | .getSpreadingFactor | .getCodingRate | .getTxPower | .getRssi | .getSnr | .getPreambleLength | .getSyncWord
  | .pollStep => none

/-- Every IQ register a list of writes names holds the last byte the list gives for it (46_param_codecs.md R270). -/
def State.IqWritten (ws : List (RegAddr × Byte)) (s : State) : Prop :=
  ∀ a ∈ ws.map Prod.fst, ws.reverse.lookup a = some (s.reg a)

/-- What both ends of `send` leave at the radio, but for the mode and the flags (47_packet_sequencers.md R289, R291): the payload at
the start of the FIFO, its length, the pointer past it, the DIO mapping, normal IQ polarity, and nothing else changed. -/
structure Staged (data : List Byte) (s t : State) : Prop where
  length : t.reg s.par.regPayloadLength = BitVec.ofNat 8 data.length
  pointer : t.reg s.par.regFifoAddrPtr = BitVec.ofNat 8 data.length
  payload : ∀ j b, data[j]? = some b → t.fifoAt (BitVec.ofNat 8 j) = b
  otherFifo : ∀ a, data.length ≤ a.toNat → t.fifoAt a = s.fifoAt a
  mapping : t.reg s.par.regDioMapping1 = s.par.dioMapTxDone
  polarity : t.IqWritten s.par.iqNormal
  others : ∀ a, a ∉ [s.par.regOpMode, s.par.regIrqFlags, s.par.regPayloadLength, s.par.regFifoAddrPtr, s.par.regDioMapping1,
    s.par.regInvertIq, s.par.regInvertIq2] → t.reg a = s.reg a

/-- What both ends of `receive` leave at the radio, but for the FIFO pointer, the volatile status registers and the FIFO
(47_packet_sequencers.md R296): the mode, no flag set, the DIO mapping, normal IQ polarity, and nothing else changed. -/
structure Received (s t : State) : Prop where
  mode : t.reg s.par.regOpMode = s.par.modeLoraBit ||| s.par.modeRxContinuous.setWidth 8
  flags : t.reg s.par.regIrqFlags = 0x00#8
  mapping : t.reg s.par.regDioMapping1 = s.par.dioMapRxDone
  polarity : t.IqWritten s.par.iqNormal
  others : ∀ a, a ∉ [s.par.regOpMode, s.par.regIrqFlags, s.par.regFifoAddrPtr, s.par.regDioMapping1, s.par.regInvertIq,
    s.par.regInvertIq2] → a ∉ statusRegs s.par → t.reg a = s.reg a

/-- A list of register writes, in order. -/
def writesOf (l : List (RegAddr × Byte)) : List RegAccess := l.map fun av => .write av.1 av.2

/-- The accesses of `StageFifo(data)`, in order (47_packet_sequencers.md R289). -/
def stageAccesses (p : Params) (data : List Byte) : List RegAccess :=
  [.write p.regFifoAddrPtr 0x00#8, .write p.regPayloadLength (BitVec.ofNat 8 data.length)] ++ data.map (.write p.regFifo ·)

/-- The accesses `send` makes before its first look at the flags, in order (47_packet_sequencers.md R291 S2 to S6). -/
def sendSetupAccesses (p : Params) (data : List Byte) (inv : Bool) : List RegAccess :=
  writesOf (p.iqWrites inv) ++ [.write p.regDioMapping1 p.dioMapTxDone,
    .write p.regOpMode (p.modeLoraBit ||| p.modeStandby.setWidth 8)] ++ stageAccesses p data ++
    [.write p.regOpMode (p.modeLoraBit ||| p.modeTx.setWidth 8)]

/-- The accesses `receive` makes before its first look at the flags, in order (47_packet_sequencers.md R296 V1 to V4). -/
def receiveSetupAccesses (p : Params) (inv : Bool) : List RegAccess :=
  writesOf (p.iqWrites inv) ++ [.write p.regDioMapping1 p.dioMapRxDone,
    .write p.regOpMode (p.modeLoraBit ||| p.modeRxContinuous.setWidth 8), .write p.regIrqFlags 0xFF#8]

/-- The accesses `receive` makes for a packet of `n` bytes that starts at `a`, in order (47_packet_sequencers.md R296 V6). -/
def payloadAccesses (p : Params) (n : Nat) (a : Byte) : List RegAccess :=
  [.read p.regRxNbBytes, .read p.regFifoRxCurrent, .write p.regFifoAddrPtr a] ++ List.replicate n (.read p.regFifo) ++
    [.write p.regIrqFlags 0xFF#8]

/-- The accesses of `RestoreIQ(inv)` (47_packet_sequencers.md R290). -/
def restoreAccesses (p : Params) (inv : Bool) : List RegAccess := if inv then writesOf p.iqNormal else []

/-- RADIO acts by itself only before the bulk transactions listed, counted from the next one, among the next `n`. -/
def State.RadioActs (n : Nat) (acts : List (Nat × RadioEvent)) (s : State) : Prop :=
  ∀ i tk, i < n → s.env.ticks[i]? = some tk → tk.radio = (acts.lookup i).getD RadioEvent.nothing

/-- During the next `m` of the next `n` bulk transactions RADIO by itself only sets flags, none of those in `never`, and during the
rest nothing. -/
def State.RadioSets (m n : Nat) (never : Byte) (s : State) : Prop :=
  ∀ i tk, i < n → s.env.ticks[i]? = some tk → tk.radio = RadioEvent.nothing ∨
    i < m ∧ ∃ f, f &&& never = 0#8 ∧ tk.radio = { RadioEvent.nothing with setFlags := f }

/-- An event of POLLER: its bulk transactions and the callback events. -/
def Event.byPoller : Event → Bool
  | .sent (.poller _) _ _ | .taken (.poller _) _ | .callback => true
  | .sent (.fg _) _ _ | .taken (.fg _) _ | .sleep _ | .enumerated _ _ => false

/-- A bulk transaction that answered `fail`. -/
def Event.failed : Event → Bool
  | .sent _ _ ok => !ok
  | .taken _ b => b.isNone
  | .callback | .sleep _ | .enumerated _ _ => false

/-- `BUS_FAULT` is 1 exactly when a bulk transaction has answered `fail` (10_state.md R35). -/
def State.FaultsShown (s : State) : Prop := s.busFault = s.trace.any Event.failed

/-- How many callback events port `CB` has carried. -/
def State.callbacks (s : State) : Nat := s.trace.count .callback

/-- None of the requests asks for the polling loop. -/
abbrev NoLoopAsked (l : List CbRequest) : Prop := ∀ r ∈ l, r.op ≠ .enableInterrupt true

/-- Nothing lets a callback start the loop again during a join (44_interrupt_emulation.md R201, R204): neither a callback in progress
nor one the join may still emit, which the next two answers decide, asks for it. -/
def State.NoRestart (s : State) : Prop :=
  (∀ c, s.pseq = .callback c → NoLoopAsked c.rest) ∧ 2 ≤ s.env.ticks.length ∧ ∀ t ∈ s.env.ticks.take 2, NoLoopAsked t.callback

end Sys2Proof.Machine
end

