-- ==== Sys2Proof/Certificates/Slice0/Obligations.lean ====
section
/-! DEFINITION. The statements about this model, one `Prop` each, in the order of the instruction levels: encoding, the machine as
a whole, the far end, then the operations file by file. The spec's rules each rests on stand in OBLIGATIONS.json. -/

open Sys2Proof Sys2Proof.Machine

/-! ### Encoding (30_encoding.md) -/

/-- Decode and encode agree: every well-formed instruction, with every operand at every value, is what its own bytes decode to at
its own level. The operand bytes of a request are the model's own (log 12). -/
def Obligations.DecodeEncode : Prop :=
  ∀ (p : Params) (i : Instr), p.Ok → i.wellFormed = true → decode p i.level (encode p i) = .ok i

/-- A frame at the adapter has one meaning and each meaning one byte list: what it decodes to encodes back to it. A serial
transaction at the radio likewise, but for the byte clocked in the data phase of a read, which RADIO ignores (R136). -/
def Obligations.FramesHaveOneMeaning : Prop :=
  ∀ (p : Params) (bs : List Byte) (i : Instr),
    (decodeWire p bs = .ok i → i.level = .wire ∧ encode p i = bs) ∧
    (decodeSerial bs = .ok i → i.level = .serial ∧
      (encode p i = bs ∨ ∃ (a : RegAddr) (x : Byte), i = .regRead a ∧ bs = [(0#1 ++ a : BitVec 8), x]))

/-- Whatever bytes arrive at whatever level, what they decode to is a well-formed instruction of that level. -/
def Obligations.DecodedWellFormed : Prop :=
  ∀ (p : Params) (l : Level) (bs : List Byte) (i : Instr), decode p l bs = .ok i → i.wellFormed = true ∧ i.level = l

/-- Words written out from the spec's encodings with the default parameter values, and the instruction each stands for; the spec
gives a request its select code only, so the two operand bytes of the `writeRegister` word are the model's layout (log 12). -/
def Obligations.KnownWords : Prop :=
  decode Params.default .wire [0xAB#8, 0x89#8, 0x7B#8, 0x20#8] = .ok (.pinSet 0x09#6 0x3B#6) ∧
  decode Params.default .wire [0xAB#8, 0x00#8, 0x20#8] = .ok .pinGet ∧
  decode Params.default .wire [0xA8#8, 0x42#8] = .ok (.clkByte 0x42#8) ∧
  decode Params.default .wire [0xAA#8, 0x61#8, 0x00#8] = .ok (.speedCfg 1#3) ∧
  decode Params.default .serial [0x42#8, 0xFF#8] = .ok (.regRead 0x42#7) ∧
  decode Params.default .serial [0x81#8, 0x83#8] = .ok (.regWrite 0x01#7 0x83#8) ∧
  decode Params.default .operation [0x00#8] = .ok .openSession ∧
  decode Params.default .operation [0x11#8, 0x01#8, 0x81#8] = .ok (.writeRegister 0x01#8 0x81#8) ∧
  decode Params.default .operation [0x43#8] = .ok .stopBeacon

/-- A request whose select code is none of the table's leaves everything as it is but the request itself: no operation starts,
nothing is sent, no result is delivered (R110, the spec's decision D2). -/
def Obligations.IllegalSelectDropped : Prop :=
  ∀ (s : State) (op : Byte) (operands : List Byte) (rest : List Request),
    op ∉ [0x00#8, 0x01#8, 0x02#8, 0x03#8, 0x04#8, 0x05#8, 0x06#8, 0x07#8, 0x08#8, 0x09#8, 0x10#8, 0x11#8, 0x12#8, 0x13#8,
      0x14#8, 0x15#8, 0x20#8, 0x21#8, 0x22#8, 0x23#8, 0x24#8, 0x25#8, 0x26#8, 0x27#8, 0x28#8, 0x29#8, 0x2A#8, 0x2B#8,
      0x2C#8, 0x2D#8, 0x2E#8, 0x2F#8, 0x30#8, 0x40#8, 0x41#8, 0x42#8, 0x43#8, 0x44#8, 0x45#8] →
    s.inbox = { level := .operation, bytes := op :: operands } :: rest → step s = .next { s with inbox := rest }

/-- Bytes no frame encodes to are refused by name at the adapter (U1). A serial transaction with more than one byte after the address
byte is refused by name at the radio (U9); one with no byte or the address byte alone accesses no register (R136; its bytes are
presented as log 12 says). -/
def Obligations.UnencodedRefused : Prop :=
  ∀ (s : State) (bs : List Byte) (rest : List Request),
    ((∀ i : Instr, i.level = .wire → encode s.par i ≠ bs) → s.inbox = { level := .wire, bytes := bs } :: rest →
      step s = .refused .unknownFrame) ∧
    (2 < bs.length → s.inbox = { level := .serial, bytes := bs } :: rest → step s = .refused .serialShape) ∧
    (bs.length ≤ 1 → bs.length ≤ s.env.ticks.length → s.Sound → s.inbox = { level := .serial, bytes := bs } :: rest →
      ∃ t, step s = .next t ∧ SameSession s { t with inbox := s.inbox } ∧ t.inbox = rest ∧ t.trace = s.trace ∧
        t.pinsOut = s.pinsOut ∧ t.pinsDir = s.pinsDir ∧ t.inQ = s.inQ ∧ t.radio.txn = [] ∧ RadioFrame bs.length [] [] s t)

/-! ### The machine as a whole (10_state.md, 20_memory.md, 70_reset_and_hazards.md) -/

/-- A step runs the instruction the next arrival decodes to, on the state without that arrival and, before an operation of FG starts,
after as many single steps of POLLER as the environment lets fall while FG is `Idle`: none without a loop. A table word placed with
`withFetchWord` is that arrival. With no arrival POLLER makes one step while it has one; otherwise nothing happens. The single steps
in order are those of POLL_STEP. How requests arrive is the model's choice (log 13). -/
def Obligations.StepRunsArrival : Prop :=
  (∀ (s : State) (r : Request) (rest : List Request) (i : Instr), s.inbox = r :: rest →
    decode s.par r.level r.bytes = .ok i → step s = exec i (beforeStart i { s with inbox := rest })) ∧
  (∀ (s : State) (nbits w : Nat) (i : Instr),
    decode s.par (tablePlace s.par nbits w).1 (tablePlace s.par nbits w).2 = .ok i →
    step (s.withFetchWord nbits w) = exec i (beforeStart i s)) ∧
  (∀ (i : Instr) (s : State), s.LoopOff ∨ i.level ≠ .operation → beforeStart i s = s) ∧
  (∀ (i : Instr) (s : State) (n : Nat) (more : List Nat), s.irqEn = true ∨ s.pseq ≠ .idle → i.level = .operation →
    s.env.gaps = n :: more →
    beforeStart i s = pollSteps n { s with env := { s.env with gaps := more, drawn := s.env.drawn + 1 } }) ∧
  (∀ s : State, s.inbox = [] → step s = .next (pollMicro s)) ∧
  (∀ s : State, s.inbox = [] → s.LoopOff → step s = .next s) ∧
  (∀ s : State, ∃ n, exec .pollStep s = .next (pollSteps n s))

/-- Right after creation every register of the session has the value the spec gives it (R371, the spec's decision D37). -/
def Obligations.ResetValues : Prop :=
  State.reset.isOpen = false ∧ State.reset.handle = .invalid ∧ State.reset.dir = 0x00#6 ∧ State.reset.out = 0x00#6 ∧
  State.reset.lsbFirst = State.reset.par.lsbFirstDefault ∧ State.reset.lsbFirst = false ∧ State.reset.irqCfg = false ∧
  State.reset.cbSet = false ∧ State.reset.irqEn = false ∧ State.reset.lastLevel = .unknown ∧
  State.reset.lastCause = .none ∧ State.reset.busFault = false ∧ State.reset.seq = Seq.idle ∧ State.reset.pseq = .idle ∧
  State.reset.buf = none

/-- The invariant between operations holds after creation, where nothing is open, nothing waits and no transaction has failed. -/
def Obligations.ResetInv : Prop :=
  State.reset.Inv ∧ State.reset.LoopOff ∧ State.reset.FaultsShown ∧ State.reset.radio.txn = [] ∧ State.reset.inbox = []

/-- Every step keeps the invariant between operations, whatever the environment answers, however POLLER's steps fall inside an
operation and whatever a callback does on the bridge. -/
def Obligations.StepKeepsInv : Prop :=
  ∀ s t : State, s.Inv → step s = .next t → t.Inv

/-- `BUS_FAULT` is 1 exactly when some bulk transaction has answered `fail`: every instruction keeps that, so the flag is set by a
failed transaction of either agent and by nothing else, and never cleared. -/
def Obligations.FaultsRecorded : Prop :=
  ∀ (i : Instr) (s t : State), s.FaultsShown → exec i s = .next t → t.FaultsShown

/-- No instruction writes the parameters or the bit order, takes an arrival or clears `BUS_FAULT`, and none but a failing `open`
unregisters the callback; what a failing `open` does to it the spec leaves in doubt and the model leaves free (log 20). -/
def Obligations.ConstantsKept : Prop :=
  ∀ (i : Instr) (s t : State), exec i s = .next t →
    t.par = s.par ∧ t.lsbFirst = s.lsbFirst ∧ t.inbox = s.inbox ∧ (s.busFault = true → t.busFault = true) ∧
    (s.cbSet = true → t.cbSet = true ∨ i = .openSession ∧ t.res = some (.bool false))

/-- Between operations, where the invariant holds: only `open` and `close` open or close the session; only `enableInterrupt` and
`close` start or stop the polling loop; only `setInterruptCallback` registers a callback, and only a failing `open` may unregister
it (log 20). A callback on the bridge is no exception: while it runs the loop exists. -/
def Obligations.SessionChangesOnlyBy : Prop :=
  ∀ (i : Instr) (s t : State), s.Inv → exec i s = .next t →
    (i ≠ .openSession → i ≠ .closeSession → t.isOpen = s.isOpen ∧ t.handle = s.handle) ∧
    ((∀ en, i ≠ .enableInterrupt en) → i ≠ .closeSession → t.irqEn = s.irqEn) ∧
    ((∀ fn, i ≠ .setInterruptCallback fn) → t.cbSet = s.cbSet ∨
      i = .openSession ∧ t.res = some (.bool false) ∧ s.cbSet = true)

/-- Without a polling loop no instruction lets POLLER send, take or emit anything: what is new in the trace is FG's own. -/
def Obligations.NoPollerNoCallback : Prop :=
  ∀ (i : Instr) (s t : State), s.LoopOff → exec i s = .next t →
    ∃ new, t.trace = new ++ s.trace ∧ ∀ e ∈ new, e.byPoller = false

/-! ### The far end: wire commands and serial transactions (40_wire_commands.md) -/

/-- PIN_SET at the adapter replaces both masks. An edge of chip-select empties `TXN`, the edge the external levels of the moment have
made before the command (log 23) and the edge the command makes; without one it stays. The bridge's own state, `IN_Q` and the
radio's contents are as before, RADIO's own steps apart. -/
def Obligations.PinSetEffect : Prop :=
  ∀ (s : State) (tk : Tick) (rest : List Tick) (out dir : PinMask), s.Sound → s.env.ticks = tk :: rest →
    ∃ t, exec (.pinSet out dir) s = .next t ∧ BridgeUntouched s t ∧ t.env.ticks = rest ∧ t.pinsExt = tk.ext ∧
      t.pinsOut = out ∧ t.pinsDir = dir ∧ t.inQ = s.inQ ∧ RadioFrame 1 [] [] s t ∧
      t.radio.txn = if (s.pinsAt tk).csLow = t.csLow then s.txnAt tk else []

/-- PIN_GET at the adapter appends one byte to `IN_Q`: the level of each pin in bits 5:0, the driven one of an output and the
external one of an input; bits 7:6 are not said. SPEED_CFG changes nothing. Either samples the external levels, which may be an edge
of chip-select (log 23). -/
def Obligations.PinGetAndSpeedEffect : Prop :=
  ∀ (s : State) (tk : Tick) (rest : List Tick), s.Sound → s.env.ticks = tk :: rest →
    (∃ t b, exec .pinGet s = .next t ∧ BridgeUntouched s t ∧ t.env.ticks = rest ∧ t.pinsExt = tk.ext ∧
      t.pinsOut = s.pinsOut ∧ t.pinsDir = s.pinsDir ∧ t.inQ = s.inQ ++ [b] ∧ t.radio.txn = s.txnAt tk ∧
      RadioFrame 1 [] [] s t ∧
      ∀ p : Fin 6, b.getLsbD p = if s.pinsDir.getLsbD p then s.pinsOut.getLsbD p else tk.ext.getLsbD p) ∧
    (∀ v : BitVec 3, ∃ t, exec (.speedCfg v) s = .next t ∧ BridgeUntouched s t ∧ t.env.ticks = rest ∧ t.pinsExt = tk.ext ∧
      t.pinsOut = s.pinsOut ∧ t.pinsDir = s.pinsDir ∧ t.inQ = s.inQ ∧ t.radio.txn = s.txnAt tk ∧ RadioFrame 1 [] [] s t)

/-- CLK_BYTE appends one echo to `IN_Q`. With chip-select high RADIO is not touched. With it low the byte joins `TXN`: the first
is the address byte; the second reads the addressed register into the echo, or writes it, by its class; a later one is a burst,
whose effect at the radio is free (log 10), and so is what a write leaves in a volatile status register (log 9). The external
levels of the moment may have been an edge of chip-select before the byte (log 23). -/
def Obligations.ClkByteEffect : Prop :=
  ∀ (s : State) (tk : Tick) (rest : List Tick) (d : Byte), s.Sound → s.env.ticks = tk :: rest →
    ∃ t e, exec (.clkByte d) s = .next t ∧ BridgeUntouched s t ∧ t.env.ticks = rest ∧ t.pinsExt = tk.ext ∧
      t.pinsOut = s.pinsOut ∧ t.pinsDir = s.pinsDir ∧ t.inQ = s.inQ ++ [e] ∧
      ((s.pinsAt tk).csLow = false → t.radio.txn = s.txnAt tk ∧ RadioFrame 1 [] [] s t) ∧
      ((s.pinsAt tk).csLow = true → t.radio.txn = s.txnAt tk ++ [d] ∧
        (s.txnAt tk = [] → RadioFrame 1 [] [] s t) ∧
        (∀ a, s.txnAt tk = [a] → a.getLsbD 7 = false →
          (regClass s.par (a.extractLsb' 0 7) ≠ .window →
            e = s.reg (a.extractLsb' 0 7) ∧ RadioFrame 0 [] [] s t) ∧
          (regClass s.par (a.extractLsb' 0 7) = .window → e = s.fifoAt (s.reg s.par.regFifoAddrPtr) ∧
            t.reg s.par.regFifoAddrPtr = s.reg s.par.regFifoAddrPtr + 1#8 ∧ RadioFrame 0 [s.par.regFifoAddrPtr] [] s t)) ∧
        (∀ a, s.txnAt tk = [a] → a.getLsbD 7 = true →
          (regClass s.par (a.extractLsb' 0 7) ≠ .window → RadioFrame 0 [a.extractLsb' 0 7] [] s t) ∧
          (regClass s.par (a.extractLsb' 0 7) = .plain ∨ a.extractLsb' 0 7 = s.par.regOpMode →
            t.reg (a.extractLsb' 0 7) = d) ∧
          (a.extractLsb' 0 7 = s.par.regIrqFlags →
            t.reg s.par.regIrqFlags = s.reg s.par.regIrqFlags &&& ~~~d) ∧
          (regClass s.par (a.extractLsb' 0 7) = .window → t.fifoAt (s.reg s.par.regFifoAddrPtr) = d ∧
            t.reg s.par.regFifoAddrPtr = s.reg s.par.regFifoAddrPtr + 1#8 ∧
            RadioFrame 0 [s.par.regFifoAddrPtr] [s.reg s.par.regFifoAddrPtr] s t)))

/-- REG_READ as one serial transaction (log 11): the second byte clocked back is the register's content as RADIO's own steps have
left it; reading the FIFO window gives the byte at the pointer and moves the pointer by one, and no other read changes a
register. `TXN` is empty afterwards and the adapter's latch is not touched. -/
def Obligations.RegReadEffect : Prop :=
  ∀ (s : State) (t1 t2 : Tick) (rest : List Tick) (a : RegAddr), s.Sound → s.env.ticks = t1 :: t2 :: rest →
    ∃ t x v, exec (.regRead a) s = .next t ∧ SameSession s t ∧ t.seq = s.seq ∧ t.buf = s.buf ∧ t.trace = s.trace ∧
      t.env.ticks = rest ∧ t.pinsExt = t2.ext ∧ t.pinsOut = s.pinsOut ∧ t.pinsDir = s.pinsDir ∧ t.inQ = s.inQ ∧
      t.res = some (.bytes [x, v]) ∧ t.radio.txn = [] ∧
      (regClass s.par a ≠ .window → v = t.reg a ∧ RadioFrame 1 [] [] s t) ∧
      (regClass s.par a = .window → v = t.fifoAt (s.reg s.par.regFifoAddrPtr) ∧
        t.reg s.par.regFifoAddrPtr = s.reg s.par.regFifoAddrPtr + 1#8 ∧ RadioFrame 1 [s.par.regFifoAddrPtr] [] s t)

/-- REG_WRITE as one serial transaction (log 11), by the class of the register: a plain register and the mode register take the
byte, the flags lose the bits written as 1 (said with RADIO still before the write), the FIFO window stores the byte at the
pointer and moves it by one; what a volatile status register holds afterwards is free (log 9). -/
def Obligations.RegWriteEffect : Prop :=
  ∀ (s : State) (t1 t2 : Tick) (rest : List Tick) (a : RegAddr) (v : Byte), s.Sound → s.env.ticks = t1 :: t2 :: rest →
    ∃ t x y, exec (.regWrite a v) s = .next t ∧ SameSession s t ∧ t.seq = s.seq ∧ t.buf = s.buf ∧ t.trace = s.trace ∧
      t.env.ticks = rest ∧ t.pinsExt = t2.ext ∧ t.pinsOut = s.pinsOut ∧ t.pinsDir = s.pinsDir ∧ t.inQ = s.inQ ∧
      t.res = some (.bytes [x, y]) ∧ t.radio.txn = [] ∧
      (regClass s.par a ≠ .window → RadioFrame 1 [a] [] s t) ∧
      (regClass s.par a = .plain ∨ a = s.par.regOpMode → t.reg a = v) ∧
      (a = s.par.regIrqFlags → t1.radio = RadioEvent.nothing → t.reg a = s.reg a &&& ~~~v) ∧
      (regClass s.par a = .window → t.fifoAt (s.reg s.par.regFifoAddrPtr) = v ∧
        t.reg s.par.regFifoAddrPtr = s.reg s.par.regFifoAddrPtr + 1#8 ∧
        RadioFrame 1 [s.par.regFifoAddrPtr] [s.reg s.par.regFifoAddrPtr] s t)

/-! ### Session operations (41_session_ops.md) -/

/-- `open` on a closed session whose device is found, opened, configured and claimed, with both frames answered: the session is
open with every pin an output and chip-select high, the speed frame and the pin frame have been sent and nothing taken, no cause
is recorded, and no other register of the session changes. With no left-over echo the session is ready for every later
operation; no serial transaction is open. -/
def Obligations.OpenSucceeds : Prop :=
  ∀ (s : State) (e : Enumeration) (more : List Enumeration), s.Sound → s.isOpen = false →
    s.env.enums = e :: more → s.par.devIndex < e.found → e.openOk = true → e.configOk = true → e.claimOk = true →
    s.Answers 2 →
    ∃ t, exec .openSession s = .next t ∧ t.res = some (.bool true) ∧ t.isOpen = true ∧ t.handle = .valid ∧
      t.dir = 0x3F#6 ∧ t.out = pinMask s.par.csPin.val ∧ t.lastCause = .none ∧
      t.pinsDir = 0x3F#6 ∧ t.pinsOut = pinMask s.par.csPin.val ∧ t.inQ = s.inQ ∧
      SameSession s { t with isOpen := s.isOpen, handle := s.handle, dir := s.dir, out := s.out, lastCause := s.lastCause } ∧
      t.wireLog = s.wireLog ++ [.out [s.par.opSpeedCfg, s.par.speedSetTag ||| s.par.speedValue.setWidth 8, s.par.speedEnd],
        .out (pinFrame s.par t.out t.dir)] ∧
      RadioFrame 2 [] [] s t ∧ t.radio.txn = [] ∧ t.env.ticks = s.env.ticks.drop 2 ∧ t.seq = Seq.idle ∧ t.buf = none ∧
      (s.inQ = [] → s.lsbFirst = false → t.Ready)

/-- Why `open` on a closed session fails, the first that applies in the order of its steps: no device, an ordinal as great as
the number of matches, opening, configuring, claiming; then nothing was sent and no register but `LAST_CAUSE` changed. A
failed frame, the first or the second, closes the session again with every register at its creation value but `LAST_CAUSE` and
`BUS_FAULT`. `CB_SET` either way is as before or cleared, and which is free (log 20). -/
def Obligations.OpenFailureCauses : Prop :=
  (∀ (s : State) (e : Enumeration) (more : List Enumeration) (c : Cause), s.isOpen = false → s.env.enums = e :: more →
    (c = .noDeviceFound ∧ e.found = 0 ∨
      c = .indexOutOfRange ∧ 0 < e.found ∧ e.found ≤ s.par.devIndex ∨
      c = .usbOpenFailed ∧ s.par.devIndex < e.found ∧ e.openOk = false ∨
      c = .usbConfigFailed ∧ s.par.devIndex < e.found ∧ e.openOk = true ∧ e.configOk = false ∨
      c = .interfaceClaimFailed ∧ s.par.devIndex < e.found ∧ e.openOk = true ∧ e.configOk = true ∧ e.claimOk = false) →
    ∃ t, exec .openSession s = .next t ∧ t.res = some (.bool false) ∧ t.lastCause = c ∧
      NothingSent s { t with trace := s.trace, cbSet := s.cbSet } ∧ (t.cbSet = true → s.cbSet = true) ∧
      t.wireLog = s.wireLog ∧ t.env.ticks = s.env.ticks) ∧
  (∀ (s : State) (e : Enumeration) (more : List Enumeration) (pre : List Tick) (bad : Tick) (rest : List Tick),
    s.Inv → s.isOpen = false → s.env.enums = e :: more → s.par.devIndex < e.found → e.openOk = true →
    e.configOk = true → e.claimOk = true → s.env.ticks = pre ++ bad :: rest → pre.length ≤ 1 →
    (∀ tk ∈ pre, tk.answer = .ok) → bad.answer ≠ .ok →
    ∃ t, exec .openSession s = .next t ∧ t.res = some (.bool false) ∧ t.lastCause = .bulkTransferError ∧
      t.busFault = true ∧ t.isOpen = false ∧ t.handle = .invalid ∧ t.dir = 0x00#6 ∧ t.out = 0x00#6 ∧
      t.env.ticks = rest ∧ t.irqCfg = false ∧ t.irqEn = false ∧ t.lastLevel = .unknown ∧ t.pseq = .idle ∧
      t.seq = Seq.idle ∧ t.buf = none ∧ (t.cbSet = true → s.cbSet = true) ∧ t.par = s.par ∧ t.lsbFirst = s.lsbFirst ∧ t.inbox = s.inbox)

/-- `open` on an open session answers `true` at once: nothing is enumerated, nothing sent, no register changed (R153,
the spec's decision D11). -/
def Obligations.OpenAgain : Prop :=
  ∀ s : State, s.isOpen = true →
    ∃ t, exec .openSession s = .next t ∧ t.res = some (.bool true) ∧ NothingSent s t ∧ t.lastCause = s.lastCause ∧
      t.env = s.env ∧ t.seq = Seq.idle ∧ t.buf = none

/-- `close` is idempotent: on a closed session nothing happens. On an open one it ends the polling loop and leaves every register of
the session and `TXN` at its value after close, whatever the frame was answered and whatever a callback asks for during the join,
with `CB_SET` kept; with no POLL_STEP in progress its one frame makes every pin an input, and the radio is not touched. -/
def Obligations.CloseEffect : Prop :=
  (∀ s : State, s.isOpen = false →
    ∃ t, exec .closeSession s = .next t ∧ t.res = some .unit ∧ NothingSent s t ∧ t.lastCause = s.lastCause ∧ t.env = s.env) ∧
  (∀ s : State, s.Inv → s.isOpen = true →
    ∃ t, exec .closeSession s = .next t ∧ t.res = some .unit ∧ t.isOpen = false ∧ t.handle = .invalid ∧ t.dir = 0x00#6 ∧
      t.out = 0x00#6 ∧ t.irqCfg = false ∧ t.irqEn = false ∧ t.lastLevel = .unknown ∧ t.pseq = .idle ∧ t.seq = Seq.idle ∧
      t.buf = none ∧ t.cbSet = s.cbSet ∧ t.par = s.par ∧ t.lsbFirst = s.lsbFirst ∧ t.inbox = s.inbox ∧ t.radio.txn = []) ∧
  (∀ (s : State) (tk : Tick) (rest : List Tick), s.Sound → s.isOpen = true → s.pseq = .idle → s.env.ticks = tk :: rest →
    ∃ t, exec .closeSession s = .next t ∧ t.lastCause = s.lastCause ∧ t.inQ = s.inQ ∧ RadioFrame 1 [] [] s t ∧
      t.env.ticks = rest ∧
      (tk.answer = .ok → t.pinsDir = 0x00#6 ∧ t.pinsOut = 0x00#6 ∧ t.busFault = s.busFault ∧
        t.wireLog = s.wireLog ++ [.out (pinFrame s.par 0x00#6 0x00#6)]) ∧
      (tk.answer ≠ .ok → t.busFault = true ∧ t.wireLog = s.wireLog ++ [.outFailed (pinFrame s.par 0x00#6 0x00#6)]))

/-- `isActive` answers whether the session is open; nothing is sent and no register changes. -/
def Obligations.IsActiveEffect : Prop :=
  ∀ s : State, ∃ t, exec .isActive s = .next t ∧ t.res = some (.bool s.isOpen) ∧ NothingSent s t ∧
    t.lastCause = s.lastCause ∧ t.env = s.env ∧ t.seq = Seq.idle ∧ t.buf = none

/-! ### Transfer (42_transfer.md) -/

/-- Bit reversal of a byte: bit i is bit 7-i, reversing twice gives the byte back, and the sixteen bytes listed are the ones equal
to their own reverse (R165 marks that list as its own inference). -/
def Obligations.BitReversal : Prop :=
  (∀ (b : Byte) (i : Nat), i < 8 → (rev8 b).getLsbD i = b.getLsbD (7 - i)) ∧ (∀ b : Byte, rev8 (rev8 b) = b) ∧
  (∀ b : Byte, rev8 b = b ↔ b ∈ [0x00#8, 0x18#8, 0x24#8, 0x3C#8, 0x42#8, 0x5A#8, 0x66#8, 0x7E#8, 0x81#8, 0x99#8, 0xA5#8,
    0xBD#8, 0xC3#8, 0xDB#8, 0xE7#8, 0xFF#8]) ∧
  rev8 0x01#8 = 0x80#8 ∧ rev8 0x12#8 = 0x48#8 ∧ rev8 0x0F#8 = 0xF0#8 ∧ rev8 0x7F#8 = 0xFE#8

/-- The framing of `transfer(W, n)` on an open serialised session, in either bit order and whatever is left in `IN_Q`: exactly
`2 + 2 * (len(W) + n)` transactions, in this order: the shadow masks with chip-select low; each byte of `W`, each followed by the
taking of one byte that is dropped; `n` dummy bytes, each followed by the taking of one byte that is kept; the shadow masks with
chip-select high. The result is the bytes kept, every byte reversed on its way when the session is least-significant-bit-first.
No register of the session but the chip-select bit of `OUT` changes, and no echo is left where none was. -/
def Obligations.TransferFraming : Prop :=
  ∀ (s : State) (w : List Byte) (n : Nat), s.isOpen = true → s.Answers (2 + 2 * (w.length + n)) →
    ∃ (t : State) (es rs : List Byte), exec (.transfer w n) s = .next t ∧ es.length = w.length ∧ rs.length = n ∧
      t.res = some (.bytes (rs.map fun e => if s.lsbFirst then rev8 e else e)) ∧
      t.wireLog = s.wireLog ++ [.out (pinFrame s.par (s.out &&& ~~~pinMask s.par.csPin.val) s.dir)] ++
        (w.zip es).flatMap (fun be => [.out (clockFrame s.par (if s.lsbFirst then rev8 be.1 else be.1)), .back be.2]) ++
        rs.flatMap (fun e => [.out (clockFrame s.par 0xFF#8), .back e]) ++
        [.out (pinFrame s.par (s.out ||| pinMask s.par.csPin.val) s.dir)] ∧
      t.out = s.out ||| pinMask s.par.csPin.val ∧ SameSession s { t with out := s.out } ∧ t.inQ.length = s.inQ.length ∧
      t.pinsOut = t.out ∧ t.pinsDir = t.dir ∧ t.env.ticks = s.env.ticks.drop (2 + 2 * (w.length + n)) ∧
      t.seq = Seq.idle ∧ t.buf = none

/-- A transfer stops at the first transaction that fails: nothing more is sent or taken, the result is empty whatever had been
read, the cause is `BulkTransferError`, and `OUT` is not put back: chip-select stays low in the shadow unless the failing
transaction is the last. -/
def Obligations.TransferStopsAtFailure : Prop :=
  ∀ (s : State) (w : List Byte) (n : Nat) (pre : List Tick) (bad : Tick) (rest : List Tick),
    s.isOpen = true → s.Serialised (pre.length + 1) → s.env.ticks = pre ++ bad :: rest →
    pre.length ≤ 1 + 2 * (w.length + n) →
    (∀ tk ∈ pre, tk.answer = .ok) → bad.answer ≠ .ok →
    ∃ (t : State) (lines : List WireLine) (last : WireLine), exec (.transfer w n) s = .next t ∧ t.res = some (.bytes []) ∧
      t.lastCause = .bulkTransferError ∧ t.busFault = true ∧ t.env.ticks = rest ∧
      t.wireLog = s.wireLog ++ lines ++ [last] ∧ lines.length = pre.length ∧
      (∀ l ∈ lines, (∃ f, l = .out f) ∨ ∃ b, l = .back b) ∧
      (if pre.length % 2 = 0 ∧ 0 < pre.length then last = .backFailed else ∃ f, last = .outFailed f) ∧
      (t.out = if pre.length = 1 + 2 * (w.length + n) then s.out ||| pinMask s.par.csPin.val
        else s.out &&& ~~~pinMask s.par.csPin.val) ∧
      SameSession s { t with out := s.out, lastCause := s.lastCause, busFault := s.busFault } ∧
      t.seq = Seq.idle ∧ t.buf = none

/-- On a closed session no operation but `open` sends or takes anything, and no register changes but `LAST_CAUSE` and the `CB_SET`
that `setInterruptCallback` sets. Every operation that needs an open session, with operands it does not refuse for another cause,
records `SessionClosed` and answers with its failure value; what a getter and `readRegister` then answer is open (R216). -/
def Obligations.ClosedSession : Prop :=
  (∀ (i : Instr) (s t : State), s.isOpen = false → s.LoopOff → i.level = .operation → i ≠ .openSession →
    exec i s = .next t → NothingSent s { t with cbSet := s.cbSet } ∧ (t.cbSet ≠ s.cbSet → ∃ fn, i = .setInterruptCallback fn)) ∧
  (∀ (i : Instr) (s : State), s.isOpen = false → needsOpen s.par i = true →
    ∃ t, exec i s = .next t ∧ t.lastCause = .sessionClosed ∧ NothingSent s t ∧ ∀ r, closedAnswer i = some r → t.res = some r)

/-! ### Digital pins (43_digital_pins.md) -/

/-- `digitalWrite` on an open serialised session changes one bit of `OUT`, keeps every other bit and `DIR`, and sends one frame of
the two masks; the adapter's latch then holds them. A frame that moves chip-select starts or ends a serial transaction, and so does
an edge of the external levels where chip-select is an input (log 23). No pin is exempt, chip-select and the interrupt pin
included. -/
def Obligations.DigitalWriteEffect : Prop :=
  ∀ (s : State) (pin : Nat) (value : Bool) (tk : Tick) (rest : List Tick), s.Sound → s.isOpen = true → s.Serialised 1 → pin ≤ 5 →
    s.env.ticks = tk :: rest → tk.answer = .ok →
    ∃ t, exec (.digitalWrite pin value) s = .next t ∧ t.res = some (.bool true) ∧
      (∀ q, q < 6 → t.out.getLsbD q = if q = pin then value else s.out.getLsbD q) ∧
      SameSession s { t with out := s.out } ∧ t.pinsOut = t.out ∧ t.pinsDir = s.dir ∧ t.inQ = s.inQ ∧
      t.wireLog = s.wireLog ++ [.out (pinFrame s.par t.out s.dir)] ∧
      t.radio.txn = (if (s.pinsAt tk).csLow = t.csLow then s.txnAt tk else []) ∧ RadioFrame 1 [] [] s t ∧
      t.env.ticks = rest ∧ t.seq = Seq.idle ∧ t.buf = none

/-- `pinMode` on an open serialised session changes one bit of `DIR`, 1 for an output, keeps every other bit and `OUT`, and sends
one frame of the two masks; the adapter's latch then holds them. A frame that moves chip-select starts or ends a serial
transaction, and so does an edge of the external levels where chip-select is an input (log 23). -/
def Obligations.PinModeEffect : Prop :=
  ∀ (s : State) (pin mode : Nat) (tk : Tick) (rest : List Tick), s.Sound → s.isOpen = true → s.Serialised 1 → pin ≤ 5 → mode ≤ 1 →
    s.env.ticks = tk :: rest → tk.answer = .ok →
    ∃ t, exec (.pinMode pin mode) s = .next t ∧ t.res = some (.bool true) ∧
      (∀ q, q < 6 → t.dir.getLsbD q = if q = pin then decide (mode = 1) else s.dir.getLsbD q) ∧
      SameSession s { t with dir := s.dir } ∧ t.pinsOut = s.out ∧ t.pinsDir = t.dir ∧ t.inQ = s.inQ ∧
      t.wireLog = s.wireLog ++ [.out (pinFrame s.par s.out t.dir)] ∧
      t.radio.txn = (if (s.pinsAt tk).csLow = t.csLow then s.txnAt tk else []) ∧ RadioFrame 1 [] [] s t ∧
      t.env.ticks = rest ∧ t.seq = Seq.idle ∧ t.buf = none

/-- `digitalRead` on an open serialised session sends one read request and takes one byte. With no left-over byte the result is
the pin's level at the adapter, the driven one of an output and the external one of an input; with one the result is a bit of
that byte, and the response stays behind. No mask, no pin and no register of the radio changes; an edge of the external levels on
chip-select empties `TXN` (log 23). -/
def Obligations.DigitalReadEffect : Prop :=
  ∀ (s : State) (pin : Nat) (t1 t2 : Tick) (rest : List Tick), s.Sound → s.isOpen = true → s.Serialised 2 → pin ≤ 5 →
    s.env.ticks = t1 :: t2 :: rest → t1.answer = .ok → t2.answer = .ok →
    ∃ t b r, exec (.digitalRead pin) s = .next t ∧ t.res = some (.bool r) ∧ SameSession s t ∧
      t.pinsOut = s.pinsOut ∧ t.pinsDir = s.pinsDir ∧ t.wireLog = s.wireLog ++ [.out (askFrame s.par), .back b] ∧
      t.radio.txn = s.txnAfter t1 t2 ∧ RadioFrame 2 [] [] s t ∧ t.env.ticks = rest ∧ t.seq = Seq.idle ∧ t.buf = none ∧
      (s.inQ = [] → t.inQ = [] ∧
        r = if s.pinsDir.getLsbD pin then s.pinsOut.getLsbD pin else t1.ext.getLsbD pin) ∧
      (∀ c q, s.inQ = c :: q → b = c ∧ r = c.getLsbD pin ∧ ∃ a, t.inQ = q ++ [a])

/-- Which request is refused before any bus activity on an open session, and why: a pin above 5, then a mode that is neither input
nor output; for `configureInterrupt` a pin other than the reserved one, then a running loop; a running loop for
`setInterruptCallback`; nothing configured or no callback for `enableInterrupt(true)`. No register changes but `LAST_CAUSE`. Asked
by a callback such a request records the same cause, and the callback ends with it: the rest of the POLL_STEP remembers the low
level. That a callback is a drawn list of requests that leave port RES alone is the model's choice (log 6), and so is that a
POLL_STEP presented while one is in progress runs it to its end (log 19). -/
def Obligations.RequestsRejected : Prop :=
  ∀ (i : Instr) (c : Cause) (s : State), s.isOpen = true →
    ((∃ pin v, i = .digitalWrite pin v ∧ 5 < pin ∧ c = .invalidPin) ∨
      (∃ pin, i = .digitalRead pin ∧ 5 < pin ∧ c = .invalidPin) ∨
      (∃ pin mode, i = .pinMode pin mode ∧ 5 < pin ∧ c = .invalidPin) ∨
      (∃ pin mode, i = .pinMode pin mode ∧ pin ≤ 5 ∧ 1 < mode ∧ c = .invalidMode) ∨
      (∃ pin en, i = .configureInterrupt pin en ∧ pin ≠ s.par.irqPin ∧ c = .invalidPin) ∨
      (i = .configureInterrupt s.par.irqPin false ∧ s.irqEn = true ∧ c = .interruptActive) ∨
      (∃ fn, i = .setInterruptCallback fn ∧ s.irqEn = true ∧ c = .interruptActive) ∨
      (i = .enableInterrupt true ∧ (s.irqCfg = false ∨ s.cbSet = false) ∧ c = .notConfigured)) →
    (∃ t, exec i s = .next t ∧ t.res = some (.bool false) ∧ t.lastCause = c ∧ NothingSent s t ∧ t.env = s.env) ∧
    (∀ elapsed, s.pseq = .callback (Callback.start [{ op := i, elapsed := elapsed }]) →
      ∃ t, exec .pollStep s = .next t ∧ t.lastCause = c ∧ t.pseq = .idle ∧ t.lastLevel = .low ∧ t.env = s.env ∧
        t.trace = .sleep s.par.pollIrqInterval :: s.trace ∧ t.seq = s.seq ∧ t.buf = s.buf ∧ t.res = s.res ∧
        NothingSent s { t with pseq := s.pseq, lastLevel := s.lastLevel, trace := s.trace })

/-- A pin operation whose frame or response fails answers `false` with `BulkTransferError` and sends nothing more. The shadow
masks are not rolled back: they keep the change the frame was to carry, and `IRQ_CFG` is not set. -/
def Obligations.PinFrameFailure : Prop :=
  ∀ (s : State) (bad : Tick) (rest : List Tick), s.isOpen = true → bad.answer ≠ .ok →
    (∀ pin value, s.Serialised 1 → pin ≤ 5 → s.env.ticks = bad :: rest →
      ∃ t, exec (.digitalWrite pin value) s = .next t ∧ t.res = some (.bool false) ∧ t.lastCause = .bulkTransferError ∧
        t.busFault = true ∧ t.env.ticks = rest ∧
        (∀ q, q < 6 → t.out.getLsbD q = if q = pin then value else s.out.getLsbD q) ∧
        SameSession s { t with out := s.out, lastCause := s.lastCause, busFault := s.busFault }) ∧
    (∀ pin mode, s.Serialised 1 → pin ≤ 5 → mode ≤ 1 → s.env.ticks = bad :: rest →
      ∃ t, exec (.pinMode pin mode) s = .next t ∧ t.res = some (.bool false) ∧ t.lastCause = .bulkTransferError ∧
        t.busFault = true ∧ t.env.ticks = rest ∧
        (∀ q, q < 6 → t.dir.getLsbD q = if q = pin then decide (mode = 1) else s.dir.getLsbD q) ∧
        SameSession s { t with dir := s.dir, lastCause := s.lastCause, busFault := s.busFault }) ∧
    (s.Serialised 1 → s.env.ticks = bad :: rest →
      ∃ t, exec (.configureInterrupt s.par.irqPin true) s = .next t ∧ t.res = some (.bool false) ∧
        t.lastCause = .bulkTransferError ∧ t.busFault = true ∧ t.env.ticks = rest ∧
        (∀ q, q < 6 → t.dir.getLsbD q = if q = s.par.irqPin then false else s.dir.getLsbD q) ∧
        SameSession s { t with dir := s.dir, lastCause := s.lastCause, busFault := s.busFault }) ∧
    (∀ pin (pre : List Tick), s.Serialised (pre.length + 1) → pin ≤ 5 → pre.length ≤ 1 → (∀ tk ∈ pre, tk.answer = .ok) →
      s.env.ticks = pre ++ bad :: rest →
      ∃ t, exec (.digitalRead pin) s = .next t ∧ t.res = some (.bool false) ∧ t.lastCause = .bulkTransferError ∧
        t.busFault = true ∧ t.env.ticks = rest ∧
        SameSession s { t with lastCause := s.lastCause, busFault := s.busFault })

/-! ### Interrupt emulation (44_interrupt_emulation.md) -/

/-- `configureInterrupt` of the reserved pin: enabling makes the pin an input, with one frame, and sets `IRQ_CFG`; disabling, with
no loop running, clears `IRQ_CFG`, sends nothing and leaves the pin an input. -/
def Obligations.ConfigureInterruptEffect : Prop :=
  (∀ (s : State) (tk : Tick) (rest : List Tick), s.Sound → s.isOpen = true → s.Serialised 1 → s.env.ticks = tk :: rest →
    tk.answer = .ok →
    ∃ t, exec (.configureInterrupt s.par.irqPin true) s = .next t ∧ t.res = some (.bool true) ∧ t.irqCfg = true ∧
      (∀ q, q < 6 → t.dir.getLsbD q = if q = s.par.irqPin then false else s.dir.getLsbD q) ∧
      SameSession s { t with dir := s.dir, irqCfg := s.irqCfg } ∧ t.pinsOut = s.out ∧ t.pinsDir = t.dir ∧ t.inQ = s.inQ ∧
      t.wireLog = s.wireLog ++ [.out (pinFrame s.par s.out t.dir)] ∧ RadioFrame 1 [] [] s t ∧ t.env.ticks = rest ∧
      t.seq = Seq.idle ∧ t.buf = none) ∧
  (∀ s : State, s.isOpen = true → s.irqEn = false →
    ∃ t, exec (.configureInterrupt s.par.irqPin false) s = .next t ∧ t.res = some (.bool true) ∧ t.irqCfg = false ∧
      NothingSent s { t with irqCfg := s.irqCfg } ∧ t.lastCause = s.lastCause ∧ t.env = s.env)

/-- `setInterruptCallback` without a running loop registers a callback, open or closed. `enableInterrupt(true)` on an open session
with a configured pin and a callback starts the loop with no remembered level; with the loop running already nothing changes.
Neither sends anything. -/
def Obligations.InterruptSetup : Prop :=
  (∀ (s : State) (fn : Nat), s.irqEn = false →
    ∃ t, exec (.setInterruptCallback fn) s = .next t ∧ t.res = some (.bool true) ∧ t.cbSet = true ∧
      NothingSent s { t with cbSet := s.cbSet } ∧ t.lastCause = s.lastCause ∧ t.env = s.env) ∧
  (∀ s : State, s.isOpen = true → s.irqCfg = true → s.cbSet = true → s.irqEn = false →
    ∃ t, exec (.enableInterrupt true) s = .next t ∧ t.res = some (.bool true) ∧ t.irqEn = true ∧ t.lastLevel = .unknown ∧
      NothingSent s { t with irqEn := s.irqEn, lastLevel := s.lastLevel } ∧ t.lastCause = s.lastCause ∧ t.env = s.env) ∧
  (∀ s : State, s.isOpen = true → s.irqCfg = true → s.cbSet = true → s.irqEn = true →
    ∃ t, exec (.enableInterrupt true) s = .next t ∧ t.res = some (.bool true) ∧ NothingSent s t ∧
      t.lastCause = s.lastCause ∧ t.env = s.env)

/-- `enableInterrupt(false)` always answers `true`. Without a loop nothing happens. With one, POLLER is `Idle` afterwards and
remembers no level, and no callback is unregistered; unless a callback starts the loop again during the join (log 6), the loop is
gone and a POLL_STEP then changes nothing (log 19). With no POLL_STEP in progress nothing is sent; one that is past its bus
transactions with a falling edge still emits its one callback before the join ends; a callback that asks for the loop during the
join leaves it running. -/
def Obligations.LoopStopped : Prop :=
  (∀ s : State, s.irqEn = false →
    ∃ t, exec (.enableInterrupt false) s = .next t ∧ t.res = some (.bool true) ∧ NothingSent s t ∧
      t.lastCause = s.lastCause ∧ t.env = s.env) ∧
  (∀ s : State, s.irqEn = true →
    ∃ t, exec (.enableInterrupt false) s = .next t ∧ t.res = some (.bool true) ∧ t.pseq = .idle ∧ t.lastLevel = .unknown ∧
      t.isOpen = s.isOpen ∧ t.handle = s.handle ∧ (s.cbSet = true → t.cbSet = true) ∧ t.par = s.par ∧
      t.lsbFirst = s.lsbFirst ∧ t.inbox = s.inbox ∧
      (s.pseq = .idle ∨ s.NoRestart → t.irqEn = false ∧ exec .pollStep t = .next t) ∧
      (s.pseq = .idle → NothingSent s { t with irqEn := s.irqEn, lastLevel := s.lastLevel } ∧ t.env = s.env) ∧
      (s.pseq = .test false → s.lastLevel = .high → s.cbSet = true → t.callbacks = s.callbacks + 1) ∧
      (∀ c r, s.pseq = .callback c → c.steps = [] → c.tasks = [] → c.rest = [r] → r.op = .enableInterrupt true →
        s.isOpen = true → s.irqCfg = true → s.cbSet = true → t.irqEn = true))

/-- One POLL_STEP of a running loop whose two transactions answer `ok`: the reserved pin is sampled like `digitalRead` samples it,
the level is remembered, and a callback is emitted exactly when the level before was high, the level now is low and a
callback is registered; the first sample after enabling never emits one. What the callback does on the bridge is free (log 6):
when it does nothing, nothing else changes, but that an edge of the external levels on chip-select empties `TXN` (log 23). -/
def Obligations.PollStepSample : Prop :=
  ∀ (s : State) (t1 t2 : Tick) (rest : List Tick) (level : PinLevel), s.Sound → s.irqEn = true → s.pseq = .idle → s.inQ = [] →
    s.env.ticks = t1 :: t2 :: rest → t1.answer = .ok → t2.answer = .ok →
    (level = if (if s.pinsDir.getLsbD s.par.irqPin then s.pinsOut.getLsbD s.par.irqPin else t1.ext.getLsbD s.par.irqPin)
      then .high else .low) →
    (¬(s.lastLevel = .high ∧ level = .low ∧ s.cbSet = true) →
      ∃ t b, exec .pollStep s = .next t ∧ t.lastLevel = level ∧ t.callbacks = s.callbacks ∧
        t.wireLog = s.wireLog ++ [.out (askFrame s.par), .back b] ∧ SameSession s { t with lastLevel := s.lastLevel } ∧
        t.inQ = [] ∧ t.pinsOut = s.pinsOut ∧ t.pinsDir = s.pinsDir ∧ t.radio.txn = s.txnAfter t1 t2 ∧ RadioFrame 2 [] [] s t ∧
        t.env.ticks = rest ∧ t.seq = s.seq ∧ t.buf = s.buf ∧ t.res = s.res) ∧
    (s.lastLevel = .high → level = .low → s.cbSet = true → ∀ (t3 : Tick) (more : List Tick), rest = t3 :: more →
      ∃ t, exec .pollStep s = .next t ∧ t.lastLevel = .low ∧ t.callbacks = s.callbacks + 1 ∧ t.pseq = .idle ∧
        t.isOpen = s.isOpen ∧ t.irqEn = true ∧ t.cbSet = true ∧ t.seq = s.seq ∧ t.buf = s.buf ∧ t.res = s.res ∧
        (t3.callback = [] → SameSession s { t with lastLevel := s.lastLevel } ∧ t.inQ = [] ∧ t.pinsOut = s.pinsOut ∧
          t.pinsDir = s.pinsDir ∧ t.radio.txn = s.txnAfter t1 t2 ∧ RadioFrame 2 [] [] s t ∧ t.env.ticks = more))

/-- A POLL_STEP whose read fails, at the request or at the response, takes the pin for low, records `BulkTransferError` and
reports nothing: after a high sample with a callback registered it emits a callback though the pin did not move. -/
def Obligations.PollStepReadFails : Prop :=
  ∀ (s : State) (pre : List Tick) (bad : Tick) (rest : List Tick), s.irqEn = true → s.pseq = .idle →
    s.env.ticks = pre ++ bad :: rest → pre.length ≤ 1 → (∀ tk ∈ pre, tk.answer = .ok) → bad.answer ≠ .ok →
    (¬(s.lastLevel = .high ∧ s.cbSet = true) →
      ∃ t, exec .pollStep s = .next t ∧ t.lastLevel = .low ∧ t.callbacks = s.callbacks ∧ t.lastCause = .bulkTransferError ∧
        t.busFault = true ∧ t.env.ticks = rest ∧
        SameSession s { t with lastLevel := s.lastLevel, lastCause := s.lastCause, busFault := s.busFault }) ∧
    (s.lastLevel = .high → s.cbSet = true → ∀ (t3 : Tick) (more : List Tick), rest = t3 :: more →
      ∃ t, exec .pollStep s = .next t ∧ t.lastLevel = .low ∧ t.callbacks = s.callbacks + 1 ∧ t.busFault = true ∧
        t.pseq = .idle ∧ (t3.callback = [] → t.lastCause = .bulkTransferError ∧ t.env.ticks = more))

/-! ### Register access (45_register_access.md) -/

/-- `readRegister` on a ready session reads register `addr[6:0]` with six bulk transactions. The byte is the register's content as
RADIO's own steps have left it; a plain register's content is as before; with RADIO still nothing changes at the radio but the
FIFO pointer, which one read of the FIFO window moves by one. -/
def Obligations.ReadRegisterEffect : Prop :=
  ∀ (s : State) (addr : Byte), s.Ready → s.Answers 6 →
    ∃ t v, exec (.readRegister addr) s = .next t ∧ t.res = some (.byte v) ∧ Completed [.read (addr.extractLsb' 0 7)] s t ∧
      (regClass s.par (addr.extractLsb' 0 7) ≠ .window →
        v = t.reg (addr.extractLsb' 0 7) ∧ RadioFrame 6 [] [] s t) ∧
      (regClass s.par (addr.extractLsb' 0 7) = .window →
        v = t.fifoAt (s.reg s.par.regFifoAddrPtr) ∧
        t.reg s.par.regFifoAddrPtr = s.reg s.par.regFifoAddrPtr + 1#8 ∧ RadioFrame 6 [s.par.regFifoAddrPtr] [] s t)

/-- `writeRegister` on a ready session writes register `addr[6:0]` with six bulk transactions, by the class of the register: a
plain register and the mode register take the byte, the flags lose the bits written as 1 (said with RADIO still before the
write), the FIFO window stores the byte at the pointer and moves it by one. What a volatile status register holds afterwards is
free (log 9). -/
def Obligations.WriteRegisterEffect : Prop :=
  ∀ (s : State) (addr v : Byte), s.Ready → s.Answers 6 →
    ∃ t, exec (.writeRegister addr v) s = .next t ∧ t.res = some .unit ∧
      Completed [.write (addr.extractLsb' 0 7) v] s t ∧
      (regClass s.par (addr.extractLsb' 0 7) ≠ .window → RadioFrame 6 [addr.extractLsb' 0 7] [] s t) ∧
      (regClass s.par (addr.extractLsb' 0 7) = .plain ∨ addr.extractLsb' 0 7 = s.par.regOpMode →
        t.reg (addr.extractLsb' 0 7) = v) ∧
      (regClass s.par (addr.extractLsb' 0 7) = .latched → s.RadioStill 6 →
        t.reg (addr.extractLsb' 0 7) = s.reg (addr.extractLsb' 0 7) &&& ~~~v) ∧
      (regClass s.par (addr.extractLsb' 0 7) = .window →
        t.fifoAt (s.reg s.par.regFifoAddrPtr) = v ∧
        t.reg s.par.regFifoAddrPtr = s.reg s.par.regFifoAddrPtr + 1#8 ∧
        RadioFrame 6 [s.par.regFifoAddrPtr] [s.reg s.par.regFifoAddrPtr] s t)

/-- The byte `readRegister` returns when its transfer failed is the free value of log 22: on a closed session, where nothing is sent
and `LAST_CAUSE` becomes `SessionClosed`, and after a bus failure, where it becomes `BulkTransferError`. The statement holds for
every value of the free byte. -/
def Obligations.FailedReadIsFree : Prop :=
  (∀ (s : State) (addr : Byte), s.isOpen = false →
    ∃ t, exec (.readRegister addr) s = .next t ∧ t.res = some (.byte (Config.lostByte s.env.drawn)) ∧
      t.lastCause = .sessionClosed ∧ NothingSent s t) ∧
  (∀ (s : State) (addr : Byte) (pre : List Tick) (bad : Tick) (rest : List Tick), s.isOpen = true →
    s.Serialised (pre.length + 1) → s.env.ticks = pre ++ bad :: rest → pre.length < 6 → (∀ tk ∈ pre, tk.answer = .ok) →
    bad.answer ≠ .ok →
    ∃ t n, exec (.readRegister addr) s = .next t ∧ t.res = some (.byte (Config.lostByte n)) ∧
      t.lastCause = .bulkTransferError ∧ t.busFault = true ∧ t.env.ticks = rest)

/-- `setMode` writes the whole mode byte, `MODE_LORA_BIT` and the code of the mode; `getMode` returns the mode whose code stands
in bits 2:0, or `Other` of that code when no mode has it, and looks at no other bit. -/
def Obligations.ModeRegister : Prop :=
  (∀ (s : State) (m : OpMode), s.Ready → s.Answers 6 →
    ∃ t, exec (.setMode m) s = .next t ∧ t.res = some .unit ∧
      Completed [.write s.par.regOpMode (t.reg s.par.regOpMode)] s t ∧
      RadioFrame 6 [s.par.regOpMode] [] s t ∧
      t.reg s.par.regOpMode = s.par.modeLoraBit ||| (match m with
        | .sleep => s.par.modeSleep
        | .standby => s.par.modeStandby
        | .transmit => s.par.modeTx
        | .receiveContinuous => s.par.modeRxContinuous
        | .receiveSingle => s.par.modeRxSingle).setWidth 8) ∧
  (∀ (s : State), s.Ready → s.Answers 6 →
    ∃ t r, exec .getMode s = .next t ∧ t.res = some r ∧ Completed [.read s.par.regOpMode] s t ∧ RadioFrame 6 [] [] s t ∧
      (∀ m, modeCode s.par m = (t.reg s.par.regOpMode).extractLsb' 0 3 → r = .opmode m) ∧
      ((∀ m, modeCode s.par m ≠ (t.reg s.par.regOpMode).extractLsb' 0 3) →
        r = .other ((t.reg s.par.regOpMode).extractLsb' 0 3)))

/-- `getIrqFlags` returns the flags and clears none; `clearIrqFlags` leaves every flag 0, with RADIO still before the write. -/
def Obligations.IrqFlags : Prop :=
  (∀ (s : State), s.Ready → s.Answers 6 →
    ∃ t, exec .getIrqFlags s = .next t ∧ t.res = some (.byte (t.reg s.par.regIrqFlags)) ∧
      Completed [.read s.par.regIrqFlags] s t ∧ RadioFrame 6 [] [] s t) ∧
  (∀ (s : State), s.Ready → s.Answers 6 →
    ∃ t, exec .clearIrqFlags s = .next t ∧ t.res = some .unit ∧ Completed [.write s.par.regIrqFlags 0xFF#8] s t ∧
      RadioFrame 6 [s.par.regIrqFlags] [] s t ∧ (s.RadioStill 6 → t.reg s.par.regIrqFlags = 0x00#8))

/-! ### Parameter codecs, as functions (46_param_codecs.md) -/

/-- `round_haz` is the nearest integer, of two equally near the one farther from zero, and `floor(q + 1/2)` for `q >= 0`; a
frequency of a whole number of Hz is never equally near to two (R242 marks this as its own inference). `frf_dec` is exact. A
frequency fits the three registers exactly below 1024 MHz less half a step, and decoding an encoded frequency is off by at most
half a step, 1/32768 MHz. -/
def Obligations.FrequencyLaws : Prop :=
  (∀ q : Rat, |q - (roundHaz q : Rat)| ≤ 1 / 2 ∧ (|q - (roundHaz q : Rat)| = 1 / 2 → |q| < |(roundHaz q : Rat)|) ∧
    (0 ≤ q → roundHaz q = (q + 1 / 2).floor)) ∧
  (∀ hz : Nat, |(hz : Rat) / 1000000 * 16384 - (roundHaz ((hz : Rat) / 1000000 * 16384) : Rat)| ≠ 1 / 2) ∧
  (∀ v : BitVec 24, frfDec v = (v.toNat : Rat) * 32 / 2 ^ 19 ∧ frfDec v * 1000000 = (v.toNat : Rat) * 15625 / 256) ∧
  (frfDec 0xD90000#24 = 868 ∧ frfEnc 868 = 0xD90000 ∧ frfEnc 915 = 0xE4C000 ∧ frfEnc 433 = 0x6C4000 ∧
    frfEnc (8681 / 10) = 0xD90666 ∧ frfEnc 0 = 0) ∧
  (∀ f : Rat, 0 ≤ f → (frfEnc f ≤ 0xFFFFFF ↔ f < 1024 - 1 / 32768)) ∧
  (∀ f : Rat, 0 ≤ f → frfEnc f ≤ 0xFFFFFF → |frfDec (BitVec.ofNat 24 (frfEnc f).toNat) - f| ≤ 1 / 32768)

/-- The bandwidth index is the least one whose table entry, in kHz, is at least the request, or 9 when there is none; it never
falls when the request rises; each table entry selects itself. -/
def Obligations.BandwidthLaws : Prop :=
  Config.bwTable = [7800, 10400, 15600, 20800, 31250, 41700, 62500, 125000, 250000, 500000].map (fun hz : Rat => hz / 1000) ∧
  (∀ b : Rat, bwIdx b ≤ 9 ∧ (∀ i e, Config.bwTable[i]? = some e → i < bwIdx b → e < b) ∧
    (∀ e, Config.bwTable[bwIdx b]? = some e → b ≤ e ∨ bwIdx b = 9)) ∧
  (∀ b c : Rat, b ≤ c → bwIdx b ≤ bwIdx c) ∧
  (∀ i e, Config.bwTable[i]? = some e → bwIdx e = i)

/-- The TX power byte: with boost bit 7 and the level clamped to 2..20 less 2, without it the level clamped to 0..15; bits 6:5 are
0. Decoding adds 2 back when bit 7 is set, looks at bits 4:0 only, and gives the clamped level and the boost choice back. -/
def Obligations.PowerLaws : Prop :=
  (∀ level : Int, ((pwrEnc level true).toNat : Int) = 128 + (clamp level 2 20 - 2) ∧
    ((pwrEnc level false).toNat : Int) = clamp level 0 15) ∧
  (∀ v : Byte, pwrDec v = (if v.getLsbD 7 then ((v.toNat % 32 + 2 : Nat) : Int) else ((v.toNat % 32 : Nat) : Int), v.getLsbD 7)) ∧
  (∀ (level : Int) (boost : Bool),
    pwrDec (pwrEnc level boost) = (if boost then clamp level 2 20 else clamp level 0 15, boost) ∧
    (pwrEnc level boost).extractLsb' 5 2 = 0#2) ∧
  (pwrEnc 17 true = 0x8F#8 ∧ pwrEnc 25 true = 0x92#8 ∧ pwrEnc (-3) true = 0x80#8 ∧ pwrEnc 20 false = 0x0F#8 ∧
    pwrEnc (-1) false = 0x00#8)

/-! ### Parameter codecs, as operations -/

/-- `setFrequency` writes the rounded value over the three registers, most significant byte first, and makes no other access; a frequency
that is negative or does not fit is dropped before any bus activity with `InvalidParameter`. -/
def Obligations.SetFrequencyEffect : Prop :=
  (∀ (s : State) (f : Rat), s.Ready → s.Answers 18 → 0 ≤ f → frfEnc f ≤ 0xFFFFFF →
    ∃ (t : State) (v : BitVec 24), (v.toNat : Int) = frfEnc f ∧ exec (.setFrequency f) s = .next t ∧
      t.res = some .unit ∧
      Completed [.write s.par.regFrfMsb (v.extractLsb' 16 8), .write s.par.regFrfMid (v.extractLsb' 8 8),
        .write s.par.regFrfLsb (v.extractLsb' 0 8)] s t ∧
      RadioFrame 18 [s.par.regFrfMsb, s.par.regFrfMid, s.par.regFrfLsb] [] s t ∧
      t.reg s.par.regFrfMsb = v.extractLsb' 16 8 ∧ t.reg s.par.regFrfMid = v.extractLsb' 8 8 ∧
      t.reg s.par.regFrfLsb = v.extractLsb' 0 8) ∧
  (∀ (s : State) (f : Rat), f < 0 ∨ 0xFFFFFF < frfEnc f →
    ∃ t, exec (.setFrequency f) s = .next t ∧ t.res = some .unit ∧ t.lastCause = .invalidParameter ∧ NothingSent s t)

/-- The codecs that share a register write their own field and keep every other bit: `setBandwidth` bits 7:4 and `setCodingRate`
bits 3:1 of one register, `setSpreadingFactor` bits 7:4 of another; `setSpreadingFactor` also writes the detection pair that goes
with the clamped factor. -/
def Obligations.FieldSetters : Prop :=
  (∀ (s : State) (b : Rat), s.Ready → s.Answers 12 →
    ∃ t, exec (.setBandwidth b) s = .next t ∧ t.res = some .unit ∧
      Completed [.read s.par.regModemConfig1, .write s.par.regModemConfig1 (t.reg s.par.regModemConfig1)] s t ∧
      RadioFrame 12 [s.par.regModemConfig1] [] s t ∧
      t.reg s.par.regModemConfig1 =
        BitVec.ofNat 4 (bwIdx b) ++ (s.reg s.par.regModemConfig1).extractLsb' 0 4) ∧
  (∀ (s : State) (den : Int), s.Ready → s.Answers 12 →
    ∃ t, exec (.setCodingRate den) s = .next t ∧ t.res = some .unit ∧
      Completed [.read s.par.regModemConfig1, .write s.par.regModemConfig1 (t.reg s.par.regModemConfig1)] s t ∧
      RadioFrame 12 [s.par.regModemConfig1] [] s t ∧
      t.reg s.par.regModemConfig1 = (s.reg s.par.regModemConfig1).extractLsb' 4 4 ++
        BitVec.ofInt 3 (clamp den 5 8 - 4) ++ (s.reg s.par.regModemConfig1).extractLsb' 0 1) ∧
  (∀ (s : State) (sf : Int), s.Ready → s.Answers 24 →
    ∃ t, exec (.setSpreadingFactor sf) s = .next t ∧ t.res = some .unit ∧
      Completed [.read s.par.regModemConfig2, .write s.par.regModemConfig2 (t.reg s.par.regModemConfig2),
        .write s.par.regDetectOpt (t.reg s.par.regDetectOpt), .write s.par.regDetectThr (t.reg s.par.regDetectThr)] s t ∧
      RadioFrame 24 [s.par.regModemConfig2, s.par.regDetectOpt, s.par.regDetectThr] [] s t ∧
      t.reg s.par.regModemConfig2 =
        BitVec.ofInt 4 (clamp sf 6 12) ++ (s.reg s.par.regModemConfig2).extractLsb' 0 4 ∧
      t.reg s.par.regDetectOpt = (if clamp sf 6 12 = 6 then s.par.detOptSf6 else s.par.detOptSf7to12) ∧
      t.reg s.par.regDetectThr = (if clamp sf 6 12 = 6 then s.par.detThrSf6 else s.par.detThrSf7to12))

/-- The codecs that write whole registers: TX power, sync word, preamble length (high byte first), and IQ polarity, written in list
order, whose registers end with the last byte the list of writes names for each. -/
def Obligations.RegisterSetters : Prop :=
  (∀ (s : State) (level : Int) (boost : Bool), s.Ready → s.Answers 6 →
    ∃ t, exec (.setTxPower level boost) s = .next t ∧ t.res = some .unit ∧
      Completed [.write s.par.regPaConfig (t.reg s.par.regPaConfig)] s t ∧ RadioFrame 6 [s.par.regPaConfig] [] s t ∧
      t.reg s.par.regPaConfig = if boost then 0x80#8 ||| BitVec.ofInt 8 (clamp level 2 20 - 2)
        else BitVec.ofInt 8 (clamp level 0 15)) ∧
  (∀ (s : State) (w : Byte), s.Ready → s.Answers 6 →
    ∃ t, exec (.setSyncWord w) s = .next t ∧ t.res = some .unit ∧ Completed [.write s.par.regSyncWord w] s t ∧
      RadioFrame 6 [s.par.regSyncWord] [] s t ∧ t.reg s.par.regSyncWord = w) ∧
  (∀ (s : State) (v : BitVec 16), s.Ready → s.Answers 12 →
    ∃ t, exec (.setPreambleLength v) s = .next t ∧ t.res = some .unit ∧
      Completed [.write s.par.regPreambleMsb (v.extractLsb' 8 8), .write s.par.regPreambleLsb (v.extractLsb' 0 8)] s t ∧
      RadioFrame 12 [s.par.regPreambleMsb, s.par.regPreambleLsb] [] s t ∧
      t.reg s.par.regPreambleMsb = v.extractLsb' 8 8 ∧ t.reg s.par.regPreambleLsb = v.extractLsb' 0 8) ∧
  (∀ (s : State) (inv : Bool), s.Ready → s.Answers (6 * (s.par.iqWrites inv).length) →
    (∀ av ∈ s.par.iqWrites inv, regClass s.par av.1 = .plain) →
    ∃ t, exec (.setInvertIQ inv) s = .next t ∧ t.res = some .unit ∧ Completed (writesOf (s.par.iqWrites inv)) s t ∧
      RadioFrame (6 * (s.par.iqWrites inv).length) ((s.par.iqWrites inv).map Prod.fst) [] s t ∧
      ∀ a ∈ (s.par.iqWrites inv).map Prod.fst, (s.par.iqWrites inv).reverse.lookup a = some (t.reg a))

/-- The getters of plain registers return what the registers hold, read in the order listed, and change nothing at the radio. -/
def Obligations.PlainGetters : Prop :=
  ∀ (s : State), s.Ready →
    (s.Answers 18 → ∃ t, exec .getFrequency s = .next t ∧
      Completed [.read s.par.regFrfMsb, .read s.par.regFrfMid, .read s.par.regFrfLsb] s t ∧ RadioFrame 18 [] [] s t ∧
      t.res = some (.rat (((s.reg s.par.regFrfMsb ++ s.reg s.par.regFrfMid ++ s.reg s.par.regFrfLsb).toNat : Rat) / 16384))) ∧
    (s.Answers 6 → ∃ t, exec .getBandwidth s = .next t ∧ Completed [.read s.par.regModemConfig1] s t ∧
      RadioFrame 6 [] [] s t ∧
      t.res = some (match Config.bwTable[((s.reg s.par.regModemConfig1).extractLsb' 4 4).toNat]? with
        | some b => .rat b
        | none => .reserved ((s.reg s.par.regModemConfig1).extractLsb' 4 4).toNat)) ∧
    (s.Answers 6 → ∃ t, exec .getSpreadingFactor s = .next t ∧ Completed [.read s.par.regModemConfig2] s t ∧
      RadioFrame 6 [] [] s t ∧
      t.res = some (.int ((s.reg s.par.regModemConfig2).extractLsb' 4 4).toNat)) ∧
    (s.Answers 6 → ∃ t, exec .getCodingRate s = .next t ∧ Completed [.read s.par.regModemConfig1] s t ∧
      RadioFrame 6 [] [] s t ∧
      t.res = some (.int (((s.reg s.par.regModemConfig1).extractLsb' 1 3).toNat + 4))) ∧
    (s.Answers 6 → ∃ t, exec .getTxPower s = .next t ∧ Completed [.read s.par.regPaConfig] s t ∧
      RadioFrame 6 [] [] s t ∧
      t.res = some (.power (((s.reg s.par.regPaConfig).extractLsb' 0 5).toNat +
        (if (s.reg s.par.regPaConfig).getLsbD 7 then 2 else 0)) ((s.reg s.par.regPaConfig).getLsbD 7))) ∧
    (s.Answers 12 → ∃ t, exec .getPreambleLength s = .next t ∧
      Completed [.read s.par.regPreambleMsb, .read s.par.regPreambleLsb] s t ∧ RadioFrame 12 [] [] s t ∧
      t.res = some (.u16 (s.reg s.par.regPreambleMsb ++ s.reg s.par.regPreambleLsb))) ∧
    (s.Answers 6 → ∃ t, exec .getSyncWord s = .next t ∧ Completed [.read s.par.regSyncWord] s t ∧
      RadioFrame 6 [] [] s t ∧
      t.res = some (.byte (s.reg s.par.regSyncWord)))

/-- The two signal getters read volatile registers, as RADIO's own steps have left them: RSSI is the byte less 137, SNR the signed
byte over 4. -/
def Obligations.SignalGetters : Prop :=
  ∀ (s : State), s.Ready → s.Answers 6 →
    (∃ t, exec .getRssi s = .next t ∧ Completed [.read s.par.regPktRssi] s t ∧
      RadioFrame 6 [] [] s t ∧
      t.res = some (.int ((t.reg s.par.regPktRssi).toNat - 137))) ∧
    (∃ t, exec .getSnr s = .next t ∧ Completed [.read s.par.regPktSnr] s t ∧
      RadioFrame 6 [] [] s t ∧
      t.res = some (.rat (((t.reg s.par.regPktSnr).toInt : Rat) / 4)))

/-- What a setter stored, the getter after it returns: the clamped coding rate, spreading factor and TX power, the preamble
length, the sync word, the selected bandwidth, and a frequency within half a step. -/
def Obligations.GetterAfterSetter : Prop :=
  (∀ (s : State) (den : Int), s.Ready → s.Answers 18 →
    ∃ t u, exec (.setCodingRate den) s = .next t ∧ exec .getCodingRate t = .next u ∧
      u.res = some (.int (clamp den 5 8))) ∧
  (∀ (s : State) (sf : Int), s.Ready → s.Answers 30 →
    ∃ t u, exec (.setSpreadingFactor sf) s = .next t ∧ exec .getSpreadingFactor t = .next u ∧
      u.res = some (.int (clamp sf 6 12))) ∧
  (∀ (s : State) (level : Int) (boost : Bool), s.Ready → s.Answers 12 →
    ∃ t u, exec (.setTxPower level boost) s = .next t ∧ exec .getTxPower t = .next u ∧
      u.res = some (.power (if boost then clamp level 2 20 else clamp level 0 15) boost)) ∧
  (∀ (s : State) (v : BitVec 16), s.Ready → s.Answers 24 →
    ∃ t u, exec (.setPreambleLength v) s = .next t ∧ exec .getPreambleLength t = .next u ∧ u.res = some (.u16 v)) ∧
  (∀ (s : State) (w : Byte), s.Ready → s.Answers 12 →
    ∃ t u, exec (.setSyncWord w) s = .next t ∧ exec .getSyncWord t = .next u ∧ u.res = some (.byte w)) ∧
  (∀ (s : State) (b : Rat), s.Ready → s.Answers 18 →
    ∃ t u e, exec (.setBandwidth b) s = .next t ∧ exec .getBandwidth t = .next u ∧
      Config.bwTable[bwIdx b]? = some e ∧ u.res = some (.rat e)) ∧
  (∀ (s : State) (f : Rat), s.Ready → s.Answers 36 → 0 ≤ f → frfEnc f ≤ 0xFFFFFF →
    ∃ t u g, exec (.setFrequency f) s = .next t ∧ exec .getFrequency t = .next u ∧
      u.res = some (.rat g) ∧ |g - f| ≤ 1 / 32768)

/-! ### Packet sequencers (47_packet_sequencers.md) -/

/-- `send` whose TX-done flag appears before its poll number k (counted from 0), the time being short of 2 seconds at the tests
before: the result is `true`, the payload is staged, the flags are clear, the mode is Standby and the IQ polarity normal. The
register accesses are exactly those of the steps, in order. RADIO does nothing else by itself; what it sets and how it changes the
mode register at that moment does not matter. -/
def Obligations.SendSucceeds : Prop :=
  ∀ (s : State) (data : List Byte) (inv : Bool) (k n : Nat) (clk : List Rat) (more : List (List Rat)) (flags : Byte)
    (mode : Option Byte), s.Ready → s.IqOnly → data.length ≤ 255 →
    n = 6 * ((sendSetupAccesses s.par data inv).length + k + 3 + (restoreAccesses s.par inv).length) → s.Answers n →
    s.env.clocks = clk :: more → k ≤ clk.length → (∀ x ∈ clk.take k, x < 2) →
    s.reg s.par.regIrqFlags &&& s.par.irqTxDone = 0#8 → flags &&& s.par.irqTxDone ≠ 0#8 →
    s.RadioActs n [(6 * ((sendSetupAccesses s.par data inv).length + k),
      { RadioEvent.nothing with setFlags := flags, opMode := mode })] →
    ∃ t, exec (.send data inv) s = .next t ∧ t.res = some (.bool true) ∧
      Completed (sendSetupAccesses s.par data inv ++ List.replicate (k + 1) (.read s.par.regIrqFlags) ++
        [.write s.par.regIrqFlags 0xFF#8, .write s.par.regOpMode (s.par.modeLoraBit ||| s.par.modeStandby.setWidth 8)] ++
        restoreAccesses s.par inv) s t ∧ Staged data s t ∧
      t.reg s.par.regOpMode = s.par.modeLoraBit ||| s.par.modeStandby.setWidth 8 ∧ t.reg s.par.regIrqFlags = 0x00#8

/-- `send` whose TX-done flag never appears: after the first test that finds 2 seconds gone the result is `false` with `Timeout`.
The payload is staged and the IQ polarity normal again; the flags are not cleared and the mode is left at Transmit. The register
accesses are exactly those of the steps, in order. -/
def Obligations.SendTimesOut : Prop :=
  ∀ (s : State) (data : List Byte) (inv : Bool) (k n : Nat) (clk : List Rat) (more : List (List Rat)), s.Ready → s.IqOnly →
    data.length ≤ 255 →
    n = 6 * ((sendSetupAccesses s.par data inv).length + k + 1 + (restoreAccesses s.par inv).length) → s.Answers n →
    s.env.clocks = clk :: more → k ≤ clk.length → (∀ x ∈ clk.take k, x < 2) → (∀ x, clk[k]? = some x → 2 ≤ x) →
    s.reg s.par.regIrqFlags &&& s.par.irqTxDone = 0#8 → s.RadioStill n →
    ∃ t, exec (.send data inv) s = .next t ∧ t.res = some (.bool false) ∧ t.lastCause = .timeout ∧
      Completed (sendSetupAccesses s.par data inv ++ List.replicate (k + 1) (.read s.par.regIrqFlags) ++
        restoreAccesses s.par inv) s { t with lastCause := s.lastCause } ∧ Staged data s t ∧
      t.reg s.par.regOpMode = s.par.modeLoraBit ||| s.par.modeTx.setWidth 8 ∧
      t.reg s.par.regIrqFlags = s.reg s.par.regIrqFlags

/-- `receive` whose packet arrives before its poll number k (counted from 0), RX-done without CRC error, the time being short of
the bound at the tests before: the result is as many bytes as `REG_RX_NB_BYTES` says, read from the FIFO from
`REG_FIFO_RX_CURRENT` on and around its end; the flags are cleared, the IQ polarity is normal, the mode stays
ReceiveContinuous. The register accesses are exactly those of the steps, in order. -/
def Obligations.ReceiveSucceeds : Prop :=
  ∀ (s : State) (bound : Rat) (inv : Bool) (k n nb : Nat) (clk : List Rat) (more : List (List Rat)) (e : RadioEvent), s.Ready →
    s.IqOnly → 0 ≤ bound → nb = (e.nbBytes.getD (s.reg s.par.regRxNbBytes)).toNat →
    n = 6 * ((receiveSetupAccesses s.par inv).length + k + 5 + nb + (restoreAccesses s.par inv).length) → s.Answers n →
    s.env.clocks = clk :: more → k ≤ clk.length → (∀ x ∈ clk.take k, 0 ≤ x ∧ x < bound) →
    e.setFlags &&& s.par.irqRxDone ≠ 0#8 → e.setFlags &&& s.par.irqCrcError = 0#8 → e.opMode = none →
    s.RadioActs n [(6 * ((receiveSetupAccesses s.par inv).length + k), e)] →
    ∃ t, exec (.receive bound inv) s = .next t ∧
      Completed (receiveSetupAccesses s.par inv ++ List.replicate (k + 1) (.read s.par.regIrqFlags) ++
        payloadAccesses s.par nb (t.reg s.par.regFifoRxCurrent) ++ restoreAccesses s.par inv) s t ∧ Received s t ∧
      t.res = some (.bytes ((List.range nb).map fun i => t.fifoAt (t.reg s.par.regFifoRxCurrent + BitVec.ofNat 8 i))) ∧
      (t.reg s.par.regRxNbBytes).toNat = nb ∧
      t.reg s.par.regFifoRxCurrent = e.rxCurrent.getD (s.reg s.par.regFifoRxCurrent) ∧
      t.reg s.par.regFifoAddrPtr = t.reg s.par.regFifoRxCurrent + BitVec.ofNat 8 nb ∧
      ∀ a, t.fifoAt a = (e.fifo.reverse.lookup a).getD (s.fifoAt a)

/-- `receive` with no packet: after the first test that finds the bound passed the result is empty with `Timeout`; the flags are
cleared, the IQ polarity is normal, the mode stays ReceiveContinuous, the FIFO and its pointer are as before. Flags other than
RX-done may appear at any poll: they end nothing and clear nothing (R298), and the register accesses are exactly those of the
steps, in order. A bound of 0 ends it after one poll. -/
def Obligations.ReceiveTimesOut : Prop :=
  ∀ (s : State) (bound : Rat) (inv : Bool) (k n : Nat) (clk : List Rat) (more : List (List Rat)), s.Ready → s.IqOnly →
    0 ≤ bound → n = 6 * ((receiveSetupAccesses s.par inv).length + k + 2 + (restoreAccesses s.par inv).length) → s.Answers n →
    s.env.clocks = clk :: more → k ≤ clk.length → (∀ x ∈ clk.take k, 0 ≤ x ∧ x < bound) → (∀ x, clk[k]? = some x → bound ≤ x) →
    s.RadioSets (6 * ((receiveSetupAccesses s.par inv).length + k + 2)) n s.par.irqRxDone →
    ∃ t, exec (.receive bound inv) s = .next t ∧ t.res = some (.bytes []) ∧ t.lastCause = .timeout ∧
      Completed (receiveSetupAccesses s.par inv ++ List.replicate (k + 1) (.read s.par.regIrqFlags) ++
        [.write s.par.regIrqFlags 0xFF#8] ++ restoreAccesses s.par inv) s { t with lastCause := s.lastCause } ∧ Received s t ∧
      t.reg s.par.regFifoAddrPtr = s.reg s.par.regFifoAddrPtr ∧ (∀ a ∈ statusRegs s.par, t.reg a = s.reg a) ∧
      ∀ a, t.fifoAt a = s.fifoAt a

/-- `receive` whose first look at the flags shows RX-done with CRC error clears the flags and, the time being short of the bound,
looks again without a sleep; a packet that has arrived by then is delivered. -/
def Obligations.ReceiveRetriesAfterCrcError : Prop :=
  ∀ (s : State) (bound : Rat) (inv : Bool) (n nb : Nat) (x : Rat) (clk : List Rat) (more : List (List Rat))
    (e1 e2 : RadioEvent), s.Ready → s.IqOnly → 0 ≤ x → x < bound →
    nb = ((e2.nbBytes.or e1.nbBytes).getD (s.reg s.par.regRxNbBytes)).toNat →
    n = 6 * ((receiveSetupAccesses s.par inv).length + 7 + nb + (restoreAccesses s.par inv).length) → s.Answers n →
    s.env.clocks = (x :: clk) :: more →
    e1.setFlags &&& s.par.irqRxDone ≠ 0#8 → e1.setFlags &&& s.par.irqCrcError ≠ 0#8 → e1.opMode = none →
    e2.setFlags &&& s.par.irqRxDone ≠ 0#8 → e2.setFlags &&& s.par.irqCrcError = 0#8 → e2.opMode = none →
    s.RadioActs n [(6 * (receiveSetupAccesses s.par inv).length, e1),
      (6 * ((receiveSetupAccesses s.par inv).length + 2), e2)] →
    ∃ t, exec (.receive bound inv) s = .next t ∧
      Completed (receiveSetupAccesses s.par inv ++ [.read s.par.regIrqFlags, .write s.par.regIrqFlags 0xFF#8,
        .read s.par.regIrqFlags] ++ payloadAccesses s.par nb (t.reg s.par.regFifoRxCurrent) ++ restoreAccesses s.par inv) s t ∧
      Received s t ∧
      t.res = some (.bytes ((List.range nb).map fun i => t.fifoAt (t.reg s.par.regFifoRxCurrent + BitVec.ofNat 8 i))) ∧
      (t.reg s.par.regRxNbBytes).toNat = nb ∧ ∀ q, t.trace.count (.sleep q) = s.trace.count (.sleep q)

/-- A payload of more than 255 bytes is refused before anything else, on an open or a closed session; a beacon interval of more
than 65535 whole seconds is dropped. Nothing is sent and no register changes but `LAST_CAUSE`. -/
def Obligations.PacketRejected : Prop :=
  (∀ (s : State) (data : List Byte) (inv : Bool), 255 < data.length →
    ∃ t, exec (.send data inv) s = .next t ∧ t.res = some (.bool false) ∧ t.lastCause = .payloadTooLong ∧ NothingSent s t ∧
      t.env = s.env) ∧
  (∀ (s : State) (ms : Nat), 65535 < ms / 1000 →
    ∃ t, exec (.startBeacon ms) s = .next t ∧ t.res = some .unit ∧ t.lastCause = .invalidParameter ∧ NothingSent s t ∧
      t.env = s.env)

/-- `startBeacon` stages the beacon payload, writes the whole seconds over the beacon register pair as `BEACON_ENC` splits them (high
byte first by its default; the split is a parameter, log 2), then the beacon pattern into the mode register, and makes no other
access; `stopBeacon` forces Standby and undoes nothing else. -/
def Obligations.BeaconEffect : Prop :=
  (∀ (s : State) (ms n : Nat), s.Ready → ms / 1000 ≤ 65535 → n = 6 * (5 + s.par.beaconPayload.length) → s.Answers n →
    ∃ t, exec (.startBeacon ms) s = .next t ∧ t.res = some .unit ∧
      Completed (stageAccesses s.par s.par.beaconPayload ++ [.write s.par.regBeaconA (t.reg s.par.regBeaconA),
        .write s.par.regBeaconB (t.reg s.par.regBeaconB), .write s.par.regOpMode s.par.modeBeacon]) s t ∧
      t.reg s.par.regOpMode = s.par.modeBeacon ∧ t.reg s.par.regBeaconA = (s.par.beaconEnc.apply (ms / 1000)).1 ∧
      t.reg s.par.regBeaconB = (s.par.beaconEnc.apply (ms / 1000)).2 ∧
      (s.par.beaconEnc = .highLow → t.reg s.par.regBeaconA = BitVec.ofNat 8 (ms / 1000 / 256) ∧
        t.reg s.par.regBeaconB = BitVec.ofNat 8 (ms / 1000)) ∧
      t.reg s.par.regPayloadLength = BitVec.ofNat 8 s.par.beaconPayload.length ∧
      t.reg s.par.regFifoAddrPtr = BitVec.ofNat 8 s.par.beaconPayload.length ∧
      (s.RadioStill n → ∀ j b, s.par.beaconPayload[j]? = some b → t.fifoAt (BitVec.ofNat 8 j) = b) ∧
      RadioFrame n [s.par.regOpMode, s.par.regBeaconA, s.par.regBeaconB, s.par.regPayloadLength, s.par.regFifoAddrPtr]
        ((List.range s.par.beaconPayload.length).map (BitVec.ofNat 8)) s t) ∧
  (∀ s : State, s.Ready → s.Answers 6 →
    ∃ t, exec .stopBeacon s = .next t ∧ t.res = some .unit ∧
      Completed [.write s.par.regOpMode (t.reg s.par.regOpMode)] s t ∧ RadioFrame 6 [s.par.regOpMode] [] s t ∧
      t.reg s.par.regOpMode = s.par.modeLoraBit ||| s.par.modeStandby.setWidth 8)

/-- `readTemperature` returns the sensor byte and the calibration byte and puts the mode byte back; `calibrateTemperature` writes
the calibration byte and puts the mode byte back; with RADIO still nothing else changes. A read of the mode that fails ends
either with its failure value and `TemperatureFailed`; a sensor or calibration read that fails ends the first the same way and
leaves the radio in the alternate mode. A callback's request for either whose read of the mode fails records the same cause and
sends nothing more; that a callback is a drawn list of requests that leave port RES alone is the model's choice (log 6), and so is
that a POLL_STEP presented while one is in progress runs it to its end (log 19). -/
def Obligations.TemperatureEffect : Prop :=
  (∀ s : State, s.Ready → s.Answers 30 → s.RadioStill 30 →
    ∃ t, exec .readTemperature s = .next t ∧ t.res = some (.temperature (s.reg s.par.regTemp) (s.reg s.par.regTempCal)) ∧
      Completed [.read s.par.regOpMode, .write s.par.regOpMode s.par.tempModeByte, .read s.par.regTemp, .read s.par.regTempCal,
        .write s.par.regOpMode (s.reg s.par.regOpMode)] s t ∧ (∀ a, t.reg a = s.reg a) ∧ ∀ a, t.fifoAt a = s.fifoAt a) ∧
  (∀ (s : State) (offset : Byte), s.Ready → s.Answers 24 → s.RadioStill 24 →
    ∃ t, exec (.calibrateTemperature offset) s = .next t ∧ t.res = some (.bool true) ∧
      Completed [.read s.par.regOpMode, .write s.par.regOpMode s.par.tempModeByte, .write s.par.regTempCal offset,
        .write s.par.regOpMode (s.reg s.par.regOpMode)] s t ∧
      t.reg s.par.regTempCal = offset ∧ (∀ a, a ≠ s.par.regTempCal → t.reg a = s.reg a) ∧ ∀ a, t.fifoAt a = s.fifoAt a) ∧
  (∀ (s : State) (offset : Byte) (pre : List Tick) (bad : Tick) (rest : List Tick), s.Ready →
    s.Serialised (pre.length + 1) → s.env.ticks = pre ++ bad :: rest → (∀ tk ∈ pre, tk.answer = .ok) → bad.answer ≠ .ok → s.RadioStill (pre.length + 1) →
    (pre.length < 6 →
      (∃ t, exec .readTemperature s = .next t ∧ t.res = some .noTemperature ∧ t.lastCause = .temperatureFailed ∧
        t.busFault = true ∧ t.env.ticks = rest ∧ t.reg s.par.regOpMode = s.reg s.par.regOpMode) ∧
      (∃ t, exec (.calibrateTemperature offset) s = .next t ∧ t.res = some (.bool false) ∧
        t.lastCause = .temperatureFailed ∧ t.busFault = true ∧ t.env.ticks = rest ∧
        t.reg s.par.regOpMode = s.reg s.par.regOpMode)) ∧
    (12 ≤ pre.length → pre.length < 24 →
      ∃ t, exec .readTemperature s = .next t ∧ t.res = some .noTemperature ∧ t.lastCause = .temperatureFailed ∧
        t.busFault = true ∧ t.env.ticks = rest ∧ t.reg s.par.regOpMode = s.par.tempModeByte)) ∧
  (∀ (s : State) (i : Instr) (offset : Byte) (elapsed : List Rat) (pre : List Tick) (bad : Tick) (rest : List Tick),
    s.isOpen = true → i = .readTemperature ∨ i = .calibrateTemperature offset →
    s.pseq = .callback (Callback.start [{ op := i, elapsed := elapsed }]) →
    s.env.ticks = pre ++ bad :: rest → pre.length < 6 → (∀ tk ∈ pre, tk.answer = .ok) → bad.answer ≠ .ok →
    ∃ t, exec .pollStep s = .next t ∧ t.lastCause = .temperatureFailed ∧ t.busFault = true ∧ t.env.ticks = rest ∧
      t.pseq = .idle ∧ t.isOpen = s.isOpen ∧ t.seq = s.seq ∧ t.buf = s.buf ∧ t.res = s.res)
end

