-- ==== Sys2Proof/Laws/Memory.lean ====
section
/-! SUPPORT. The laws of the byte spaces: a read after a write, and the canonical form that every write keeps. -/

namespace Sys2Proof.Machine

/-- What the canonical form says, as propositions. -/
theorem Memory.wf_iff (size : Nat) (m : Memory) :
    m.wf size = true ↔ (m.Pairwise fun x y => x.1 < y.1) ∧ ∀ c ∈ m, c.1 < size ∧ c.2 ≠ Memory.blank := by
  simp [Memory.wf]

theorem Memory.wf_nil (size : Nat) : Memory.wf size [] = true := rfl

theorem Memory.wf_cons (size : Nat) (b : Nat) (w : Byte) (m : Memory) :
    Memory.wf size ((b, w) :: m) = true ↔
      (∀ c ∈ m, b < c.1) ∧ b < size ∧ w ≠ Memory.blank ∧ Memory.wf size m = true := by
  simp only [Memory.wf_iff, List.pairwise_cons, List.mem_cons, forall_eq_or_imp]
  tauto

theorem Memory.read_below (m : Memory) (a : Nat) (h : ∀ c ∈ m, a < c.1) : m.read a = Memory.blank := by
  induction m with
  | nil => rfl
  | cons c m ih =>
    have h1 : a ≠ c.1 := by have := h c (by simp); omega
    simp only [Memory.read, if_neg h1]
    exact ih fun d hd => h d (by simp [hd])

/-- Every address but the one written reads as before. -/
theorem Memory.read_write_other (m : Memory) (a a' : Nat) (v : Byte) (h : a' ≠ a) :
    (m.write a v).read a' = m.read a' := by
  induction m with
  | nil => simp only [Memory.write]; split <;> simp [Memory.read, h]
  | cons c m ih =>
    obtain ⟨b, w⟩ := c
    simp only [Memory.write]
    split
    · split <;> simp [Memory.read, h]
    · split
      · subst b; split <;> simp [Memory.read, h]
      · simp only [Memory.read, ih]

/-- The address written reads as what was written. -/
theorem Memory.read_write_same (size : Nat) (m : Memory) (a : Nat) (v : Byte) (h : m.wf size = true) :
    (m.write a v).read a = v := by
  induction m with
  | nil => simp only [Memory.write]; split <;> simp_all [Memory.read]
  | cons c m ih =>
    obtain ⟨b, w⟩ := c
    rw [Memory.wf_cons] at h
    obtain ⟨hb, -, -, hm⟩ := h
    simp only [Memory.write]
    split
    · rename_i hlt
      split
      · rename_i hv
        rw [hv]
        exact Memory.read_below _ _ fun d hd => by
          rcases List.mem_cons.1 hd with rfl | hd
          · exact hlt
          · exact lt_trans hlt (hb d hd)
      · simp [Memory.read]
    · split
      · subst b
        split
        · rename_i hv; rw [hv]; exact Memory.read_below _ _ hb
        · simp [Memory.read]
      · rename_i hne; simp only [Memory.read, if_neg hne, ih hm]

theorem Memory.mem_write (m : Memory) (a : Nat) (v : Byte) (c : Host.Cell) (h : c ∈ m.write a v) :
    c ∈ m ∨ (c = (a, v) ∧ v ≠ Memory.blank) := by
  induction m with
  | nil => simp only [Memory.write] at h; split at h <;> simp_all
  | cons d m ih =>
    obtain ⟨b, w⟩ := d
    simp only [Memory.write] at h
    split at h
    · split at h <;> simp_all; tauto
    · split at h
      · split at h <;> simp_all; tauto
      · rcases List.mem_cons.1 h with rfl | h
        · simp
        · rcases ih h with h | h
          · simp [h]
          · exact .inr h

/-- A write keeps the canonical form. -/
theorem Memory.wf_write (size : Nat) (m : Memory) (a : Nat) (v : Byte) (ha : a < size) (h : m.wf size = true) :
    (m.write a v).wf size = true := by
  induction m with
  | nil =>
    simp only [Memory.write]
    split
    · exact Memory.wf_nil _
    · rename_i hv; exact (Memory.wf_cons ..).2 ⟨by simp, ha, hv, Memory.wf_nil _⟩
  | cons c m ih =>
    obtain ⟨b, w⟩ := c
    have h' := h
    rw [Memory.wf_cons] at h
    obtain ⟨hb, hbs, hw, hm⟩ := h
    simp only [Memory.write]
    split
    · rename_i hlt
      split
      · exact h'
      · rename_i hv
        refine (Memory.wf_cons ..).2 ⟨fun d hd => ?_, ha, hv, h'⟩
        rcases List.mem_cons.1 hd with rfl | hd
        · exact hlt
        · exact lt_trans hlt (hb d hd)
    · split
      · subst b
        split
        · exact hm
        · rename_i hv; exact (Memory.wf_cons ..).2 ⟨hb, ha, hv, hm⟩
      · refine (Memory.wf_cons ..).2 ⟨fun d hd => ?_, hbs, hw, ih hm⟩
        rcases Memory.mem_write m a v d hd with hd | ⟨rfl, -⟩
        · exact hb d hd
        · simp only; omega

/-- Right after reset both byte spaces are in canonical form. -/
theorem State.reset_wf : State.reset.radio.regs.wf 128 = true ∧ State.reset.radio.fifo.wf 256 = true := ⟨rfl, rfl⟩

end Sys2Proof.Machine
end

