-- ==== Sys2Proof/Laws/Radio.lean ====
section
/-! SUPPORT. What the operations on the radio can do: the classes of the named registers, registers and FIFO bytes after each
operation, the canonical form they keep. -/

namespace Sys2Proof.Machine

/-! ### The named registers are different (00_scope.md R10 (e)) -/

/-- Two registers at different places of `Params.regs` have different addresses. -/
theorem reg_ne_reg {p : Params} (h : p.Ok) (i j : Fin 31) (hij : i ≠ j) : p.regs[i] ≠ p.regs[j] := by
  intro he
  have := (List.Nodup.getElem_inj_iff h.regs (i := i.val) (j := j.val) (hi := i.isLt) (hj := j.isLt)).1 he
  exact hij (Fin.ext this)

/-- A named register is plain unless it is the FIFO window, the flags, the mode or a status register. -/
theorem regClass_plain {p : Params} (h : p.Ok) (i : Fin 31)
    (hi : i ∉ ([0, 1, 10, 11, 12, 13, 14, 29] : List (Fin 31))) : regClass p p.regs[i] = .plain := by
  simp only [List.mem_cons, not_or, List.not_mem_nil, not_false_eq_true, and_true] at hi
  obtain ⟨h0, h1, h10, h11, h12, h13, h14, h29⟩ := hi
  have e0 : p.regs[i] ≠ p.regFifo := reg_ne_reg h i 0 h0
  have e1 : p.regs[i] ≠ p.regOpMode := reg_ne_reg h i 1 h1
  have e10 : p.regs[i] ≠ p.regFifoRxCurrent := reg_ne_reg h i 10 h10
  have e11 : p.regs[i] ≠ p.regIrqFlags := reg_ne_reg h i 11 h11
  have e12 : p.regs[i] ≠ p.regRxNbBytes := reg_ne_reg h i 12 h12
  have e13 : p.regs[i] ≠ p.regPktSnr := reg_ne_reg h i 13 h13
  have e14 : p.regs[i] ≠ p.regPktRssi := reg_ne_reg h i 14 h14
  have e29 : p.regs[i] ≠ p.regTemp := reg_ne_reg h i 29 h29
  generalize p.regs[i] = a at e0 e1 e10 e11 e12 e13 e14 e29 ⊢
  simp [regClass, statusRegs, e0, e1, e10, e11, e12, e13, e14, e29]

section
variable {p : Params} (h : p.Ok)
include h

theorem class_frfMsb : regClass p p.regFrfMsb = .plain := regClass_plain h 2 (by decide)
theorem class_frfMid : regClass p p.regFrfMid = .plain := regClass_plain h 3 (by decide)
theorem class_frfLsb : regClass p p.regFrfLsb = .plain := regClass_plain h 4 (by decide)
theorem class_paConfig : regClass p p.regPaConfig = .plain := regClass_plain h 5 (by decide)
theorem class_fifoAddrPtr : regClass p p.regFifoAddrPtr = .plain := regClass_plain h 7 (by decide)
theorem class_modemConfig1 : regClass p p.regModemConfig1 = .plain := regClass_plain h 15 (by decide)
theorem class_modemConfig2 : regClass p p.regModemConfig2 = .plain := regClass_plain h 16 (by decide)
theorem class_preambleMsb : regClass p p.regPreambleMsb = .plain := regClass_plain h 17 (by decide)
theorem class_preambleLsb : regClass p p.regPreambleLsb = .plain := regClass_plain h 18 (by decide)
theorem class_payloadLength : regClass p p.regPayloadLength = .plain := regClass_plain h 19 (by decide)
theorem class_detectOpt : regClass p p.regDetectOpt = .plain := regClass_plain h 21 (by decide)
theorem class_invertIq : regClass p p.regInvertIq = .plain := regClass_plain h 22 (by decide)
theorem class_detectThr : regClass p p.regDetectThr = .plain := regClass_plain h 23 (by decide)
theorem class_syncWord : regClass p p.regSyncWord = .plain := regClass_plain h 24 (by decide)
theorem class_invertIq2 : regClass p p.regInvertIq2 = .plain := regClass_plain h 25 (by decide)
theorem class_dioMapping1 : regClass p p.regDioMapping1 = .plain := regClass_plain h 26 (by decide)
theorem class_beaconA : regClass p p.regBeaconA = .plain := regClass_plain h 27 (by decide)
theorem class_beaconB : regClass p p.regBeaconB = .plain := regClass_plain h 28 (by decide)
theorem class_tempCal : regClass p p.regTempCal = .plain := regClass_plain h 30 (by decide)

theorem class_irqFlags : regClass p p.regIrqFlags = .latched := by
  have : p.regIrqFlags ≠ p.regFifo := reg_ne_reg h 11 0 (by decide)
  simp [regClass, this]

theorem class_opMode : regClass p p.regOpMode = .volatile := by
  have h0 : p.regOpMode ≠ p.regFifo := reg_ne_reg h 1 0 (by decide)
  have h1 : p.regOpMode ≠ p.regIrqFlags := reg_ne_reg h 1 11 (by decide)
  simp [regClass, h0, h1]

theorem class_status (a : RegAddr) (ha : a ∈ statusRegs p) : regClass p a = .volatile := by
  have hn : a ≠ p.regFifo ∧ a ≠ p.regIrqFlags := by
    simp only [statusRegs, List.mem_cons, List.not_mem_nil, or_false] at ha
    rcases ha with rfl | rfl | rfl | rfl | rfl
    · exact ⟨reg_ne_reg h 14 0 (by decide), reg_ne_reg h 14 11 (by decide)⟩
    · exact ⟨reg_ne_reg h 13 0 (by decide), reg_ne_reg h 13 11 (by decide)⟩
    · exact ⟨reg_ne_reg h 12 0 (by decide), reg_ne_reg h 12 11 (by decide)⟩
    · exact ⟨reg_ne_reg h 10 0 (by decide), reg_ne_reg h 10 11 (by decide)⟩
    · exact ⟨reg_ne_reg h 29 0 (by decide), reg_ne_reg h 29 11 (by decide)⟩
  simp [regClass, hn.1, hn.2, ha]

end

theorem class_fifo (p : Params) : regClass p p.regFifo = .window := by simp [regClass]

/-- What a plain register is not. -/
theorem plain_ne {p : Params} {a : RegAddr} (h : regClass p a = .plain) :
    a ≠ p.regFifo ∧ a ≠ p.regIrqFlags ∧ a ≠ p.regOpMode ∧ a ∉ statusRegs p := by
  unfold regClass at h
  split at h
  · cases h
  · split at h
    · cases h
    · split at h
      · cases h
      · rename_i h0 h1 h2
        exact ⟨h0, h1, fun e => h2 (.inl e), fun e => h2 (.inr e)⟩

/-! ### Registers and FIFO bytes after each operation -/

/-- The byte spaces of a radio are in canonical form. -/
def Radio.Wf (r : Radio) : Prop := r.regs.wf 128 = true ∧ r.fifo.wf 256 = true

theorem Radio.reg_setReg_same (r : Radio) (a : RegAddr) (v : Byte) (h : r.Wf) : (r.setReg a v).reg a = v :=
  Memory.read_write_same 128 _ _ _ h.1

theorem Radio.reg_setReg_other (r : Radio) (a b : RegAddr) (v : Byte) (h : b ≠ a) : (r.setReg a v).reg b = r.reg b :=
  Memory.read_write_other _ _ _ _ fun e => h (BitVec.eq_of_toNat_eq e)

theorem Radio.fifoByte_setFifo_same (r : Radio) (a v : Byte) (h : r.Wf) : (r.setFifo a v).fifoByte a = v :=
  Memory.read_write_same 256 _ _ _ h.2

theorem Radio.fifoByte_setFifo_other (r : Radio) (a b v : Byte) (h : b ≠ a) :
    (r.setFifo a v).fifoByte b = r.fifoByte b :=
  Memory.read_write_other _ _ _ _ fun e => h (BitVec.eq_of_toNat_eq e)

@[simp] theorem Radio.fifoByte_setReg (r : Radio) (a : RegAddr) (v b : Byte) : (r.setReg a v).fifoByte b = r.fifoByte b := rfl
@[simp] theorem Radio.reg_setFifo (r : Radio) (a v : Byte) (b : RegAddr) : (r.setFifo a v).reg b = r.reg b := rfl
@[simp] theorem Radio.txn_setReg (r : Radio) (a : RegAddr) (v : Byte) : (r.setReg a v).txn = r.txn := rfl
@[simp] theorem Radio.txn_setFifo (r : Radio) (a v : Byte) : (r.setFifo a v).txn = r.txn := rfl
@[simp] theorem Radio.reg_withTxn (r : Radio) (l : List Byte) (a : RegAddr) : ({ r with txn := l } : Radio).reg a = r.reg a := rfl
@[simp] theorem Radio.fifoByte_withTxn (r : Radio) (l : List Byte) (a : Byte) :
    ({ r with txn := l } : Radio).fifoByte a = r.fifoByte a := rfl

theorem Radio.Wf.withTxn {r : Radio} (h : r.Wf) (l : List Byte) : Radio.Wf { r with txn := l } := h

theorem Radio.Wf.setReg {r : Radio} (h : r.Wf) (a : RegAddr) (v : Byte) : (r.setReg a v).Wf :=
  ⟨Memory.wf_write _ _ _ _ a.isLt h.1, h.2⟩

theorem Radio.Wf.setFifo {r : Radio} (h : r.Wf) (a v : Byte) : (r.setFifo a v).Wf :=
  ⟨h.1, Memory.wf_write _ _ _ _ a.isLt h.2⟩

theorem Radio.Wf.setIfSome {r : Radio} (h : r.Wf) (a : RegAddr) (o : Option Byte) : (r.setIfSome a o).Wf := by
  cases o with
  | none => exact h
  | some v => exact h.setReg a v

theorem Radio.Wf.fillFifo {r : Radio} (h : r.Wf) (l : List (Byte × Byte)) : (r.fillFifo l).Wf := by
  induction l generalizing r with
  | nil => exact h
  | cons c l ih => exact ih (h.setFifo c.1 c.2)

theorem Radio.Wf.overwrite {r : Radio} (h : r.Wf) (l : List (RegAddr × Byte)) : (r.overwrite l).Wf := by
  induction l generalizing r with
  | nil => exact h
  | cons c l ih => exact ih (h.setReg c.1 c.2)

theorem Radio.Wf.act {r : Radio} (h : r.Wf) (p : Params) (e : RadioEvent) : (r.act p e).Wf := by
  unfold Radio.act
  have h0 : (if e.setFlags = 0#8 then r else r.setReg p.regIrqFlags (irqSet (r.reg p.regIrqFlags) e.setFlags)).Wf := by
    split
    · exact h
    · exact h.setReg _ _
  exact ((((((h0.setIfSome _ _).setIfSome _ _).setIfSome _ _).setIfSome _ _).setIfSome _ _).setIfSome _ _).fillFifo _

theorem Radio.Wf.advance {r : Radio} (h : r.Wf) (p : Params) : (r.advance p).Wf := h.setReg _ _

theorem Radio.Wf.regRead {r : Radio} (h : r.Wf) (p : Params) (a : RegAddr) : (r.regRead p a).2.Wf := by
  unfold Radio.regRead
  split
  · exact h
  · exact h
  · exact h
  · exact h.advance p

theorem Radio.Wf.regWrite {r : Radio} (h : r.Wf) (p : Params) (a : RegAddr) (v junk : Byte) :
    (r.regWrite p a v junk).Wf := by
  unfold Radio.regWrite
  split
  · exact h.setReg _ _
  · exact h.setReg _ _
  · exact h.setReg _ _
  · exact (h.setFifo _ _).advance p

theorem Radio.Wf.clock {r : Radio} (h : r.Wf) (p : Params) (t : Tick) (d : Byte) : (r.clock p t d).2.Wf := by
  unfold Radio.clock
  split
  · exact h
  · split
    · exact (h.regWrite _ _ _ _).withTxn _
    · exact (h.regRead _ _).withTxn _
  · exact ((h.overwrite _).fillFifo _).withTxn _

/-! ### RADIO's own steps (40_wire_commands.md R140) -/

@[simp] theorem Radio.txn_setIfSome (r : Radio) (a : RegAddr) (o : Option Byte) : (r.setIfSome a o).txn = r.txn := by
  cases o <;> rfl

@[simp] theorem Radio.txn_fillFifo (r : Radio) (l : List (Byte × Byte)) : (r.fillFifo l).txn = r.txn := by
  induction l generalizing r with
  | nil => rfl
  | cons c l ih => simp [Radio.fillFifo, ih]

@[simp] theorem Radio.reg_fillFifo (r : Radio) (l : List (Byte × Byte)) (a : RegAddr) : (r.fillFifo l).reg a = r.reg a := by
  induction l generalizing r with
  | nil => rfl
  | cons c l ih => simp [Radio.fillFifo, ih]

theorem Radio.reg_setIfSome_other (r : Radio) (a b : RegAddr) (o : Option Byte) (h : b ≠ a) :
    (r.setIfSome a o).reg b = r.reg b := by
  cases o with
  | none => rfl
  | some v => exact r.reg_setReg_other a b v h

@[simp] theorem Radio.txn_act (p : Params) (e : RadioEvent) (r : Radio) : (r.act p e).txn = r.txn := by
  simp only [Radio.act, Radio.txn_fillFifo, Radio.txn_setIfSome]
  split <;> rfl

/-- RADIO's own steps leave every register but the flags, the mode and the status registers. -/
theorem Radio.reg_act_other (p : Params) (e : RadioEvent) (r : Radio) (a : RegAddr) (h1 : a ≠ p.regIrqFlags)
    (h2 : a ≠ p.regOpMode) (h3 : a ∉ statusRegs p) : (r.act p e).reg a = r.reg a := by
  simp only [statusRegs, List.mem_cons, List.not_mem_nil, or_false, not_or] at h3
  obtain ⟨e1, e2, e3, e4, e5⟩ := h3
  simp only [Radio.act, Radio.reg_fillFifo]
  rw [Radio.reg_setIfSome_other _ _ _ _ e5, Radio.reg_setIfSome_other _ _ _ _ e4, Radio.reg_setIfSome_other _ _ _ _ e3,
    Radio.reg_setIfSome_other _ _ _ _ e2, Radio.reg_setIfSome_other _ _ _ _ e1, Radio.reg_setIfSome_other _ _ _ _ h2]
  split
  · rfl
  · exact r.reg_setReg_other _ _ _ h1

theorem Radio.reg_act_plain (p : Params) (e : RadioEvent) (r : Radio) (a : RegAddr) (h : regClass p a = .plain) :
    (r.act p e).reg a = r.reg a :=
  have hn := plain_ne h
  r.reg_act_other p e a hn.2.1 hn.2.2.1 hn.2.2.2

/-- RADIO's own steps set flags and clear none. -/
theorem Radio.reg_act_flags {p : Params} (h : p.Ok) (e : RadioEvent) (r : Radio) (hw : r.Wf) :
    (r.act p e).reg p.regIrqFlags = irqSet (r.reg p.regIrqFlags) e.setFlags := by
  have h1 : p.regIrqFlags ≠ p.regOpMode := reg_ne_reg h 11 1 (by decide)
  have h2 : p.regIrqFlags ≠ p.regPktRssi := reg_ne_reg h 11 14 (by decide)
  have h3 : p.regIrqFlags ≠ p.regPktSnr := reg_ne_reg h 11 13 (by decide)
  have h4 : p.regIrqFlags ≠ p.regRxNbBytes := reg_ne_reg h 11 12 (by decide)
  have h5 : p.regIrqFlags ≠ p.regFifoRxCurrent := reg_ne_reg h 11 10 (by decide)
  have h6 : p.regIrqFlags ≠ p.regTemp := reg_ne_reg h 11 29 (by decide)
  simp only [Radio.act, Radio.reg_fillFifo]
  rw [Radio.reg_setIfSome_other _ _ _ _ h6, Radio.reg_setIfSome_other _ _ _ _ h5, Radio.reg_setIfSome_other _ _ _ _ h4,
    Radio.reg_setIfSome_other _ _ _ _ h3, Radio.reg_setIfSome_other _ _ _ _ h2, Radio.reg_setIfSome_other _ _ _ _ h1]
  split
  · rename_i hz; simp [hz, irqSet]
  · exact r.reg_setReg_same _ _ hw

@[simp] theorem Radio.act_nothing (p : Params) (r : Radio) : r.act p RadioEvent.nothing = r := rfl

/-! ### The serial transactions -/

theorem Radio.regRead_val (p : Params) (a : RegAddr) (r : Radio) (h : regClass p a ≠ .window) : r.regRead p a = (r.reg a, r) := by
  unfold Radio.regRead
  split
  · rfl
  · rfl
  · rfl
  · rename_i hw; exact absurd hw h

theorem Radio.regRead_window (p : Params) (a : RegAddr) (r : Radio) (h : regClass p a = .window) :
    r.regRead p a = (r.fifoByte (r.reg p.regFifoAddrPtr), r.advance p) := by
  unfold Radio.regRead; rw [h]

@[simp] theorem Radio.txn_advance (p : Params) (r : Radio) : (r.advance p).txn = r.txn := rfl

@[simp] theorem Radio.txn_regRead (p : Params) (a : RegAddr) (r : Radio) : (r.regRead p a).2.txn = r.txn := by
  unfold Radio.regRead; split <;> rfl

@[simp] theorem Radio.txn_regWrite (p : Params) (a : RegAddr) (v j : Byte) (r : Radio) : (r.regWrite p a v j).txn = r.txn := by
  unfold Radio.regWrite; split <;> rfl

theorem Radio.regWrite_plain (p : Params) (a : RegAddr) (v j : Byte) (r : Radio) (h : regClass p a = .plain) :
    r.regWrite p a v j = r.setReg a v := by unfold Radio.regWrite; rw [h]

theorem Radio.regWrite_opMode {p : Params} (h : p.Ok) (v j : Byte) (r : Radio) :
    r.regWrite p p.regOpMode v j = r.setReg p.regOpMode v := by unfold Radio.regWrite; rw [class_opMode h]; simp

theorem Radio.regWrite_flags {p : Params} (h : p.Ok) (v j : Byte) (r : Radio) :
    r.regWrite p p.regIrqFlags v j = r.setReg p.regIrqFlags (irqClear (r.reg p.regIrqFlags) v) := by
  unfold Radio.regWrite; rw [class_irqFlags h]

theorem Radio.regWrite_window (p : Params) (v j : Byte) (r : Radio) :
    r.regWrite p p.regFifo v j = (r.setFifo (r.reg p.regFifoAddrPtr) v).advance p := by
  unfold Radio.regWrite; rw [class_fifo]

end Sys2Proof.Machine
end

