-- ==== Sys2Proof/Laws/State.lean ====
section
/-! SUPPORT. What each update of the state leaves in each field: one lemma per field and update, true by definition. -/

namespace Sys2Proof.Machine

section
variable (s : State)

@[simp] theorem State.busFailed_par : s.busFailed.par = s.par := rfl
@[simp] theorem State.busFailed_isOpen : s.busFailed.isOpen = s.isOpen := rfl
@[simp] theorem State.busFailed_handle : s.busFailed.handle = s.handle := rfl
@[simp] theorem State.busFailed_dir : s.busFailed.dir = s.dir := rfl
@[simp] theorem State.busFailed_out : s.busFailed.out = s.out := rfl
@[simp] theorem State.busFailed_lsbFirst : s.busFailed.lsbFirst = s.lsbFirst := rfl
@[simp] theorem State.busFailed_irqCfg : s.busFailed.irqCfg = s.irqCfg := rfl
@[simp] theorem State.busFailed_cbSet : s.busFailed.cbSet = s.cbSet := rfl
@[simp] theorem State.busFailed_irqEn : s.busFailed.irqEn = s.irqEn := rfl
@[simp] theorem State.busFailed_lastLevel : s.busFailed.lastLevel = s.lastLevel := rfl
@[simp] theorem State.busFailed_lastCause : s.busFailed.lastCause = s.lastCause := rfl
@[simp] theorem State.busFailed_busFault : s.busFailed.busFault = true := rfl
@[simp] theorem State.busFailed_opFault : s.busFailed.opFault = true := rfl
@[simp] theorem State.busFailed_cbFault : s.busFailed.cbFault = true := rfl
@[simp] theorem State.busFailed_seq : s.busFailed.seq = s.seq := rfl
@[simp] theorem State.busFailed_pseq : s.busFailed.pseq = s.pseq := rfl
@[simp] theorem State.busFailed_buf : s.busFailed.buf = s.buf := rfl
@[simp] theorem State.busFailed_inbox : s.busFailed.inbox = s.inbox := rfl
@[simp] theorem State.busFailed_res : s.busFailed.res = s.res := rfl
@[simp] theorem State.busFailed_trace : s.busFailed.trace = s.trace := rfl
@[simp] theorem State.busFailed_pinsDir : s.busFailed.pinsDir = s.pinsDir := rfl
@[simp] theorem State.busFailed_pinsOut : s.busFailed.pinsOut = s.pinsOut := rfl
@[simp] theorem State.busFailed_pinsExt : s.busFailed.pinsExt = s.pinsExt := rfl
@[simp] theorem State.busFailed_inQ : s.busFailed.inQ = s.inQ := rfl
@[simp] theorem State.busFailed_radio : s.busFailed.radio = s.radio := rfl
@[simp] theorem State.busFailed_env : s.busFailed.env = s.env := rfl
end

section
variable (s : State) (e : Event)

@[simp] theorem State.emit_par : (s.emit e).par = s.par := rfl
@[simp] theorem State.emit_isOpen : (s.emit e).isOpen = s.isOpen := rfl
@[simp] theorem State.emit_handle : (s.emit e).handle = s.handle := rfl
@[simp] theorem State.emit_dir : (s.emit e).dir = s.dir := rfl
@[simp] theorem State.emit_out : (s.emit e).out = s.out := rfl
@[simp] theorem State.emit_lsbFirst : (s.emit e).lsbFirst = s.lsbFirst := rfl
@[simp] theorem State.emit_irqCfg : (s.emit e).irqCfg = s.irqCfg := rfl
@[simp] theorem State.emit_cbSet : (s.emit e).cbSet = s.cbSet := rfl
@[simp] theorem State.emit_irqEn : (s.emit e).irqEn = s.irqEn := rfl
@[simp] theorem State.emit_lastLevel : (s.emit e).lastLevel = s.lastLevel := rfl
@[simp] theorem State.emit_lastCause : (s.emit e).lastCause = s.lastCause := rfl
@[simp] theorem State.emit_busFault : (s.emit e).busFault = s.busFault := rfl
@[simp] theorem State.emit_opFault : (s.emit e).opFault = s.opFault := rfl
@[simp] theorem State.emit_cbFault : (s.emit e).cbFault = s.cbFault := rfl
@[simp] theorem State.emit_seq : (s.emit e).seq = s.seq := rfl
@[simp] theorem State.emit_pseq : (s.emit e).pseq = s.pseq := rfl
@[simp] theorem State.emit_buf : (s.emit e).buf = s.buf := rfl
@[simp] theorem State.emit_inbox : (s.emit e).inbox = s.inbox := rfl
@[simp] theorem State.emit_res : (s.emit e).res = s.res := rfl
@[simp] theorem State.emit_trace : (s.emit e).trace = e :: s.trace := rfl
@[simp] theorem State.emit_pinsDir : (s.emit e).pinsDir = s.pinsDir := rfl
@[simp] theorem State.emit_pinsOut : (s.emit e).pinsOut = s.pinsOut := rfl
@[simp] theorem State.emit_pinsExt : (s.emit e).pinsExt = s.pinsExt := rfl
@[simp] theorem State.emit_inQ : (s.emit e).inQ = s.inQ := rfl
@[simp] theorem State.emit_radio : (s.emit e).radio = s.radio := rfl
@[simp] theorem State.emit_env : (s.emit e).env = s.env := rfl
end

section
variable (s : State) (c : Cause)

@[simp] theorem State.fail_par : (s.fail c).par = s.par := rfl
@[simp] theorem State.fail_isOpen : (s.fail c).isOpen = s.isOpen := rfl
@[simp] theorem State.fail_handle : (s.fail c).handle = s.handle := rfl
@[simp] theorem State.fail_dir : (s.fail c).dir = s.dir := rfl
@[simp] theorem State.fail_out : (s.fail c).out = s.out := rfl
@[simp] theorem State.fail_lsbFirst : (s.fail c).lsbFirst = s.lsbFirst := rfl
@[simp] theorem State.fail_irqCfg : (s.fail c).irqCfg = s.irqCfg := rfl
@[simp] theorem State.fail_cbSet : (s.fail c).cbSet = s.cbSet := rfl
@[simp] theorem State.fail_irqEn : (s.fail c).irqEn = s.irqEn := rfl
@[simp] theorem State.fail_lastLevel : (s.fail c).lastLevel = s.lastLevel := rfl
@[simp] theorem State.fail_lastCause : (s.fail c).lastCause = c := rfl
@[simp] theorem State.fail_busFault : (s.fail c).busFault = s.busFault := rfl
@[simp] theorem State.fail_opFault : (s.fail c).opFault = s.opFault := rfl
@[simp] theorem State.fail_cbFault : (s.fail c).cbFault = s.cbFault := rfl
@[simp] theorem State.fail_seq : (s.fail c).seq = s.seq := rfl
@[simp] theorem State.fail_pseq : (s.fail c).pseq = s.pseq := rfl
@[simp] theorem State.fail_buf : (s.fail c).buf = s.buf := rfl
@[simp] theorem State.fail_inbox : (s.fail c).inbox = s.inbox := rfl
@[simp] theorem State.fail_res : (s.fail c).res = s.res := rfl
@[simp] theorem State.fail_trace : (s.fail c).trace = s.trace := rfl
@[simp] theorem State.fail_pinsDir : (s.fail c).pinsDir = s.pinsDir := rfl
@[simp] theorem State.fail_pinsOut : (s.fail c).pinsOut = s.pinsOut := rfl
@[simp] theorem State.fail_pinsExt : (s.fail c).pinsExt = s.pinsExt := rfl
@[simp] theorem State.fail_inQ : (s.fail c).inQ = s.inQ := rfl
@[simp] theorem State.fail_radio : (s.fail c).radio = s.radio := rfl
@[simp] theorem State.fail_env : (s.fail c).env = s.env := rfl
end

section
variable (s : State) (op : Byte)

@[simp] theorem State.enter_par : (s.enter op).par = s.par := rfl
@[simp] theorem State.enter_isOpen : (s.enter op).isOpen = s.isOpen := rfl
@[simp] theorem State.enter_handle : (s.enter op).handle = s.handle := rfl
@[simp] theorem State.enter_dir : (s.enter op).dir = s.dir := rfl
@[simp] theorem State.enter_out : (s.enter op).out = s.out := rfl
@[simp] theorem State.enter_lsbFirst : (s.enter op).lsbFirst = s.lsbFirst := rfl
@[simp] theorem State.enter_irqCfg : (s.enter op).irqCfg = s.irqCfg := rfl
@[simp] theorem State.enter_cbSet : (s.enter op).cbSet = s.cbSet := rfl
@[simp] theorem State.enter_irqEn : (s.enter op).irqEn = s.irqEn := rfl
@[simp] theorem State.enter_lastLevel : (s.enter op).lastLevel = s.lastLevel := rfl
@[simp] theorem State.enter_lastCause : (s.enter op).lastCause = s.lastCause := rfl
@[simp] theorem State.enter_busFault : (s.enter op).busFault = s.busFault := rfl
@[simp] theorem State.enter_opFault : (s.enter op).opFault = false := rfl
@[simp] theorem State.enter_cbFault : (s.enter op).cbFault = s.cbFault := rfl
@[simp] theorem State.enter_seq : (s.enter op).seq = { op := some op, step := .none, bus := .none } := rfl
@[simp] theorem State.enter_pseq : (s.enter op).pseq = s.pseq := rfl
@[simp] theorem State.enter_buf : (s.enter op).buf = s.buf := rfl
@[simp] theorem State.enter_inbox : (s.enter op).inbox = s.inbox := rfl
@[simp] theorem State.enter_res : (s.enter op).res = none := rfl
@[simp] theorem State.enter_trace : (s.enter op).trace = s.trace := rfl
@[simp] theorem State.enter_pinsDir : (s.enter op).pinsDir = s.pinsDir := rfl
@[simp] theorem State.enter_pinsOut : (s.enter op).pinsOut = s.pinsOut := rfl
@[simp] theorem State.enter_pinsExt : (s.enter op).pinsExt = s.pinsExt := rfl
@[simp] theorem State.enter_inQ : (s.enter op).inQ = s.inQ := rfl
@[simp] theorem State.enter_radio : (s.enter op).radio = s.radio := rfl
@[simp] theorem State.enter_env : (s.enter op).env = s.env := rfl
end

section
variable (s : State) (r : Result)

@[simp] theorem State.leave_par : (s.leave r).par = s.par := rfl
@[simp] theorem State.leave_isOpen : (s.leave r).isOpen = s.isOpen := rfl
@[simp] theorem State.leave_handle : (s.leave r).handle = s.handle := rfl
@[simp] theorem State.leave_dir : (s.leave r).dir = s.dir := rfl
@[simp] theorem State.leave_out : (s.leave r).out = s.out := rfl
@[simp] theorem State.leave_lsbFirst : (s.leave r).lsbFirst = s.lsbFirst := rfl
@[simp] theorem State.leave_irqCfg : (s.leave r).irqCfg = s.irqCfg := rfl
@[simp] theorem State.leave_cbSet : (s.leave r).cbSet = s.cbSet := rfl
@[simp] theorem State.leave_irqEn : (s.leave r).irqEn = s.irqEn := rfl
@[simp] theorem State.leave_lastLevel : (s.leave r).lastLevel = s.lastLevel := rfl
@[simp] theorem State.leave_lastCause : (s.leave r).lastCause = s.lastCause := rfl
@[simp] theorem State.leave_busFault : (s.leave r).busFault = s.busFault := rfl
@[simp] theorem State.leave_opFault : (s.leave r).opFault = s.opFault := rfl
@[simp] theorem State.leave_cbFault : (s.leave r).cbFault = s.cbFault := rfl
@[simp] theorem State.leave_seq : (s.leave r).seq = Seq.idle := rfl
@[simp] theorem State.leave_pseq : (s.leave r).pseq = s.pseq := rfl
@[simp] theorem State.leave_buf : (s.leave r).buf = none := rfl
@[simp] theorem State.leave_inbox : (s.leave r).inbox = s.inbox := rfl
@[simp] theorem State.leave_res : (s.leave r).res = some r := rfl
@[simp] theorem State.leave_trace : (s.leave r).trace = s.trace := rfl
@[simp] theorem State.leave_pinsDir : (s.leave r).pinsDir = s.pinsDir := rfl
@[simp] theorem State.leave_pinsOut : (s.leave r).pinsOut = s.pinsOut := rfl
@[simp] theorem State.leave_pinsExt : (s.leave r).pinsExt = s.pinsExt := rfl
@[simp] theorem State.leave_inQ : (s.leave r).inQ = s.inQ := rfl
@[simp] theorem State.leave_radio : (s.leave r).radio = s.radio := rfl
@[simp] theorem State.leave_env : (s.leave r).env = s.env := rfl
end

section
variable (s : State) (l : Label)

@[simp] theorem State.atStep_par : (s.atStep l).par = s.par := rfl
@[simp] theorem State.atStep_isOpen : (s.atStep l).isOpen = s.isOpen := rfl
@[simp] theorem State.atStep_handle : (s.atStep l).handle = s.handle := rfl
@[simp] theorem State.atStep_dir : (s.atStep l).dir = s.dir := rfl
@[simp] theorem State.atStep_out : (s.atStep l).out = s.out := rfl
@[simp] theorem State.atStep_lsbFirst : (s.atStep l).lsbFirst = s.lsbFirst := rfl
@[simp] theorem State.atStep_irqCfg : (s.atStep l).irqCfg = s.irqCfg := rfl
@[simp] theorem State.atStep_cbSet : (s.atStep l).cbSet = s.cbSet := rfl
@[simp] theorem State.atStep_irqEn : (s.atStep l).irqEn = s.irqEn := rfl
@[simp] theorem State.atStep_lastLevel : (s.atStep l).lastLevel = s.lastLevel := rfl
@[simp] theorem State.atStep_lastCause : (s.atStep l).lastCause = s.lastCause := rfl
@[simp] theorem State.atStep_busFault : (s.atStep l).busFault = s.busFault := rfl
@[simp] theorem State.atStep_opFault : (s.atStep l).opFault = s.opFault := rfl
@[simp] theorem State.atStep_cbFault : (s.atStep l).cbFault = s.cbFault := rfl
@[simp] theorem State.atStep_seq : (s.atStep l).seq = { s.seq with step := l } := rfl
@[simp] theorem State.atStep_pseq : (s.atStep l).pseq = s.pseq := rfl
@[simp] theorem State.atStep_buf : (s.atStep l).buf = s.buf := rfl
@[simp] theorem State.atStep_inbox : (s.atStep l).inbox = s.inbox := rfl
@[simp] theorem State.atStep_res : (s.atStep l).res = s.res := rfl
@[simp] theorem State.atStep_trace : (s.atStep l).trace = s.trace := rfl
@[simp] theorem State.atStep_pinsDir : (s.atStep l).pinsDir = s.pinsDir := rfl
@[simp] theorem State.atStep_pinsOut : (s.atStep l).pinsOut = s.pinsOut := rfl
@[simp] theorem State.atStep_pinsExt : (s.atStep l).pinsExt = s.pinsExt := rfl
@[simp] theorem State.atStep_inQ : (s.atStep l).inQ = s.inQ := rfl
@[simp] theorem State.atStep_radio : (s.atStep l).radio = s.radio := rfl
@[simp] theorem State.atStep_env : (s.atStep l).env = s.env := rfl
end

section
variable (s : State) (l : Label)

@[simp] theorem State.atBus_par : (s.atBus l).par = s.par := rfl
@[simp] theorem State.atBus_isOpen : (s.atBus l).isOpen = s.isOpen := rfl
@[simp] theorem State.atBus_handle : (s.atBus l).handle = s.handle := rfl
@[simp] theorem State.atBus_dir : (s.atBus l).dir = s.dir := rfl
@[simp] theorem State.atBus_out : (s.atBus l).out = s.out := rfl
@[simp] theorem State.atBus_lsbFirst : (s.atBus l).lsbFirst = s.lsbFirst := rfl
@[simp] theorem State.atBus_irqCfg : (s.atBus l).irqCfg = s.irqCfg := rfl
@[simp] theorem State.atBus_cbSet : (s.atBus l).cbSet = s.cbSet := rfl
@[simp] theorem State.atBus_irqEn : (s.atBus l).irqEn = s.irqEn := rfl
@[simp] theorem State.atBus_lastLevel : (s.atBus l).lastLevel = s.lastLevel := rfl
@[simp] theorem State.atBus_lastCause : (s.atBus l).lastCause = s.lastCause := rfl
@[simp] theorem State.atBus_busFault : (s.atBus l).busFault = s.busFault := rfl
@[simp] theorem State.atBus_opFault : (s.atBus l).opFault = s.opFault := rfl
@[simp] theorem State.atBus_cbFault : (s.atBus l).cbFault = s.cbFault := rfl
@[simp] theorem State.atBus_seq : (s.atBus l).seq = { s.seq with bus := l } := rfl
@[simp] theorem State.atBus_pseq : (s.atBus l).pseq = s.pseq := rfl
@[simp] theorem State.atBus_buf : (s.atBus l).buf = s.buf := rfl
@[simp] theorem State.atBus_inbox : (s.atBus l).inbox = s.inbox := rfl
@[simp] theorem State.atBus_res : (s.atBus l).res = s.res := rfl
@[simp] theorem State.atBus_trace : (s.atBus l).trace = s.trace := rfl
@[simp] theorem State.atBus_pinsDir : (s.atBus l).pinsDir = s.pinsDir := rfl
@[simp] theorem State.atBus_pinsOut : (s.atBus l).pinsOut = s.pinsOut := rfl
@[simp] theorem State.atBus_pinsExt : (s.atBus l).pinsExt = s.pinsExt := rfl
@[simp] theorem State.atBus_inQ : (s.atBus l).inQ = s.inQ := rfl
@[simp] theorem State.atBus_radio : (s.atBus l).radio = s.radio := rfl
@[simp] theorem State.atBus_env : (s.atBus l).env = s.env := rfl
end

section
variable (s : State) (q : Rat)

@[simp] theorem State.sleepFor_par : (s.sleepFor q).par = s.par := rfl
@[simp] theorem State.sleepFor_isOpen : (s.sleepFor q).isOpen = s.isOpen := rfl
@[simp] theorem State.sleepFor_handle : (s.sleepFor q).handle = s.handle := rfl
@[simp] theorem State.sleepFor_dir : (s.sleepFor q).dir = s.dir := rfl
@[simp] theorem State.sleepFor_out : (s.sleepFor q).out = s.out := rfl
@[simp] theorem State.sleepFor_lsbFirst : (s.sleepFor q).lsbFirst = s.lsbFirst := rfl
@[simp] theorem State.sleepFor_irqCfg : (s.sleepFor q).irqCfg = s.irqCfg := rfl
@[simp] theorem State.sleepFor_cbSet : (s.sleepFor q).cbSet = s.cbSet := rfl
@[simp] theorem State.sleepFor_irqEn : (s.sleepFor q).irqEn = s.irqEn := rfl
@[simp] theorem State.sleepFor_lastLevel : (s.sleepFor q).lastLevel = s.lastLevel := rfl
@[simp] theorem State.sleepFor_lastCause : (s.sleepFor q).lastCause = s.lastCause := rfl
@[simp] theorem State.sleepFor_busFault : (s.sleepFor q).busFault = s.busFault := rfl
@[simp] theorem State.sleepFor_opFault : (s.sleepFor q).opFault = s.opFault := rfl
@[simp] theorem State.sleepFor_cbFault : (s.sleepFor q).cbFault = s.cbFault := rfl
@[simp] theorem State.sleepFor_seq : (s.sleepFor q).seq = s.seq := rfl
@[simp] theorem State.sleepFor_pseq : (s.sleepFor q).pseq = s.pseq := rfl
@[simp] theorem State.sleepFor_buf : (s.sleepFor q).buf = s.buf := rfl
@[simp] theorem State.sleepFor_inbox : (s.sleepFor q).inbox = s.inbox := rfl
@[simp] theorem State.sleepFor_res : (s.sleepFor q).res = s.res := rfl
@[simp] theorem State.sleepFor_trace : (s.sleepFor q).trace = .sleep q :: s.trace := rfl
@[simp] theorem State.sleepFor_pinsDir : (s.sleepFor q).pinsDir = s.pinsDir := rfl
@[simp] theorem State.sleepFor_pinsOut : (s.sleepFor q).pinsOut = s.pinsOut := rfl
@[simp] theorem State.sleepFor_pinsExt : (s.sleepFor q).pinsExt = s.pinsExt := rfl
@[simp] theorem State.sleepFor_inQ : (s.sleepFor q).inQ = s.inQ := rfl
@[simp] theorem State.sleepFor_radio : (s.sleepFor q).radio = s.radio := rfl
@[simp] theorem State.sleepFor_env : (s.sleepFor q).env = s.env := rfl
end

section
variable (s : State)

@[simp] theorem State.dropTxn_par : s.dropTxn.par = s.par := rfl
@[simp] theorem State.dropTxn_isOpen : s.dropTxn.isOpen = s.isOpen := rfl
@[simp] theorem State.dropTxn_handle : s.dropTxn.handle = s.handle := rfl
@[simp] theorem State.dropTxn_dir : s.dropTxn.dir = s.dir := rfl
@[simp] theorem State.dropTxn_out : s.dropTxn.out = s.out := rfl
@[simp] theorem State.dropTxn_lsbFirst : s.dropTxn.lsbFirst = s.lsbFirst := rfl
@[simp] theorem State.dropTxn_irqCfg : s.dropTxn.irqCfg = s.irqCfg := rfl
@[simp] theorem State.dropTxn_cbSet : s.dropTxn.cbSet = s.cbSet := rfl
@[simp] theorem State.dropTxn_irqEn : s.dropTxn.irqEn = s.irqEn := rfl
@[simp] theorem State.dropTxn_lastLevel : s.dropTxn.lastLevel = s.lastLevel := rfl
@[simp] theorem State.dropTxn_lastCause : s.dropTxn.lastCause = s.lastCause := rfl
@[simp] theorem State.dropTxn_busFault : s.dropTxn.busFault = s.busFault := rfl
@[simp] theorem State.dropTxn_opFault : s.dropTxn.opFault = s.opFault := rfl
@[simp] theorem State.dropTxn_cbFault : s.dropTxn.cbFault = s.cbFault := rfl
@[simp] theorem State.dropTxn_seq : s.dropTxn.seq = s.seq := rfl
@[simp] theorem State.dropTxn_pseq : s.dropTxn.pseq = s.pseq := rfl
@[simp] theorem State.dropTxn_buf : s.dropTxn.buf = s.buf := rfl
@[simp] theorem State.dropTxn_inbox : s.dropTxn.inbox = s.inbox := rfl
@[simp] theorem State.dropTxn_res : s.dropTxn.res = s.res := rfl
@[simp] theorem State.dropTxn_trace : s.dropTxn.trace = s.trace := rfl
@[simp] theorem State.dropTxn_pinsDir : s.dropTxn.pinsDir = s.pinsDir := rfl
@[simp] theorem State.dropTxn_pinsOut : s.dropTxn.pinsOut = s.pinsOut := rfl
@[simp] theorem State.dropTxn_pinsExt : s.dropTxn.pinsExt = s.pinsExt := rfl
@[simp] theorem State.dropTxn_inQ : s.dropTxn.inQ = s.inQ := rfl
@[simp] theorem State.dropTxn_radio : s.dropTxn.radio = { s.radio with txn := [] } := rfl
@[simp] theorem State.dropTxn_env : s.dropTxn.env = s.env := rfl
end

section
variable (s : State) (t : Tick)

@[simp] theorem State.pinsAt_par : (s.pinsAt t).par = s.par := rfl
@[simp] theorem State.pinsAt_isOpen : (s.pinsAt t).isOpen = s.isOpen := rfl
@[simp] theorem State.pinsAt_handle : (s.pinsAt t).handle = s.handle := rfl
@[simp] theorem State.pinsAt_dir : (s.pinsAt t).dir = s.dir := rfl
@[simp] theorem State.pinsAt_out : (s.pinsAt t).out = s.out := rfl
@[simp] theorem State.pinsAt_lsbFirst : (s.pinsAt t).lsbFirst = s.lsbFirst := rfl
@[simp] theorem State.pinsAt_irqCfg : (s.pinsAt t).irqCfg = s.irqCfg := rfl
@[simp] theorem State.pinsAt_cbSet : (s.pinsAt t).cbSet = s.cbSet := rfl
@[simp] theorem State.pinsAt_irqEn : (s.pinsAt t).irqEn = s.irqEn := rfl
@[simp] theorem State.pinsAt_lastLevel : (s.pinsAt t).lastLevel = s.lastLevel := rfl
@[simp] theorem State.pinsAt_lastCause : (s.pinsAt t).lastCause = s.lastCause := rfl
@[simp] theorem State.pinsAt_busFault : (s.pinsAt t).busFault = s.busFault := rfl
@[simp] theorem State.pinsAt_opFault : (s.pinsAt t).opFault = s.opFault := rfl
@[simp] theorem State.pinsAt_cbFault : (s.pinsAt t).cbFault = s.cbFault := rfl
@[simp] theorem State.pinsAt_seq : (s.pinsAt t).seq = s.seq := rfl
@[simp] theorem State.pinsAt_pseq : (s.pinsAt t).pseq = s.pseq := rfl
@[simp] theorem State.pinsAt_buf : (s.pinsAt t).buf = s.buf := rfl
@[simp] theorem State.pinsAt_inbox : (s.pinsAt t).inbox = s.inbox := rfl
@[simp] theorem State.pinsAt_res : (s.pinsAt t).res = s.res := rfl
@[simp] theorem State.pinsAt_trace : (s.pinsAt t).trace = s.trace := rfl
@[simp] theorem State.pinsAt_pinsDir : (s.pinsAt t).pinsDir = s.pinsDir := rfl
@[simp] theorem State.pinsAt_pinsOut : (s.pinsAt t).pinsOut = s.pinsOut := rfl
@[simp] theorem State.pinsAt_pinsExt : (s.pinsAt t).pinsExt = t.ext := rfl
@[simp] theorem State.pinsAt_inQ : (s.pinsAt t).inQ = s.inQ := rfl
@[simp] theorem State.pinsAt_radio : (s.pinsAt t).radio = s.radio := rfl
@[simp] theorem State.pinsAt_env : (s.pinsAt t).env = s.env := rfl
end

section
variable (s old : State)

@[simp] theorem State.edgeSince_par : (s.edgeSince old).par = s.par := by unfold State.edgeSince; split <;> rfl
@[simp] theorem State.edgeSince_isOpen : (s.edgeSince old).isOpen = s.isOpen := by unfold State.edgeSince; split <;> rfl
@[simp] theorem State.edgeSince_handle : (s.edgeSince old).handle = s.handle := by unfold State.edgeSince; split <;> rfl
@[simp] theorem State.edgeSince_dir : (s.edgeSince old).dir = s.dir := by unfold State.edgeSince; split <;> rfl
@[simp] theorem State.edgeSince_out : (s.edgeSince old).out = s.out := by unfold State.edgeSince; split <;> rfl
@[simp] theorem State.edgeSince_lsbFirst : (s.edgeSince old).lsbFirst = s.lsbFirst := by unfold State.edgeSince; split <;> rfl
@[simp] theorem State.edgeSince_irqCfg : (s.edgeSince old).irqCfg = s.irqCfg := by unfold State.edgeSince; split <;> rfl
@[simp] theorem State.edgeSince_cbSet : (s.edgeSince old).cbSet = s.cbSet := by unfold State.edgeSince; split <;> rfl
@[simp] theorem State.edgeSince_irqEn : (s.edgeSince old).irqEn = s.irqEn := by unfold State.edgeSince; split <;> rfl
@[simp] theorem State.edgeSince_lastLevel : (s.edgeSince old).lastLevel = s.lastLevel :=
  by unfold State.edgeSince; split <;> rfl
@[simp] theorem State.edgeSince_lastCause : (s.edgeSince old).lastCause = s.lastCause :=
  by unfold State.edgeSince; split <;> rfl
@[simp] theorem State.edgeSince_busFault : (s.edgeSince old).busFault = s.busFault := by unfold State.edgeSince; split <;> rfl
@[simp] theorem State.edgeSince_opFault : (s.edgeSince old).opFault = s.opFault := by unfold State.edgeSince; split <;> rfl
@[simp] theorem State.edgeSince_cbFault : (s.edgeSince old).cbFault = s.cbFault := by unfold State.edgeSince; split <;> rfl
@[simp] theorem State.edgeSince_seq : (s.edgeSince old).seq = s.seq := by unfold State.edgeSince; split <;> rfl
@[simp] theorem State.edgeSince_pseq : (s.edgeSince old).pseq = s.pseq := by unfold State.edgeSince; split <;> rfl
@[simp] theorem State.edgeSince_buf : (s.edgeSince old).buf = s.buf := by unfold State.edgeSince; split <;> rfl
@[simp] theorem State.edgeSince_inbox : (s.edgeSince old).inbox = s.inbox := by unfold State.edgeSince; split <;> rfl
@[simp] theorem State.edgeSince_res : (s.edgeSince old).res = s.res := by unfold State.edgeSince; split <;> rfl
@[simp] theorem State.edgeSince_trace : (s.edgeSince old).trace = s.trace := by unfold State.edgeSince; split <;> rfl
@[simp] theorem State.edgeSince_pinsDir : (s.edgeSince old).pinsDir = s.pinsDir := by unfold State.edgeSince; split <;> rfl
@[simp] theorem State.edgeSince_pinsOut : (s.edgeSince old).pinsOut = s.pinsOut := by unfold State.edgeSince; split <;> rfl
@[simp] theorem State.edgeSince_pinsExt : (s.edgeSince old).pinsExt = s.pinsExt := by unfold State.edgeSince; split <;> rfl
@[simp] theorem State.edgeSince_inQ : (s.edgeSince old).inQ = s.inQ := by unfold State.edgeSince; split <;> rfl
@[simp] theorem State.edgeSince_radio : (s.edgeSince old).radio = if old.csLow = s.csLow then s.radio else { s.radio with txn := [] } :=
  by unfold State.edgeSince; split <;> rfl
@[simp] theorem State.edgeSince_env : (s.edgeSince old).env = s.env := by unfold State.edgeSince; split <;> rfl
end

section
variable (s : State) (t : Tick)

@[simp] theorem State.arrive_par : (s.arrive t).par = s.par := by unfold State.arrive; dsimp only; split <;> simp
@[simp] theorem State.arrive_isOpen : (s.arrive t).isOpen = s.isOpen := by unfold State.arrive; dsimp only; split <;> simp
@[simp] theorem State.arrive_handle : (s.arrive t).handle = s.handle := by unfold State.arrive; dsimp only; split <;> simp
@[simp] theorem State.arrive_dir : (s.arrive t).dir = s.dir := by unfold State.arrive; dsimp only; split <;> simp
@[simp] theorem State.arrive_out : (s.arrive t).out = s.out := by unfold State.arrive; dsimp only; split <;> simp
@[simp] theorem State.arrive_lsbFirst : (s.arrive t).lsbFirst = s.lsbFirst := by unfold State.arrive; dsimp only; split <;> simp
@[simp] theorem State.arrive_irqCfg : (s.arrive t).irqCfg = s.irqCfg := by unfold State.arrive; dsimp only; split <;> simp
@[simp] theorem State.arrive_cbSet : (s.arrive t).cbSet = s.cbSet := by unfold State.arrive; dsimp only; split <;> simp
@[simp] theorem State.arrive_irqEn : (s.arrive t).irqEn = s.irqEn := by unfold State.arrive; dsimp only; split <;> simp
@[simp] theorem State.arrive_lastLevel : (s.arrive t).lastLevel = s.lastLevel :=
  by unfold State.arrive; dsimp only; split <;> simp
@[simp] theorem State.arrive_lastCause : (s.arrive t).lastCause = s.lastCause :=
  by unfold State.arrive; dsimp only; split <;> simp
@[simp] theorem State.arrive_busFault : (s.arrive t).busFault = s.busFault := by unfold State.arrive; dsimp only; split <;> simp
@[simp] theorem State.arrive_opFault : (s.arrive t).opFault = s.opFault := by unfold State.arrive; dsimp only; split <;> simp
@[simp] theorem State.arrive_cbFault : (s.arrive t).cbFault = s.cbFault := by unfold State.arrive; dsimp only; split <;> simp
@[simp] theorem State.arrive_seq : (s.arrive t).seq = s.seq := by unfold State.arrive; dsimp only; split <;> simp
@[simp] theorem State.arrive_pseq : (s.arrive t).pseq = s.pseq := by unfold State.arrive; dsimp only; split <;> simp
@[simp] theorem State.arrive_buf : (s.arrive t).buf = s.buf := by unfold State.arrive; dsimp only; split <;> simp
@[simp] theorem State.arrive_inbox : (s.arrive t).inbox = s.inbox := by unfold State.arrive; dsimp only; split <;> simp
@[simp] theorem State.arrive_res : (s.arrive t).res = s.res := by unfold State.arrive; dsimp only; split <;> simp
@[simp] theorem State.arrive_trace : (s.arrive t).trace = s.trace := by unfold State.arrive; dsimp only; split <;> simp
@[simp] theorem State.arrive_pinsDir : (s.arrive t).pinsDir = s.pinsDir := by unfold State.arrive; dsimp only; split <;> simp
@[simp] theorem State.arrive_pinsOut : (s.arrive t).pinsOut = s.pinsOut := by unfold State.arrive; dsimp only; split <;> simp
@[simp] theorem State.arrive_pinsExt : (s.arrive t).pinsExt = t.ext := by unfold State.arrive; dsimp only; split <;> simp
@[simp] theorem State.arrive_inQ : (s.arrive t).inQ = s.inQ := by unfold State.arrive; dsimp only; split <;> simp
@[simp] theorem State.arrive_env : (s.arrive t).env = s.env := by unfold State.arrive; dsimp only; split <;> simp
end

section
variable (u : MaskUpdate) (m : PinMask) (s : State)

@[simp] theorem MaskUpdate.store_par : (u.store m s).par = s.par := by cases u <;> rfl
@[simp] theorem MaskUpdate.store_isOpen : (u.store m s).isOpen = s.isOpen := by cases u <;> rfl
@[simp] theorem MaskUpdate.store_handle : (u.store m s).handle = s.handle := by cases u <;> rfl
@[simp] theorem MaskUpdate.store_lsbFirst : (u.store m s).lsbFirst = s.lsbFirst := by cases u <;> rfl
@[simp] theorem MaskUpdate.store_irqCfg : (u.store m s).irqCfg = s.irqCfg := by cases u <;> rfl
@[simp] theorem MaskUpdate.store_cbSet : (u.store m s).cbSet = s.cbSet := by cases u <;> rfl
@[simp] theorem MaskUpdate.store_irqEn : (u.store m s).irqEn = s.irqEn := by cases u <;> rfl
@[simp] theorem MaskUpdate.store_lastLevel : (u.store m s).lastLevel = s.lastLevel := by cases u <;> rfl
@[simp] theorem MaskUpdate.store_lastCause : (u.store m s).lastCause = s.lastCause := by cases u <;> rfl
@[simp] theorem MaskUpdate.store_busFault : (u.store m s).busFault = s.busFault := by cases u <;> rfl
@[simp] theorem MaskUpdate.store_opFault : (u.store m s).opFault = s.opFault := by cases u <;> rfl
@[simp] theorem MaskUpdate.store_cbFault : (u.store m s).cbFault = s.cbFault := by cases u <;> rfl
@[simp] theorem MaskUpdate.store_seq : (u.store m s).seq = s.seq := by cases u <;> rfl
@[simp] theorem MaskUpdate.store_pseq : (u.store m s).pseq = s.pseq := by cases u <;> rfl
@[simp] theorem MaskUpdate.store_buf : (u.store m s).buf = s.buf := by cases u <;> rfl
@[simp] theorem MaskUpdate.store_inbox : (u.store m s).inbox = s.inbox := by cases u <;> rfl
@[simp] theorem MaskUpdate.store_res : (u.store m s).res = s.res := by cases u <;> rfl
@[simp] theorem MaskUpdate.store_trace : (u.store m s).trace = s.trace := by cases u <;> rfl
@[simp] theorem MaskUpdate.store_pinsDir : (u.store m s).pinsDir = s.pinsDir := by cases u <;> rfl
@[simp] theorem MaskUpdate.store_pinsOut : (u.store m s).pinsOut = s.pinsOut := by cases u <;> rfl
@[simp] theorem MaskUpdate.store_pinsExt : (u.store m s).pinsExt = s.pinsExt := by cases u <;> rfl
@[simp] theorem MaskUpdate.store_inQ : (u.store m s).inQ = s.inQ := by cases u <;> rfl
@[simp] theorem MaskUpdate.store_radio : (u.store m s).radio = s.radio := by cases u <;> rfl
@[simp] theorem MaskUpdate.store_env : (u.store m s).env = s.env := by cases u <;> rfl
end

section
variable (s : State) (w : List Byte) (n : Nat)

@[simp] theorem State.startBuffers_par : (s.startBuffers w n).par = s.par := rfl
@[simp] theorem State.startBuffers_isOpen : (s.startBuffers w n).isOpen = s.isOpen := rfl
@[simp] theorem State.startBuffers_handle : (s.startBuffers w n).handle = s.handle := rfl
@[simp] theorem State.startBuffers_dir : (s.startBuffers w n).dir = s.dir := rfl
@[simp] theorem State.startBuffers_out : (s.startBuffers w n).out = s.out := rfl
@[simp] theorem State.startBuffers_lsbFirst : (s.startBuffers w n).lsbFirst = s.lsbFirst := rfl
@[simp] theorem State.startBuffers_irqCfg : (s.startBuffers w n).irqCfg = s.irqCfg := rfl
@[simp] theorem State.startBuffers_cbSet : (s.startBuffers w n).cbSet = s.cbSet := rfl
@[simp] theorem State.startBuffers_irqEn : (s.startBuffers w n).irqEn = s.irqEn := rfl
@[simp] theorem State.startBuffers_lastLevel : (s.startBuffers w n).lastLevel = s.lastLevel := rfl
@[simp] theorem State.startBuffers_lastCause : (s.startBuffers w n).lastCause = s.lastCause := rfl
@[simp] theorem State.startBuffers_busFault : (s.startBuffers w n).busFault = s.busFault := rfl
@[simp] theorem State.startBuffers_opFault : (s.startBuffers w n).opFault = s.opFault := rfl
@[simp] theorem State.startBuffers_cbFault : (s.startBuffers w n).cbFault = s.cbFault := rfl
@[simp] theorem State.startBuffers_seq : (s.startBuffers w n).seq = s.seq := rfl
@[simp] theorem State.startBuffers_pseq : (s.startBuffers w n).pseq = s.pseq := rfl
@[simp] theorem State.startBuffers_buf : (s.startBuffers w n).buf = some { w := w, n := n, r := [] } := rfl
@[simp] theorem State.startBuffers_inbox : (s.startBuffers w n).inbox = s.inbox := rfl
@[simp] theorem State.startBuffers_res : (s.startBuffers w n).res = s.res := rfl
@[simp] theorem State.startBuffers_trace : (s.startBuffers w n).trace = s.trace := rfl
@[simp] theorem State.startBuffers_pinsDir : (s.startBuffers w n).pinsDir = s.pinsDir := rfl
@[simp] theorem State.startBuffers_pinsOut : (s.startBuffers w n).pinsOut = s.pinsOut := rfl
@[simp] theorem State.startBuffers_pinsExt : (s.startBuffers w n).pinsExt = s.pinsExt := rfl
@[simp] theorem State.startBuffers_inQ : (s.startBuffers w n).inQ = s.inQ := rfl
@[simp] theorem State.startBuffers_radio : (s.startBuffers w n).radio = s.radio := rfl
@[simp] theorem State.startBuffers_env : (s.startBuffers w n).env = s.env := rfl
end

section
variable (s : State) (e : Byte)

@[simp] theorem State.keepEcho_par : (s.keepEcho e).par = s.par := rfl
@[simp] theorem State.keepEcho_isOpen : (s.keepEcho e).isOpen = s.isOpen := rfl
@[simp] theorem State.keepEcho_handle : (s.keepEcho e).handle = s.handle := rfl
@[simp] theorem State.keepEcho_dir : (s.keepEcho e).dir = s.dir := rfl
@[simp] theorem State.keepEcho_out : (s.keepEcho e).out = s.out := rfl
@[simp] theorem State.keepEcho_lsbFirst : (s.keepEcho e).lsbFirst = s.lsbFirst := rfl
@[simp] theorem State.keepEcho_irqCfg : (s.keepEcho e).irqCfg = s.irqCfg := rfl
@[simp] theorem State.keepEcho_cbSet : (s.keepEcho e).cbSet = s.cbSet := rfl
@[simp] theorem State.keepEcho_irqEn : (s.keepEcho e).irqEn = s.irqEn := rfl
@[simp] theorem State.keepEcho_lastLevel : (s.keepEcho e).lastLevel = s.lastLevel := rfl
@[simp] theorem State.keepEcho_lastCause : (s.keepEcho e).lastCause = s.lastCause := rfl
@[simp] theorem State.keepEcho_busFault : (s.keepEcho e).busFault = s.busFault := rfl
@[simp] theorem State.keepEcho_opFault : (s.keepEcho e).opFault = s.opFault := rfl
@[simp] theorem State.keepEcho_cbFault : (s.keepEcho e).cbFault = s.cbFault := rfl
@[simp] theorem State.keepEcho_seq : (s.keepEcho e).seq = s.seq := rfl
@[simp] theorem State.keepEcho_pseq : (s.keepEcho e).pseq = s.pseq := rfl
@[simp] theorem State.keepEcho_buf : (s.keepEcho e).buf = s.buf.map fun b => { b with r := b.r ++ [e] } := rfl
@[simp] theorem State.keepEcho_inbox : (s.keepEcho e).inbox = s.inbox := rfl
@[simp] theorem State.keepEcho_res : (s.keepEcho e).res = s.res := rfl
@[simp] theorem State.keepEcho_trace : (s.keepEcho e).trace = s.trace := rfl
@[simp] theorem State.keepEcho_pinsDir : (s.keepEcho e).pinsDir = s.pinsDir := rfl
@[simp] theorem State.keepEcho_pinsOut : (s.keepEcho e).pinsOut = s.pinsOut := rfl
@[simp] theorem State.keepEcho_pinsExt : (s.keepEcho e).pinsExt = s.pinsExt := rfl
@[simp] theorem State.keepEcho_inQ : (s.keepEcho e).inQ = s.inQ := rfl
@[simp] theorem State.keepEcho_radio : (s.keepEcho e).radio = s.radio := rfl
@[simp] theorem State.keepEcho_env : (s.keepEcho e).env = s.env := rfl
end

section
variable (s : State)

@[simp] theorem State.dropBuffers_par : s.dropBuffers.par = s.par := rfl
@[simp] theorem State.dropBuffers_isOpen : s.dropBuffers.isOpen = s.isOpen := rfl
@[simp] theorem State.dropBuffers_handle : s.dropBuffers.handle = s.handle := rfl
@[simp] theorem State.dropBuffers_dir : s.dropBuffers.dir = s.dir := rfl
@[simp] theorem State.dropBuffers_out : s.dropBuffers.out = s.out := rfl
@[simp] theorem State.dropBuffers_lsbFirst : s.dropBuffers.lsbFirst = s.lsbFirst := rfl
@[simp] theorem State.dropBuffers_irqCfg : s.dropBuffers.irqCfg = s.irqCfg := rfl
@[simp] theorem State.dropBuffers_cbSet : s.dropBuffers.cbSet = s.cbSet := rfl
@[simp] theorem State.dropBuffers_irqEn : s.dropBuffers.irqEn = s.irqEn := rfl
@[simp] theorem State.dropBuffers_lastLevel : s.dropBuffers.lastLevel = s.lastLevel := rfl
@[simp] theorem State.dropBuffers_lastCause : s.dropBuffers.lastCause = s.lastCause := rfl
@[simp] theorem State.dropBuffers_busFault : s.dropBuffers.busFault = s.busFault := rfl
@[simp] theorem State.dropBuffers_opFault : s.dropBuffers.opFault = s.opFault := rfl
@[simp] theorem State.dropBuffers_cbFault : s.dropBuffers.cbFault = s.cbFault := rfl
@[simp] theorem State.dropBuffers_seq : s.dropBuffers.seq = { s.seq with bus := .none } := rfl
@[simp] theorem State.dropBuffers_pseq : s.dropBuffers.pseq = s.pseq := rfl
@[simp] theorem State.dropBuffers_buf : s.dropBuffers.buf = none := rfl
@[simp] theorem State.dropBuffers_inbox : s.dropBuffers.inbox = s.inbox := rfl
@[simp] theorem State.dropBuffers_res : s.dropBuffers.res = s.res := rfl
@[simp] theorem State.dropBuffers_trace : s.dropBuffers.trace = s.trace := rfl
@[simp] theorem State.dropBuffers_pinsDir : s.dropBuffers.pinsDir = s.pinsDir := rfl
@[simp] theorem State.dropBuffers_pinsOut : s.dropBuffers.pinsOut = s.pinsOut := rfl
@[simp] theorem State.dropBuffers_pinsExt : s.dropBuffers.pinsExt = s.pinsExt := rfl
@[simp] theorem State.dropBuffers_inQ : s.dropBuffers.inQ = s.inQ := rfl
@[simp] theorem State.dropBuffers_radio : s.dropBuffers.radio = s.radio := rfl
@[simp] theorem State.dropBuffers_env : s.dropBuffers.env = s.env := rfl
end

section
variable (s : State) (rest : List Request)

@[simp] theorem State.taken_par : (s.taken rest).par = s.par := rfl
@[simp] theorem State.taken_isOpen : (s.taken rest).isOpen = s.isOpen := rfl
@[simp] theorem State.taken_handle : (s.taken rest).handle = s.handle := rfl
@[simp] theorem State.taken_dir : (s.taken rest).dir = s.dir := rfl
@[simp] theorem State.taken_out : (s.taken rest).out = s.out := rfl
@[simp] theorem State.taken_lsbFirst : (s.taken rest).lsbFirst = s.lsbFirst := rfl
@[simp] theorem State.taken_irqCfg : (s.taken rest).irqCfg = s.irqCfg := rfl
@[simp] theorem State.taken_cbSet : (s.taken rest).cbSet = s.cbSet := rfl
@[simp] theorem State.taken_irqEn : (s.taken rest).irqEn = s.irqEn := rfl
@[simp] theorem State.taken_lastLevel : (s.taken rest).lastLevel = s.lastLevel := rfl
@[simp] theorem State.taken_lastCause : (s.taken rest).lastCause = s.lastCause := rfl
@[simp] theorem State.taken_busFault : (s.taken rest).busFault = s.busFault := rfl
@[simp] theorem State.taken_opFault : (s.taken rest).opFault = s.opFault := rfl
@[simp] theorem State.taken_cbFault : (s.taken rest).cbFault = s.cbFault := rfl
@[simp] theorem State.taken_seq : (s.taken rest).seq = s.seq := rfl
@[simp] theorem State.taken_pseq : (s.taken rest).pseq = s.pseq := rfl
@[simp] theorem State.taken_buf : (s.taken rest).buf = s.buf := rfl
@[simp] theorem State.taken_inbox : (s.taken rest).inbox = rest := rfl
@[simp] theorem State.taken_res : (s.taken rest).res = s.res := rfl
@[simp] theorem State.taken_trace : (s.taken rest).trace = s.trace := rfl
@[simp] theorem State.taken_pinsDir : (s.taken rest).pinsDir = s.pinsDir := rfl
@[simp] theorem State.taken_pinsOut : (s.taken rest).pinsOut = s.pinsOut := rfl
@[simp] theorem State.taken_pinsExt : (s.taken rest).pinsExt = s.pinsExt := rfl
@[simp] theorem State.taken_inQ : (s.taken rest).inQ = s.inQ := rfl
@[simp] theorem State.taken_radio : (s.taken rest).radio = s.radio := rfl
@[simp] theorem State.taken_env : (s.taken rest).env = s.env := rfl
end

section
variable (s : State)

@[simp] theorem State.drawTick_par : s.drawTick.2.par = s.par := by unfold State.drawTick; split <;> rfl
@[simp] theorem State.drawTick_isOpen : s.drawTick.2.isOpen = s.isOpen := by unfold State.drawTick; split <;> rfl
@[simp] theorem State.drawTick_handle : s.drawTick.2.handle = s.handle := by unfold State.drawTick; split <;> rfl
@[simp] theorem State.drawTick_dir : s.drawTick.2.dir = s.dir := by unfold State.drawTick; split <;> rfl
@[simp] theorem State.drawTick_out : s.drawTick.2.out = s.out := by unfold State.drawTick; split <;> rfl
@[simp] theorem State.drawTick_lsbFirst : s.drawTick.2.lsbFirst = s.lsbFirst := by unfold State.drawTick; split <;> rfl
@[simp] theorem State.drawTick_irqCfg : s.drawTick.2.irqCfg = s.irqCfg := by unfold State.drawTick; split <;> rfl
@[simp] theorem State.drawTick_cbSet : s.drawTick.2.cbSet = s.cbSet := by unfold State.drawTick; split <;> rfl
@[simp] theorem State.drawTick_irqEn : s.drawTick.2.irqEn = s.irqEn := by unfold State.drawTick; split <;> rfl
@[simp] theorem State.drawTick_lastLevel : s.drawTick.2.lastLevel = s.lastLevel := by unfold State.drawTick; split <;> rfl
@[simp] theorem State.drawTick_lastCause : s.drawTick.2.lastCause = s.lastCause := by unfold State.drawTick; split <;> rfl
@[simp] theorem State.drawTick_busFault : s.drawTick.2.busFault = s.busFault := by unfold State.drawTick; split <;> rfl
@[simp] theorem State.drawTick_opFault : s.drawTick.2.opFault = s.opFault := by unfold State.drawTick; split <;> rfl
@[simp] theorem State.drawTick_cbFault : s.drawTick.2.cbFault = s.cbFault := by unfold State.drawTick; split <;> rfl
@[simp] theorem State.drawTick_seq : s.drawTick.2.seq = s.seq := by unfold State.drawTick; split <;> rfl
@[simp] theorem State.drawTick_pseq : s.drawTick.2.pseq = s.pseq := by unfold State.drawTick; split <;> rfl
@[simp] theorem State.drawTick_buf : s.drawTick.2.buf = s.buf := by unfold State.drawTick; split <;> rfl
@[simp] theorem State.drawTick_inbox : s.drawTick.2.inbox = s.inbox := by unfold State.drawTick; split <;> rfl
@[simp] theorem State.drawTick_res : s.drawTick.2.res = s.res := by unfold State.drawTick; split <;> rfl
@[simp] theorem State.drawTick_trace : s.drawTick.2.trace = s.trace := by unfold State.drawTick; split <;> rfl
@[simp] theorem State.drawTick_pinsDir : s.drawTick.2.pinsDir = s.pinsDir := by unfold State.drawTick; split <;> rfl
@[simp] theorem State.drawTick_pinsOut : s.drawTick.2.pinsOut = s.pinsOut := by unfold State.drawTick; split <;> rfl
@[simp] theorem State.drawTick_pinsExt : s.drawTick.2.pinsExt = s.pinsExt := by unfold State.drawTick; split <;> rfl
@[simp] theorem State.drawTick_inQ : s.drawTick.2.inQ = s.inQ := by unfold State.drawTick; split <;> rfl
@[simp] theorem State.drawTick_radio : s.drawTick.2.radio = s.radio := by unfold State.drawTick; split <;> rfl
end

section
variable (s : State)

@[simp] theorem State.drawEnumeration_par : s.drawEnumeration.2.par = s.par := by unfold State.drawEnumeration; split <;> rfl
@[simp] theorem State.drawEnumeration_isOpen : s.drawEnumeration.2.isOpen = s.isOpen :=
  by unfold State.drawEnumeration; split <;> rfl
@[simp] theorem State.drawEnumeration_handle : s.drawEnumeration.2.handle = s.handle :=
  by unfold State.drawEnumeration; split <;> rfl
@[simp] theorem State.drawEnumeration_dir : s.drawEnumeration.2.dir = s.dir := by unfold State.drawEnumeration; split <;> rfl
@[simp] theorem State.drawEnumeration_out : s.drawEnumeration.2.out = s.out := by unfold State.drawEnumeration; split <;> rfl
@[simp] theorem State.drawEnumeration_lsbFirst : s.drawEnumeration.2.lsbFirst = s.lsbFirst :=
  by unfold State.drawEnumeration; split <;> rfl
@[simp] theorem State.drawEnumeration_irqCfg : s.drawEnumeration.2.irqCfg = s.irqCfg :=
  by unfold State.drawEnumeration; split <;> rfl
@[simp] theorem State.drawEnumeration_cbSet : s.drawEnumeration.2.cbSet = s.cbSet :=
  by unfold State.drawEnumeration; split <;> rfl
@[simp] theorem State.drawEnumeration_irqEn : s.drawEnumeration.2.irqEn = s.irqEn :=
  by unfold State.drawEnumeration; split <;> rfl
@[simp] theorem State.drawEnumeration_lastLevel : s.drawEnumeration.2.lastLevel = s.lastLevel :=
  by unfold State.drawEnumeration; split <;> rfl
@[simp] theorem State.drawEnumeration_lastCause : s.drawEnumeration.2.lastCause = s.lastCause :=
  by unfold State.drawEnumeration; split <;> rfl
@[simp] theorem State.drawEnumeration_busFault : s.drawEnumeration.2.busFault = s.busFault :=
  by unfold State.drawEnumeration; split <;> rfl
@[simp] theorem State.drawEnumeration_opFault : s.drawEnumeration.2.opFault = s.opFault :=
  by unfold State.drawEnumeration; split <;> rfl
@[simp] theorem State.drawEnumeration_cbFault : s.drawEnumeration.2.cbFault = s.cbFault :=
  by unfold State.drawEnumeration; split <;> rfl
@[simp] theorem State.drawEnumeration_seq : s.drawEnumeration.2.seq = s.seq := by unfold State.drawEnumeration; split <;> rfl
@[simp] theorem State.drawEnumeration_pseq : s.drawEnumeration.2.pseq = s.pseq := by unfold State.drawEnumeration; split <;> rfl
@[simp] theorem State.drawEnumeration_buf : s.drawEnumeration.2.buf = s.buf := by unfold State.drawEnumeration; split <;> rfl
@[simp] theorem State.drawEnumeration_inbox : s.drawEnumeration.2.inbox = s.inbox :=
  by unfold State.drawEnumeration; split <;> rfl
@[simp] theorem State.drawEnumeration_res : s.drawEnumeration.2.res = s.res := by unfold State.drawEnumeration; split <;> rfl
@[simp] theorem State.drawEnumeration_trace : s.drawEnumeration.2.trace = s.trace :=
  by unfold State.drawEnumeration; split <;> rfl
@[simp] theorem State.drawEnumeration_pinsDir : s.drawEnumeration.2.pinsDir = s.pinsDir :=
  by unfold State.drawEnumeration; split <;> rfl
@[simp] theorem State.drawEnumeration_pinsOut : s.drawEnumeration.2.pinsOut = s.pinsOut :=
  by unfold State.drawEnumeration; split <;> rfl
@[simp] theorem State.drawEnumeration_pinsExt : s.drawEnumeration.2.pinsExt = s.pinsExt :=
  by unfold State.drawEnumeration; split <;> rfl
@[simp] theorem State.drawEnumeration_inQ : s.drawEnumeration.2.inQ = s.inQ := by unfold State.drawEnumeration; split <;> rfl
@[simp] theorem State.drawEnumeration_radio : s.drawEnumeration.2.radio = s.radio :=
  by unfold State.drawEnumeration; split <;> rfl
end

section
variable (s : State)

@[simp] theorem State.drawClock_par : s.drawClock.2.par = s.par := by unfold State.drawClock; split <;> rfl
@[simp] theorem State.drawClock_isOpen : s.drawClock.2.isOpen = s.isOpen := by unfold State.drawClock; split <;> rfl
@[simp] theorem State.drawClock_handle : s.drawClock.2.handle = s.handle := by unfold State.drawClock; split <;> rfl
@[simp] theorem State.drawClock_dir : s.drawClock.2.dir = s.dir := by unfold State.drawClock; split <;> rfl
@[simp] theorem State.drawClock_out : s.drawClock.2.out = s.out := by unfold State.drawClock; split <;> rfl
@[simp] theorem State.drawClock_lsbFirst : s.drawClock.2.lsbFirst = s.lsbFirst := by unfold State.drawClock; split <;> rfl
@[simp] theorem State.drawClock_irqCfg : s.drawClock.2.irqCfg = s.irqCfg := by unfold State.drawClock; split <;> rfl
@[simp] theorem State.drawClock_cbSet : s.drawClock.2.cbSet = s.cbSet := by unfold State.drawClock; split <;> rfl
@[simp] theorem State.drawClock_irqEn : s.drawClock.2.irqEn = s.irqEn := by unfold State.drawClock; split <;> rfl
@[simp] theorem State.drawClock_lastLevel : s.drawClock.2.lastLevel = s.lastLevel := by unfold State.drawClock; split <;> rfl
@[simp] theorem State.drawClock_lastCause : s.drawClock.2.lastCause = s.lastCause := by unfold State.drawClock; split <;> rfl
@[simp] theorem State.drawClock_busFault : s.drawClock.2.busFault = s.busFault := by unfold State.drawClock; split <;> rfl
@[simp] theorem State.drawClock_opFault : s.drawClock.2.opFault = s.opFault := by unfold State.drawClock; split <;> rfl
@[simp] theorem State.drawClock_cbFault : s.drawClock.2.cbFault = s.cbFault := by unfold State.drawClock; split <;> rfl
@[simp] theorem State.drawClock_seq : s.drawClock.2.seq = s.seq := by unfold State.drawClock; split <;> rfl
@[simp] theorem State.drawClock_pseq : s.drawClock.2.pseq = s.pseq := by unfold State.drawClock; split <;> rfl
@[simp] theorem State.drawClock_buf : s.drawClock.2.buf = s.buf := by unfold State.drawClock; split <;> rfl
@[simp] theorem State.drawClock_inbox : s.drawClock.2.inbox = s.inbox := by unfold State.drawClock; split <;> rfl
@[simp] theorem State.drawClock_res : s.drawClock.2.res = s.res := by unfold State.drawClock; split <;> rfl
@[simp] theorem State.drawClock_trace : s.drawClock.2.trace = s.trace := by unfold State.drawClock; split <;> rfl
@[simp] theorem State.drawClock_pinsDir : s.drawClock.2.pinsDir = s.pinsDir := by unfold State.drawClock; split <;> rfl
@[simp] theorem State.drawClock_pinsOut : s.drawClock.2.pinsOut = s.pinsOut := by unfold State.drawClock; split <;> rfl
@[simp] theorem State.drawClock_pinsExt : s.drawClock.2.pinsExt = s.pinsExt := by unfold State.drawClock; split <;> rfl
@[simp] theorem State.drawClock_inQ : s.drawClock.2.inQ = s.inQ := by unfold State.drawClock; split <;> rfl
@[simp] theorem State.drawClock_radio : s.drawClock.2.radio = s.radio := by unfold State.drawClock; split <;> rfl
end

section
variable (s : State)

@[simp] theorem State.drawGap_par : s.drawGap.2.par = s.par := by unfold State.drawGap; split <;> rfl
@[simp] theorem State.drawGap_isOpen : s.drawGap.2.isOpen = s.isOpen := by unfold State.drawGap; split <;> rfl
@[simp] theorem State.drawGap_handle : s.drawGap.2.handle = s.handle := by unfold State.drawGap; split <;> rfl
@[simp] theorem State.drawGap_dir : s.drawGap.2.dir = s.dir := by unfold State.drawGap; split <;> rfl
@[simp] theorem State.drawGap_out : s.drawGap.2.out = s.out := by unfold State.drawGap; split <;> rfl
@[simp] theorem State.drawGap_lsbFirst : s.drawGap.2.lsbFirst = s.lsbFirst := by unfold State.drawGap; split <;> rfl
@[simp] theorem State.drawGap_irqCfg : s.drawGap.2.irqCfg = s.irqCfg := by unfold State.drawGap; split <;> rfl
@[simp] theorem State.drawGap_cbSet : s.drawGap.2.cbSet = s.cbSet := by unfold State.drawGap; split <;> rfl
@[simp] theorem State.drawGap_irqEn : s.drawGap.2.irqEn = s.irqEn := by unfold State.drawGap; split <;> rfl
@[simp] theorem State.drawGap_lastLevel : s.drawGap.2.lastLevel = s.lastLevel := by unfold State.drawGap; split <;> rfl
@[simp] theorem State.drawGap_lastCause : s.drawGap.2.lastCause = s.lastCause := by unfold State.drawGap; split <;> rfl
@[simp] theorem State.drawGap_busFault : s.drawGap.2.busFault = s.busFault := by unfold State.drawGap; split <;> rfl
@[simp] theorem State.drawGap_opFault : s.drawGap.2.opFault = s.opFault := by unfold State.drawGap; split <;> rfl
@[simp] theorem State.drawGap_cbFault : s.drawGap.2.cbFault = s.cbFault := by unfold State.drawGap; split <;> rfl
@[simp] theorem State.drawGap_seq : s.drawGap.2.seq = s.seq := by unfold State.drawGap; split <;> rfl
@[simp] theorem State.drawGap_pseq : s.drawGap.2.pseq = s.pseq := by unfold State.drawGap; split <;> rfl
@[simp] theorem State.drawGap_buf : s.drawGap.2.buf = s.buf := by unfold State.drawGap; split <;> rfl
@[simp] theorem State.drawGap_inbox : s.drawGap.2.inbox = s.inbox := by unfold State.drawGap; split <;> rfl
@[simp] theorem State.drawGap_res : s.drawGap.2.res = s.res := by unfold State.drawGap; split <;> rfl
@[simp] theorem State.drawGap_trace : s.drawGap.2.trace = s.trace := by unfold State.drawGap; split <;> rfl
@[simp] theorem State.drawGap_pinsDir : s.drawGap.2.pinsDir = s.pinsDir := by unfold State.drawGap; split <;> rfl
@[simp] theorem State.drawGap_pinsOut : s.drawGap.2.pinsOut = s.pinsOut := by unfold State.drawGap; split <;> rfl
@[simp] theorem State.drawGap_pinsExt : s.drawGap.2.pinsExt = s.pinsExt := by unfold State.drawGap; split <;> rfl
@[simp] theorem State.drawGap_inQ : s.drawGap.2.inQ = s.inQ := by unfold State.drawGap; split <;> rfl
@[simp] theorem State.drawGap_radio : s.drawGap.2.radio = s.radio := by unfold State.drawGap; split <;> rfl
end

section
variable (s : State)

@[simp] theorem State.drawLostByte_par : s.drawLostByte.2.par = s.par := rfl
@[simp] theorem State.drawLostByte_isOpen : s.drawLostByte.2.isOpen = s.isOpen := rfl
@[simp] theorem State.drawLostByte_handle : s.drawLostByte.2.handle = s.handle := rfl
@[simp] theorem State.drawLostByte_dir : s.drawLostByte.2.dir = s.dir := rfl
@[simp] theorem State.drawLostByte_out : s.drawLostByte.2.out = s.out := rfl
@[simp] theorem State.drawLostByte_lsbFirst : s.drawLostByte.2.lsbFirst = s.lsbFirst := rfl
@[simp] theorem State.drawLostByte_irqCfg : s.drawLostByte.2.irqCfg = s.irqCfg := rfl
@[simp] theorem State.drawLostByte_cbSet : s.drawLostByte.2.cbSet = s.cbSet := rfl
@[simp] theorem State.drawLostByte_irqEn : s.drawLostByte.2.irqEn = s.irqEn := rfl
@[simp] theorem State.drawLostByte_lastLevel : s.drawLostByte.2.lastLevel = s.lastLevel := rfl
@[simp] theorem State.drawLostByte_lastCause : s.drawLostByte.2.lastCause = s.lastCause := rfl
@[simp] theorem State.drawLostByte_busFault : s.drawLostByte.2.busFault = s.busFault := rfl
@[simp] theorem State.drawLostByte_opFault : s.drawLostByte.2.opFault = s.opFault := rfl
@[simp] theorem State.drawLostByte_cbFault : s.drawLostByte.2.cbFault = s.cbFault := rfl
@[simp] theorem State.drawLostByte_seq : s.drawLostByte.2.seq = s.seq := rfl
@[simp] theorem State.drawLostByte_pseq : s.drawLostByte.2.pseq = s.pseq := rfl
@[simp] theorem State.drawLostByte_buf : s.drawLostByte.2.buf = s.buf := rfl
@[simp] theorem State.drawLostByte_inbox : s.drawLostByte.2.inbox = s.inbox := rfl
@[simp] theorem State.drawLostByte_res : s.drawLostByte.2.res = s.res := rfl
@[simp] theorem State.drawLostByte_trace : s.drawLostByte.2.trace = s.trace := rfl
@[simp] theorem State.drawLostByte_pinsDir : s.drawLostByte.2.pinsDir = s.pinsDir := rfl
@[simp] theorem State.drawLostByte_pinsOut : s.drawLostByte.2.pinsOut = s.pinsOut := rfl
@[simp] theorem State.drawLostByte_pinsExt : s.drawLostByte.2.pinsExt = s.pinsExt := rfl
@[simp] theorem State.drawLostByte_inQ : s.drawLostByte.2.inQ = s.inQ := rfl
@[simp] theorem State.drawLostByte_radio : s.drawLostByte.2.radio = s.radio := rfl
@[simp] theorem State.drawLostByte_env : s.drawLostByte.2.env = { s.env with drawn := s.env.drawn + 1 } := rfl
end

section
variable (s : State)

@[simp] theorem State.drawLostBytes_par : s.drawLostBytes.2.par = s.par := rfl
@[simp] theorem State.drawLostBytes_isOpen : s.drawLostBytes.2.isOpen = s.isOpen := rfl
@[simp] theorem State.drawLostBytes_handle : s.drawLostBytes.2.handle = s.handle := rfl
@[simp] theorem State.drawLostBytes_dir : s.drawLostBytes.2.dir = s.dir := rfl
@[simp] theorem State.drawLostBytes_out : s.drawLostBytes.2.out = s.out := rfl
@[simp] theorem State.drawLostBytes_lsbFirst : s.drawLostBytes.2.lsbFirst = s.lsbFirst := rfl
@[simp] theorem State.drawLostBytes_irqCfg : s.drawLostBytes.2.irqCfg = s.irqCfg := rfl
@[simp] theorem State.drawLostBytes_cbSet : s.drawLostBytes.2.cbSet = s.cbSet := rfl
@[simp] theorem State.drawLostBytes_irqEn : s.drawLostBytes.2.irqEn = s.irqEn := rfl
@[simp] theorem State.drawLostBytes_lastLevel : s.drawLostBytes.2.lastLevel = s.lastLevel := rfl
@[simp] theorem State.drawLostBytes_lastCause : s.drawLostBytes.2.lastCause = s.lastCause := rfl
@[simp] theorem State.drawLostBytes_busFault : s.drawLostBytes.2.busFault = s.busFault := rfl
@[simp] theorem State.drawLostBytes_opFault : s.drawLostBytes.2.opFault = s.opFault := rfl
@[simp] theorem State.drawLostBytes_cbFault : s.drawLostBytes.2.cbFault = s.cbFault := rfl
@[simp] theorem State.drawLostBytes_seq : s.drawLostBytes.2.seq = s.seq := rfl
@[simp] theorem State.drawLostBytes_pseq : s.drawLostBytes.2.pseq = s.pseq := rfl
@[simp] theorem State.drawLostBytes_buf : s.drawLostBytes.2.buf = s.buf := rfl
@[simp] theorem State.drawLostBytes_inbox : s.drawLostBytes.2.inbox = s.inbox := rfl
@[simp] theorem State.drawLostBytes_res : s.drawLostBytes.2.res = s.res := rfl
@[simp] theorem State.drawLostBytes_trace : s.drawLostBytes.2.trace = s.trace := rfl
@[simp] theorem State.drawLostBytes_pinsDir : s.drawLostBytes.2.pinsDir = s.pinsDir := rfl
@[simp] theorem State.drawLostBytes_pinsOut : s.drawLostBytes.2.pinsOut = s.pinsOut := rfl
@[simp] theorem State.drawLostBytes_pinsExt : s.drawLostBytes.2.pinsExt = s.pinsExt := rfl
@[simp] theorem State.drawLostBytes_inQ : s.drawLostBytes.2.inQ = s.inQ := rfl
@[simp] theorem State.drawLostBytes_radio : s.drawLostBytes.2.radio = s.radio := rfl
@[simp] theorem State.drawLostBytes_env : s.drawLostBytes.2.env = { s.env with drawn := s.env.drawn + 1 } := rfl
end

section
variable (s : State)

@[simp] theorem State.openedProvisionally_par : s.openedProvisionally.par = s.par := rfl
@[simp] theorem State.openedProvisionally_isOpen : s.openedProvisionally.isOpen = true := rfl
@[simp] theorem State.openedProvisionally_handle : s.openedProvisionally.handle = .valid := rfl
@[simp] theorem State.openedProvisionally_dir : s.openedProvisionally.dir = s.dir := rfl
@[simp] theorem State.openedProvisionally_out : s.openedProvisionally.out = s.out := rfl
@[simp] theorem State.openedProvisionally_lsbFirst : s.openedProvisionally.lsbFirst = s.lsbFirst := rfl
@[simp] theorem State.openedProvisionally_irqCfg : s.openedProvisionally.irqCfg = s.irqCfg := rfl
@[simp] theorem State.openedProvisionally_cbSet : s.openedProvisionally.cbSet = s.cbSet := rfl
@[simp] theorem State.openedProvisionally_irqEn : s.openedProvisionally.irqEn = s.irqEn := rfl
@[simp] theorem State.openedProvisionally_lastLevel : s.openedProvisionally.lastLevel = s.lastLevel := rfl
@[simp] theorem State.openedProvisionally_lastCause : s.openedProvisionally.lastCause = s.lastCause := rfl
@[simp] theorem State.openedProvisionally_busFault : s.openedProvisionally.busFault = s.busFault := rfl
@[simp] theorem State.openedProvisionally_opFault : s.openedProvisionally.opFault = s.opFault := rfl
@[simp] theorem State.openedProvisionally_cbFault : s.openedProvisionally.cbFault = s.cbFault := rfl
@[simp] theorem State.openedProvisionally_seq : s.openedProvisionally.seq = s.seq := rfl
@[simp] theorem State.openedProvisionally_pseq : s.openedProvisionally.pseq = s.pseq := rfl
@[simp] theorem State.openedProvisionally_buf : s.openedProvisionally.buf = s.buf := rfl
@[simp] theorem State.openedProvisionally_inbox : s.openedProvisionally.inbox = s.inbox := rfl
@[simp] theorem State.openedProvisionally_res : s.openedProvisionally.res = s.res := rfl
@[simp] theorem State.openedProvisionally_trace : s.openedProvisionally.trace = s.trace := rfl
@[simp] theorem State.openedProvisionally_pinsDir : s.openedProvisionally.pinsDir = s.pinsDir := rfl
@[simp] theorem State.openedProvisionally_pinsOut : s.openedProvisionally.pinsOut = s.pinsOut := rfl
@[simp] theorem State.openedProvisionally_pinsExt : s.openedProvisionally.pinsExt = s.pinsExt := rfl
@[simp] theorem State.openedProvisionally_inQ : s.openedProvisionally.inQ = s.inQ := rfl
@[simp] theorem State.openedProvisionally_radio : s.openedProvisionally.radio = s.radio := rfl
@[simp] theorem State.openedProvisionally_env : s.openedProvisionally.env = s.env := rfl
end

section
variable (s : State)

@[simp] theorem State.openMasks_par : s.openMasks.par = s.par := rfl
@[simp] theorem State.openMasks_isOpen : s.openMasks.isOpen = s.isOpen := rfl
@[simp] theorem State.openMasks_handle : s.openMasks.handle = s.handle := rfl
@[simp] theorem State.openMasks_dir : s.openMasks.dir = Config.dirOpen := rfl
@[simp] theorem State.openMasks_out : s.openMasks.out = pinMask s.par.csPin.val := rfl
@[simp] theorem State.openMasks_lsbFirst : s.openMasks.lsbFirst = s.lsbFirst := rfl
@[simp] theorem State.openMasks_irqCfg : s.openMasks.irqCfg = s.irqCfg := rfl
@[simp] theorem State.openMasks_cbSet : s.openMasks.cbSet = s.cbSet := rfl
@[simp] theorem State.openMasks_irqEn : s.openMasks.irqEn = s.irqEn := rfl
@[simp] theorem State.openMasks_lastLevel : s.openMasks.lastLevel = s.lastLevel := rfl
@[simp] theorem State.openMasks_lastCause : s.openMasks.lastCause = s.lastCause := rfl
@[simp] theorem State.openMasks_busFault : s.openMasks.busFault = s.busFault := rfl
@[simp] theorem State.openMasks_opFault : s.openMasks.opFault = s.opFault := rfl
@[simp] theorem State.openMasks_cbFault : s.openMasks.cbFault = s.cbFault := rfl
@[simp] theorem State.openMasks_seq : s.openMasks.seq = s.seq := rfl
@[simp] theorem State.openMasks_pseq : s.openMasks.pseq = s.pseq := rfl
@[simp] theorem State.openMasks_buf : s.openMasks.buf = s.buf := rfl
@[simp] theorem State.openMasks_inbox : s.openMasks.inbox = s.inbox := rfl
@[simp] theorem State.openMasks_res : s.openMasks.res = s.res := rfl
@[simp] theorem State.openMasks_trace : s.openMasks.trace = s.trace := rfl
@[simp] theorem State.openMasks_pinsDir : s.openMasks.pinsDir = s.pinsDir := rfl
@[simp] theorem State.openMasks_pinsOut : s.openMasks.pinsOut = s.pinsOut := rfl
@[simp] theorem State.openMasks_pinsExt : s.openMasks.pinsExt = s.pinsExt := rfl
@[simp] theorem State.openMasks_inQ : s.openMasks.inQ = s.inQ := rfl
@[simp] theorem State.openMasks_radio : s.openMasks.radio = s.radio := rfl
@[simp] theorem State.openMasks_env : s.openMasks.env = s.env := rfl
end

section
variable (s : State)

@[simp] theorem State.callbackDoubt_par : s.callbackDoubt.par = s.par := rfl
@[simp] theorem State.callbackDoubt_isOpen : s.callbackDoubt.isOpen = s.isOpen := rfl
@[simp] theorem State.callbackDoubt_handle : s.callbackDoubt.handle = s.handle := rfl
@[simp] theorem State.callbackDoubt_dir : s.callbackDoubt.dir = s.dir := rfl
@[simp] theorem State.callbackDoubt_out : s.callbackDoubt.out = s.out := rfl
@[simp] theorem State.callbackDoubt_lsbFirst : s.callbackDoubt.lsbFirst = s.lsbFirst := rfl
@[simp] theorem State.callbackDoubt_irqCfg : s.callbackDoubt.irqCfg = s.irqCfg := rfl
@[simp] theorem State.callbackDoubt_cbSet : s.callbackDoubt.cbSet = (s.cbSet && Config.keepsCallback s.env.drawn) := rfl
@[simp] theorem State.callbackDoubt_irqEn : s.callbackDoubt.irqEn = s.irqEn := rfl
@[simp] theorem State.callbackDoubt_lastLevel : s.callbackDoubt.lastLevel = s.lastLevel := rfl
@[simp] theorem State.callbackDoubt_lastCause : s.callbackDoubt.lastCause = s.lastCause := rfl
@[simp] theorem State.callbackDoubt_busFault : s.callbackDoubt.busFault = s.busFault := rfl
@[simp] theorem State.callbackDoubt_opFault : s.callbackDoubt.opFault = s.opFault := rfl
@[simp] theorem State.callbackDoubt_cbFault : s.callbackDoubt.cbFault = s.cbFault := rfl
@[simp] theorem State.callbackDoubt_seq : s.callbackDoubt.seq = s.seq := rfl
@[simp] theorem State.callbackDoubt_pseq : s.callbackDoubt.pseq = s.pseq := rfl
@[simp] theorem State.callbackDoubt_buf : s.callbackDoubt.buf = s.buf := rfl
@[simp] theorem State.callbackDoubt_inbox : s.callbackDoubt.inbox = s.inbox := rfl
@[simp] theorem State.callbackDoubt_res : s.callbackDoubt.res = s.res := rfl
@[simp] theorem State.callbackDoubt_trace : s.callbackDoubt.trace = s.trace := rfl
@[simp] theorem State.callbackDoubt_pinsDir : s.callbackDoubt.pinsDir = s.pinsDir := rfl
@[simp] theorem State.callbackDoubt_pinsOut : s.callbackDoubt.pinsOut = s.pinsOut := rfl
@[simp] theorem State.callbackDoubt_pinsExt : s.callbackDoubt.pinsExt = s.pinsExt := rfl
@[simp] theorem State.callbackDoubt_inQ : s.callbackDoubt.inQ = s.inQ := rfl
@[simp] theorem State.callbackDoubt_radio : s.callbackDoubt.radio = s.radio := rfl
@[simp] theorem State.callbackDoubt_env : s.callbackDoubt.env = s.env := rfl
end

section
variable (s : State)

@[simp] theorem openUndo_par : (openUndo s).par = s.par := rfl
@[simp] theorem openUndo_isOpen : (openUndo s).isOpen = false := rfl
@[simp] theorem openUndo_handle : (openUndo s).handle = .invalid := rfl
@[simp] theorem openUndo_dir : (openUndo s).dir = 0x00#6 := rfl
@[simp] theorem openUndo_out : (openUndo s).out = 0x00#6 := rfl
@[simp] theorem openUndo_lsbFirst : (openUndo s).lsbFirst = s.lsbFirst := rfl
@[simp] theorem openUndo_irqCfg : (openUndo s).irqCfg = s.irqCfg := rfl
@[simp] theorem openUndo_cbSet : (openUndo s).cbSet = (s.cbSet && Config.keepsCallback s.env.drawn) := rfl
@[simp] theorem openUndo_irqEn : (openUndo s).irqEn = s.irqEn := rfl
@[simp] theorem openUndo_lastLevel : (openUndo s).lastLevel = s.lastLevel := rfl
@[simp] theorem openUndo_lastCause : (openUndo s).lastCause = .bulkTransferError := rfl
@[simp] theorem openUndo_busFault : (openUndo s).busFault = s.busFault := rfl
@[simp] theorem openUndo_opFault : (openUndo s).opFault = s.opFault := rfl
@[simp] theorem openUndo_cbFault : (openUndo s).cbFault = s.cbFault := rfl
@[simp] theorem openUndo_seq : (openUndo s).seq = s.seq := rfl
@[simp] theorem openUndo_pseq : (openUndo s).pseq = s.pseq := rfl
@[simp] theorem openUndo_buf : (openUndo s).buf = s.buf := rfl
@[simp] theorem openUndo_inbox : (openUndo s).inbox = s.inbox := rfl
@[simp] theorem openUndo_res : (openUndo s).res = s.res := rfl
@[simp] theorem openUndo_trace : (openUndo s).trace = s.trace := rfl
@[simp] theorem openUndo_pinsDir : (openUndo s).pinsDir = s.pinsDir := rfl
@[simp] theorem openUndo_pinsOut : (openUndo s).pinsOut = s.pinsOut := rfl
@[simp] theorem openUndo_pinsExt : (openUndo s).pinsExt = s.pinsExt := rfl
@[simp] theorem openUndo_inQ : (openUndo s).inQ = s.inQ := rfl
@[simp] theorem openUndo_radio : (openUndo s).radio = s.radio := rfl
@[simp] theorem openUndo_env : (openUndo s).env = s.env := rfl
end

section
variable (s : State)

@[simp] theorem State.openedWell_par : s.openedWell.par = s.par := rfl
@[simp] theorem State.openedWell_isOpen : s.openedWell.isOpen = s.isOpen := rfl
@[simp] theorem State.openedWell_handle : s.openedWell.handle = s.handle := rfl
@[simp] theorem State.openedWell_dir : s.openedWell.dir = s.dir := rfl
@[simp] theorem State.openedWell_out : s.openedWell.out = s.out := rfl
@[simp] theorem State.openedWell_lsbFirst : s.openedWell.lsbFirst = s.lsbFirst := rfl
@[simp] theorem State.openedWell_irqCfg : s.openedWell.irqCfg = s.irqCfg := rfl
@[simp] theorem State.openedWell_cbSet : s.openedWell.cbSet = s.cbSet := rfl
@[simp] theorem State.openedWell_irqEn : s.openedWell.irqEn = s.irqEn := rfl
@[simp] theorem State.openedWell_lastLevel : s.openedWell.lastLevel = s.lastLevel := rfl
@[simp] theorem State.openedWell_lastCause : s.openedWell.lastCause = .none := rfl
@[simp] theorem State.openedWell_busFault : s.openedWell.busFault = s.busFault := rfl
@[simp] theorem State.openedWell_opFault : s.openedWell.opFault = s.opFault := rfl
@[simp] theorem State.openedWell_cbFault : s.openedWell.cbFault = s.cbFault := rfl
@[simp] theorem State.openedWell_seq : s.openedWell.seq = s.seq := rfl
@[simp] theorem State.openedWell_pseq : s.openedWell.pseq = s.pseq := rfl
@[simp] theorem State.openedWell_buf : s.openedWell.buf = s.buf := rfl
@[simp] theorem State.openedWell_inbox : s.openedWell.inbox = s.inbox := rfl
@[simp] theorem State.openedWell_res : s.openedWell.res = s.res := rfl
@[simp] theorem State.openedWell_trace : s.openedWell.trace = s.trace := rfl
@[simp] theorem State.openedWell_pinsDir : s.openedWell.pinsDir = s.pinsDir := rfl
@[simp] theorem State.openedWell_pinsOut : s.openedWell.pinsOut = s.pinsOut := rfl
@[simp] theorem State.openedWell_pinsExt : s.openedWell.pinsExt = s.pinsExt := rfl
@[simp] theorem State.openedWell_inQ : s.openedWell.inQ = s.inQ := rfl
@[simp] theorem State.openedWell_radio : s.openedWell.radio = { s.radio with txn := [] } := rfl
@[simp] theorem State.openedWell_env : s.openedWell.env = s.env := rfl
end

section
variable (s : State)

@[simp] theorem State.closeMasks_par : s.closeMasks.par = s.par := rfl
@[simp] theorem State.closeMasks_isOpen : s.closeMasks.isOpen = s.isOpen := rfl
@[simp] theorem State.closeMasks_handle : s.closeMasks.handle = s.handle := rfl
@[simp] theorem State.closeMasks_dir : s.closeMasks.dir = 0x00#6 := rfl
@[simp] theorem State.closeMasks_out : s.closeMasks.out = 0x00#6 := rfl
@[simp] theorem State.closeMasks_lsbFirst : s.closeMasks.lsbFirst = s.lsbFirst := rfl
@[simp] theorem State.closeMasks_irqCfg : s.closeMasks.irqCfg = false := rfl
@[simp] theorem State.closeMasks_cbSet : s.closeMasks.cbSet = s.cbSet := rfl
@[simp] theorem State.closeMasks_irqEn : s.closeMasks.irqEn = false := rfl
@[simp] theorem State.closeMasks_lastLevel : s.closeMasks.lastLevel = .unknown := rfl
@[simp] theorem State.closeMasks_lastCause : s.closeMasks.lastCause = s.lastCause := rfl
@[simp] theorem State.closeMasks_busFault : s.closeMasks.busFault = s.busFault := rfl
@[simp] theorem State.closeMasks_opFault : s.closeMasks.opFault = s.opFault := rfl
@[simp] theorem State.closeMasks_cbFault : s.closeMasks.cbFault = s.cbFault := rfl
@[simp] theorem State.closeMasks_seq : s.closeMasks.seq = s.seq := rfl
@[simp] theorem State.closeMasks_pseq : s.closeMasks.pseq = s.pseq := rfl
@[simp] theorem State.closeMasks_buf : s.closeMasks.buf = s.buf := rfl
@[simp] theorem State.closeMasks_inbox : s.closeMasks.inbox = s.inbox := rfl
@[simp] theorem State.closeMasks_res : s.closeMasks.res = s.res := rfl
@[simp] theorem State.closeMasks_trace : s.closeMasks.trace = s.trace := rfl
@[simp] theorem State.closeMasks_pinsDir : s.closeMasks.pinsDir = s.pinsDir := rfl
@[simp] theorem State.closeMasks_pinsOut : s.closeMasks.pinsOut = s.pinsOut := rfl
@[simp] theorem State.closeMasks_pinsExt : s.closeMasks.pinsExt = s.pinsExt := rfl
@[simp] theorem State.closeMasks_inQ : s.closeMasks.inQ = s.inQ := rfl
@[simp] theorem State.closeMasks_radio : s.closeMasks.radio = s.radio := rfl
@[simp] theorem State.closeMasks_env : s.closeMasks.env = s.env := rfl
end

section
variable (s : State)

@[simp] theorem State.dropHandle_par : s.dropHandle.par = s.par := rfl
@[simp] theorem State.dropHandle_isOpen : s.dropHandle.isOpen = false := rfl
@[simp] theorem State.dropHandle_handle : s.dropHandle.handle = .invalid := rfl
@[simp] theorem State.dropHandle_dir : s.dropHandle.dir = s.dir := rfl
@[simp] theorem State.dropHandle_out : s.dropHandle.out = s.out := rfl
@[simp] theorem State.dropHandle_lsbFirst : s.dropHandle.lsbFirst = s.lsbFirst := rfl
@[simp] theorem State.dropHandle_irqCfg : s.dropHandle.irqCfg = s.irqCfg := rfl
@[simp] theorem State.dropHandle_cbSet : s.dropHandle.cbSet = s.cbSet := rfl
@[simp] theorem State.dropHandle_irqEn : s.dropHandle.irqEn = s.irqEn := rfl
@[simp] theorem State.dropHandle_lastLevel : s.dropHandle.lastLevel = s.lastLevel := rfl
@[simp] theorem State.dropHandle_lastCause : s.dropHandle.lastCause = s.lastCause := rfl
@[simp] theorem State.dropHandle_busFault : s.dropHandle.busFault = s.busFault := rfl
@[simp] theorem State.dropHandle_opFault : s.dropHandle.opFault = s.opFault := rfl
@[simp] theorem State.dropHandle_cbFault : s.dropHandle.cbFault = s.cbFault := rfl
@[simp] theorem State.dropHandle_seq : s.dropHandle.seq = s.seq := rfl
@[simp] theorem State.dropHandle_pseq : s.dropHandle.pseq = s.pseq := rfl
@[simp] theorem State.dropHandle_buf : s.dropHandle.buf = s.buf := rfl
@[simp] theorem State.dropHandle_inbox : s.dropHandle.inbox = s.inbox := rfl
@[simp] theorem State.dropHandle_res : s.dropHandle.res = s.res := rfl
@[simp] theorem State.dropHandle_trace : s.dropHandle.trace = s.trace := rfl
@[simp] theorem State.dropHandle_pinsDir : s.dropHandle.pinsDir = s.pinsDir := rfl
@[simp] theorem State.dropHandle_pinsOut : s.dropHandle.pinsOut = s.pinsOut := rfl
@[simp] theorem State.dropHandle_pinsExt : s.dropHandle.pinsExt = s.pinsExt := rfl
@[simp] theorem State.dropHandle_inQ : s.dropHandle.inQ = s.inQ := rfl
@[simp] theorem State.dropHandle_radio : s.dropHandle.radio = { s.radio with txn := [] } := rfl
@[simp] theorem State.dropHandle_env : s.dropHandle.env = s.env := rfl
end

/-! ### Fields an update computes from others -/

/-- The radio at the moment of a transaction. -/
theorem State.arrive_radio (s : State) (t : Tick) :
    (s.arrive t).radio =
      if s.csLow && (s.pinsAt t).csLow then s.radio
      else (if s.csLow = (s.pinsAt t).csLow then s.radio else { s.radio with txn := [] }).act s.par t.radio := by
  have hc : ((s.pinsAt t).edgeSince s).csLow = (s.pinsAt t).csLow := by
    simp only [State.csLow, State.levels, State.edgeSince_pinsOut, State.edgeSince_pinsDir, State.edgeSince_pinsExt,
      State.edgeSince_par]
  unfold State.arrive
  simp only [hc]
  split
  · rename_i h
    simp only [Bool.and_eq_true] at h
    simp [h.1, h.2]
  · simp

@[simp] theorem MaskUpdate.store_out (u : MaskUpdate) (m : PinMask) (s : State) :
    (u.store m s).out = match u with
      | .out pin high => putBit pin high m
      | .dir _ _ => s.out := by cases u <;> rfl

@[simp] theorem MaskUpdate.store_dir (u : MaskUpdate) (m : PinMask) (s : State) :
    (u.store m s).dir = match u with
      | .out _ _ => s.dir
      | .dir pin output => putBit pin output m := by cases u <;> rfl

end Sys2Proof.Machine
end

