-- ==== Sys2Proof/Laws/Bus.lean ====
section
/-! SUPPORT. The bulk transactions of a serialised session, one by one, and the register accesses built from them: what each
leaves in every part of the state when its transactions answer `ok`. -/

namespace Sys2Proof.Machine

/-! ### A serialised session: POLLER has no steps -/

/-- At the bulk transaction with the answer `t` only FG has steps (20_memory.md R79). -/
def Alone (t : Tick) (s : State) : Prop := s.pseq = .idle ∧ (s.irqEn = true → t.poll = PollOrder.none)

theorem pollMicro_loopOff (s : State) (h : s.LoopOff) : pollMicro s = s := by
  simp [pollMicro, h.1, h.2]

theorem pollSteps_idle (n : Nat) (s : State) (h : s.pseq = .idle) (hn : s.irqEn = true → n = 0) : pollSteps n s = s := by
  by_cases he : s.irqEn = true
  · rw [hn he]; rfl
  · have hm := pollMicro_loopOff s ⟨by simpa using he, h⟩
    clear hn
    induction n with
    | zero => rfl
    | succ n ih => rw [pollSteps, hm, ih]

theorem Alone.of_loopOff {s : State} (h : s.LoopOff) (t : Tick) : Alone t s :=
  ⟨h.2, fun e => by rw [h.1] at e; cases e⟩

theorem State.Serialised.alone {n : Nat} {s : State} {t : Tick} {rest : List Tick} (h : s.Serialised (n + 1))
    (ht : s.env.ticks = t :: rest) : Alone t s :=
  ⟨h.1, fun e => h.2 e t (by simp [ht])⟩

theorem joinPoller_idle (s : State) (h : s.pseq = .idle) : joinPoller s = s := by
  simp [joinPoller, h]

/-! ### What a transaction of FG keeps -/

/-- The session and POLLER's registers, but for `BUS_FAULT`, the shadow masks and FG's own position and buffers. -/
structure Kept (s t : State) : Prop where
  par : t.par = s.par
  isOpen : t.isOpen = s.isOpen
  handle : t.handle = s.handle
  dir : t.dir = s.dir
  lsbFirst : t.lsbFirst = s.lsbFirst
  irqCfg : t.irqCfg = s.irqCfg
  cbSet : t.cbSet = s.cbSet
  irqEn : t.irqEn = s.irqEn
  lastLevel : t.lastLevel = s.lastLevel
  lastCause : t.lastCause = s.lastCause
  pseq : t.pseq = s.pseq
  inbox : t.inbox = s.inbox
  res : t.res = s.res
  enums : t.env.enums = s.env.enums
  clocks : t.env.clocks = s.env.clocks
  opFault : t.opFault = s.opFault

theorem Kept.refl (s : State) : Kept s s := by constructor <;> rfl

theorem Kept.trans {s t u : State} (h : Kept s t) (k : Kept t u) : Kept s u :=
  ⟨k.par.trans h.par, k.isOpen.trans h.isOpen, k.handle.trans h.handle, k.dir.trans h.dir, k.lsbFirst.trans h.lsbFirst,
    k.irqCfg.trans h.irqCfg, k.cbSet.trans h.cbSet, k.irqEn.trans h.irqEn, k.lastLevel.trans h.lastLevel,
    k.lastCause.trans h.lastCause, k.pseq.trans h.pseq, k.inbox.trans h.inbox, k.res.trans h.res, k.enums.trans h.enums,
    k.clocks.trans h.clocks, k.opFault.trans h.opFault⟩

theorem Alone.of_kept {t : Tick} {s u : State} (h : Alone t s) (k : Kept s u) : Alone t u :=
  ⟨k.pseq.trans h.1, fun e => h.2 (k.irqEn.symm.trans e)⟩

/-- A serialised run of transactions goes on after its first `m`. -/
theorem Kept.serialised {m n : Nat} {s u : State} (k : Kept s u) (h : s.Serialised (m + n))
    (ht : u.env.ticks = s.env.ticks.drop m) : u.Serialised n :=
  ⟨k.pseq.trans h.1, fun e t hm => h.2 (k.irqEn.symm.trans e) t (by
    rw [ht] at hm; rw [List.take_add]; exact List.mem_append.2 (.inr hm))⟩

/-- What one transaction of FG that answers `ok` leaves, but for the far end. -/
structure Answered (rest : List Tick) (s t : State) : Prop extends Kept s t where
  out : t.out = s.out
  busFault : t.busFault = s.busFault
  seq : t.seq = s.seq
  buf : t.buf = s.buf
  ticks : t.env.ticks = rest

theorem State.drawTick_fst (s : State) (t : Tick) (rest : List Tick) (h : s.env.ticks = t :: rest) : s.drawTick.1 = t := by
  simp [State.drawTick, h]

theorem State.drawTick_ticks (s : State) (t : Tick) (rest : List Tick) (h : s.env.ticks = t :: rest) :
    s.drawTick.2.env.ticks = rest := by
  simp [State.drawTick, h]

theorem State.drawTick_enums (s : State) : s.drawTick.2.env.enums = s.env.enums := by
  unfold State.drawTick; split <;> rfl

theorem State.drawTick_clocks (s : State) : s.drawTick.2.env.clocks = s.env.clocks := by
  unfold State.drawTick; split <;> rfl

/-- No step of POLLER falls before a transaction that FG makes alone. -/
theorem pollSteps_alone {s : State} {t : Tick} (h : Alone t s) (n : Nat) (hn : t.poll = PollOrder.none → n = 0) :
    pollSteps n s = s := pollSteps_idle n s h.1 fun e => hn (h.2 e)

theorem drawTick_alone {s : State} {t : Tick} (h : Alone t s) : Alone t s.drawTick.2 := by
  simpa [Alone] using h

/-! ### The adapter touches the far end only -/

section
variable (t : Tick) (c : WireCmd) (s : State)

@[simp] theorem adapterRun_par : (adapterRun t c s).par = s.par := by
  cases c <;> simp only [adapterRun, adapterPins, adapterAsk, adapterClock, adapterSpeed, State.edgeSince] <;> split <;> rfl
@[simp] theorem adapterRun_isOpen : (adapterRun t c s).isOpen = s.isOpen := by
  cases c <;> simp only [adapterRun, adapterPins, adapterAsk, adapterClock, adapterSpeed, State.edgeSince] <;> split <;> rfl
@[simp] theorem adapterRun_handle : (adapterRun t c s).handle = s.handle := by
  cases c <;> simp only [adapterRun, adapterPins, adapterAsk, adapterClock, adapterSpeed, State.edgeSince] <;> split <;> rfl
@[simp] theorem adapterRun_dir : (adapterRun t c s).dir = s.dir := by
  cases c <;> simp only [adapterRun, adapterPins, adapterAsk, adapterClock, adapterSpeed, State.edgeSince] <;> split <;> rfl
@[simp] theorem adapterRun_out : (adapterRun t c s).out = s.out := by
  cases c <;> simp only [adapterRun, adapterPins, adapterAsk, adapterClock, adapterSpeed, State.edgeSince] <;> split <;> rfl
@[simp] theorem adapterRun_lsbFirst : (adapterRun t c s).lsbFirst = s.lsbFirst := by
  cases c <;> simp only [adapterRun, adapterPins, adapterAsk, adapterClock, adapterSpeed, State.edgeSince] <;> split <;> rfl
@[simp] theorem adapterRun_irqCfg : (adapterRun t c s).irqCfg = s.irqCfg := by
  cases c <;> simp only [adapterRun, adapterPins, adapterAsk, adapterClock, adapterSpeed, State.edgeSince] <;> split <;> rfl
@[simp] theorem adapterRun_cbSet : (adapterRun t c s).cbSet = s.cbSet := by
  cases c <;> simp only [adapterRun, adapterPins, adapterAsk, adapterClock, adapterSpeed, State.edgeSince] <;> split <;> rfl
@[simp] theorem adapterRun_irqEn : (adapterRun t c s).irqEn = s.irqEn := by
  cases c <;> simp only [adapterRun, adapterPins, adapterAsk, adapterClock, adapterSpeed, State.edgeSince] <;> split <;> rfl
@[simp] theorem adapterRun_lastLevel : (adapterRun t c s).lastLevel = s.lastLevel := by
  cases c <;> simp only [adapterRun, adapterPins, adapterAsk, adapterClock, adapterSpeed, State.edgeSince] <;> split <;> rfl
@[simp] theorem adapterRun_lastCause : (adapterRun t c s).lastCause = s.lastCause := by
  cases c <;> simp only [adapterRun, adapterPins, adapterAsk, adapterClock, adapterSpeed, State.edgeSince] <;> split <;> rfl
@[simp] theorem adapterRun_busFault : (adapterRun t c s).busFault = s.busFault := by
  cases c <;> simp only [adapterRun, adapterPins, adapterAsk, adapterClock, adapterSpeed, State.edgeSince] <;> split <;> rfl
@[simp] theorem adapterRun_opFault : (adapterRun t c s).opFault = s.opFault := by
  cases c <;> simp only [adapterRun, adapterPins, adapterAsk, adapterClock, adapterSpeed, State.edgeSince] <;> split <;> rfl
@[simp] theorem adapterRun_seq : (adapterRun t c s).seq = s.seq := by
  cases c <;> simp only [adapterRun, adapterPins, adapterAsk, adapterClock, adapterSpeed, State.edgeSince] <;> split <;> rfl
@[simp] theorem adapterRun_pseq : (adapterRun t c s).pseq = s.pseq := by
  cases c <;> simp only [adapterRun, adapterPins, adapterAsk, adapterClock, adapterSpeed, State.edgeSince] <;> split <;> rfl
@[simp] theorem adapterRun_buf : (adapterRun t c s).buf = s.buf := by
  cases c <;> simp only [adapterRun, adapterPins, adapterAsk, adapterClock, adapterSpeed, State.edgeSince] <;> split <;> rfl
@[simp] theorem adapterRun_inbox : (adapterRun t c s).inbox = s.inbox := by
  cases c <;> simp only [adapterRun, adapterPins, adapterAsk, adapterClock, adapterSpeed, State.edgeSince] <;> split <;> rfl
@[simp] theorem adapterRun_res : (adapterRun t c s).res = s.res := by
  cases c <;> simp only [adapterRun, adapterPins, adapterAsk, adapterClock, adapterSpeed, State.edgeSince] <;> split <;> rfl
@[simp] theorem adapterRun_trace : (adapterRun t c s).trace = s.trace := by
  cases c <;> simp only [adapterRun, adapterPins, adapterAsk, adapterClock, adapterSpeed, State.edgeSince] <;> split <;> rfl
@[simp] theorem adapterRun_pinsExt : (adapterRun t c s).pinsExt = s.pinsExt := by
  cases c <;> simp only [adapterRun, adapterPins, adapterAsk, adapterClock, adapterSpeed, State.edgeSince] <;> split <;> rfl
@[simp] theorem adapterRun_env : (adapterRun t c s).env = s.env := by
  cases c <;> simp only [adapterRun, adapterPins, adapterAsk, adapterClock, adapterSpeed, State.edgeSince] <;> split <;> rfl

end

/-! ### One transaction -/

@[simp] theorem sendAt_pseq (who : Who) (c : WireCmd) (t : Tick) (s : State) : (sendAt who c t s).2.pseq = s.pseq := by
  simp only [sendAt]; split <;> simp

@[simp] theorem takeAt_pseq (who : Who) (t : Tick) (s : State) : (takeAt who t s).2.pseq = s.pseq := by
  simp only [takeAt]; split <;> simp

@[simp] theorem sendAt_irqEn (who : Who) (c : WireCmd) (t : Tick) (s : State) : (sendAt who c t s).2.irqEn = s.irqEn := by
  simp only [sendAt]; split <;> simp

@[simp] theorem takeAt_irqEn (who : Who) (t : Tick) (s : State) : (takeAt who t s).2.irqEn = s.irqEn := by
  simp only [takeAt]; split <;> simp

/-- No step of POLLER falls after a transaction that FG makes alone. -/
theorem thenPoll_alone {α : Type} {t : Tick} {r : α × State} (h : Alone t r.2) : thenPoll t r = r := by
  rw [thenPoll, pollSteps_alone h _ fun e => by rw [e]; rfl]

theorem sendAt_alone (who : Who) (c : WireCmd) {t : Tick} {s : State} (h : Alone t s) :
    thenPoll t (sendAt who c t s) = sendAt who c t s := thenPoll_alone (by simpa [Alone] using h)

theorem takeAt_alone (who : Who) {t : Tick} {s : State} (h : Alone t s) :
    thenPoll t (takeAt who t s) = takeAt who t s := thenPoll_alone (by simpa [Alone] using h)

section
variable {s : State} {t : Tick} {rest : List Tick} (h : Alone t s) (ht : s.env.ticks = t :: rest)
include h ht

theorem bulkOut_alone (c : WireCmd) : bulkOut c s = sendAt (.fg s.seq) c t s.drawTick.2 := by
  rw [bulkOut, s.drawTick_fst t rest ht, pollSteps_alone (drawTick_alone h) _ fun e => by rw [e]; rfl, State.drawTick_seq,
    sendAt_alone _ _ (drawTick_alone h)]

theorem bulkIn_alone : bulkIn s = takeAt (.fg s.seq) t s.drawTick.2 := by
  rw [bulkIn, s.drawTick_fst t rest ht, pollSteps_alone (drawTick_alone h) _ fun e => by rw [e]; rfl, State.drawTick_seq,
    takeAt_alone _ (drawTick_alone h)]

theorem bulkOut_ok (ha : t.answer = .ok) (c : WireCmd) :
    bulkOut c s = (true, (adapterRun t c (s.drawTick.2.arrive t)).emit (.sent (.fg s.seq) (c.frame s.par) true)) := by
  simp only [bulkOut_alone h ht, sendAt, ha, State.arrive_par, State.drawTick_par]

theorem bulkOut_fail (ha : t.answer ≠ .ok) (c : WireCmd) :
    bulkOut c s = (false,
      (((if t.answer = .failExecuted then adapterRun t c (s.drawTick.2.arrive t) else s.drawTick.2.arrive t).emit
        (.sent (.fg s.seq) (c.frame s.par) false)).busFailed)) := by
  simp only [bulkOut_alone h ht, sendAt, State.arrive_par, State.drawTick_par]
  cases hc : t.answer <;> simp_all

theorem bulkIn_ok (ha : t.answer = .ok) (b : Byte) (q : List Byte) (hq : s.inQ = b :: q) :
    bulkIn s = (some b, { s.drawTick.2.arrive t with inQ := q }.emit (.taken (.fg s.seq) (some b))) := by
  simp only [bulkIn_alone h ht, takeAt, ha, State.arrive_inQ, State.drawTick_inQ, hq]

theorem bulkIn_fail (ha : t.answer ≠ .ok) :
    bulkIn s = (none,
      ({ s.drawTick.2.arrive t with inQ := if t.answer = Answer.failExecuted then s.inQ.tail else s.inQ }.emit
        (.taken (.fg s.seq) none)).busFailed) := by
  simp only [bulkIn_alone h ht, takeAt]
  have hi : (s.drawTick.2.arrive t).inQ = s.inQ := by simp
  generalize s.drawTick.2.arrive t = u at hi ⊢
  rw [← hi]
  obtain ⟨q, hq⟩ : ∃ q, q = u.inQ := ⟨_, rfl⟩
  rw [← hq]
  cases hc : t.answer <;> cases q <;> first | (exfalso; exact ha hc) | simp [State.emit, State.busFailed, ← hq]

end

/-! ### The far end after each command -/

@[simp] theorem adapterRun_pins_pinsOut (t : Tick) (o d : PinMask) (s : State) : (adapterRun t (.pins o d) s).pinsOut = o := by
  simp only [adapterRun, adapterPins, State.edgeSince]; split <;> rfl
@[simp] theorem adapterRun_pins_pinsDir (t : Tick) (o d : PinMask) (s : State) : (adapterRun t (.pins o d) s).pinsDir = d := by
  simp only [adapterRun, adapterPins, State.edgeSince]; split <;> rfl
@[simp] theorem adapterRun_pins_inQ (t : Tick) (o d : PinMask) (s : State) : (adapterRun t (.pins o d) s).inQ = s.inQ := by
  simp only [adapterRun, adapterPins, State.edgeSince]; split <;> rfl
/-- No edge of chip-select, no change at the radio. -/
theorem adapterRun_pins_radio_same (t : Tick) (o d : PinMask) (s : State)
    (h : s.csLow = ({ s with pinsOut := o, pinsDir := d } : State).csLow) :
    (adapterRun t (.pins o d) s).radio = s.radio := by
  simp only [adapterRun, adapterPins, State.edgeSince, h, if_true]
/-- An edge of chip-select empties `TXN`. -/
theorem adapterRun_pins_radio_edge (t : Tick) (o d : PinMask) (s : State)
    (h : s.csLow ≠ ({ s with pinsOut := o, pinsDir := d } : State).csLow) :
    (adapterRun t (.pins o d) s).radio = { s.radio with txn := [] } := by
  simp only [adapterRun, adapterPins, State.edgeSince, h, if_false, State.dropTxn]

@[simp] theorem adapterRun_askPins_pinsOut (t : Tick) (s : State) : (adapterRun t .askPins s).pinsOut = s.pinsOut := rfl
@[simp] theorem adapterRun_askPins_pinsDir (t : Tick) (s : State) : (adapterRun t .askPins s).pinsDir = s.pinsDir := rfl
@[simp] theorem adapterRun_askPins_radio (t : Tick) (s : State) : (adapterRun t .askPins s).radio = s.radio := rfl
@[simp] theorem adapterRun_askPins_inQ (t : Tick) (s : State) :
    (adapterRun t .askPins s).inQ = s.inQ ++ [t.echo.extractLsb' 6 2 ++ s.levels] := rfl

@[simp] theorem adapterRun_clock_pinsOut (t : Tick) (d : Byte) (s : State) : (adapterRun t (.clock d) s).pinsOut = s.pinsOut := by
  simp only [adapterRun, adapterClock]; split <;> rfl
@[simp] theorem adapterRun_clock_pinsDir (t : Tick) (d : Byte) (s : State) : (adapterRun t (.clock d) s).pinsDir = s.pinsDir := by
  simp only [adapterRun, adapterClock]; split <;> rfl
theorem adapterRun_clock_low (t : Tick) (d : Byte) (s : State) (h : s.csLow = true) :
    (adapterRun t (.clock d) s).radio = (s.radio.clock s.par t d).2 ∧
      (adapterRun t (.clock d) s).inQ = s.inQ ++ [(s.radio.clock s.par t d).1] := by
  simp only [adapterRun, adapterClock, h, if_true, and_self]
theorem adapterRun_clock_high (t : Tick) (d : Byte) (s : State) (h : s.csLow = false) :
    (adapterRun t (.clock d) s).radio = s.radio ∧ (adapterRun t (.clock d) s).inQ = s.inQ ++ [t.echo] := by
  simp only [adapterRun, adapterClock, h, Bool.false_eq_true, if_false, and_self]

@[simp] theorem adapterRun_speed (t : Tick) (v : BitVec 3) (s : State) : adapterRun t (.speed v) s = s := rfl

/-- Chip-select as the latch drives it. -/
theorem csLow_driven (s : State) (hd : s.pinsDir.getLsbD s.par.csPin.val = true) :
    s.csLow = !s.pinsOut.getLsbD s.par.csPin.val := by
  have := s.par.csPin.isLt
  simp only [State.csLow, State.levels, BitVec.getLsbD_or, BitVec.getLsbD_and, BitVec.getLsbD_not, hd, this, decide_true,
    Bool.and_true, Bool.not_true, Bool.and_false, Bool.or_false]

theorem csLow_congr {s u : State} (hp : u.par = s.par) (ho : u.pinsOut = s.pinsOut) (hd : u.pinsDir = s.pinsDir)
    (hc : s.pinsDir.getLsbD s.par.csPin.val = true) : u.csLow = s.csLow := by
  rw [csLow_driven s hc, csLow_driven u (by rw [hd, hp]; exact hc), ho, hp]

/-- With chip-select driven the outside makes no edge. -/
theorem csLow_pinsAt (s : State) (t : Tick) (hd : s.pinsDir.getLsbD s.par.csPin.val = true) : (s.pinsAt t).csLow = s.csLow :=
  csLow_congr rfl rfl rfl hd

/-- With chip-select driven high RADIO's own steps come first. -/
theorem arrive_radio_high (t : Tick) (s : State) (hd : s.pinsDir.getLsbD s.par.csPin.val = true) (hc : s.csLow = false) :
    (s.arrive t).radio = s.radio.act s.par t.radio := by
  simp [State.arrive_radio, csLow_pinsAt s t hd, hc]

/-- With chip-select driven low RADIO has no steps of its own. -/
theorem arrive_radio_low (t : Tick) (s : State) (hd : s.pinsDir.getLsbD s.par.csPin.val = true) (hc : s.csLow = true) :
    (s.arrive t).radio = s.radio := by
  simp [State.arrive_radio, csLow_pinsAt s t hd, hc]

/-! ### What FG's transactions leave -/

section
variable {s : State} {t : Tick} {rest : List Tick} (h : Alone t s) (ht : s.env.ticks = t :: rest)
include h ht

theorem bulkOut_answered (ha : t.answer = .ok) (c : WireCmd) : Answered rest s (bulkOut c s).2 := by
  rw [bulkOut_ok h ht ha]
  refine ⟨⟨?_, ?_, ?_, ?_, ?_, ?_, ?_, ?_, ?_, ?_, ?_, ?_, ?_, ?_, ?_, ?_⟩, ?_, ?_, ?_, ?_, ?_⟩ <;>
    simp [s.drawTick_ticks t rest ht, State.drawTick_enums, State.drawTick_clocks]

theorem bulkIn_answered (ha : t.answer = .ok) (b : Byte) (q : List Byte) (hq : s.inQ = b :: q) :
    Answered rest s (bulkIn s).2 := by
  rw [bulkIn_ok h ht ha b q hq]
  refine ⟨⟨?_, ?_, ?_, ?_, ?_, ?_, ?_, ?_, ?_, ?_, ?_, ?_, ?_, ?_, ?_, ?_⟩, ?_, ?_, ?_, ?_, ?_⟩ <;>
    simp [s.drawTick_ticks t rest ht, State.drawTick_enums, State.drawTick_clocks]

end

/-! ### The wire trace -/

theorem clockFrame_eq (p : Params) (d : Byte) : (WireCmd.clock d).frame p = clockFrame p d := rfl

theorem pinFrame_eq (p : Params) (out dir : PinMask) : (WireCmd.pins out dir).frame p = pinFrame p out dir := rfl

theorem askFrame_eq (p : Params) : WireCmd.askPins.frame p = askFrame p := rfl

theorem State.wireLog_emit (e : Event) (s : State) : (s.emit e).wireLog = s.wireLog ++ e.line.toList := by
  simp only [State.wireLog, State.emit_trace, List.reverse_cons, List.filterMap_append, List.filterMap_cons, List.filterMap_nil]
  cases e.line <;> rfl

theorem State.wireLog_congr {s u : State} (h : u.trace = s.trace) : u.wireLog = s.wireLog := by
  simp only [State.wireLog, h]

theorem State.framesSent_congr {s u : State} (h : u.trace = s.trace) : u.framesSent = s.framesSent := by
  simp only [State.framesSent, State.wireLog_congr h]

section
variable {s : State} {t : Tick} {rest : List Tick} (h : Alone t s) (ht : s.env.ticks = t :: rest)
include h ht

/-- A frame that answers `ok`, on the wire. -/
theorem bulkOut_log (ha : t.answer = .ok) (c : WireCmd) : (bulkOut c s).2.wireLog = s.wireLog ++ [.out (c.frame s.par)] := by
  rw [bulkOut_ok h ht ha, State.wireLog_emit]
  rw [State.wireLog_congr (s := s) (by simp)]
  rfl

/-- A frame that fails, on the wire. -/
theorem bulkOut_fail_log (ha : t.answer ≠ .ok) (c : WireCmd) :
    (bulkOut c s).2.wireLog = s.wireLog ++ [.outFailed (c.frame s.par)] := by
  rw [bulkOut_fail h ht ha, State.wireLog_congr (State.busFailed_trace _), State.wireLog_emit]
  congr 1
  apply State.wireLog_congr
  split <;> simp

/-- A byte taken, on the wire. -/
theorem bulkIn_log (ha : t.answer = .ok) (b : Byte) (q : List Byte) (hq : s.inQ = b :: q) :
    (bulkIn s).2.wireLog = s.wireLog ++ [.back b] := by
  rw [bulkIn_ok h ht ha b q hq, State.wireLog_emit]
  rw [State.wireLog_congr (s := s) (by simp)]
  rfl

/-- A taking that fails, on the wire. -/
theorem bulkIn_fail_log (ha : t.answer ≠ .ok) : (bulkIn s).2.wireLog = s.wireLog ++ [.backFailed] := by
  rw [bulkIn_fail h ht ha, State.wireLog_congr (State.busFailed_trace _), State.wireLog_emit]
  rw [State.wireLog_congr (s := s) (by simp)]
  rfl

theorem bulkOut_frames (ha : t.answer = .ok) (c : WireCmd) :
    (bulkOut c s).2.framesSent = s.framesSent ++ [c.frame s.par] := by
  simp [State.framesSent, bulkOut_log h ht ha]

theorem bulkIn_frames (ha : t.answer = .ok) (b : Byte) (q : List Byte) (hq : s.inQ = b :: q) :
    (bulkIn s).2.framesSent = s.framesSent := by
  simp [State.framesSent, bulkIn_log h ht ha b q hq]

end

/-! ### A shadow mask changed and sent -/

/-- One bit of a shadow mask changed at one instant. -/
def MaskUpdate.apply (u : MaskUpdate) (s : State) : State := u.store (u.load s) s

@[simp] theorem MaskUpdate.apply_out (pin : Nat) (b : Bool) (s : State) :
    (MaskUpdate.out pin b).apply s = { s with out := putBit pin b s.out } := rfl

@[simp] theorem MaskUpdate.apply_dir (pin : Nat) (b : Bool) (s : State) :
    (MaskUpdate.dir pin b).apply s = { s with dir := putBit pin b s.dir } := rfl

theorem MaskUpdate.store_drawTick (u : MaskUpdate) (m : PinMask) (s : State) :
    (u.store m s).drawTick = (s.drawTick.1, u.store m s.drawTick.2) := by
  cases u <;> (simp only [State.drawTick, MaskUpdate.store]; split <;> rfl)

/-- In a serialised session the four acts of FG are one: the mask changed, then the frame of both masks. -/
theorem updatePins_alone {s : State} {t : Tick} {rest : List Tick} (h : Alone t s) (ht : s.env.ticks = t :: rest)
    (u : MaskUpdate) : updatePins u s = bulkOut (.pins (u.apply s).out (u.apply s).dir) (u.apply s) := by
  have hz : ∀ (f : PollOrder → Nat), f PollOrder.none = 0 → ∀ v : State, Alone t v → pollSteps (f t.poll) v = v :=
    fun f hf v hv => pollSteps_alone hv _ fun e => by rw [e]; exact hf
  have ha : Alone t s.drawTick.2 := drawTick_alone h
  have hs : Alone t (u.store (u.load s) s.drawTick.2) := by simpa [Alone] using ha
  have hl : u.load s.drawTick.2 = u.load s := by cases u <;> simp [MaskUpdate.load]
  simp only [updatePins, bulkOut, s.drawTick_fst t rest ht, hz (·.beforeLoad) rfl _ ha, hz (·.beforeStore) rfl _ ha,
    hz (·.beforeFrame) rfl _ hs, hz (·.beforeSend) rfl _ hs, MaskUpdate.apply, MaskUpdate.store_drawTick,
    hz PollOrder.before rfl _ hs, hl]
  congr 2
  cases u <;> simp

/-! ### One bit of a pin mask -/

theorem getLsbD_pinMask (p : Fin 6) (i : Nat) : (pinMask p.val).getLsbD i = decide (i = p.val) := by
  simp only [pinMask, BitVec.getLsbD_shiftLeft]
  have := p.isLt
  by_cases h : i = p.val
  · subst h; simp
  · by_cases h2 : i < p.val
    · simp [h, h2]
    · have : i - p.val ≠ 0 := by omega
      simp [h, this]

theorem clear_then_set (p : Fin 6) (m : PinMask) (h : m.getLsbD p.val = true) :
    (m &&& ~~~pinMask p.val) ||| pinMask p.val = m := by
  apply BitVec.eq_of_getLsbD_eq
  intro i hi
  simp only [BitVec.getLsbD_or, BitVec.getLsbD_and, BitVec.getLsbD_not, getLsbD_pinMask, hi, decide_true, Bool.true_and]
  by_cases e : i = p.val
  · subst e; simp only [h, Bool.true_and, decide_true, Bool.or_true]
  · simp only [e, decide_false, Bool.not_false, Bool.and_true, Bool.or_false]

theorem getLsbD_clear (p : Fin 6) (m : PinMask) : (m &&& ~~~pinMask p.val).getLsbD p.val = false := by
  simp only [BitVec.getLsbD_and, BitVec.getLsbD_not, getLsbD_pinMask, decide_true, Bool.not_true, Bool.and_false]

theorem getLsbD_set (p : Fin 6) (m : PinMask) : (m ||| pinMask p.val).getLsbD p.val = true := by
  simp only [BitVec.getLsbD_or, getLsbD_pinMask, decide_true, Bool.or_true]

end Sys2Proof.Machine
end

