-- ==== Sys2Proof/Laws/Access.lean ====
section
/-! SUPPORT. The register accesses of a ready session: a transfer in progress, the two shapes of the register protocol, and how
accesses chain. -/

namespace Sys2Proof.Machine

/-! ### A ready session inside an operation -/

/-- A ready session in whose running operation no transaction has failed. -/
structure State.Running (s : State) : Prop extends s.Ready where
  noFault : s.opFault = false

theorem RegAccess.frames_congr {s u : State} (hp : u.par = s.par) (ho : u.out = s.out) (hd : u.dir = s.dir) (x : RegAccess) :
    x.frames u = x.frames s := by
  simp only [RegAccess.frames, hp, ho, hd]

/-! ### A transfer in progress on a ready session -/

/-- Between the two chip-select frames of a transfer that started at the ready state `s`: the latch and the shadow masks have
chip-select low, `fs` has been sent, and `rest` is left of the answers. -/
structure Selected (fs : List (List Byte)) (rest : List Tick) (s u : State) : Prop extends Kept s u where
  out : u.out = s.out &&& ~~~pinMask s.par.csPin.val
  latchOut : u.pinsOut = u.out
  latchDir : u.pinsDir = s.dir
  busFault : u.busFault = s.busFault
  inQ : u.inQ = []
  ticks : u.env.ticks = rest
  frames : u.framesSent = s.framesSent ++ fs

variable {fs : List (List Byte)}

theorem Selected.csLow {rest : List Tick} {s u : State} (h : Selected fs rest s u) (hr : s.Ready) : u.csLow = true := by
  have hd : u.pinsDir.getLsbD u.par.csPin.val = true := by rw [h.latchDir, h.par]; exact hr.csOutput
  rw [csLow_driven u hd, h.latchOut, h.out, h.par, getLsbD_clear]; rfl

theorem Selected.atBus {rest : List Tick} {s u : State} (h : Selected fs rest s u) (l : Label) :
    Selected fs rest s (u.atBus l) :=
  ⟨h.toKept.trans (by constructor <;> rfl), h.out, h.latchOut, h.latchDir, h.busFault, h.inQ, h.ticks, h.frames⟩

/-- One round trip: the byte is clocked at the radio and its echo is taken. -/
theorem roundTrip_selected {t t' : Tick} {rest : List Tick} {s u : State} (hr : s.Ready)
    (h : Selected fs (t :: t' :: rest) s u) (hl : Alone t s) (hl' : Alone t' s) (ha : t.answer = .ok) (ha' : t'.answer = .ok)
    (num i : Nat) (d : Byte) :
    (roundTrip num i d u).1 = some (u.radio.clock s.par t d).1 ∧
      Selected (fs ++ [clockFrame s.par d]) rest s (roundTrip num i d u).2 ∧
      (roundTrip num i d u).2.buf = u.buf ∧ (roundTrip num i d u).2.radio = (u.radio.clock s.par t d).2 := by
  obtain ⟨v, hv⟩ : ∃ v, v = u.atBus (.round 'T' num i .sending) := ⟨_, rfl⟩
  have hvs : Selected fs (t :: t' :: rest) s v := hv ▸ h.atBus _
  have hvr : v.radio = u.radio := by rw [hv]; rfl
  have hvb : v.buf = u.buf := by rw [hv]; rfl
  have hva := hl.of_kept hvs.toKept
  have e1 := bulkOut_ok hva hvs.ticks ha (.clock d)
  have a1 := bulkOut_answered hva hvs.ticks ha (.clock d)
  have f1 := bulkOut_frames hva hvs.ticks ha (.clock d)
  obtain ⟨w, hw⟩ : ∃ w, w = (bulkOut (.clock d) v).2 := ⟨_, rfl⟩
  rw [← hw] at a1 f1
  have hdr : v.pinsDir.getLsbD v.par.csPin.val = true := by rw [hvs.latchDir, hvs.par]; exact hr.csOutput
  have hlow : (v.drawTick.2.arrive t).csLow = true := by
    rw [csLow_congr (s := v) (by simp) (by simp) (by simp) hdr]; exact hvs.csLow hr
  have hlowr := adapterRun_clock_low t d _ hlow
  have harr : (v.drawTick.2.arrive t).radio = u.radio := by
    rw [arrive_radio_low _ _ (by simpa using hdr)
      ((csLow_congr (s := v) (by simp) (by simp) (by simp) hdr).trans (hvs.csLow hr))]
    simpa using hvr
  have wr : w.radio = (u.radio.clock s.par t d).2 := by
    rw [hw, e1]; simp only [State.emit_radio, hlowr.1, harr, State.arrive_par, State.drawTick_par, hvs.par]
  have wq : w.inQ = [(u.radio.clock s.par t d).1] := by
    rw [hw, e1]
    simp only [State.emit_inQ, hlowr.2, harr, State.arrive_par, State.drawTick_par, hvs.par, State.arrive_inQ,
      State.drawTick_inQ, hvs.inQ, List.nil_append]
  have wlo : w.pinsOut = v.pinsOut := by rw [hw, e1]; simp
  have wld : w.pinsDir = v.pinsDir := by rw [hw, e1]; simp
  obtain ⟨x, hx⟩ : ∃ x, x = w.atBus (.round 'T' num i .taking) := ⟨_, rfl⟩
  have kx : Kept s x := by rw [hx]; exact (hvs.toKept.trans a1.toKept).trans (by constructor <;> rfl)
  have xs := hl'.of_kept kx
  have xt : x.env.ticks = t' :: rest := by rw [hx]; exact a1.ticks
  have xq : x.inQ = [(u.radio.clock s.par t d).1] := by rw [hx]; exact wq
  have e2 := bulkIn_ok xs xt ha' _ _ xq
  have a2 := bulkIn_answered xs xt ha' _ _ xq
  have f2 := bulkIn_frames xs xt ha' _ _ xq
  have heq : roundTrip num i d u = bulkIn x := by
    have h1 : (bulkOut (.clock d) v).1 = true := by rw [e1]
    simp only [roundTrip, ← hv, h1, if_true, ← hw, ← hx]
  have xr : x.radio = w.radio := by rw [hx]; rfl
  have xlo : x.pinsOut = v.pinsOut := by rw [hx]; exact wlo
  have xld : x.pinsDir = v.pinsDir := by rw [hx]; exact wld
  have xp : x.par = v.par := kx.par.trans hvs.par.symm
  have xlow : x.csLow = true := (csLow_congr xp xlo xld hdr).trans (hvs.csLow hr)
  have xdr : x.pinsDir.getLsbD x.par.csPin.val = true := by rw [xld, xp]; exact hdr
  rw [heq]
  refine ⟨by rw [e2], ⟨kx.trans a2.toKept, ?_, ?_, ?_, ?_, ?_, a2.ticks, ?_⟩, ?_, ?_⟩
  · rw [a2.out, hx, State.atBus_out, a1.out, hvs.out]
  · rw [a2.out, e2]; simp only [State.emit_pinsOut, State.arrive_pinsOut, State.drawTick_pinsOut]
    rw [xlo, hx, State.atBus_out, a1.out, hvs.latchOut]
  · rw [e2]; simp only [State.emit_pinsDir, State.arrive_pinsDir, State.drawTick_pinsDir]
    rw [xld, hvs.latchDir]
  · rw [a2.busFault, hx, State.atBus_busFault, a1.busFault, hvs.busFault]
  · rw [e2]; rfl
  · rw [f2, State.framesSent_congr (s := w) (by rw [hx]; rfl), f1, hvs.frames, clockFrame_eq, hvs.par, List.append_assoc]
  · rw [a2.buf, hx, State.atBus_buf, a1.buf, hvb]
  · rw [e2]; simp only [State.emit_radio]
    rw [arrive_radio_low _ _ (by simpa using xdr)
      ((csLow_congr (s := x) (by simp) (by simp) (by simp) xdr).trans xlow)]
    simp only [State.drawTick_radio]; rw [xr, wr]

/-- The frame that selects the radio: RADIO's own steps are done, the transaction starts empty. -/
theorem chipSelect_low {t : Tick} {rest : List Tick} {s v : State} (hr : s.Ready) (hk : Kept s v) (hvo : v.out = s.out)
    (hvp : v.pinsOut = s.pinsOut) (hvd : v.pinsDir = s.pinsDir) (hvf : v.busFault = s.busFault) (hvq : v.inQ = s.inQ)
    (hvr : v.radio = s.radio) (hvs : v.trace = s.trace) (hvt : v.env.ticks = t :: rest) (hl : Alone t s)
    (ha : t.answer = .ok) :
    (chipSelect false v).1 = true ∧
      Selected [pinFrame s.par (s.out &&& ~~~pinMask s.par.csPin.val) s.dir] rest s (chipSelect false v).2 ∧
      (chipSelect false v).2.buf = v.buf ∧ (chipSelect false v).2.radio = s.radio.act s.par t.radio := by
  have vl : Alone t (v.atBus (.main 'T' 1)) := hl.of_kept (hk.trans (by constructor <;> rfl))
  obtain ⟨w, hw⟩ : ∃ w, w = (MaskUpdate.out v.par.csPin.val false).apply (v.atBus (.main 'T' 1)) := ⟨_, rfl⟩
  have heq : chipSelect false v = bulkOut (.pins w.out w.dir) w := by
    simp only [chipSelect, Bool.false_eq_true, if_false, updatePins_alone vl hvt, ← hw]
  have wt : w.env.ticks = t :: rest := by rw [hw]; exact hvt
  have wp : w.par = s.par := by rw [hw]; exact hk.par
  have wo : w.out = s.out &&& ~~~pinMask s.par.csPin.val := by rw [hw]; simp [putBit, hvo, hk.par]
  have wd : w.dir = s.dir := by rw [hw]; exact hk.dir
  have wlo : w.pinsOut = s.out := by rw [hw]; exact hvp.trans hr.latchOut
  have wld : w.pinsDir = s.dir := by rw [hw]; exact hvd.trans hr.latchDir
  have wr : w.radio = s.radio := by rw [hw]; exact hvr
  have kw : Kept s w := by rw [hw]; exact hk.trans (by constructor <;> rfl)
  have ws := hl.of_kept kw
  have e := bulkOut_ok ws wt ha (.pins w.out w.dir)
  have a := bulkOut_answered ws wt ha (.pins w.out w.dir)
  have f := bulkOut_frames ws wt ha (.pins w.out w.dir)
  have hb0 : w.csLow = false := by
    rw [csLow_driven _ (by simpa [wld, wp] using hr.csOutput)]
    simpa [wlo, wp] using hr.csHigh
  have hdr : w.pinsDir.getLsbD w.par.csPin.val = true := by rw [wld, wp]; exact hr.csOutput
  have arr : (w.drawTick.2.arrive t).radio = s.radio.act s.par t.radio := by
    rw [arrive_radio_high _ _ (by simpa using hdr)
      ((csLow_congr (s := w) (by simp) (by simp) (by simp) hdr).trans hb0)]
    simp [wr, wp]
  have hb : (w.drawTick.2.arrive t).csLow = false :=
    (csLow_congr (s := w) (by simp) (by simp) (by simp) hdr).trans hb0
  have hc : ({ w.drawTick.2.arrive t with pinsOut := w.out, pinsDir := w.dir } : State).csLow = true := by
    rw [csLow_driven _ (by simpa [wd, wp] using hr.csOutput)]
    simp only [State.arrive_par, State.drawTick_par, wp, wo, getLsbD_clear, Bool.not_false]
  have hrad := adapterRun_pins_radio_edge t w.out w.dir (w.drawTick.2.arrive t) (by rw [hb, hc]; decide)
  rw [heq]
  refine ⟨by rw [e], ⟨kw.trans a.toKept, ?_, ?_, ?_, ?_, ?_, a.ticks, ?_⟩, ?_, ?_⟩
  · rw [a.out, wo]
  · rw [a.out, e]; simp
  · rw [e]; simp [wd]
  · rw [a.busFault, hw]; simpa using hvf
  · rw [e]; simp only [State.emit_inQ, adapterRun_pins_inQ, State.arrive_inQ, State.drawTick_inQ]
    rw [hw]; simpa [hvq] using hr.inQEmpty
  · rw [f, State.framesSent_congr (s := s) (by rw [hw]; exact hvs), pinFrame_eq, wp, wo, wd]
  · rw [a.buf, hw]; rfl
  · rw [e]; simp only [State.emit_radio, hrad, arr]
    rw [show s.radio.act s.par t.radio = { s.radio.act s.par t.radio with txn := [] } from by
      cases hq : s.radio.act s.par t.radio with
      | mk a b c => have := Radio.txn_act s.par t.radio s.radio; rw [hq, hr.txnEmpty] at this; simp_all]

/-- The frame that ends the transaction. -/
theorem chipSelect_high {t : Tick} {rest : List Tick} {s u : State} (hr : s.Ready) (h : Selected fs (t :: rest) s u)
    (hl : Alone t s) (ha : t.answer = .ok) :
    (chipSelect true u).1 = true ∧ Kept s (chipSelect true u).2 ∧ (chipSelect true u).2.out = s.out ∧
      (chipSelect true u).2.pinsOut = s.out ∧ (chipSelect true u).2.pinsDir = s.dir ∧
      (chipSelect true u).2.busFault = s.busFault ∧ (chipSelect true u).2.inQ = [] ∧
      (chipSelect true u).2.env.ticks = rest ∧ (chipSelect true u).2.buf = u.buf ∧
      (chipSelect true u).2.radio = { u.radio with txn := [] } ∧
      (chipSelect true u).2.framesSent = s.framesSent ++ (fs ++ [pinFrame s.par s.out s.dir]) := by
  have ul : Alone t (u.atBus (.main 'T' 4)) := hl.of_kept (h.toKept.trans (by constructor <;> rfl))
  obtain ⟨w, hw⟩ : ∃ w, w = (MaskUpdate.out u.par.csPin.val true).apply (u.atBus (.main 'T' 4)) := ⟨_, rfl⟩
  have heq : chipSelect true u = bulkOut (.pins w.out w.dir) w := by
    simp only [chipSelect, if_true, updatePins_alone ul h.ticks, ← hw]
  have wt : w.env.ticks = t :: rest := by rw [hw]; exact h.ticks
  have wp : w.par = s.par := by rw [hw]; exact h.par
  have wo : w.out = s.out := by rw [hw]; simpa [putBit, h.out, h.par] using clear_then_set _ _ hr.csHigh
  have wd : w.dir = s.dir := by rw [hw]; exact h.dir
  have wlo : w.pinsOut = s.out &&& ~~~pinMask s.par.csPin.val := by rw [hw]; exact h.latchOut.trans h.out
  have wld : w.pinsDir = s.dir := by rw [hw]; exact h.latchDir
  have wr : w.radio = u.radio := by rw [hw]; rfl
  have kw : Kept s w := by rw [hw]; exact h.toKept.trans (by constructor <;> rfl)
  have ws := hl.of_kept kw
  have e := bulkOut_ok ws wt ha (.pins w.out w.dir)
  have a := bulkOut_answered ws wt ha (.pins w.out w.dir)
  have f := bulkOut_frames ws wt ha (.pins w.out w.dir)
  have hdr : w.pinsDir.getLsbD w.par.csPin.val = true := by rw [wld, wp]; exact hr.csOutput
  have hb0 : w.csLow = true := by rw [csLow_driven _ hdr, wlo, wp, getLsbD_clear]; rfl
  have hb : (w.drawTick.2.arrive t).csLow = true :=
    (csLow_congr (s := w) (by simp) (by simp) (by simp) hdr).trans hb0
  have arr : (w.drawTick.2.arrive t).radio = u.radio := by
    rw [arrive_radio_low _ _ (by simpa using hdr) ((csLow_congr (s := w) (by simp) (by simp) (by simp) hdr).trans hb0)]
    simpa using wr
  have hc : ({ w.drawTick.2.arrive t with pinsOut := w.out, pinsDir := w.dir } : State).csLow = false := by
    rw [csLow_driven _ (by simpa [wd, wp] using hr.csOutput)]
    simpa [wo, wp] using hr.csHigh
  have hrad := adapterRun_pins_radio_edge t w.out w.dir (w.drawTick.2.arrive t) (by rw [hb, hc]; decide)
  rw [heq]
  refine ⟨by rw [e], kw.trans a.toKept, ?_, ?_, ?_, ?_, ?_, a.ticks, ?_, ?_, ?_⟩
  · rw [a.out, wo]
  · rw [e]; simp [wo]
  · rw [e]; simp [wd]
  · rw [a.busFault, hw]; exact h.busFault
  · rw [e]; simp only [State.emit_inQ, adapterRun_pins_inQ, State.arrive_inQ, State.drawTick_inQ]
    rw [hw]; exact h.inQ
  · rw [a.buf, hw]; rfl
  · rw [e]; simp only [State.emit_radio, hrad, arr]
  · rw [f, State.framesSent_congr (s := u) (by rw [hw]; rfl), h.frames, pinFrame_eq, wp, wo, wd, List.append_assoc]

/-! ### The two register accesses -/

/-- What the register accesses listed leave on a ready session, but for the radio. -/
structure Access (accs : List RegAccess) (s t : State) : Prop extends Kept s t where
  out : t.out = s.out
  busFault : t.busFault = s.busFault
  buf : t.buf = none
  latchOut : t.pinsOut = s.pinsOut
  latchDir : t.pinsDir = s.pinsDir
  inQ : t.inQ = []
  txn : t.radio.txn = []
  ticks : t.env.ticks = s.env.ticks.drop (6 * accs.length)
  frames : t.framesSent = s.framesSent ++ accs.flatMap (·.frames s)

/-- The radio at the first clocked byte of a transfer: after its own steps before chip-select fell. -/
def State.quiet (s : State) : Radio :=
  match s.env.ticks with
  | [] => s.radio
  | t :: _ => s.radio.act s.par t.radio

/-- A serialised answer of the next six. -/
structure Given (t : Tick) (s : State) : Prop where
  alone : Alone t s
  ok : t.answer = .ok

/-- The six answers of a register access. -/
theorem State.Answers.six {s : State} (h : s.Answers 6) :
    ∃ t1 t2 t3 t4 t5 t6 rest, s.env.ticks = t1 :: t2 :: t3 :: t4 :: t5 :: t6 :: rest ∧ Given t1 s ∧ Given t2 s ∧
      Given t3 s ∧ Given t4 s ∧ Given t5 s ∧ Given t6 s := by
  obtain ⟨⟨hp, hz⟩, hl, ho⟩ := h
  match hs : s.env.ticks, hl with
  | t1 :: t2 :: t3 :: t4 :: t5 :: t6 :: rest, _ =>
    rw [hs] at ho hz
    have hg : ∀ t ∈ [t1, t2, t3, t4, t5, t6], Given t s := fun t ht => ⟨⟨hp, fun e => hz e t ht⟩, ho t ht⟩
    exact ⟨t1, t2, t3, t4, t5, t6, rest, rfl, hg _ (by simp), hg _ (by simp), hg _ (by simp), hg _ (by simp),
      hg _ (by simp), hg _ (by simp)⟩

/-- The two answers of a round trip. -/
theorem State.Answers.two {s : State} (h : s.Answers 2) :
    ∃ t1 t2 rest, s.env.ticks = t1 :: t2 :: rest ∧ Given t1 s ∧ Given t2 s := by
  obtain ⟨⟨hp, hz⟩, hl, ho⟩ := h
  match hs : s.env.ticks, hl with
  | t1 :: t2 :: rest, _ =>
    rw [hs] at ho hz
    exact ⟨t1, t2, rest, rfl, ⟨⟨hp, fun e => hz e _ (by simp)⟩, ho _ (by simp)⟩, ⟨⟨hp, fun e => hz e _ (by simp)⟩, ho _ (by simp)⟩⟩

/-- The answer of one transaction. -/
theorem State.Answers.one {s : State} (h : s.Answers 1) : ∃ t rest, s.env.ticks = t :: rest ∧ Given t s := by
  obtain ⟨⟨hp, hz⟩, hl, ho⟩ := h
  match hs : s.env.ticks, hl with
  | t :: rest, _ =>
    rw [hs] at ho hz
    exact ⟨t, rest, rfl, ⟨⟨hp, fun e => hz e _ (by simp)⟩, ho _ (by simp)⟩⟩

/-- The answers that are left after `m` of them. -/
theorem Kept.answers {m n : Nat} {s u : State} (k : Kept s u) (ha : s.Answers (m + n)) (ht : u.env.ticks = s.env.ticks.drop m) :
    u.Answers n := by
  refine ⟨k.serialised ha.serialised ht, ?_, fun x hx => ha.ok x ?_⟩
  · have := ha.given; rw [ht, List.length_drop]; omega
  · rw [ht] at hx
    rw [List.take_add]; exact List.mem_append.2 (.inr hx)

theorem Radio.clock_first (p : Params) (t : Tick) (d : Byte) (r : Radio) (h : r.txn = []) :
    r.clock p t d = (t.echo, { r with txn := [d] }) := by
  unfold Radio.clock; rw [h]

theorem Radio.clock_write (p : Params) (t : Tick) (a d : Byte) (r : Radio) (h : r.txn = [a]) (hw : a.getLsbD 7 = true) :
    r.clock p t d = (t.echo, { r.regWrite p (a.extractLsb' 0 7) d t.junk with txn := [a, d] }) := by
  unfold Radio.clock; rw [h]; simp only [hw, if_true]

theorem Radio.clock_read (p : Params) (t : Tick) (a d : Byte) (r : Radio) (h : r.txn = [a]) (hw : a.getLsbD 7 = false) :
    r.clock p t d = ((r.regRead p (a.extractLsb' 0 7)).1, { (r.regRead p (a.extractLsb' 0 7)).2 with txn := [a, d] }) := by
  unfold Radio.clock; rw [h]; simp only [hw, Bool.false_eq_true, if_false]

theorem Radio.withTxn_regRead (p : Params) (a : RegAddr) (r : Radio) (l : List Byte) :
    ({ r with txn := l } : Radio).regRead p a = ((r.regRead p a).1, { (r.regRead p a).2 with txn := l }) := by
  unfold Radio.regRead; split <;> rfl

theorem Radio.withTxn_regWrite (p : Params) (a : RegAddr) (v j : Byte) (r : Radio) (l : List Byte) :
    ({ r with txn := l } : Radio).regWrite p a v j = { r.regWrite p a v j with txn := l } := by
  unfold Radio.regWrite; split <;> rfl

theorem readByte_bits (a : RegAddr) :
    (0#1 ++ a : BitVec 8).getLsbD 7 = false ∧ (0#1 ++ a : BitVec 8).extractLsb' 0 7 = a := by
  revert a; decide

theorem writeByte_bits (a : RegAddr) :
    (1#1 ++ a : BitVec 8).getLsbD 7 = true ∧ (1#1 ++ a : BitVec 8).extractLsb' 0 7 = a := by
  revert a; decide

/-- An echo kept changes the buffers only. -/
theorem Selected.keepEcho {rest : List Tick} {s u : State} (h : Selected fs rest s u) (e : Byte) :
    Selected fs rest s (u.keepEcho e) :=
  ⟨h.toKept.trans (by constructor <;> rfl), h.out, h.latchOut, h.latchDir, h.busFault, h.inQ, h.ticks, h.frames⟩

theorem State.quiet_txn {s : State} (h : s.radio.txn = []) : s.quiet.txn = [] := by
  unfold State.quiet; split <;> simp [h]

/-- A register read of six transactions: the value `RegRead` gives after RADIO's own steps, and nothing else changed. -/
theorem transfer_read {s : State} (hr : s.Ready) (ha : s.Answers 6) (a : RegAddr) :
    (transferBytes [(0#1 ++ a : BitVec 8)] 1 s).1 = [(s.quiet.regRead s.par a).1] ∧
      Access [.read a] s (transferBytes [(0#1 ++ a : BitVec 8)] 1 s).2 ∧
      (transferBytes [(0#1 ++ a : BitVec 8)] 1 s).2.radio = { (s.quiet.regRead s.par a).2 with txn := [] } := by
  obtain ⟨hw, hx⟩ := readByte_bits a
  obtain ⟨b, hbe⟩ : ∃ b : Byte, b = (0#1 ++ a : BitVec 8) := ⟨_, rfl⟩
  rw [← hbe] at hw hx ⊢
  obtain ⟨t1, t2, t3, t4, t5, t6, rest, ht, o1, o2, o3, o4, o5, o6⟩ := ha.six
  obtain ⟨v, hv⟩ : ∃ v, v = s.startBuffers [b] 1 := ⟨_, rfl⟩
  have kv : Kept s v := by rw [hv]; constructor <;> rfl
  obtain ⟨g1, s1, b1, r1⟩ := chipSelect_low hr kv (by rw [hv]; rfl) (by rw [hv]; rfl) (by rw [hv]; rfl) (by rw [hv]; rfl)
    (by rw [hv]; rfl) (by rw [hv]; rfl) (by rw [hv]; rfl) (by rw [hv]; exact ht) o1.alone o1.ok
  obtain ⟨u1, hu1⟩ : ∃ u, u = (chipSelect false v).2 := ⟨_, rfl⟩
  rw [← hu1] at s1 b1 r1
  have l1 : u1.lsbFirst = false := by rw [s1.lsbFirst]; exact hr.msbFirst
  obtain ⟨g2, s2, b2, r2⟩ := roundTrip_selected hr s1 o2.alone o3.alone o2.ok o3.ok 2 0 b
  obtain ⟨u2, hu2⟩ : ∃ u, u = (roundTrip 2 0 b u1).2 := ⟨_, rfl⟩
  rw [← hu2] at s2 b2 r2
  have q1 : u1.radio = s.quiet := by rw [r1]; simp [State.quiet, ht]
  rw [q1, Radio.clock_first _ _ _ _ (State.quiet_txn hr.txnEmpty)] at r2
  obtain ⟨g3, s3, b3, r3⟩ := roundTrip_selected hr s2 o4.alone o5.alone o4.ok o5.ok 3 0 Config.dummy
  obtain ⟨u3, hu3⟩ : ∃ u, u = (roundTrip 3 0 Config.dummy u2).2 := ⟨_, rfl⟩
  rw [← hu3] at s3 b3 r3
  rw [r2, Radio.clock_read _ _ b _ _ rfl hw, Radio.withTxn_regRead, hx] at r3 g3
  have l3 : u3.lsbFirst = false := by rw [s3.lsbFirst]; exact hr.msbFirst
  obtain ⟨u4, hu4⟩ : ∃ u, u = u3.keepEcho (inBitOrder u3.lsbFirst (s.quiet.regRead s.par a).1) := ⟨_, rfl⟩
  have s4 := s3.keepEcho (inBitOrder u3.lsbFirst (s.quiet.regRead s.par a).1)
  rw [← hu4] at s4
  have r4 : u4.radio = u3.radio := by rw [hu4]; rfl
  have b4 : u4.buf = some { w := [b], n := 1, r := [(s.quiet.regRead s.par a).1] } := by
    rw [hu4]; simp only [State.keepEcho_buf, b3, b2, b1, hv, State.startBuffers_buf, l3, inBitOrder]; simp
  obtain ⟨g5, k5, f1, f2, f3, f4, f5, f6, f7, f8, f9⟩ := chipSelect_high hr s4 o6.alone o6.ok
  obtain ⟨u5, hu5⟩ : ∃ u, u = (chipSelect true u4).2 := ⟨_, rfl⟩
  rw [← hu5] at k5 f1 f2 f3 f4 f5 f6 f7 f8 f9
  have hsteps : transferSteps [b] 1 v = (true, u5) := by
    have e5 : chipSelect true u4 = (true, u5) := Prod.ext g5 hu5.symm
    have e1 : chipSelect false v = (true, u1) := Prod.ext g1 hu1.symm
    have e2 : writePhase [b] 0 u1 = (true, u2) := by
      simp only [writePhase, inBitOrder, l1, Bool.false_eq_true, if_false, g2, ← hu2]
    have e3 : readPhase 1 0 u2 = (true, u4) := by
      simp only [readPhase, g3, ← hu3, ← hu4]
    simp only [transferSteps, andThen, e1, if_true, e2, e3, e5]
  have hfin : transferBytes [b] 1 s = (u5.echoesKept, u5.dropBuffers) := by
    simp only [transferBytes, hr.isOpen, if_true, ← hv, hsteps]
  rw [hfin]
  refine ⟨?_, ⟨k5.trans (by constructor <;> rfl), f1, f4, rfl, f2.trans hr.latchOut.symm, f3.trans hr.latchDir.symm, f5, ?_, ?_, ?_⟩, ?_⟩
  · simp [State.echoesKept, f7, b4]
  · simp [f8]
  · simp [f6, ht]
  · exact (State.framesSent_congr (s := u5) rfl).trans (f9.trans (by rw [hbe]; rfl))
  · simp [f8, r4, r3]

/-- A register write of six transactions: `RegWrite` after RADIO's own steps, and nothing else changed. -/
theorem transfer_write {s : State} (hr : s.Ready) (ha : s.Answers 6) (a : RegAddr) (d : Byte) :
    Access [.write a d] s (transferBytes [(1#1 ++ a : BitVec 8), d] 0 s).2 ∧ ∃ junk,
      (transferBytes [(1#1 ++ a : BitVec 8), d] 0 s).2.radio = { s.quiet.regWrite s.par a d junk with txn := [] } := by
  obtain ⟨hw, hx⟩ := writeByte_bits a
  obtain ⟨b, hbe⟩ : ∃ b : Byte, b = (1#1 ++ a : BitVec 8) := ⟨_, rfl⟩
  rw [← hbe] at hw hx ⊢
  obtain ⟨t1, t2, t3, t4, t5, t6, rest, ht, o1, o2, o3, o4, o5, o6⟩ := ha.six
  obtain ⟨v, hv⟩ : ∃ v, v = s.startBuffers [b, d] 0 := ⟨_, rfl⟩
  have kv : Kept s v := by rw [hv]; constructor <;> rfl
  obtain ⟨g1, s1, b1, r1⟩ := chipSelect_low hr kv (by rw [hv]; rfl) (by rw [hv]; rfl) (by rw [hv]; rfl) (by rw [hv]; rfl)
    (by rw [hv]; rfl) (by rw [hv]; rfl) (by rw [hv]; rfl) (by rw [hv]; exact ht) o1.alone o1.ok
  obtain ⟨u1, hu1⟩ : ∃ u, u = (chipSelect false v).2 := ⟨_, rfl⟩
  rw [← hu1] at s1 b1 r1
  have l1 : u1.lsbFirst = false := by rw [s1.lsbFirst]; exact hr.msbFirst
  obtain ⟨g2, s2, b2, r2⟩ := roundTrip_selected hr s1 o2.alone o3.alone o2.ok o3.ok 2 0 b
  obtain ⟨u2, hu2⟩ : ∃ u, u = (roundTrip 2 0 b u1).2 := ⟨_, rfl⟩
  rw [← hu2] at s2 b2 r2
  have l2 : u2.lsbFirst = false := by rw [s2.lsbFirst]; exact hr.msbFirst
  have q1 : u1.radio = s.quiet := by rw [r1]; simp [State.quiet, ht]
  rw [q1, Radio.clock_first _ _ _ _ (State.quiet_txn hr.txnEmpty)] at r2
  obtain ⟨g3, s3, b3, r3⟩ := roundTrip_selected hr s2 o4.alone o5.alone o4.ok o5.ok 2 1 d
  obtain ⟨u3, hu3⟩ : ∃ u, u = (roundTrip 2 1 d u2).2 := ⟨_, rfl⟩
  rw [← hu3] at s3 b3 r3
  rw [r2, Radio.clock_write _ _ b _ _ rfl hw, Radio.withTxn_regWrite, hx] at r3
  obtain ⟨g5, k5, f1, f2, f3, f4, f5, f6, f7, f8, f9⟩ := chipSelect_high hr s3 o6.alone o6.ok
  obtain ⟨u5, hu5⟩ : ∃ u, u = (chipSelect true u3).2 := ⟨_, rfl⟩
  rw [← hu5] at k5 f1 f2 f3 f4 f5 f6 f7 f8 f9
  have hsteps : transferSteps [b, d] 0 v = (true, u5) := by
    have e5 : chipSelect true u3 = (true, u5) := Prod.ext g5 hu5.symm
    have e1 : chipSelect false v = (true, u1) := Prod.ext g1 hu1.symm
    have e2 : writePhase [b, d] 0 u1 = (true, u3) := by
      simp only [writePhase, inBitOrder, l1, l2, Bool.false_eq_true, if_false, g2, ← hu2, Nat.zero_add, g3, ← hu3]
    simp only [transferSteps, andThen, e1, if_true, e2, readPhase, e5]
  have hfin : transferBytes [b, d] 0 s = (u5.echoesKept, u5.dropBuffers) := by
    simp only [transferBytes, hr.isOpen, if_true, ← hv, hsteps]
  rw [hfin]
  refine ⟨⟨k5.trans (by constructor <;> rfl), f1, f4, rfl, f2.trans hr.latchOut.symm, f3.trans hr.latchDir.symm, f5, ?_, ?_, ?_⟩, t4.junk, ?_⟩
  · simp [f8]
  · simp [f6, ht]
  · exact (State.framesSent_congr (s := u5) rfl).trans (f9.trans (by rw [hbe]; rfl))
  · simp [f8, r3]

theorem readAddrByte_eq (a : Byte) : readAddrByte a = (0#1 ++ a.extractLsb' 0 7 : BitVec 8) := by
  revert a; decide

theorem writeAddrByte_eq (a : Byte) : writeAddrByte a = (1#1 ++ a.extractLsb' 0 7 : BitVec 8) := by
  revert a; decide

theorem setWidth_extract (a : RegAddr) : (a.setWidth 8).extractLsb' 0 7 = a := by
  revert a; decide

theorem State.Ready.atStep {s : State} (h : s.Ready) (l : Label) : (s.atStep l).Ready :=
  ⟨h.params, h.isOpen, h.msbFirst, h.csHigh, h.csOutput, h.latchOut, h.latchDir, h.inQEmpty, h.txnEmpty,
    h.regsWf, h.fifoWf⟩

/-- What the next answers are depends on POLLER and the answers alone. -/
theorem State.Answers.congr {n : Nat} {s u : State} (h : s.Answers n) (hp : u.pseq = s.pseq) (he : u.irqEn = s.irqEn)
    (ht : u.env.ticks = s.env.ticks) : u.Answers n :=
  ⟨⟨hp.trans h.serialised.1, fun e t hm => h.serialised.2 (he.symm.trans e) t (ht ▸ hm)⟩, by rw [ht]; exact h.given,
    fun t hm => h.ok t (ht ▸ hm)⟩

theorem State.Answers.atStep {n : Nat} {s : State} (h : s.Answers n) (l : Label) : (s.atStep l).Answers n :=
  h.congr rfl rfl rfl

theorem State.Answers.enter {n : Nat} {s : State} (h : s.Answers n) (op : Byte) : (s.enter op).Answers n :=
  h.congr rfl rfl rfl

theorem State.Running.atStep {s : State} (h : s.Running) (l : Label) : (s.atStep l).Running := ⟨h.toReady.atStep l, h.noFault⟩

theorem Access.atStep {accs : List RegAccess} {s t : State} {l : Label} (k : Access accs (s.atStep l) t) : Access accs s t :=
  ⟨⟨k.par, k.isOpen, k.handle, k.dir, k.lsbFirst, k.irqCfg, k.cbSet, k.irqEn, k.lastLevel, k.lastCause, k.pseq,
    k.inbox, k.res, k.enums, k.clocks, k.opFault⟩, k.out, k.busFault, k.buf, k.latchOut, k.latchDir, k.inQ, k.txn, k.ticks,
    k.frames⟩

theorem Access.running {accs : List RegAccess} {s t : State} (h : Access accs s t) (hr : s.Running) : t.opFault = false :=
  h.opFault.trans hr.noFault

/-- A byte computed in an operation without a fault is itself. -/
theorem orFree_noFault (b : Byte) {s : State} (h : s.opFault = false) : orFree b s = (b, s) := by
  simp [orFree, freeIf, h]

/-- `readRegister` on a ready session. -/
theorem readAt_ready {s : State} (hr : s.Running) (ha : s.Answers 6) (addr : Byte) :
    (readAt addr s).1 = (s.quiet.regRead s.par (addr.extractLsb' 0 7)).1 ∧
      Access [.read (addr.extractLsb' 0 7)] s (readAt addr s).2 ∧
      (readAt addr s).2.radio = { (s.quiet.regRead s.par (addr.extractLsb' 0 7)).2 with txn := [] } := by
  obtain ⟨g, k, r⟩ := transfer_read hr.toReady ha (addr.extractLsb' 0 7)
  simp only [readAt, readAddrByte_eq, g, orFree_noFault _ (k.running hr)]
  exact ⟨trivial, k, r⟩

/-- `writeRegister` on a ready session. -/
theorem writeAt_ready {s : State} (hr : s.Ready) (ha : s.Answers 6) (addr v : Byte) :
    Access [.write (addr.extractLsb' 0 7) v] s (writeAt addr v s) ∧ ∃ junk, (writeAt addr v s).radio =
      { s.quiet.regWrite s.par (addr.extractLsb' 0 7) v junk with txn := [] } := by
  rw [writeAt, writeAddrByte_eq]
  exact transfer_write hr ha (addr.extractLsb' 0 7) v

/-- A read of a named register on a ready session. -/
theorem readReg_ready {s : State} (hr : s.Running) (ha : s.Answers 6) (l : Label) (a : RegAddr) :
    (readReg l a s).1 = (s.quiet.regRead s.par a).1 ∧ Access [.read a] s (readReg l a s).2 ∧
      (readReg l a s).2.radio = { (s.quiet.regRead s.par a).2 with txn := [] } := by
  obtain ⟨g, k, r⟩ := readAt_ready (hr.atStep l) (ha.atStep l) (a.setWidth 8)
  rw [setWidth_extract] at g r k
  exact ⟨g, k.atStep, r⟩

/-- A write of a named register on a ready session. -/
theorem writeReg_ready {s : State} (hr : s.Ready) (ha : s.Answers 6) (l : Label) (a : RegAddr) (v : Byte) :
    Access [.write a v] s (writeReg l a v s) ∧ ∃ junk, (writeReg l a v s).radio =
      { s.quiet.regWrite s.par a v junk with txn := [] } := by
  obtain ⟨k, j, r⟩ := writeAt_ready (hr.atStep l) (ha.atStep l) (a.setWidth 8) v
  rw [setWidth_extract] at r k
  exact ⟨k.atStep, j, r⟩

/-- A byte written back in an operation without a fault is a plain write. -/
theorem writeBack_noFault (l : Label) (a : RegAddr) (v : Byte) {s : State} (h : s.opFault = false) :
    writeBack l a v s = writeReg l a v s := by
  simp only [writeBack, orFree_noFault v h]

/-! ### Chains of accesses -/

theorem State.quiet_wf {s : State} (h : s.Ready) : s.quiet.Wf := by
  have hw : s.radio.Wf := ⟨h.regsWf, h.fifoWf⟩
  unfold State.quiet; split
  · exact hw
  · exact hw.act _ _

/-- RADIO still: the radio is found as it was. -/
theorem State.quiet_still {s : State} (h : s.RadioStill 1) : s.quiet = s.radio := by
  unfold State.quiet; split
  · rfl
  · next t l ht => rw [h t (by simp [ht]), Radio.act_nothing]

/-- A plain register is found as it was. -/
theorem State.quiet_plain {s : State} (a : RegAddr) (h : regClass s.par a = .plain) : s.quiet.reg a = s.radio.reg a := by
  unfold State.quiet; split
  · rfl
  · exact Radio.reg_act_plain _ _ _ _ h

theorem Access.ready {accs : List RegAccess} {s t : State} (h : Access accs s t) (hr : s.Ready) (hw : t.radio.Wf) : t.Ready :=
  ⟨by rw [h.par]; exact hr.params, h.isOpen.trans hr.isOpen, h.lsbFirst.trans hr.msbFirst,
    by rw [h.out, h.par]; exact hr.csHigh, by rw [h.dir, h.par]; exact hr.csOutput,
    h.latchOut.trans (hr.latchOut.trans h.out.symm), h.latchDir.trans (hr.latchDir.trans h.dir.symm), h.inQ, h.txn, hw.1, hw.2⟩

theorem Access.toRunning {accs : List RegAccess} {s t : State} (h : Access accs s t) (hr : s.Running) (hw : t.radio.Wf) :
    t.Running := ⟨h.ready hr.toReady hw, h.running hr⟩

theorem Access.refl {s : State} (hb : s.buf = none) (hq : s.inQ = []) (hx : s.radio.txn = []) : Access [] s s :=
  ⟨.refl s, rfl, rfl, hb, rfl, rfl, hq, hx, rfl, by simp⟩

theorem Access.trans {xs ys : List RegAccess} {s t u : State} (h : Access xs s t) (k : Access ys t u) :
    Access (xs ++ ys) s u := by
  refine ⟨h.toKept.trans k.toKept, k.out.trans h.out, k.busFault.trans h.busFault, k.buf, k.latchOut.trans h.latchOut,
    k.latchDir.trans h.latchDir, k.inQ, k.txn, ?_, ?_⟩
  · rw [k.ticks, h.ticks, List.drop_drop, List.length_append, Nat.mul_add]
  · rw [k.frames, h.frames, List.flatMap_append, List.append_assoc]
    simp only [fun x => RegAccess.frames_congr h.par h.out h.dir x]

theorem Access.answers {xs : List RegAccess} {n : Nat} {s t : State} (h : Access xs s t)
    (ha : s.Answers (6 * xs.length + n)) : t.Answers n := h.toKept.answers ha h.ticks

theorem Access.still {xs : List RegAccess} {n : Nat} {s t : State} (h : Access xs s t)
    (ha : s.RadioStill (6 * xs.length + n)) : t.RadioStill n := by
  intro x hx
  rw [h.ticks] at hx
  exact ha x (by rw [List.take_add]; exact List.mem_append.2 (.inr hx))

theorem State.Serialised.mono {m n : Nat} {s : State} (h : s.Serialised n) (hm : m ≤ n) : s.Serialised m :=
  ⟨h.1, fun e t ht => h.2 e t ((List.take_sublist_take_left hm).subset ht)⟩

theorem State.Answers.mono {m n : Nat} {s : State} (h : s.Answers n) (hm : m ≤ n) : s.Answers m :=
  ⟨h.serialised.mono hm, Nat.le_trans hm h.given, fun t ht => h.ok t ((List.take_sublist_take_left hm).subset ht)⟩

theorem State.RadioStill.mono {m n : Nat} {s : State} (h : s.RadioStill n) (hm : m ≤ n) : s.RadioStill m :=
  fun t ht => h t ((List.take_sublist_take_left hm).subset ht)

/-! ### The registers after an access -/

theorem RadioFrame.refl (s : State) : RadioFrame 0 [] [] s s :=
  ⟨fun _ _ _ => rfl, fun _ => by simp, fun _ _ _ => rfl, fun _ _ _ => rfl⟩

theorem RadioFrame.trans {xs : List RegAccess} {n : Nat} {w x : List RegAddr} {f g : List Byte} {s t u : State}
    (h : RadioFrame (6 * xs.length) w f s t) (hk : Access xs s t) (k : RadioFrame n x g t u) :
    RadioFrame (6 * xs.length + n) (w ++ x) (f ++ g) s u := by
  refine ⟨fun a ha hn => ?_, fun hn => ?_, fun hs a hn => ?_, fun hs a hn => ?_⟩
  · rw [List.mem_append, not_or] at hn
    rw [k.plain a (by rw [hk.par]; exact ha) hn.2, h.plain a ha hn.1]
  · rw [List.mem_append, not_or] at hn
    have h1 := h.latched hn.1
    have h2 := k.latched (by rw [hk.par]; exact hn.2)
    rw [hk.par] at h2
    generalize s.reg s.par.regIrqFlags = a at h1 ⊢
    generalize t.reg s.par.regIrqFlags = b at h1 h2
    generalize u.reg s.par.regIrqFlags = c at h2 ⊢
    apply BitVec.eq_of_getLsbD_eq
    intro i hi
    have e1 := congrArg (fun x => x.getLsbD i) h1
    have e2 := congrArg (fun x => x.getLsbD i) h2
    simp only [BitVec.getLsbD_and, BitVec.getLsbD_not, hi, decide_true, Bool.true_and, BitVec.getLsbD_zero] at e1 e2 ⊢
    cases ha : a.getLsbD i <;> cases hb : b.getLsbD i <;> cases hc : c.getLsbD i <;> simp_all
  · rw [List.mem_append, not_or] at hn
    rw [k.regs (hk.still hs) a hn.2, h.regs (hs.mono (by omega)) a hn.1]
  · rw [List.mem_append, not_or] at hn
    rw [k.fifo (hk.still hs) a hn.2, h.fifo (hs.mono (by omega)) a hn.1]

theorem RadioFrame.mono {n : Nat} {w x : List RegAddr} {f g : List Byte} {s t : State} (h : RadioFrame n w f s t)
    (hw : w ⊆ x) (hf : f ⊆ g) : RadioFrame n x g s t :=
  ⟨fun a ha hn => h.plain a ha fun e => hn (hw e), fun hn => h.latched fun e => hn (hw e),
    fun hs a hn => h.regs hs a fun e => hn (hw e), fun hs a hn => h.fifo hs a fun e => hn (hf e)⟩

/-- RADIO's own steps before an access clear no flag. -/
theorem State.quiet_flags {s : State} (hr : s.Ready) :
    s.reg s.par.regIrqFlags &&& ~~~s.quiet.reg s.par.regIrqFlags = 0#8 := by
  unfold State.quiet; split
  · simp [State.reg]
  · rw [Radio.reg_act_flags hr.params _ _ ⟨hr.regsWf, hr.fifoWf⟩, irqSet, State.reg]
    generalize s.radio.reg s.par.regIrqFlags = a
    apply BitVec.eq_of_getLsbD_eq
    intro i hi
    simp only [BitVec.getLsbD_and, BitVec.getLsbD_or, BitVec.getLsbD_not, hi, decide_true, Bool.true_and, BitVec.getLsbD_zero]
    cases a.getLsbD i <;> simp

/-- A radio reached from a quiet one by a change of the registers in `w` and the FIFO bytes in `f`. -/
theorem RadioFrame.of_quiet {s t : State} {w : List RegAddr} {f : List Byte} (hr : s.Ready)
    (hreg : ∀ a, a ∉ w → t.radio.reg a = s.quiet.reg a) (hfifo : ∀ a, a ∉ f → t.radio.fifoByte a = s.quiet.fifoByte a) :
    RadioFrame 6 w f s t := by
  refine ⟨fun a ha hn => ?_, fun hn => ?_, fun hs a hn => ?_, fun hs a hn => ?_⟩
  · rw [State.reg, hreg a hn, State.quiet_plain a ha]; rfl
  · rw [show t.reg s.par.regIrqFlags = s.quiet.reg s.par.regIrqFlags from hreg _ hn]; exact State.quiet_flags hr
  · rw [State.reg, hreg a hn, State.quiet_still (hs.mono (by omega))]; rfl
  · rw [State.fifoAt, hfifo a hn, State.quiet_still (hs.mono (by omega))]; rfl

section
variable {s : State} (hr : s.Running) (ha : s.Answers 6) (l : Label)
include hr ha

/-- A read of a register that is not the FIFO window. -/
theorem readReg_value (a : RegAddr) (hc : regClass s.par a ≠ .window) :
    (readReg l a s).1 = s.quiet.reg a ∧ Access [.read a] s (readReg l a s).2 ∧ RadioFrame 6 [] [] s (readReg l a s).2 ∧
      (readReg l a s).2.Running ∧ (readReg l a s).2.reg a = s.quiet.reg a := by
  obtain ⟨g, k, r⟩ := readReg_ready hr ha l a
  rw [Radio.regRead_val _ _ _ hc] at g r
  exact ⟨g, k, .of_quiet hr.toReady (fun b _ => by rw [r]; rfl) (fun b _ => by rw [r]; rfl),
    k.toRunning hr (by rw [r]; exact State.quiet_wf hr.toReady), by rw [State.reg, r]; rfl⟩

theorem readReg_plain (a : RegAddr) (hc : regClass s.par a = .plain) :
    (readReg l a s).1 = s.reg a ∧ Access [.read a] s (readReg l a s).2 ∧ RadioFrame 6 [] [] s (readReg l a s).2 ∧
      (readReg l a s).2.Running := by
  obtain ⟨g, k, f, r, _⟩ := readReg_value hr ha l a (by rw [hc]; decide)
  exact ⟨g.trans (State.quiet_plain a hc), k, f, r⟩

/-- A read of the FIFO window. -/
theorem readReg_fifo :
    (readReg l s.par.regFifo s).1 = s.quiet.fifoByte (s.reg s.par.regFifoAddrPtr) ∧
      Access [.read s.par.regFifo] s (readReg l s.par.regFifo s).2 ∧
      RadioFrame 6 [s.par.regFifoAddrPtr] [] s (readReg l s.par.regFifo s).2 ∧ (readReg l s.par.regFifo s).2.Running ∧
      (readReg l s.par.regFifo s).2.reg s.par.regFifoAddrPtr = s.reg s.par.regFifoAddrPtr + 1#8 ∧
      (readReg l s.par.regFifo s).2.fifoAt (s.reg s.par.regFifoAddrPtr) =
        s.quiet.fifoByte (s.reg s.par.regFifoAddrPtr) := by
  obtain ⟨g, k, r⟩ := readReg_ready hr ha l s.par.regFifo
  rw [Radio.regRead_window _ _ _ (class_fifo _)] at g r
  have hq : s.quiet.reg s.par.regFifoAddrPtr = s.reg s.par.regFifoAddrPtr :=
    State.quiet_plain _ (class_fifoAddrPtr hr.params)
  refine ⟨by rw [g, hq], k, .of_quiet hr.toReady (fun b hb => ?_) (fun b _ => by rw [r]; rfl), k.toRunning hr ?_, ?_, ?_⟩
  · rw [r]; exact Radio.reg_setReg_other _ _ _ _ (by simpa using hb)
  · rw [r]; exact (State.quiet_wf hr.toReady).advance _
  · rw [State.reg, r]
    exact (Radio.reg_setReg_same _ _ _ (State.quiet_wf hr.toReady)).trans (by rw [hq])
  · rw [State.fifoAt, r]; rfl

/-- A write that stores one register. -/
theorem writeReg_store (a : RegAddr) (v x : Byte)
    (hx : ∀ j, s.quiet.regWrite s.par a v j = s.quiet.setReg a x) :
    Access [.write a v] s (writeReg l a v s) ∧ RadioFrame 6 [a] [] s (writeReg l a v s) ∧ (writeReg l a v s).Running ∧
      (writeReg l a v s).reg a = x := by
  obtain ⟨k, j, r⟩ := writeReg_ready hr.toReady ha l a v
  rw [hx j] at r
  refine ⟨k, .of_quiet hr.toReady (fun b hb => ?_) (fun b _ => by rw [r]; rfl), k.toRunning hr ?_, ?_⟩
  · rw [r]; exact Radio.reg_setReg_other _ _ _ _ (by simpa using hb)
  · rw [r]; exact (State.quiet_wf hr.toReady).setReg _ _
  · rw [State.reg, r]; exact Radio.reg_setReg_same _ _ _ (State.quiet_wf hr.toReady)

theorem writeReg_plain (a : RegAddr) (v : Byte) (hc : regClass s.par a = .plain) :
    Access [.write a v] s (writeReg l a v s) ∧ RadioFrame 6 [a] [] s (writeReg l a v s) ∧ (writeReg l a v s).Running ∧
      (writeReg l a v s).reg a = v :=
  writeReg_store hr ha l a v v fun j => Radio.regWrite_plain _ _ _ j _ hc

theorem writeReg_opMode (v : Byte) :
    Access [.write s.par.regOpMode v] s (writeReg l s.par.regOpMode v s) ∧ RadioFrame 6 [s.par.regOpMode] [] s (writeReg l s.par.regOpMode v s) ∧
      (writeReg l s.par.regOpMode v s).Running ∧ (writeReg l s.par.regOpMode v s).reg s.par.regOpMode = v :=
  writeReg_store hr ha l _ v v fun j => Radio.regWrite_opMode hr.params _ j _

theorem writeReg_flags (v : Byte) :
    Access [.write s.par.regIrqFlags v] s (writeReg l s.par.regIrqFlags v s) ∧
      RadioFrame 6 [s.par.regIrqFlags] [] s (writeReg l s.par.regIrqFlags v s) ∧
      (writeReg l s.par.regIrqFlags v s).Running ∧
      (writeReg l s.par.regIrqFlags v s).reg s.par.regIrqFlags = irqClear (s.quiet.reg s.par.regIrqFlags) v :=
  writeReg_store hr ha l _ v _ fun j => Radio.regWrite_flags hr.params _ j _

/-- A write through the FIFO window. -/
theorem writeReg_fifo (v : Byte) :
    Access [.write s.par.regFifo v] s (writeReg l s.par.regFifo v s) ∧
      RadioFrame 6 [s.par.regFifoAddrPtr] [s.reg s.par.regFifoAddrPtr] s (writeReg l s.par.regFifo v s) ∧
      (writeReg l s.par.regFifo v s).Running ∧
      (writeReg l s.par.regFifo v s).reg s.par.regFifoAddrPtr = s.reg s.par.regFifoAddrPtr + 1#8 ∧
      (writeReg l s.par.regFifo v s).fifoAt (s.reg s.par.regFifoAddrPtr) = v := by
  obtain ⟨k, j, r⟩ := writeReg_ready hr.toReady ha l s.par.regFifo v
  have hq : s.quiet.reg s.par.regFifoAddrPtr = s.reg s.par.regFifoAddrPtr :=
    State.quiet_plain _ (class_fifoAddrPtr hr.params)
  have hw := (State.quiet_wf hr.toReady).setFifo (s.reg s.par.regFifoAddrPtr) v
  rw [Radio.regWrite_window, hq] at r
  refine ⟨k, .of_quiet hr.toReady (fun b hb => ?_) (fun b hb => ?_), k.toRunning hr ?_, ?_, ?_⟩
  · rw [r]; exact Radio.reg_setReg_other _ _ _ _ (by simpa using hb)
  · rw [r]; exact Radio.fifoByte_setFifo_other _ _ _ _ (by simpa using hb)
  · rw [r]; exact hw.advance _
  · rw [State.reg, r]
    exact (Radio.reg_setReg_same _ _ _ hw).trans (by rw [Radio.reg_setFifo, hq])
  · rw [State.fifoAt, r]; exact Radio.fifoByte_setFifo_same _ _ _ (State.quiet_wf hr.toReady)

end

/-! ### The primitives name register `addr[6:0]` (20_memory.md R61) -/

theorem readAt_eq_readReg (addr : Byte) (s : State) : readAt addr s = readReg s.seq.step (addr.extractLsb' 0 7) s := by
  have : ∀ a : Byte, readAddrByte a = readAddrByte ((a.extractLsb' 0 7).setWidth 8) := by decide
  simp only [readReg, readAt, ← this addr]
  rfl

theorem writeAt_eq_writeReg (addr v : Byte) (s : State) :
    writeAt addr v s = writeReg s.seq.step (addr.extractLsb' 0 7) v s := by
  have : ∀ a : Byte, writeAddrByte a = writeAddrByte ((a.extractLsb' 0 7).setWidth 8) := by decide
  simp only [writeReg, writeAt, ← this addr]
  rfl

/-! ### An operation from its start to its return -/

@[simp] theorem State.enter_reg (s : State) (op : Byte) (a : RegAddr) : (s.enter op).reg a = s.reg a := rfl
@[simp] theorem State.enter_fifoAt (s : State) (op a : Byte) : (s.enter op).fifoAt a = s.fifoAt a := rfl
@[simp] theorem State.leave_reg (s : State) (r : Result) (a : RegAddr) : (s.leave r).reg a = s.reg a := rfl
@[simp] theorem State.leave_fifoAt (s : State) (r : Result) (a : Byte) : (s.leave r).fifoAt a = s.fifoAt a := rfl
@[simp] theorem State.enter_quiet (s : State) (op : Byte) : (s.enter op).quiet = s.quiet := rfl
@[simp] theorem State.sleepFor_reg (s : State) (q : Rat) (a : RegAddr) : (s.sleepFor q).reg a = s.reg a := rfl
@[simp] theorem State.sleepFor_fifoAt (s : State) (q : Rat) (a : Byte) : (s.sleepFor q).fifoAt a = s.fifoAt a := rfl

/-- What an operation's body leaves at the radio is what the operation leaves. -/
theorem RadioFrame.returned {n : Nat} {w : List RegAddr} {f : List Byte} {s u : State} (op : Byte) (r : Result)
    (h : RadioFrame n w f (s.enter op) u) : RadioFrame n w f s (u.leave r) :=
  ⟨h.plain, h.latched, h.regs, h.fifo⟩

theorem State.Ready.enter {s : State} (h : s.Ready) (op : Byte) : (s.enter op).Running :=
  ⟨⟨h.params, h.isOpen, h.msbFirst, h.csHigh, h.csOutput, h.latchOut, h.latchDir, h.inQEmpty, h.txnEmpty,
    h.regsWf, h.fifoWf⟩, rfl⟩

/-- An operation whose body is a chain of register accesses completes. -/
theorem Access.completed {accs : List RegAccess} {s u : State} (op : Byte) (r : Result) (h : Access accs (s.enter op) u) :
    Completed accs s (u.leave r) :=
  ⟨⟨h.par, h.isOpen, h.handle, h.dir, h.out, h.lsbFirst, h.irqCfg, h.cbSet, h.irqEn, h.lastLevel, h.lastCause, h.busFault,
    h.pseq, h.inbox⟩, h.opFault, h.latchOut, h.latchDir, h.inQ, h.txn, rfl, rfl, h.ticks, h.frames⟩

end Sys2Proof.Machine
end

