-- ==== Sys2Proof/Laws/Encoding.lean ====
section
/-! SUPPORT. What each reader of operand bytes makes of the bytes the matching writer puts, whatever follows them (log 12). -/

namespace Sys2Proof

theorem readNat_natGroups (fuel n : Nat) (r : List Byte) (h : n ≤ fuel) : readNat (natGroups fuel n ++ r) = some (n, r) := by
  induction fuel generalizing n with
  | zero => simp [natGroups, readNat, Nat.le_zero.mp h]
  | succ fuel ih =>
    by_cases hn : n < 128
    · simp [natGroups, readNat, hn, Nat.mod_eq_of_lt (show n < 256 by omega)]
    · have hb : (128 + n % 128) % 256 = 128 + n % 128 := Nat.mod_eq_of_lt (by omega)
      simp only [natGroups, hn, if_false, List.cons_append, readNat, BitVec.toNat_ofNat, Nat.reducePow, hb]
      rw [if_neg (by omega), ih _ (by omega)]
      simp only [show n / 128 ≠ 0 by omega, if_false]
      congr 2
      omega

/-- A natural number comes back, with the bytes behind it. -/
@[simp] theorem readNat_putNat (n : Nat) (r : List Byte) : readNat (putNat n ++ r) = some (n, r) := readNat_natGroups n n r le_rfl

@[simp] theorem readNat_putNat_nil (n : Nat) : readNat (putNat n) = some (n, []) := by
  simpa using readNat_putNat n []

@[simp] theorem unzigzag_zigzag (z : Int) : unzigzag (zigzag z) = z := by
  cases z with
  | ofNat n => simp [zigzag, unzigzag]
  | negSucc n => simp [zigzag, unzigzag, show (2 * n + 1) / 2 = n by omega]

/-- An integer comes back. -/
@[simp] theorem readInt_putInt (z : Int) (r : List Byte) : readInt (putInt z ++ r) = some (z, r) := by
  simp [readInt, putInt]

@[simp] theorem readInt_putInt_nil (z : Int) : readInt (putInt z) = some (z, []) := by
  simpa using readInt_putInt z []

theorem ratOf_num_den (q : Rat) : ratOf q.num (q.den - 1) = some q := by
  have hd : q.den - 1 + 1 = q.den := Nat.succ_pred q.den_nz
  unfold ratOf
  rw [dif_pos (by simpa only [hd] using q.reduced)]
  simp [hd]

/-- A rational comes back. -/
@[simp] theorem readRat_putRat (q : Rat) (r : List Byte) : readRat (putRat q ++ r) = some (q, r) := by
  simp [readRat, putRat, ratOf_num_den]

@[simp] theorem readRat_putRat_nil (q : Rat) : readRat (putRat q) = some (q, []) := by
  simpa using readRat_putRat q []

/-- A non-negative rational comes back. -/
theorem readNonnegRat_putNonnegRat (q : Rat) (r : List Byte) (h : 0 ≤ q) :
    readNonnegRat (putNonnegRat q ++ r) = some (q, r) := by
  have hn : ((q.num.toNat : Nat) : Int) = q.num := Int.toNat_of_nonneg (Rat.num_nonneg.mpr h)
  simp [readNonnegRat, putNonnegRat, hn, ratOf_num_den]

/-- A truth value comes back. -/
@[simp] theorem readBool_putBool (b : Bool) (r : List Byte) : readBool (putBool b ++ r) = some (b, r) := by
  cases b <;> simp [putBool, readBool]

@[simp] theorem readBool_putBool_nil (b : Bool) : readBool (putBool b) = some (b, []) := by
  simpa using readBool_putBool b []

/-- A byte list comes back. -/
@[simp] theorem readBytes_putBytes (l r : List Byte) : readBytes (putBytes l ++ r) = some (l, r) := by
  simp [readBytes, putBytes]

/-- A 16-bit value comes back. -/
@[simp] theorem readU16_putU16 (v : BitVec 16) (r : List Byte) : readU16 (putU16 v ++ r) = some (v, r) := by
  simp only [putU16, List.cons_append, List.nil_append, readU16, Option.some.injEq, Prod.mk.injEq, and_true]
  apply BitVec.eq_of_getLsbD_eq
  intro i hi
  simp only [BitVec.getLsbD_append, BitVec.getLsbD_extractLsb']
  by_cases h : i < 8
  · simp [h]
  · simp [h, show i - 8 < 8 by omega, show 8 + (i - 8) = i by omega]

/-- An operating mode comes back. -/
@[simp] theorem readOpMode_putOpMode (m : OpMode) (r : List Byte) : readOpMode (putOpMode m ++ r) = some (m, r) := by
  cases m <;> rfl

/-- A pin item byte gives its tag and its mask back. -/
@[simp] theorem pinItem_tag (t : BitVec 2) (m : PinMask) : (pinItem t m).extractLsb' 6 2 = t := by
  revert t m
  decide

@[simp] theorem pinItem_mask (t : BitVec 2) (m : PinMask) : (pinItem t m).extractLsb' 0 6 = m := by
  revert t m
  decide

/-- The speed byte gives its value back, the tag leaving bits 2:0 free. -/
theorem speedItem_value (t : Byte) (v : BitVec 3) (h : t.extractLsb' 0 3 = 0#3) :
    (speedItem t v).extractLsb' 0 3 = v := by
  have hb : ∀ i, i < 3 → t.getLsbD i = false := fun i hi => by
    have := congrArg (fun x => BitVec.getLsbD x i) h
    simpa [hi] using this
  apply BitVec.eq_of_getLsbD_eq
  intro i hi
  simp [speedItem, hi, hb i hi]
  omega

end Sys2Proof
end

