-- ==== Sys2Proof/Laws/Framing.lean ====
section
/-! SUPPORT. What the pieces of a transfer put on the wire in a serialised session: one round trip, the write phase, the read
phase and the chip-select frames, each with the lines of the wire trace it adds. -/

namespace Sys2Proof.Machine

/-- What a piece of a transfer whose transactions answer `ok` leaves: `lines` added to the wire trace, `rest` left of the answers,
the session's registers and the shadow masks as before. -/
structure Framed (lines : List WireLine) (rest : List Tick) (s u : State) : Prop extends Kept s u where
  out : u.out = s.out
  busFault : u.busFault = s.busFault
  ticks : u.env.ticks = rest
  log : u.wireLog = s.wireLog ++ lines
  inQ : u.inQ.length = s.inQ.length

theorem Framed.trans {l m : List WireLine} {r q : List Tick} {s u v : State} (h : Framed l r s u) (k : Framed m q u v) :
    Framed (l ++ m) q s v :=
  ⟨h.toKept.trans k.toKept, k.out.trans h.out, k.busFault.trans h.busFault, k.ticks, by rw [k.log, h.log, List.append_assoc],
    k.inQ.trans h.inQ⟩

theorem Framed.alone {l : List WireLine} {r : List Tick} {s u : State} {t : Tick} (h : Framed l r s u) (hs : Alone t s) :
    Alone t u := hs.of_kept h.toKept

/-- Every clocked byte brings one echo (40_wire_commands.md R134). -/
theorem adapterRun_clock_inQ (t : Tick) (d : Byte) (s : State) : ∃ e, (adapterRun t (.clock d) s).inQ = s.inQ ++ [e] := by
  cases h : s.csLow
  · exact ⟨_, (adapterRun_clock_high t d s h).2⟩
  · exact ⟨_, (adapterRun_clock_low t d s h).2⟩

/-- One round trip: a clock frame, one byte taken (42_transfer.md R168). -/
theorem roundTrip_framed {s : State} {t t' : Tick} {rest : List Tick} (h : Alone t s) (h' : Alone t' s)
    (ht : s.env.ticks = t :: t' :: rest) (ha : t.answer = .ok) (ha' : t'.answer = .ok) (num i : Nat) (d : Byte) :
    ∃ e, (roundTrip num i d s).1 = some e ∧ Framed [.out (clockFrame s.par d), .back e] rest s (roundTrip num i d s).2 ∧
      (roundTrip num i d s).2.buf = s.buf := by
  obtain ⟨v, hv⟩ : ∃ v, v = s.atBus (.round 'T' num i .sending) := ⟨_, rfl⟩
  have kv : Kept s v := by rw [hv]; constructor <;> rfl
  have vs := h.of_kept kv
  have vt : v.env.ticks = t :: t' :: rest := by rw [hv]; exact ht
  have a1 := bulkOut_answered vs vt ha (.clock d)
  have l1 := bulkOut_log vs vt ha (.clock d)
  have e1 := bulkOut_ok vs vt ha (.clock d)
  obtain ⟨w, hw⟩ : ∃ w, w = (bulkOut (.clock d) v).2 := ⟨_, rfl⟩
  have h1 : (bulkOut (.clock d) v).1 = true := by rw [e1]
  obtain ⟨x, hx⟩ := adapterRun_clock_inQ t d (v.drawTick.2.arrive t)
  have wq : w.inQ = s.inQ ++ [x] := by
    rw [hw, e1]; simp only [State.emit_inQ, hx, State.arrive_inQ, State.drawTick_inQ]; rw [hv]; rfl
  rw [← hw] at a1 l1
  obtain ⟨y, hy⟩ : ∃ y, y = w.atBus (.round 'T' num i .taking) := ⟨_, rfl⟩
  have ky : Kept w y := by rw [hy]; constructor <;> rfl
  have ys := h'.of_kept ((kv.trans a1.toKept).trans ky)
  have yt : y.env.ticks = t' :: rest := by rw [hy]; exact a1.ticks
  obtain ⟨e, q, hq⟩ : ∃ e q, s.inQ ++ [x] = e :: q := by cases s.inQ <;> exact ⟨_, _, rfl⟩
  have yq : y.inQ = e :: q := by rw [hy]; exact wq.trans hq
  have a2 := bulkIn_answered ys yt ha' e q yq
  have l2 := bulkIn_log ys yt ha' e q yq
  have e2 := bulkIn_ok ys yt ha' e q yq
  have heq : roundTrip num i d s = bulkIn y := by simp only [roundTrip, ← hv, h1, if_true, ← hw, ← hy]
  rw [heq]
  refine ⟨e, by rw [e2], ⟨((kv.trans a1.toKept).trans ky).trans a2.toKept, ?_, ?_, a2.ticks, ?_, ?_⟩, ?_⟩
  · rw [a2.out, hy, State.atBus_out, a1.out, hv]; rfl
  · rw [a2.busFault, hy, State.atBus_busFault, a1.busFault, hv]; rfl
  · rw [l2, State.wireLog_congr (s := w) (by rw [hy]; rfl), l1, State.wireLog_congr (s := s) (by rw [hv]; rfl), clockFrame_eq,
      List.append_assoc, show v.par = s.par by rw [hv]; rfl]
    rfl
  · have := congrArg List.length hq
    simp only [List.length_append, List.length_cons, List.length_nil] at this
    rw [e2]; simp only [State.emit_inQ]; omega
  · rw [a2.buf, hy, State.atBus_buf, a1.buf, hv]; rfl

/-- The write phase: a round trip for each byte, its echo dropped. -/
theorem writePhase_framed (w : List Byte) (i : Nat) {s : State} (ha : s.Answers (2 * w.length)) :
    ∃ es : List Byte, es.length = w.length ∧ (writePhase w i s).1 = true ∧
      Framed ((w.zip es).flatMap fun be => [.out (clockFrame s.par (inBitOrder s.lsbFirst be.1)), .back be.2])
        (s.env.ticks.drop (2 * w.length)) s (writePhase w i s).2 ∧ (writePhase w i s).2.buf = s.buf := by
  induction w generalizing i s with
  | nil =>
    exact ⟨[], rfl, rfl, ⟨.refl s, rfl, rfl, rfl, (List.append_nil _).symm, rfl⟩, rfl⟩
  | cons b w ih =>
    obtain ⟨t, t', rest, hs, g1, g2⟩ := (ha.mono (m := 2) (by simp)).two
    obtain ⟨e, g, f, k⟩ := roundTrip_framed g1.alone g2.alone hs g1.ok g2.ok 2 i (inBitOrder s.lsbFirst b)
    obtain ⟨u, hu⟩ : ∃ u, u = (roundTrip 2 i (inBitOrder s.lsbFirst b) s).2 := ⟨_, rfl⟩
    rw [← hu] at f k
    have hu' : u.Answers (2 * w.length) :=
      f.toKept.answers (m := 2) (by rwa [List.length_cons, Nat.mul_add, Nat.add_comm] at ha) (by rw [f.ticks, hs]; rfl)
    obtain ⟨es, el, g', f', k'⟩ := ih (i + 1) hu'
    refine ⟨e :: es, by simp [el], ?_, ?_, ?_⟩ <;> simp only [writePhase, g, ← hu]
    · exact g'
    · have := f.trans f'
      rw [f.par, f.lsbFirst, f.ticks] at this
      rw [List.length_cons, show 2 * (w.length + 1) = 2 * w.length + 2 by omega, hs]
      exact this
    · exact k'.trans k

/-- The read phase: a round trip for each byte asked for, its echo kept. -/
theorem readPhase_framed (n j : Nat) {s : State} (ha : s.Answers (2 * n)) (w : List Byte) (m : Nat)
    (r : List Byte) (hb : s.buf = some { w := w, n := m, r := r }) :
    ∃ rs : List Byte, rs.length = n ∧ (readPhase n j s).1 = true ∧
      Framed (rs.flatMap fun e => [.out (clockFrame s.par Config.dummy), .back e]) (s.env.ticks.drop (2 * n)) s
        (readPhase n j s).2 ∧
      (readPhase n j s).2.buf = some { w := w, n := m, r := r ++ rs.map (inBitOrder s.lsbFirst) } := by
  induction n generalizing j s r with
  | zero =>
    exact ⟨[], rfl, rfl, ⟨.refl s, rfl, rfl, rfl, (List.append_nil _).symm, rfl⟩, by simp [readPhase, hb]⟩
  | succ n ih =>
    obtain ⟨t, t', rest, hs, g1, g2⟩ := (ha.mono (m := 2) (by omega)).two
    obtain ⟨e, g, f, k⟩ := roundTrip_framed g1.alone g2.alone hs g1.ok g2.ok 3 j Config.dummy
    obtain ⟨v, hv⟩ : ∃ v, v = (roundTrip 3 j Config.dummy s).2 := ⟨_, rfl⟩
    rw [← hv] at f k
    obtain ⟨u, hu⟩ : ∃ u, u = v.keepEcho (inBitOrder v.lsbFirst e) := ⟨_, rfl⟩
    have fu : Framed [.out (clockFrame s.par Config.dummy), .back e] rest s u := by
      rw [hu]
      exact ⟨⟨f.par, f.isOpen, f.handle, f.dir, f.lsbFirst, f.irqCfg, f.cbSet, f.irqEn, f.lastLevel, f.lastCause, f.pseq,
        f.inbox, f.res, f.enums, f.clocks, f.opFault⟩, f.out, f.busFault, f.ticks, f.log, f.inQ⟩
    have bu : u.buf = some { w := w, n := m, r := r ++ [inBitOrder s.lsbFirst e] } := by
      rw [hu, State.keepEcho_buf, k, hb, f.lsbFirst]; rfl
    have hu' : u.Answers (2 * n) :=
      fu.toKept.answers (m := 2) (by rwa [Nat.mul_add, Nat.add_comm] at ha) (by rw [fu.ticks, hs]; rfl)
    obtain ⟨rs, rl, g', f', k'⟩ := ih (j + 1) hu' _ bu
    refine ⟨e :: rs, by simp [rl], ?_, ?_, ?_⟩ <;> simp only [readPhase, g, ← hv, ← hu]
    · exact g'
    · have := fu.trans f'
      rw [fu.par, fu.ticks] at this
      rw [show 2 * (n + 1) = 2 * n + 2 by omega, hs]
      exact this
    · rw [k', fu.lsbFirst]; simp

/-- A chip-select frame: the shadow masks with the chip-select bit changed. -/
theorem chipSelect_framed (high : Bool) {s : State} {t : Tick} {rest : List Tick} (h : Alone t s)
    (ht : s.env.ticks = t :: rest) (ha : t.answer = .ok) :
    let m := putBit s.par.csPin.val high s.out
    (chipSelect high s).1 = true ∧ Framed [.out (pinFrame s.par m s.dir)] rest { s with out := m } (chipSelect high s).2 ∧
      (chipSelect high s).2.buf = s.buf ∧ (chipSelect high s).2.pinsOut = m ∧ (chipSelect high s).2.pinsDir = s.dir := by
  intro m
  have hl : Alone t (s.atBus (.main 'T' (if high then 4 else 1))) := h.of_kept (by constructor <;> rfl)
  obtain ⟨v, hv⟩ : ∃ v, v = (MaskUpdate.out s.par.csPin.val high).apply (s.atBus (.main 'T' (if high then 4 else 1))) := ⟨_, rfl⟩
  have heq : chipSelect high s = bulkOut (.pins v.out v.dir) v := by
    rw [chipSelect, updatePins_alone hl ht, hv]
  have kv : Kept { s with out := m } v := by rw [hv]; constructor <;> rfl
  have vs : Alone t v := h.of_kept (by rw [hv]; constructor <;> rfl)
  have vt : v.env.ticks = t :: rest := by rw [hv]; exact ht
  have vo : v.out = m := by rw [hv]; rfl
  have vd : v.dir = s.dir := by rw [hv]; rfl
  have a := bulkOut_answered vs vt ha (.pins v.out v.dir)
  have l := bulkOut_log vs vt ha (.pins v.out v.dir)
  have e := bulkOut_ok vs vt ha (.pins v.out v.dir)
  rw [heq]
  refine ⟨by rw [e], ⟨kv.trans a.toKept, a.out.trans vo, ?_, a.ticks, ?_, ?_⟩, ?_, ?_, ?_⟩
  · rw [a.busFault, hv]; rfl
  · rw [l, pinFrame_eq, vo, vd, show v.par = s.par by rw [hv]; rfl, State.wireLog_congr (s := { s with out := m }) (by rw [hv]; rfl)]
  · rw [e]; simp only [State.emit_inQ, adapterRun_pins_inQ, State.arrive_inQ, State.drawTick_inQ]; rw [hv]; rfl
  · rw [a.buf, hv]; rfl
  · rw [e]; simp [vo]
  · rw [e]; simp [vd]

end Sys2Proof.Machine
end

