-- ==== Sys2Proof/Laws/Poller.lean ====
section
/-! SUPPORT. What any activity between an operation's start and its return leaves, whatever the environment answers and however
POLLER's steps fall: nothing here assumes a serialised session. -/

namespace Sys2Proof.Machine

/-- The polling loop exists only in an open session with a configured pin and a callback (44_interrupt_emulation.md R200). -/
def State.Needs (s : State) : Prop := s.irqEn = true → s.isOpen = true ∧ s.irqCfg = true ∧ s.cbSet = true

/-- What no transaction and no step of POLLER changes, whatever it answers: the loop is never stopped, no callback is
unregistered, and while the loop exists none is registered. -/
structure Steady (s t : State) : Prop where
  par : t.par = s.par
  isOpen : t.isOpen = s.isOpen
  handle : t.handle = s.handle
  lsbFirst : t.lsbFirst = s.lsbFirst
  inbox : t.inbox = s.inbox
  cbSet : s.cbSet = true → t.cbSet = true
  loop : s.irqEn = true → t.irqEn = true ∧ t.cbSet = s.cbSet
  fault : s.busFault = true → t.busFault = true
  needs : s.Needs → t.Needs
  wf : s.radio.Wf → t.radio.Wf

/-- The same, with FG's own position, buffers and result. -/
structure Beside (s t : State) : Prop extends Steady s t where
  seq : t.seq = s.seq
  buf : t.buf = s.buf
  res : t.res = s.res

/-- `Steady`, and without a polling loop POLLER is not seen: it stays idle, its registers stay, and no event is its own. -/
structure Calm (s t : State) : Prop extends Steady s t where
  quiet : s.LoopOff → t.LoopOff ∧ t.lastLevel = s.lastLevel ∧ t.irqCfg = s.irqCfg ∧ t.cbSet = s.cbSet ∧
    ∃ new, t.trace = new ++ s.trace ∧ ∀ e ∈ new, e.byPoller = false

/-- `Calm`, and on a closed session nothing passed the endpoints. -/
structure Contained (s t : State) : Prop extends Calm s t where
  closed : s.isOpen = false → NothingSent s t

theorem Steady.refl (s : State) : Steady s s := ⟨rfl, rfl, rfl, rfl, rfl, id, fun h => ⟨h, rfl⟩, id, id, id⟩

theorem Steady.trans {s t u : State} (h : Steady s t) (k : Steady t u) : Steady s u :=
  ⟨k.par.trans h.par, k.isOpen.trans h.isOpen, k.handle.trans h.handle, k.lsbFirst.trans h.lsbFirst, k.inbox.trans h.inbox,
    k.cbSet ∘ h.cbSet, fun e => ⟨(k.loop (h.loop e).1).1, (k.loop (h.loop e).1).2.trans (h.loop e).2⟩, k.fault ∘ h.fault,
    k.needs ∘ h.needs, k.wf ∘ h.wf⟩

theorem Beside.refl (s : State) : Beside s s := ⟨.refl s, rfl, rfl, rfl⟩

theorem Beside.trans {s t u : State} (h : Beside s t) (k : Beside t u) : Beside s u :=
  ⟨h.toSteady.trans k.toSteady, k.seq.trans h.seq, k.buf.trans h.buf, k.res.trans h.res⟩

theorem Calm.refl (s : State) : Calm s s := ⟨.refl s, fun h => ⟨h, rfl, rfl, rfl, [], rfl, by simp⟩⟩

theorem Calm.loopOff {s t : State} (h : Calm s t) (hs : s.LoopOff) : t.LoopOff := (h.quiet hs).1

theorem Calm.trans {s t u : State} (h : Calm s t) (k : Calm t u) : Calm s u := by
  refine ⟨h.toSteady.trans k.toSteady, fun hs => ?_⟩
  obtain ⟨h1, h2, h3, h6, n, h4, h5⟩ := h.quiet hs
  obtain ⟨k1, k2, k3, k6, m, k4, k5⟩ := k.quiet h1
  refine ⟨k1, k2.trans h2, k3.trans h3, k6.trans h6, m ++ n, by rw [k4, h4, List.append_assoc], fun e he => ?_⟩
  rcases List.mem_append.1 he with he | he
  · exact k5 e he
  · exact h5 e he

theorem NothingSent.refl (s : State) : NothingSent s s :=
  ⟨rfl, rfl, rfl, rfl, rfl, rfl, rfl, rfl, rfl, rfl, rfl, rfl, rfl, rfl, rfl, rfl, rfl, rfl, rfl⟩

theorem NothingSent.trans {s t u : State} (h : NothingSent s t) (k : NothingSent t u) : NothingSent s u :=
  ⟨k.par.trans h.par, k.isOpen.trans h.isOpen, k.handle.trans h.handle, k.dir.trans h.dir, k.out.trans h.out,
    k.lsbFirst.trans h.lsbFirst, k.irqCfg.trans h.irqCfg, k.cbSet.trans h.cbSet, k.irqEn.trans h.irqEn,
    k.lastLevel.trans h.lastLevel, k.busFault.trans h.busFault, k.pseq.trans h.pseq, k.inbox.trans h.inbox,
    k.trace.trans h.trace, k.pinsDir.trans h.pinsDir, k.pinsOut.trans h.pinsOut, k.pinsExt.trans h.pinsExt,
    k.inQ.trans h.inQ, k.radio.trans h.radio⟩

theorem Contained.refl (s : State) : Contained s s := ⟨.refl s, fun _ => .refl s⟩

theorem Contained.trans {s t u : State} (h : Contained s t) (k : Contained t u) : Contained s u :=
  ⟨h.toCalm.trans k.toCalm, fun hc => (h.closed hc).trans (k.closed (h.isOpen.trans hc))⟩

/-! ### Updates of FG's own registers -/

section
variable (s : State)

theorem Contained.atStep (l : Label) : Contained s (s.atStep l) :=
  ⟨⟨⟨rfl, rfl, rfl, rfl, rfl, id, fun h => ⟨h, rfl⟩, id, id, id⟩, fun h => ⟨h, rfl, rfl, rfl, [], rfl, by simp⟩⟩,
    fun _ => ⟨rfl, rfl, rfl, rfl, rfl, rfl, rfl, rfl, rfl, rfl, rfl, rfl, rfl, rfl, rfl, rfl, rfl, rfl, rfl⟩⟩

theorem Contained.atBus (l : Label) : Contained s (s.atBus l) :=
  ⟨⟨⟨rfl, rfl, rfl, rfl, rfl, id, fun h => ⟨h, rfl⟩, id, id, id⟩, fun h => ⟨h, rfl, rfl, rfl, [], rfl, by simp⟩⟩,
    fun _ => ⟨rfl, rfl, rfl, rfl, rfl, rfl, rfl, rfl, rfl, rfl, rfl, rfl, rfl, rfl, rfl, rfl, rfl, rfl, rfl⟩⟩

theorem Contained.fail (c : Cause) : Contained s (s.fail c) :=
  ⟨⟨⟨rfl, rfl, rfl, rfl, rfl, id, fun h => ⟨h, rfl⟩, id, id, id⟩, fun h => ⟨h, rfl, rfl, rfl, [], rfl, by simp⟩⟩,
    fun _ => ⟨rfl, rfl, rfl, rfl, rfl, rfl, rfl, rfl, rfl, rfl, rfl, rfl, rfl, rfl, rfl, rfl, rfl, rfl, rfl⟩⟩

theorem Contained.enter (op : Byte) : Contained s (s.enter op) :=
  ⟨⟨⟨rfl, rfl, rfl, rfl, rfl, id, fun h => ⟨h, rfl⟩, id, id, id⟩, fun h => ⟨h, rfl, rfl, rfl, [], rfl, by simp⟩⟩,
    fun _ => ⟨rfl, rfl, rfl, rfl, rfl, rfl, rfl, rfl, rfl, rfl, rfl, rfl, rfl, rfl, rfl, rfl, rfl, rfl, rfl⟩⟩

theorem Contained.leave (r : Result) : Contained s (s.leave r) :=
  ⟨⟨⟨rfl, rfl, rfl, rfl, rfl, id, fun h => ⟨h, rfl⟩, id, id, id⟩, fun h => ⟨h, rfl, rfl, rfl, [], rfl, by simp⟩⟩,
    fun _ => ⟨rfl, rfl, rfl, rfl, rfl, rfl, rfl, rfl, rfl, rfl, rfl, rfl, rfl, rfl, rfl, rfl, rfl, rfl, rfl⟩⟩

theorem Contained.dropBuffers : Contained s s.dropBuffers :=
  ⟨⟨⟨rfl, rfl, rfl, rfl, rfl, id, fun h => ⟨h, rfl⟩, id, id, id⟩, fun h => ⟨h, rfl, rfl, rfl, [], rfl, by simp⟩⟩,
    fun _ => ⟨rfl, rfl, rfl, rfl, rfl, rfl, rfl, rfl, rfl, rfl, rfl, rfl, rfl, rfl, rfl, rfl, rfl, rfl, rfl⟩⟩

theorem Contained.drawLostByte : Contained s s.drawLostByte.2 :=
  ⟨⟨⟨rfl, rfl, rfl, rfl, rfl, id, fun h => ⟨h, rfl⟩, id, id, id⟩, fun h => ⟨h, rfl, rfl, rfl, [], rfl, by simp⟩⟩,
    fun _ => ⟨rfl, rfl, rfl, rfl, rfl, rfl, rfl, rfl, rfl, rfl, rfl, rfl, rfl, rfl, rfl, rfl, rfl, rfl, rfl⟩⟩

theorem Contained.drawLostBytes : Contained s s.drawLostBytes.2 :=
  ⟨⟨⟨rfl, rfl, rfl, rfl, rfl, id, fun h => ⟨h, rfl⟩, id, id, id⟩, fun h => ⟨h, rfl, rfl, rfl, [], rfl, by simp⟩⟩,
    fun _ => ⟨rfl, rfl, rfl, rfl, rfl, rfl, rfl, rfl, rfl, rfl, rfl, rfl, rfl, rfl, rfl, rfl, rfl, rfl, rfl⟩⟩

theorem Contained.orFree (b : Byte) : Contained s (orFree b s).2 := by
  unfold Machine.orFree freeIf; split; exacts [.drawLostByte s, .refl s]

theorem Contained.drawClock : Contained s s.drawClock.2 := by
  unfold State.drawClock
  split <;>
  exact ⟨⟨⟨rfl, rfl, rfl, rfl, rfl, id, fun h => ⟨h, rfl⟩, id, id, id⟩, fun h => ⟨h, rfl, rfl, rfl, [], rfl, by simp⟩⟩,
    fun _ => ⟨rfl, rfl, rfl, rfl, rfl, rfl, rfl, rfl, rfl, rfl, rfl, rfl, rfl, rfl, rfl, rfl, rfl, rfl, rfl⟩⟩

theorem Calm.startBuffers (w : List Byte) (n : Nat) : Calm s (s.startBuffers w n) :=
  ⟨⟨rfl, rfl, rfl, rfl, rfl, id, fun h => ⟨h, rfl⟩, id, id, id⟩, fun h => ⟨h, rfl, rfl, rfl, [], rfl, by simp⟩⟩

theorem Calm.keepEcho (e : Byte) : Calm s (s.keepEcho e) :=
  ⟨⟨rfl, rfl, rfl, rfl, rfl, id, fun h => ⟨h, rfl⟩, id, id, id⟩, fun h => ⟨h, rfl, rfl, rfl, [], rfl, by simp⟩⟩

theorem Calm.sleepFor (q : Rat) : Calm s (s.sleepFor q) :=
  ⟨⟨rfl, rfl, rfl, rfl, rfl, id, fun h => ⟨h, rfl⟩, id, id, id⟩, fun h => ⟨h, rfl, rfl, rfl, [.sleep q], rfl, by simp [Event.byPoller]⟩⟩

end

/-! ### One transaction of either agent -/

theorem Beside.drawTick (s : State) : Beside s s.drawTick.2 := by
  unfold State.drawTick
  split <;> exact ⟨⟨rfl, rfl, rfl, rfl, rfl, id, fun h => ⟨h, rfl⟩, id, id, id⟩, rfl, rfl, rfl⟩

theorem Beside.arrive (t : Tick) (s : State) : Beside s (s.arrive t) := by
  refine ⟨⟨by simp, by simp, by simp, by simp, by simp, by simp, fun h => ⟨by simpa using h, by simp⟩, by simp,
    by simp [State.Needs], fun h => ?_⟩, by simp, by simp, by simp⟩
  rw [State.arrive_radio]; split
  · exact h
  · split
    · exact h.act _ _
    · exact Radio.Wf.act (r := { s.radio with txn := [] }) h _ _

theorem Beside.emit (e : Event) (s : State) : Beside s (s.emit e) :=
  ⟨⟨rfl, rfl, rfl, rfl, rfl, id, fun h => ⟨h, rfl⟩, id, id, id⟩, rfl, rfl, rfl⟩

theorem Beside.busFailed (s : State) : Beside s s.busFailed :=
  ⟨⟨rfl, rfl, rfl, rfl, rfl, id, fun h => ⟨h, rfl⟩, fun _ => rfl, id, id⟩, rfl, rfl, rfl⟩

theorem Beside.fail (c : Cause) (s : State) : Beside s (s.fail c) :=
  ⟨⟨rfl, rfl, rfl, rfl, rfl, id, fun h => ⟨h, rfl⟩, id, id, id⟩, rfl, rfl, rfl⟩

theorem Beside.withPSeq (p : PSeq) (s : State) : Beside s { s with pseq := p } :=
  ⟨⟨rfl, rfl, rfl, rfl, rfl, id, fun h => ⟨h, rfl⟩, id, id, id⟩, rfl, rfl, rfl⟩

theorem Beside.withInQ (q : List Byte) (s : State) : Beside s { s with inQ := q } :=
  ⟨⟨rfl, rfl, rfl, rfl, rfl, id, fun h => ⟨h, rfl⟩, id, id, id⟩, rfl, rfl, rfl⟩

theorem adapterRun_wf (t : Tick) (c : WireCmd) (s : State) (h : s.radio.Wf) : (adapterRun t c s).radio.Wf := by
  cases c with
  | pins o d => simp only [adapterRun, adapterPins, State.edgeSince]; split <;> exact h
  | askPins => exact h
  | clock d => simp only [adapterRun, adapterClock]; split; exacts [h.clock _ _ _, h]
  | speed v => exact h

theorem Beside.adapterRun (t : Tick) (c : WireCmd) (s : State) : Beside s (adapterRun t c s) :=
  ⟨⟨by simp, by simp, by simp, by simp, by simp, by simp, fun h => ⟨by simpa using h, by simp⟩, by simp, by simp [State.Needs],
    adapterRun_wf t c s⟩, by simp, by simp, by simp⟩

theorem Beside.sendAt (who : Who) (c : WireCmd) (t : Tick) (s : State) : Beside s (sendAt who c t s).2 := by
  simp only [Machine.sendAt]
  split
  · exact ((Beside.arrive t s).trans (.adapterRun _ _ _)).trans (.emit _ _)
  · exact ((Beside.arrive t s).trans (.emit _ _)).trans (.busFailed _)
  · exact (((Beside.arrive t s).trans (.adapterRun _ _ _)).trans (.emit _ _)).trans (.busFailed _)

theorem Beside.takeAt (who : Who) (t : Tick) (s : State) : Beside s (takeAt who t s).2 := by
  simp only [Machine.takeAt]
  split
  · exact ((Beside.arrive t s).trans (.withInQ _ _)).trans (.emit _ _)
  · exact (((Beside.arrive t s).trans (.withInQ _ _)).trans (.emit _ _)).trans (.busFailed _)
  all_goals exact ((Beside.arrive t s).trans (.emit _ _)).trans (.busFailed _)

@[simp] theorem sendAt_lastLevel (who : Who) (c : WireCmd) (t : Tick) (s : State) :
    (sendAt who c t s).2.lastLevel = s.lastLevel := by
  simp only [sendAt]; split <;> simp

@[simp] theorem takeAt_lastLevel (who : Who) (t : Tick) (s : State) : (takeAt who t s).2.lastLevel = s.lastLevel := by
  simp only [takeAt]; split <;> simp

@[simp] theorem sendAt_cbSet (who : Who) (c : WireCmd) (t : Tick) (s : State) : (sendAt who c t s).2.cbSet = s.cbSet := by
  simp only [sendAt]; split <;> simp

@[simp] theorem takeAt_cbSet (who : Who) (t : Tick) (s : State) : (takeAt who t s).2.cbSet = s.cbSet := by
  simp only [takeAt]; split <;> simp

@[simp] theorem sendAt_irqCfg (who : Who) (c : WireCmd) (t : Tick) (s : State) : (sendAt who c t s).2.irqCfg = s.irqCfg := by
  simp only [sendAt]; split <;> simp

@[simp] theorem takeAt_irqCfg (who : Who) (t : Tick) (s : State) : (takeAt who t s).2.irqCfg = s.irqCfg := by
  simp only [takeAt]; split <;> simp

/-- One request is one event: the frame with its answer. -/
theorem sendAt_trace (who : Who) (c : WireCmd) (t : Tick) (s : State) :
    (sendAt who c t s).2.trace = .sent who (c.frame s.par) (sendAt who c t s).1 :: s.trace := by
  simp only [sendAt]; split <;> simp

/-- One response is one event: the byte, or none. -/
theorem takeAt_trace (who : Who) (t : Tick) (s : State) :
    (takeAt who t s).2.trace = .taken who (takeAt who t s).1 :: s.trace := by
  simp only [takeAt]; split <;> simp

/-! ### The POLLER -/

theorem Beside.recordFailure (ok : Bool) (s : State) : Beside s (recordFailure ok s) := by
  unfold Machine.recordFailure; split
  · exact .refl s
  · exact .fail _ _

@[simp] theorem recordFailure_pseq (ok : Bool) (s : State) : (recordFailure ok s).pseq = s.pseq := by
  unfold recordFailure; split <;> rfl

theorem Beside.store (u : MaskUpdate) (m : PinMask) (s : State) : Beside s (u.store m s) := by
  cases u <;> exact ⟨⟨rfl, rfl, rfl, rfl, rfl, id, fun h => ⟨h, rfl⟩, id, id, id⟩, rfl, rfl, rfl⟩

theorem Beside.unconfigure (s : State) : Beside s (unconfigure s).2 := by
  unfold Machine.unconfigure; split
  · exact .fail _ _
  · exact ⟨⟨rfl, rfl, rfl, rfl, rfl, id, fun h => ⟨h, rfl⟩, id, fun _ e => absurd e ‹_›, id⟩, rfl, rfl, rfl⟩

theorem Beside.registerCallback (s : State) : Beside s (registerCallback s).2 := by
  unfold Machine.registerCallback; split
  · exact .fail _ _
  · exact ⟨⟨rfl, rfl, rfl, rfl, rfl, fun _ => rfl, fun e => absurd e ‹_›, id, fun _ e => absurd e ‹_›, id⟩, rfl, rfl, rfl⟩

theorem Beside.startLoop (s : State) : Beside s (startLoop s).2 := by
  unfold Machine.startLoop
  split
  · exact .fail _ _
  · split
    · exact .fail _ _
    · split
      · exact .fail _ _
      · split
        · exact .refl s
        · rename_i ho hc hb he
          exact ⟨⟨rfl, rfl, rfl, rfl, rfl, id, fun e => absurd e he, id,
            fun _ _ => ⟨by simpa using ho, by simpa using hc, by simpa using hb⟩, id⟩, rfl, rfl, rfl⟩

theorem Beside.sleepFor (q : Rat) (s : State) : Beside s (s.sleepFor q) := .emit _ _

theorem Beside.drawLostByte (s : State) : Beside s s.drawLostByte.2 :=
  ⟨(Contained.drawLostByte s).toSteady, rfl, rfl, rfl⟩

theorem Beside.freeIf (lost : Bool) (b : Byte) (s : State) : Beside s (freeIf lost b s).2 := by
  unfold Machine.freeIf; split; exacts [.drawLostByte s, .refl s]

theorem Beside.callbackByte (c : Callback) (s : State) : Beside s (callbackByte c s).2 := by
  unfold Machine.callbackByte; split; exacts [.freeIf _ _ s, .drawLostByte s]

/-- What a request does without bus activity is an update of a POLLER register. -/
theorem Beside.requestAct (i : Instr) (s : State) : Beside s (requestAct i s) := by
  cases i
  case configureInterrupt pin enable => cases enable; exacts [.unconfigure s, .refl s]
  case setInterruptCallback => exact .registerCallback s
  case enableInterrupt en => cases en; exacts [.refl s, .startLoop s]
  all_goals exact .refl s

/-- The start of a callback's request is a check, a cause, or an update of a POLLER register. -/
theorem Beside.beginRequest (r : CbRequest) (c : Callback) (s : State) : Beside s (beginRequest r c s).2 := by
  have h : Beside s { s with cbFault := false } := ⟨⟨rfl, rfl, rfl, rfl, rfl, id, fun h => ⟨h, rfl⟩, id, id, id⟩, rfl, rfl, rfl⟩
  simp only [Machine.beginRequest]; split
  · exact h.trans (.fail _ _)
  · exact h.trans (.requestAct _ _)

/-- The start of a part of a callback's request is a cause, a sleep or a free byte. -/
theorem Beside.beginTask (t : CbTask) (c : Callback) (s : State) : Beside s (beginTask t c s).2 := by
  cases t <;> simp only [Machine.beginTask, callbackNext]
  case access => split; exacts [.refl s, .fail _ s]
  case insert => exact (Beside.callbackByte c s).trans (.freeIf _ _ _)
  case putBack => exact .freeIf _ _ s
  case sleep => exact .sleepFor _ s
  case temperature => split; exacts [.fail _ s, .callbackByte c s]
  case checked => split; exacts [.fail _ s, .refl s]
  case failWith => exact .fail _ s
  all_goals exact .callbackByte c s

theorem Beside.callbackAfter (ok : Bool) (c : Callback) (s : State) : Beside s (callbackAfter ok c s) :=
  (Beside.withPSeq _ s).trans (.recordFailure _ _)

theorem Beside.callbackSend (cmd : WireCmd) (c : Callback) (s : State) : Beside s (callbackSend cmd c s) :=
  ((Beside.drawTick s).trans (.sendAt _ _ _ _)).trans (.callbackAfter _ _ _)

theorem Beside.callbackAct (a : CbStep) (c : Callback) (s : State) : Beside s (callbackAct a c s) := by
  cases a with
  | loadMask u => exact .withPSeq _ _
  | storeMask u => exact (Beside.store u c.held s).trans (.withPSeq _ _)
  | buildFrame => exact .withPSeq _ _
  | sendFrame => exact .callbackSend _ _ _
  | clock d => exact .callbackSend _ _ _
  | askPins => exact .callbackSend _ _ _
  | take keep => exact ((Beside.drawTick s).trans (.takeAt _ _ _)).trans (.callbackAfter _ _ _)
  | configured =>
    exact ⟨⟨rfl, rfl, rfl, rfl, rfl, id, fun h => ⟨h, rfl⟩, id, fun h e => ⟨(h e).1, rfl, (h e).2.2⟩, id⟩, rfl, rfl, rfl⟩

theorem Beside.callbackMicro (c : Callback) (s : State) : Beside s (callbackMicro c s) := by
  unfold Machine.callbackMicro; split
  · exact .callbackAct _ _ _
  · exact (Beside.beginTask _ _ s).trans (.withPSeq _ _)
  · exact (Beside.beginRequest _ _ s).trans (.withPSeq _ _)
  · exact .withPSeq _ _

theorem Beside.pollMicro (s : State) : Beside s (pollMicro s) := by
  unfold Machine.pollMicro
  split
  · split
    · exact (((Beside.drawTick s).trans (.sendAt _ _ _ _)).trans (.withPSeq _ _)).trans (.recordFailure _ _)
    · exact .refl s
  · simp only [pollTake]
    split
    · exact ((Beside.drawTick s).trans (.takeAt _ _ _)).trans (.withPSeq _ _)
    · exact (((Beside.drawTick s).trans (.takeAt _ _ _)).trans (.withPSeq _ _)).trans (.fail _ _)
  · simp only [pollTest]
    split
    · exact ((Beside.drawTick s).trans (.emit _ _)).trans (.withPSeq _ _)
    · exact .withPSeq _ _
  · exact .callbackMicro _ s
  · exact ⟨⟨rfl, rfl, rfl, rfl, rfl, id, fun h => ⟨h, rfl⟩, id, id, id⟩, rfl, rfl, rfl⟩

theorem Beside.pollSteps (n : Nat) (s : State) : Beside s (pollSteps n s) := by
  induction n generalizing s with
  | zero => exact .refl s
  | succ n ih => exact (Beside.pollMicro s).trans (ih _)

theorem Beside.drawGap (s : State) : Beside s s.drawGap.2 := by
  unfold State.drawGap
  split <;> exact ⟨⟨rfl, rfl, rfl, rfl, rfl, id, fun h => ⟨h, rfl⟩, id, id, id⟩, rfl, rfl, rfl⟩

theorem Beside.pollGap (s : State) : Beside s (pollGap s) := by
  unfold Machine.pollGap; split
  · exact (Beside.drawGap s).trans (.pollSteps _ _)
  · exact .refl s

theorem Beside.beforeStart (i : Instr) (s : State) : Beside s (beforeStart i s) := by
  unfold Machine.beforeStart; split; exacts [.pollGap s, .refl s]

/-- No step of POLLER falls before an operation while POLLER does not exist. -/
theorem beforeStart_loopOff (i : Instr) {s : State} (h : s.LoopOff) : beforeStart i s = s := by
  unfold beforeStart pollGap State.pollerRuns
  simp [h.1, h.2]

theorem Beside.finishCallback (n : Nat) (s : State) : Beside s (finishCallback n s) := by
  induction n generalizing s with
  | zero => exact .refl s
  | succ n ih =>
    unfold Machine.finishCallback; split
    · exact (Beside.pollMicro s).trans (ih _)
    all_goals exact .refl s

theorem Beside.joinPoller (s : State) : Beside s (joinPoller s) := by
  have h1 : ∀ s : State, Beside s (if s.pseq = .takeResponse then Machine.pollMicro s else s) := fun s => by
    split; exacts [.pollMicro s, .refl s]
  have h2 : ∀ s : State, Beside s (match s.pseq with | .test _ => Machine.pollMicro s | _ => s) := fun s => by
    split; exacts [.pollMicro s, .refl s]
  have h3 : ∀ s : State, Beside s (match s.pseq with | .callback c => Machine.finishCallback (c.size s.par) s | _ => s) := fun s => by
    split; exacts [.finishCallback _ s, .refl s]
  have h4 : ∀ s : State, Beside s (match s.pseq with | .store _ => Machine.pollMicro s | _ => s) := fun s => by
    split; exacts [.pollMicro s, .refl s]
  exact (((h1 s).trans (h2 _)).trans (h3 _)).trans (h4 _)

/-! ### The join: a POLL_STEP in progress ends -/

theorem pollMicro_takeResponse (s : State) (h : s.pseq = .takeResponse) : ∃ b, (pollMicro s).pseq = .test b := by
  simp only [pollMicro, h, pollTake]
  split
  · exact ⟨_, rfl⟩
  · exact ⟨_, rfl⟩

theorem pollMicro_test (s : State) (b : Bool) (h : s.pseq = .test b) :
    (∃ l, (pollMicro s).pseq = .callback l) ∨ ∃ c, (pollMicro s).pseq = .store c := by
  simp only [pollMicro, h, pollTest]
  split
  · exact .inl ⟨_, rfl⟩
  · exact .inr ⟨_, rfl⟩

/-! ### What a running callback does next -/

theorem callbackMicro_step (c : Callback) (s : State) (a : CbStep) (l : List CbStep) (h : c.steps = a :: l) :
    callbackMicro c s = callbackAct a { c with steps := l } s := by
  simp only [callbackMicro, h]

theorem callbackMicro_task (c : Callback) (s : State) (t : CbTask) (l : List CbTask) (h : c.steps = []) (h' : c.tasks = t :: l) :
    callbackMicro c s =
      { (beginTask t { c with tasks := l } s).2 with pseq := .callback (beginTask t { c with tasks := l } s).1 } := by
  simp only [callbackMicro, h, h']

theorem callbackMicro_request (c : Callback) (s : State) (r : CbRequest) (l : List CbRequest) (h : c.steps = [])
    (h' : c.tasks = []) (h'' : c.rest = r :: l) :
    callbackMicro c s =
      { (beginRequest r { c with rest := l } s).2 with pseq := .callback (beginRequest r { c with rest := l } s).1 } := by
  simp only [callbackMicro, h, h', h'']

theorem callbackMicro_end (c : Callback) (s : State) (h : c.steps = []) (h' : c.tasks = []) (h'' : c.rest = []) :
    callbackMicro c s = { s with pseq := .store .low } := by
  simp only [callbackMicro, h, h', h'']

/-! ### A callback ends: each of its steps leaves less of it -/

@[simp] theorem tasksSize_nil (p : Params) : tasksSize p [] = 0 := rfl

@[simp] theorem tasksSize_cons (p : Params) (t : CbTask) (l : List CbTask) :
    tasksSize p (t :: l) = t.size p + tasksSize p l := by simp [tasksSize]

@[simp] theorem tasksSize_append (p : Params) (l m : List CbTask) :
    tasksSize p (l ++ m) = tasksSize p l + tasksSize p m := by simp [tasksSize]

@[simp] theorem cbRead_size (p : Params) (a : RegAddr) : (cbRead a).size p = 13 := rfl

@[simp] theorem cbWrite_size (p : Params) (a : RegAddr) (v : Byte) : (cbWrite a v).size p = 13 := rfl

@[simp] theorem cbWrites_size (p : Params) (l : List (RegAddr × Byte)) : tasksSize p (cbWrites l) = 13 * l.length := by
  induction l with
  | nil => rfl
  | cons a l ih => simp only [cbWrites, List.map_cons, tasksSize_cons, cbWrite_size] at ih ⊢; rw [ih, List.length_cons]; omega

theorem cbReads_size (p : Params) (n : Nat) (a : RegAddr) : tasksSize p (List.replicate n (cbRead a)) = 13 * n := by
  induction n with
  | zero => rfl
  | succ n ih => simp only [List.replicate_succ, tasksSize_cons, cbRead_size, ih]; omega

theorem cbRestore_size (p : Params) (inv : Bool) : tasksSize p (cbRestore p inv) ≤ 13 * p.iqNormal.length := by
  unfold cbRestore; split <;> simp

theorem cbTimeout_size (p : Params) (inv : Bool) : tasksSize p (cbTimeout p inv) ≤ 1 + 13 * p.iqNormal.length := by
  have := cbRestore_size p inv
  simp only [cbTimeout, tasksSize_append, tasksSize_cons, CbTask.size, tasksSize_nil]; omega

theorem transferCbSteps_length (p : Params) (lsb : Bool) (w : List Byte) (n : Nat) :
    (transferCbSteps p lsb w n).length = 8 + 2 * w.length + 2 * n := by
  have hw : (w.flatMap fun b => clockSteps false (inBitOrder lsb b)).length = 2 * w.length := by
    induction w with
    | nil => rfl
    | cons b w ih => rw [List.flatMap_cons, List.length_append, ih, List.length_cons]; simp [clockSteps]; omega
  have hn : (List.replicate n (clockSteps true Config.dummy)).flatten.length = 2 * n := by
    induction n with
    | zero => rfl
    | succ n ih => rw [List.replicate_succ, List.flatten_cons, List.length_append, ih]; simp [clockSteps]; omega
  simp only [transferCbSteps, List.length_append, hw, hn, pinSteps, List.length_cons, List.length_nil]; omega

theorem sendNext_size (p : Params) (clk : List Rat) (now : Rat) (inv : Bool) (f : Byte) :
    tasksSize p (sendNext p clk now inv f) < (CbTask.sendTest clk now inv).size p := by
  have h := cbRestore_size p inv
  have k := cbTimeout_size p inv
  unfold sendNext
  split
  · simp only [tasksSize_append, tasksSize_cons, tasksSize_nil, cbClear, cbMode, cbWrite_size]; simp only [CbTask.size]; omega
  · split
    · simp only [CbTask.size]; omega
    · split
      · simp only [CbTask.size]; omega
      · simp only [tasksSize_cons, tasksSize_nil, cbRead_size]; simp only [CbTask.size, List.length_cons]; omega

theorem receiveOn_size (p : Params) (bound : Rat) (clk : List Rat) (now : Rat) (inv crc : Bool) :
    tasksSize p (receiveOn p bound clk now inv crc) + 13 < (CbTask.receiveTest bound clk now inv).size p := by
  have k := cbTimeout_size p inv
  unfold receiveOn
  split
  · simp only [tasksSize_cons, cbClear, cbWrite_size]; simp only [CbTask.size]; omega
  · split
    · simp only [tasksSize_cons, cbClear, cbWrite_size]; simp only [CbTask.size]; omega
    · cases crc <;>
      simp only [tasksSize_append, tasksSize_cons, tasksSize_nil, cbRead_size, if_true, Bool.false_eq_true,
        if_false] <;>
      simp only [CbTask.size, List.length_cons] <;> omega

theorem receiveNext_size (p : Params) (bound : Rat) (clk : List Rat) (now : Rat) (inv : Bool) (f : Byte) :
    tasksSize p (receiveNext p bound clk now inv f) < (CbTask.receiveTest bound clk now inv).size p := by
  have h := fun crc => receiveOn_size p bound clk now inv crc
  unfold receiveNext
  split
  · split
    · have := h true; simp only [tasksSize_cons, cbClear, cbWrite_size]; omega
    · simp only [tasksSize_cons, tasksSize_nil, cbRead_size]; simp only [CbTask.size]; omega
  · have := h false; omega

theorem payloadNext_size (p : Params) (n : Byte) (inv : Bool) (a : Byte) :
    tasksSize p (payloadNext p n inv a) < (CbTask.payloadStart n inv).size p := by
  have h := cbRestore_size p inv
  simp only [payloadNext, tasksSize_append, tasksSize_cons, tasksSize_nil, cbClear, cbWrite_size, cbReads_size]; simp only [CbTask.size]
  omega

theorem temperatureNext_size (p : Params) (offset : Option Byte) (prev : Byte) :
    tasksSize p (temperatureNext p offset prev) < (CbTask.temperature offset).size p := by
  cases offset <;>
  simp only [temperatureNext, tasksSize_append, tasksSize_cons, tasksSize_nil, cbRead_size, cbWrite_size] <;>
  simp only [CbTask.size] <;> omega

theorem Callback.more_size (p : Params) (l : List CbTask) (c : Callback) :
    (c.more l).size p = c.size p + tasksSize p l := by
  simp only [Callback.size, Callback.more, tasksSize_append]; omega

/-- Less is left once a part of a request has begun. -/
theorem beginTask_size (t : CbTask) (c : Callback) (s : State) :
    (beginTask t c s).1.size s.par < c.size s.par + t.size s.par := by
  cases t <;> simp only [beginTask, callbackNext, Callback.more_size, callbackFail]
  case access w n =>
    split
    · simp only [Callback.size, CbTask.size, transferCbSteps_length]; omega
    · simp only [Callback.size, CbTask.size]; omega
  case insert => simp only [tasksSize_cons, tasksSize_nil, cbWrite_size]; simp only [CbTask.size]; omega
  case putBack => simp only [tasksSize_cons, tasksSize_nil, cbWrite_size]; simp only [CbTask.size]; omega
  case sleep => simp [CbTask.size]
  case sendTest => exact Nat.add_lt_add_left (sendNext_size _ _ _ _ _) _
  case receiveTest => exact Nat.add_lt_add_left (receiveNext_size _ _ _ _ _ _) _
  case payloadCount inv =>
    have : (callbackByte c s).1.toNat < 256 := (callbackByte c s).1.isLt
    simp only [tasksSize_cons, tasksSize_nil, cbRead_size]; simp only [CbTask.size]; omega
  case payloadStart => exact Nat.add_lt_add_left (payloadNext_size _ _ _ _) _
  case temperature offset =>
    split
    · simp only [Callback.size, CbTask.size, tasksSize_nil]; omega
    · rw [Callback.more_size]; exact Nat.add_lt_add_left (temperatureNext_size _ _ _) _
  case checked =>
    split
    · simp only [Callback.size, CbTask.size, tasksSize_nil]; omega
    · simp [CbTask.size]
  case failWith => simp only [Callback.size, CbTask.size, tasksSize_nil]; omega

/-- Less is left once a request has begun. -/
theorem beginRequest_size (r : CbRequest) (c : Callback) (s : State) :
    (beginRequest r c s).1.size s.par < c.size s.par + requestSize s.par r := by
  simp only [beginRequest]
  split <;> simp only [Callback.size, requestSize, List.length_nil, tasksSize_nil] <;> omega

theorem callbackAfter_pseq (ok : Bool) (c : Callback) (s : State) (p : Params) :
    ∃ d, (callbackAfter ok c s).pseq = .callback d ∧ d.size p ≤ c.size p := by
  simp only [callbackAfter, recordFailure_pseq]
  refine ⟨_, rfl, ?_⟩
  split
  · exact Nat.le_refl _
  · simp only [Callback.size, List.length_nil]; omega

theorem Callback.keep_size (k lsb : Bool) (b : Option Byte) (c : Callback) (p : Params) :
    (c.keep k lsb b).size p = c.size p := by
  unfold Callback.keep; split <;> rfl

/-- A running callback has one step less after each, and then POLLER goes on with P4. -/
theorem callbackMicro_pseq (c : Callback) (s : State) :
    (∃ d, (callbackMicro c s).pseq = .callback d ∧ d.size s.par < c.size s.par) ∨ (callbackMicro c s).pseq = .store .low := by
  unfold callbackMicro
  split
  · rename_i a steps h
    have hl : ({ c with steps := steps } : Callback).size s.par < c.size s.par := by
      simp only [Callback.size, h, List.length_cons]; omega
    refine .inl ?_
    cases a with
    | loadMask u => exact ⟨_, rfl, hl⟩
    | storeMask u => exact ⟨_, rfl, hl⟩
    | buildFrame => exact ⟨_, rfl, hl⟩
    | sendFrame => obtain ⟨d, e, k⟩ := callbackAfter_pseq _ _ _ s.par; exact ⟨d, e, Nat.lt_of_le_of_lt k hl⟩
    | clock b => obtain ⟨d, e, k⟩ := callbackAfter_pseq _ _ _ s.par; exact ⟨d, e, Nat.lt_of_le_of_lt k hl⟩
    | askPins => obtain ⟨d, e, k⟩ := callbackAfter_pseq _ _ _ s.par; exact ⟨d, e, Nat.lt_of_le_of_lt k hl⟩
    | take keep =>
      obtain ⟨d, e, k⟩ := callbackAfter_pseq _ _ _ s.par
      exact ⟨d, e, Nat.lt_of_le_of_lt (Nat.le_trans k (Nat.le_of_eq (Callback.keep_size _ _ _ _ _))) hl⟩
    | configured => exact ⟨_, rfl, hl⟩
  · rename_i t tasks h h'
    refine .inl ⟨_, rfl, Nat.lt_of_lt_of_le (beginTask_size _ _ s) ?_⟩
    simp only [Callback.size, h', tasksSize_cons]; omega
  · rename_i r rest h h' h''
    refine .inl ⟨_, rfl, Nat.lt_of_lt_of_le (beginRequest_size _ _ s) ?_⟩
    simp only [Callback.size, h'', List.map_cons, List.sum_cons]; omega
  · exact .inr rfl

theorem finishCallback_succ (n : Nat) (s : State) (c : Callback) (h : s.pseq = .callback c) :
    finishCallback (n + 1) s = finishCallback n (pollMicro s) := by simp only [finishCallback, h]

/-- With steps enough a callback ends (44_interrupt_emulation.md R204). -/
theorem finishCallback_pseq (n : Nat) (s : State) (c : Callback) (h : s.pseq = .callback c) (hn : c.size s.par ≤ n) :
    (finishCallback n s).pseq = .store .low := by
  induction n generalizing s c with
  | zero => simp only [Callback.size] at hn; omega
  | succ n ih =>
    have hm : pollMicro s = callbackMicro c s := by simp only [pollMicro, h]
    have hp : (callbackMicro c s).par = s.par := (Beside.callbackMicro c s).par
    simp only [finishCallback, h, hm]
    rcases callbackMicro_pseq c s with ⟨d, hd, hl⟩ | hd
    · exact ih _ d hd (by rw [hp]; omega)
    · cases n with
      | zero => exact hd
      | succ n => simp only [finishCallback, hd]

theorem pollMicro_store (s : State) (c : PinLevel) (h : s.pseq = .store c) : (pollMicro s).pseq = .idle := by
  simp [pollMicro, h, pollStore]

theorem joinPoller_store (s : State) (c : PinLevel) (h : s.pseq = .store c) : joinPoller s = pollMicro s := by
  simp [joinPoller, h]

/-- The join runs a callback in progress to its end, and then P4 and P5. -/
theorem joinPoller_callback (s : State) (c : Callback) (h : s.pseq = .callback c) :
    joinPoller s = pollMicro (finishCallback (c.size s.par) s) := by
  simp [joinPoller, h, finishCallback_pseq _ s c h (Nat.le_refl _)]

theorem joinPoller_test (s : State) (b : Bool) (h : s.pseq = .test b) : joinPoller s = joinPoller (pollMicro s) := by
  rcases pollMicro_test s b h with ⟨l, e⟩ | ⟨c, e⟩ <;> simp [joinPoller, h, e]

theorem joinPoller_takeResponse (s : State) (h : s.pseq = .takeResponse) : joinPoller s = joinPoller (pollMicro s) := by
  obtain ⟨b, e⟩ := pollMicro_takeResponse s h
  simp [joinPoller, h, e]

/-- After the join POLLER is `Idle` (44_interrupt_emulation.md R201). -/
theorem joinPoller_pseq (s : State) : (joinPoller s).pseq = .idle := by
  have hs : ∀ (s : State) (c : PinLevel), s.pseq = .store c → (joinPoller s).pseq = .idle := fun s c h => by
    rw [joinPoller_store s c h]; exact pollMicro_store s c h
  have hc : ∀ (s : State) (c : Callback), s.pseq = .callback c → (joinPoller s).pseq = .idle := fun s c h => by
    rw [joinPoller_callback s c h]; exact pollMicro_store _ _ (finishCallback_pseq _ s c h (Nat.le_refl _))
  have ht : ∀ (s : State) (b : Bool), s.pseq = .test b → (joinPoller s).pseq = .idle := fun s b h => by
    rw [joinPoller_test s b h]
    rcases pollMicro_test s b h with ⟨c, e⟩ | ⟨c, e⟩
    · exact hc _ c e
    · exact hs _ c e
  cases h : s.pseq with
  | idle => rw [joinPoller_idle s h]; exact h
  | takeResponse =>
    obtain ⟨b, e⟩ := pollMicro_takeResponse s h
    rw [joinPoller_takeResponse s h]; exact ht _ b e
  | test b => exact ht s b h
  | callback c => exact hc s c h
  | store c => exact hs s c h

/-! ### Transactions of FG -/

theorem Beside.bulkOut (c : WireCmd) (s : State) : Beside s (bulkOut c s).2 :=
  (((Beside.drawTick s).trans (.pollSteps _ _)).trans (.sendAt _ _ _ _)).trans (.pollSteps _ _)

theorem Beside.bulkIn (s : State) : Beside s (bulkIn s).2 :=
  (((Beside.drawTick s).trans (.pollSteps _ _)).trans (.takeAt _ _ _)).trans (.pollSteps _ _)

theorem pollSteps_loopOff (n : Nat) {s : State} (h : s.LoopOff) : pollSteps n s = s :=
  pollSteps_idle n s h.2 fun e => by rw [h.1] at e; cases e

theorem Calm.drawTick (s : State) : Calm s s.drawTick.2 :=
  ⟨(Beside.drawTick s).toSteady, fun h => ⟨by simpa [State.LoopOff] using h, by simp, by simp, by simp, [], by simp, by simp⟩⟩

theorem Calm.pollSteps (n : Nat) (s : State) : Calm s (pollSteps n s) :=
  ⟨(Beside.pollSteps n s).toSteady, fun h => by rw [pollSteps_loopOff n h]; exact (Calm.refl s).quiet h⟩

theorem Calm.store (u : MaskUpdate) (m : PinMask) (s : State) : Calm s (u.store m s) :=
  ⟨(Beside.store u m s).toSteady, fun h => ⟨by simpa [State.LoopOff] using h, by simp, by simp, by simp, [], by simp, by simp⟩⟩

/-- A frame of FG. -/
theorem Calm.sendAt (pos : Seq) (c : WireCmd) (t : Tick) (s : State) : Calm s (sendAt (.fg pos) c t s).2 := by
  exact ⟨(Beside.sendAt _ _ _ _).toSteady, fun h => ⟨by simpa [State.LoopOff] using h, by simp, by simp, by simp, [_],
    sendAt_trace _ _ _ _, by simp [Event.byPoller]⟩⟩

/-- A response byte of FG. -/
theorem Calm.takeAt (pos : Seq) (t : Tick) (s : State) : Calm s (takeAt (.fg pos) t s).2 := by
  exact ⟨(Beside.takeAt _ _ _).toSteady, fun h => ⟨by simpa [State.LoopOff] using h, by simp, by simp, by simp, [_],
    takeAt_trace _ _ _, by simp [Event.byPoller]⟩⟩

theorem Calm.bulkOut (c : WireCmd) (s : State) : Calm s (bulkOut c s).2 :=
  (((Calm.drawTick s).trans (.pollSteps _ _)).trans (.sendAt _ _ _ _)).trans (.pollSteps _ _)

theorem Calm.bulkIn (s : State) : Calm s (bulkIn s).2 :=
  (((Calm.drawTick s).trans (.pollSteps _ _)).trans (.takeAt _ _ _)).trans (.pollSteps _ _)

theorem Calm.updatePins (u : MaskUpdate) (s : State) : Calm s (updatePins u s).2 :=
  (((((((Calm.drawTick s).trans (.pollSteps _ _)).trans (.pollSteps _ _)).trans (.store _ _ _)).trans (.pollSteps _ _)).trans
    (.pollSteps _ _)).trans (.sendAt _ _ _ _)).trans (.pollSteps _ _)

theorem Calm.sendPins (s : State) : Calm s (sendPins s).2 := .bulkOut _ s

theorem Calm.andThen {s : State} {r : Bool × State} {k : State → Bool × State} (h : Calm s r.2)
    (hk : ∀ u, Calm u (k u).2) : Calm s (andThen r k).2 := by
  unfold Machine.andThen; split
  · exact h.trans (hk _)
  · exact h

/-! ### Transfers and register accesses -/

theorem Calm.roundTrip (num i : Nat) (d : Byte) (s : State) : Calm s (roundTrip num i d s).2 := by
  have h := (Contained.atBus s (.round 'T' num i .sending)).toCalm.trans (Calm.bulkOut (.clock d) _)
  simp only [Machine.roundTrip]
  split
  · exact (h.trans (Contained.atBus _ _).toCalm).trans (.bulkIn _)
  · exact h

theorem Calm.writePhase (w : List Byte) (i : Nat) (s : State) : Calm s (writePhase w i s).2 := by
  induction w generalizing i s with
  | nil => exact .refl s
  | cons b w ih =>
    have h := Calm.roundTrip 2 i (inBitOrder s.lsbFirst b) s
    simp only [Machine.writePhase]
    split
    · exact h.trans (ih _ _)
    · exact h

theorem Calm.readPhase (n j : Nat) (s : State) : Calm s (readPhase n j s).2 := by
  induction n generalizing j s with
  | zero => exact .refl s
  | succ n ih =>
    have h := Calm.roundTrip 3 j Config.dummy s
    simp only [Machine.readPhase]
    split
    · exact (h.trans (.keepEcho _ _)).trans (ih _ _)
    · exact h

theorem Calm.chipSelect (high : Bool) (s : State) : Calm s (chipSelect high s).2 :=
  (Contained.atBus s _).toCalm.trans (.updatePins _ _)

theorem Calm.transferSteps (w : List Byte) (n : Nat) (s : State) : Calm s (transferSteps w n s).2 :=
  Calm.andThen (.chipSelect _ s) fun _ => Calm.andThen (.writePhase _ _ _) fun _ => Calm.andThen (.readPhase _ _ _) fun _ =>
    .chipSelect _ _

theorem transferBytes_closed (w : List Byte) (n : Nat) (s : State) (h : s.isOpen = false) :
    transferBytes w n s = ([], s.fail .sessionClosed) := by simp [transferBytes, h]

theorem Contained.transferBytes (w : List Byte) (n : Nat) (s : State) : Contained s (transferBytes w n s).2 := by
  by_cases h : s.isOpen = true
  · refine ⟨?_, fun hc => by rw [h] at hc; cases hc⟩
    have k := (Calm.startBuffers s w n).trans (.transferSteps w n _)
    simp only [Machine.transferBytes, h, if_true]
    split
    · exact k.trans (Contained.dropBuffers _).toCalm
    · exact (k.trans (Contained.fail _ _).toCalm).trans (Contained.dropBuffers _).toCalm
  · rw [transferBytes_closed w n s (by simpa using h)]
    exact .fail s _

theorem Contained.readAt (addr : Byte) (s : State) : Contained s (readAt addr s).2 := by
  have h := Contained.transferBytes [readAddrByte addr] 1 s
  simp only [Machine.readAt]
  split
  · exact h.trans (.orFree _ _)
  · exact h.trans (.drawLostByte _)

theorem Contained.writeAt (addr v : Byte) (s : State) : Contained s (writeAt addr v s) := .transferBytes _ _ _

theorem Contained.readReg (l : Label) (a : RegAddr) (s : State) : Contained s (readReg l a s).2 :=
  (Contained.atStep s l).trans (.readAt _ _)

theorem Contained.writeReg (l : Label) (a : RegAddr) (v : Byte) (s : State) : Contained s (writeReg l a v s) :=
  (Contained.atStep s l).trans (.writeAt _ _ _)

theorem Contained.writeBack (l : Label) (a : RegAddr) (v : Byte) (s : State) : Contained s (writeBack l a v s) :=
  (Contained.orFree s v).trans (.writeReg _ _ _ _)

theorem Contained.readChecked (l : Label) (a : RegAddr) (s : State) : Contained s (readChecked l a s).2 := by
  have h := (Contained.atStep s l).trans (.transferBytes [readAddrByte (a.setWidth 8)] 1 _)
  simp only [Machine.readChecked]
  split
  · exact h.trans (.orFree _ _)
  · exact h

theorem Contained.writeAll (l : Label) (ws : List (RegAddr × Byte)) (s : State) : Contained s (writeAll l ws s) := by
  induction ws generalizing s with
  | nil => exact .refl s
  | cons av ws ih => exact (Contained.writeReg l av.1 av.2 s).trans (ih _)

theorem Contained.rmw (a : RegAddr) (hi lo : Nat) (v : Byte) (s : State) : Contained s (rmw a hi lo v s) :=
  (Contained.readReg _ a s).trans (.writeBack _ _ _ _)

theorem Contained.fillFifo (l : Label) (data : List Byte) (s : State) : Contained s (fillFifo l data s) := by
  induction data generalizing s with
  | nil => exact .refl s
  | cons b data ih => exact (Contained.writeReg l _ b s).trans (ih _)

theorem Contained.stageFifo (l : Label) (data : List Byte) (s : State) : Contained s (stageFifo l data s) :=
  ((Contained.writeReg l _ _ s).trans (.writeReg _ _ _ _)).trans (.fillFifo _ _ _)

theorem Contained.drainFifo (l : Label) (n : Nat) (s : State) : Contained s (drainFifo l n s).2 := by
  induction n generalizing s with
  | zero => exact .refl s
  | succ n ih => exact (Contained.readReg l _ s).trans (ih _)

/-- An operation from its start to its return is contained when its body is. -/
theorem Contained.runOp (op : Byte) (body : State → Result × State) (s : State)
    (h : Contained (s.enter op) (body (s.enter op)).2) : Contained s (runOp op body s) :=
  ((Contained.enter s op).trans h).trans (.leave _ _)

/-! ### The bodies of the operations -/

theorem Contained.ofOpen {s t : State} (h : s.isOpen = true) (c : Calm s t) : Contained s t :=
  ⟨c, fun e => by rw [h] at e; cases e⟩

theorem Contained.setIQ (l : Label) (inv : Bool) (s : State) : Contained s (setIQ l inv s) := .writeAll _ _ _

theorem Contained.restoreIQ (l : Label) (inv : Bool) (s : State) : Contained s (restoreIQ l inv s) := by
  unfold Machine.restoreIQ; split; exacts [.setIQ _ _ _, .refl _]

theorem Contained.putMode (l : Label) (m : OpMode) (s : State) : Contained s (putMode l m s) := .writeReg _ _ _ _

theorem Contained.clearFlags (l : Label) (s : State) : Contained s (clearFlags l s) := .writeReg _ _ _ _

theorem Calm.sendPoll (clk : List Rat) (now : Rat) (s : State) : Calm s (sendPoll clk now s).2 := by
  induction clk generalizing now s with
  | nil => exact (Contained.readReg _ _ _).toCalm
  | cons e clk ih =>
    simp only [Machine.sendPoll]; split
    · exact (Contained.readReg _ _ _).toCalm
    · split
      · exact (Contained.readReg _ _ _).toCalm
      · exact ((Contained.readReg _ _ _).toCalm.trans (.sleepFor _ _)).trans (ih _ _)

theorem Contained.receiveLook (s : State) : Contained s (receiveLook s).2 := by
  simp only [Machine.receiveLook]; split
  · split
    · exact (Contained.readReg _ _ _).trans (.clearFlags _ _)
    · exact .readReg _ _ _
  · exact .readReg _ _ _

theorem Calm.receivePoll (bound : Rat) (clk : List Rat) (now : Rat) (s : State) : Calm s (receivePoll bound clk now s).2 := by
  have h2 : ∀ (c : Look) (q : Rat) (s : State), Calm s (if c = .crcError then s else s.sleepFor q) := by
    intro c q s; split; exacts [.refl _, .sleepFor _ _]
  induction clk generalizing now s with
  | nil => exact (Contained.receiveLook _).toCalm
  | cons e clk ih =>
    simp only [Machine.receivePoll]; split
    · exact (Contained.receiveLook _).toCalm
    · split
      · exact (Contained.receiveLook _).toCalm
      · exact ((Contained.receiveLook _).toCalm.trans (h2 _ _ _)).trans (ih _ _)

theorem Contained.sendSetup (data : List Byte) (inv : Bool) (s : State) : Contained s (sendSetup data inv s) :=
  ((((Contained.setIQ _ _ _).trans (.writeReg _ _ _ _)).trans (.putMode _ _ _)).trans (.stageFifo _ _ _)).trans (.putMode _ _ _)

theorem Contained.sendOp (data : List Byte) (inv : Bool) (s : State) : Contained s (sendOp data inv s).2 := by
  simp only [Machine.sendOp]
  split
  · exact .fail _ _
  · split
    · exact .fail _ _
    · have h := ((Contained.sendSetup data inv s).trans (.drawClock _)).toCalm.trans
        (.sendPoll (Machine.sendSetup data inv s).drawClock.1 0 _)
      refine Contained.ofOpen (by simpa using ‹¬(!s.isOpen) = true›) ?_
      split
      · exact ((h.trans (Contained.clearFlags _ _).toCalm).trans (Contained.putMode _ _ _).toCalm).trans
          (Contained.restoreIQ _ _ _).toCalm
      · exact (h.trans (Contained.restoreIQ _ _ _).toCalm).trans (Contained.fail _ _).toCalm

theorem Contained.receiveSetup (inv : Bool) (s : State) : Contained s (receiveSetup inv s) :=
  (((Contained.setIQ _ _ _).trans (.writeReg _ _ _ _)).trans (.putMode _ _ _)).trans (.clearFlags _ _)

theorem Contained.deliverPayload (l : List Byte) (s : State) : Contained s (deliverPayload l s).2 := by
  unfold Machine.deliverPayload; split; exacts [.drawLostBytes s, .refl s]

theorem Contained.receivePayload (inv : Bool) (s : State) : Contained s (receivePayload inv s).2 :=
  ((((((Contained.readReg _ _ _).trans (.readReg _ _ _)).trans (.writeReg _ _ _ _)).trans (.drainFifo _ _ _)).trans
    (.clearFlags _ _)).trans (.restoreIQ _ _ _)).trans (.deliverPayload _ _)

theorem Contained.receiveOp (bound : Rat) (inv : Bool) (s : State) : Contained s (receiveOp bound inv s).2 := by
  simp only [Machine.receiveOp]
  split
  · exact .fail _ _
  · have h := ((Contained.receiveSetup inv s).trans (.drawClock _)).toCalm.trans
      (.receivePoll bound (Machine.receiveSetup inv s).drawClock.1 0 _)
    refine Contained.ofOpen (by simpa using ‹¬(!s.isOpen) = true›) ?_
    split
    · exact h.trans (Contained.receivePayload _ _).toCalm
    · exact ((h.trans (Contained.clearFlags _ _).toCalm).trans (Contained.restoreIQ _ _ _).toCalm).trans
        (Contained.fail _ _).toCalm

theorem Contained.startBeaconOp (ms : Nat) (s : State) : Contained s (startBeaconOp ms s).2 := by
  simp only [Machine.startBeaconOp]; split
  · exact .fail _ _
  · exact (((Contained.stageFifo _ _ _).trans (.writeReg _ _ _ _)).trans (.writeReg _ _ _ _)).trans (.writeReg _ _ _ _)

theorem Calm.enterTempMode (s : State) : Calm s (enterTempMode s) :=
  (Contained.writeReg _ _ _ _).toCalm.trans (.sleepFor _ _)

theorem Calm.leaveTempMode (prev : Byte) (s : State) : Calm s (leaveTempMode prev s) :=
  (Contained.writeBack _ _ _ _).toCalm.trans (.sleepFor _ _)

theorem Contained.readTemperatureOp (s : State) : Contained s (readTemperatureOp s).2 := by
  simp only [Machine.readTemperatureOp]
  split
  · exact .fail _ _
  · refine Contained.ofOpen (by simpa using ‹¬(!s.isOpen) = true›) ?_
    have h1 := (Contained.readChecked (.main 'K' 1) s.par.regOpMode s).toCalm
    split
    · exact h1.trans (Contained.fail _ _).toCalm
    · have h2 := fun a => (h1.trans (.enterTempMode _)).trans (Contained.readChecked (.main 'K' 3) a _).toCalm
      split
      · exact (h2 _).trans (Contained.fail _ _).toCalm
      · have h3 := fun a b => (h2 a).trans (Contained.readChecked (.main 'K' 3) b _).toCalm
        split
        · exact (h3 _ _).trans (Contained.fail _ _).toCalm
        · exact ((((h3 _ _).trans (.sleepFor _ _)).trans (.leaveTempMode _ _)).trans (Contained.orFree _ _).toCalm).trans
            (Contained.orFree _ _).toCalm

theorem Contained.calibrateTemperatureOp (offset : Byte) (s : State) : Contained s (calibrateTemperatureOp offset s).2 := by
  simp only [Machine.calibrateTemperatureOp]
  split
  · exact .fail _ _
  · refine Contained.ofOpen (by simpa using ‹¬(!s.isOpen) = true›) ?_
    have h1 := (Contained.readChecked (.main 'K' 1) s.par.regOpMode s).toCalm
    split
    · exact h1.trans (Contained.fail _ _).toCalm
    · exact (((h1.trans (.enterTempMode _)).trans (Contained.writeReg _ _ _ _).toCalm).trans (.sleepFor _ _)).trans
        (.leaveTempMode _ _)

theorem Contained.setFrequencyOp (f : Rat) (s : State) : Contained s (setFrequencyOp f s).2 := by
  simp only [Machine.setFrequencyOp]; split
  · exact ((Contained.writeReg _ _ _ _).trans (.writeReg _ _ _ _)).trans (.writeReg _ _ _ _)
  · exact .fail _ _

theorem Contained.getFrequencyOp (s : State) : Contained s (getFrequencyOp s).2 :=
  ((((Contained.readReg _ _ _).trans (.readReg _ _ _)).trans (.readReg _ _ _)).trans (.orFree _ _)).trans (.orFree _ _)

theorem Contained.setSpreadingFactorOp (sf : Int) (s : State) : Contained s (setSpreadingFactorOp sf s).2 :=
  ((Contained.rmw _ _ _ _ _).trans (.writeReg _ _ _ _)).trans (.writeReg _ _ _ _)

theorem Contained.setPreambleLengthOp (v : BitVec 16) (s : State) : Contained s (setPreambleLengthOp v s).2 :=
  (Contained.writeReg _ _ _ _).trans (.writeReg _ _ _ _)

theorem Contained.getPreambleLengthOp (s : State) : Contained s (getPreambleLengthOp s).2 :=
  ((Contained.readReg _ _ _).trans (.readReg _ _ _)).trans (.orFree _ _)

theorem Calm.sendShadow (l : Label) (u : MaskUpdate) (s : State) : Calm s (sendShadow l u s).2 := by
  simp only [Machine.sendShadow]
  split
  · exact (Contained.atBus _ _).toCalm.trans (.updatePins _ _)
  · exact ((Contained.atBus _ _).toCalm.trans (.updatePins _ _)).trans (Contained.fail _ _).toCalm

theorem pinChecks_open {pin : Nat} {s : State} (h : pinChecks pin s = none) : s.isOpen = true := by
  simp only [pinChecks] at h; split at h <;> simp_all

theorem pinModeChecks_open {pin mode : Nat} {s : State} (h : pinModeChecks pin mode s = none) : s.isOpen = true := by
  simp only [pinModeChecks] at h
  split at h
  · cases h
  · exact pinChecks_open ‹_›

theorem Contained.digitalWriteOp (pin : Nat) (v : Bool) (s : State) : Contained s (digitalWriteOp pin v s).2 := by
  simp only [Machine.digitalWriteOp]; split
  · exact .fail _ _
  · exact .ofOpen (pinChecks_open ‹_›) (.sendShadow _ _ _)

theorem Contained.digitalReadOp (pin : Nat) (s : State) : Contained s (digitalReadOp pin s).2 := by
  simp only [Machine.digitalReadOp]; split
  · exact .fail _ _
  · refine .ofOpen (pinChecks_open ‹_›) ?_
    have h1 := (Contained.atBus s (.main 'G' 2)).toCalm.trans (Calm.bulkOut .askPins _)
    split
    · have h2 := (h1.trans (Contained.atBus _ (.main 'G' 3)).toCalm).trans (Calm.bulkIn _)
      split
      · exact h2
      · exact h2.trans (Contained.fail _ _).toCalm
    · exact h1.trans (Contained.fail _ _).toCalm

theorem Calm.setDirection (pin : Nat) (output : Bool) (s : State) : Calm s (setDirection pin output s).2 :=
  .sendShadow _ _ _

theorem Contained.pinModeOp (pin mode : Nat) (s : State) : Contained s (pinModeOp pin mode s).2 := by
  simp only [Machine.pinModeOp]; split
  · exact .fail _ _
  · exact .ofOpen (pinModeChecks_open ‹_›) (.setDirection _ _ _)

theorem Beside.deliver (c : WireCmd) (s : State) : Beside s (deliver c s) :=
  ((Beside.drawTick s).trans (.arrive _ _)).trans (.adapterRun _ _ _)

theorem Beside.pollStepRun (s : State) : Beside s (pollStepRun s) := by
  unfold Machine.pollStepRun
  refine Beside.trans ?_ (.joinPoller _)
  split; exacts [.pollMicro _, .refl _]

/-- Without a polling loop POLL_STEP does nothing (log 19). -/
theorem pollStepRun_loopOff (s : State) (h : s.LoopOff) : pollStepRun s = s := by
  simp [pollStepRun, h.2, pollMicro_loopOff s h, joinPoller_idle]

/-! ### Opening and closing -/

theorem Beside.stopPoller (s : State) : Beside { s with irqEn := false } (stopPoller s) := by
  unfold Machine.stopPoller; split
  · exact .joinPoller _
  · rename_i h
    have e : s = { s with irqEn := false } := by
      have : s.irqEn = false := by simpa using h
      rw [← this]
    rw [← e]; exact .refl s

theorem stopPoller_pseq (s : State) (h : s.irqEn = false → s.pseq = .idle) : (stopPoller s).pseq = .idle := by
  unfold stopPoller; split
  · exact joinPoller_pseq _
  · rename_i e; exact h (by simpa using e)

@[simp] theorem sendAt_masks (who : Who) (c : WireCmd) (t : Tick) (s : State) :
    (sendAt who c t s).2.dir = s.dir ∧ (sendAt who c t s).2.out = s.out := by
  simp only [sendAt]; split <;> simp

theorem bulkOut_masks (c : WireCmd) (s : State) (h : s.LoopOff) :
    (bulkOut c s).2.dir = s.dir ∧ (bulkOut c s).2.out = s.out := by
  have hd := (Calm.drawTick s).loopOff h
  simp only [bulkOut, thenPoll, pollSteps_loopOff _ hd, pollSteps_loopOff _ ((Calm.sendAt _ _ _ _).loopOff hd)]
  simp

theorem State.drawEnumeration_fields (s : State) :
    s.drawEnumeration.2 = { s with env := s.drawEnumeration.2.env } := by
  unfold State.drawEnumeration; split <;> rfl

end Sys2Proof.Machine
end

