-- ==== Sys2Proof/Tests/Slice0.lean ====
section
/-! SUPPORT. Tests. Expected values come from the spec: the encodings of 30_encoding.md, the vectors of 95_test_vectors.md (named in
each comment), hand calculation from the rule named. The last part shows, for every statement with hypotheses, that something
meets them. -/

namespace Sys2Proof.Tests

open Sys2Proof.Machine

/-! ### Helpers -/

/-- A bulk transaction that is answered, with nothing else happening. -/
def quiet : Tick :=
  { poll := PollOrder.none, ext := 0x00#6, radio := .nothing, answer := .ok, echo := 0x00#8, junk := 0x00#8, burst := [], burstFifo := [],
    callback := [] }

/-- A bulk transaction that fails and leaves the far end unchanged. -/
def lost : Tick := { quiet with answer := .failUnchanged }

/-- A bulk transaction before which RADIO sets flags. -/
def flagged (flags : Byte) : Tick := { quiet with radio := { RadioEvent.nothing with setFlags := flags } }

/-- A sample at which pin 2 is driven high from outside. -/
def highPin : Tick := { quiet with ext := 0x04#6 }

/-- The session as the vectors start: open, `DIR` = 0x3F, `OUT` = 0x01, both delivered. -/
def session : State :=
  { State.reset with isOpen := true, handle := .valid, dir := 0x3F#6, out := 0x01#6, pinsDir := 0x3F#6, pinsOut := 0x01#6 }

/-- A state whose next bulk transactions are the ones given. -/
def given (ts : List Tick) (s : State) : State := { s with env := { s.env with ticks := ts } }

/-- A state whose next `n` bulk transactions are quiet ones. -/
def calm (n : Nat) (s : State) : State := given (List.replicate n quiet) s

/-- A state with the registers given. -/
def holding (l : List (RegAddr × Byte)) (s : State) : State := { s with radio := s.radio.overwrite l }

/-- A polling loop that exists, with the level remembered. -/
def polling (last : PinLevel) : State :=
  { session with dir := 0x3B#6, pinsDir := 0x3B#6, irqCfg := true, cbSet := true, irqEn := true, lastLevel := last }

/-- What is seen of the next state. -/
def seen {α : Type} (f : State → α) (i : Instr) (s : State) : Option α :=
  match exec i s with
  | .next t => some (f t)
  | .fault _ | .refused _ => none

/-- The registers listed, after a bus activity that used every answer given. -/
def regsAfter (as : List RegAddr) (i : Instr) (s : State) : Option (List Byte × Option Result × List Tick) :=
  seen (fun t => (as.map t.reg, t.res, t.env.ticks)) i s

/-! ### Well-formedness -/

/-- R98: a bandwidth is a non-negative rational. -/
theorem test_negative_bandwidth_refused : (Instr.setBandwidth (-1)).wellFormed = false := by decide +kernel

/-- R98: a timeout is a non-negative rational. -/
theorem test_negative_timeout_refused : (Instr.receive (-1/20) true).wellFormed = false := by decide +kernel

/-- R245 answers a negative frequency, so it is a request; so are a timeout and a bandwidth of 0. -/
theorem test_boundary_operands_taken : (Instr.setFrequency (-1)).wellFormed = true ∧ (Instr.receive 0 false).wellFormed = true ∧
    (Instr.setBandwidth 0).wellFormed = true := by decide +kernel

/-! ### Decoding: words written out bit by bit from 30_encoding.md -/

/-- An operation request at port OP. -/
def request (bs : List Byte) : Except DecodeError Instr := decode Params.default .operation bs

/-- R91 to R94, R106: the frames `10101011 10oooooo 01dddddd 00100000`, `10101011 00000000 00100000`, `10101000 dddddddd`,
`10101010 01100vvv 00000000`. -/
theorem test_decode_wire :
    decode Params.default .wire [0b10101011#8, 0b10001001#8, 0b01111011#8, 0b00100000#8] = .ok (.pinSet 0b001001#6 0b111011#6) ∧
    decode Params.default .wire [0b10101011#8, 0b00000000#8, 0b00100000#8] = .ok .pinGet ∧
    decode Params.default .wire [0b10101000#8, 0b01000010#8] = .ok (.clkByte 0x42#8) ∧
    decode Params.default .wire [0b10101010#8, 0b01100101#8, 0b00000000#8] = .ok (.speedCfg 0b101#3) := ⟨rfl, rfl, rfl, rfl⟩

/-- R109: one item only, items in the other order, a wrong end mark, no opcode. -/
theorem test_decode_wire_refused :
    decode Params.default .wire [0xAB#8, 0x89#8, 0x20#8] = .error .unknownFrame ∧
    decode Params.default .wire [0xAB#8, 0x7B#8, 0x89#8, 0x20#8] = .error .unknownFrame ∧
    decode Params.default .wire [0xAB#8, 0x89#8, 0x7B#8, 0x21#8] = .error .unknownFrame ∧
    decode Params.default .wire [0xA9#8, 0x00#8] = .error .unknownFrame ∧
    decode Params.default .wire [0xA8#8] = .error .unknownFrame := ⟨rfl, rfl, rfl, rfl, rfl⟩

/-- R96, R97: `0aaaaaaa 11111111` and `1aaaaaaa vvvvvvvv`; the second byte of a read is ignored (R136); a third byte is a burst
(R113), and without a second no register is accessed. -/
theorem test_decode_serial :
    decode Params.default .serial [0b01000010#8, 0b11111111#8] = .ok (.regRead 0x42#7) ∧
    decode Params.default .serial [0b10010010#8, 0b00001000#8] = .ok (.regWrite 0x12#7 0x08#8) ∧
    decode Params.default .serial [0x42#8, 0xFE#8] = .ok (.regRead 0x42#7) ∧
    decode Params.default .serial [0x12#8, 0xFF#8, 0xFF#8] = .error .serialShape ∧
    decode Params.default .serial [0x42#8] = .error (.noAccess [0x42#8]) := ⟨rfl, rfl, rfl, rfl, rfl⟩

/-- R105, session operations, transfer, pins and interrupt emulation (operand bytes: log 12). -/
theorem test_decode_session :
    request [0x00#8] = .ok .openSession ∧ request [0x01#8] = .ok .closeSession ∧
    request [0x02#8, 0x02#8, 0x12#8, 0x34#8, 0x03#8] = .ok (.transfer [0x12#8, 0x34#8] 3) ∧
    request [0x03#8, 0x03#8, 0x01#8] = .ok (.digitalWrite 3 true) ∧ request [0x04#8, 0x02#8] = .ok (.digitalRead 2) ∧
    request [0x05#8, 0x02#8, 0x01#8] = .ok (.pinMode 2 1) ∧
    request [0x06#8, 0x02#8, 0x01#8] = .ok (.configureInterrupt 2 true) ∧
    request [0x07#8, 0x80#8, 0x01#8] = .ok (.setInterruptCallback 128) ∧ request [0x08#8, 0x00#8] = .ok (.enableInterrupt false) ∧
    request [0x09#8] = .ok .isActive := ⟨rfl, rfl, rfl, rfl, rfl, rfl, rfl, rfl, rfl, rfl⟩

/-- R105, register access. -/
theorem test_decode_register :
    request [0x10#8, 0xC2#8] = .ok (.readRegister 0xC2#8) ∧ request [0x11#8, 0x01#8, 0x81#8] = .ok (.writeRegister 0x01#8 0x81#8) ∧
    request [0x12#8, 0x03#8] = .ok (.setMode .receiveContinuous) ∧ request [0x12#8, 0x05#8] = .error .badOperands ∧
    request [0x13#8] = .ok .getMode ∧ request [0x14#8] = .ok .getIrqFlags ∧ request [0x15#8] = .ok .clearIrqFlags :=
  ⟨rfl, rfl, rfl, rfl, rfl, rfl, rfl⟩

/-- R105, parameter codecs without operands or with whole ones. -/
theorem test_decode_codec :
    request [0x21#8] = .ok .getFrequency ∧ request [0x23#8] = .ok .getBandwidth ∧
    request [0x24#8, 0x0E#8] = .ok (.setSpreadingFactor 7) ∧ request [0x24#8, 0x01#8] = .ok (.setSpreadingFactor (-1)) ∧
    request [0x25#8] = .ok .getSpreadingFactor ∧ request [0x26#8, 0x0A#8] = .ok (.setCodingRate 5) ∧
    request [0x27#8] = .ok .getCodingRate ∧ request [0x28#8, 0x22#8, 0x01#8] = .ok (.setTxPower 17 true) ∧
    request [0x29#8] = .ok .getTxPower ∧ request [0x2A#8] = .ok .getRssi ∧ request [0x2B#8] = .ok .getSnr ∧
    request [0x2C#8, 0x12#8, 0x34#8] = .ok (.setPreambleLength 0x1234#16) ∧ request [0x2D#8] = .ok .getPreambleLength ∧
    request [0x2E#8, 0x34#8] = .ok (.setSyncWord 0x34#8) ∧ request [0x2F#8] = .ok .getSyncWord ∧
    request [0x30#8, 0x01#8] = .ok (.setInvertIQ true) :=
  ⟨rfl, rfl, rfl, rfl, rfl, rfl, rfl, rfl, rfl, rfl, rfl, rfl, rfl, rfl, rfl, rfl⟩

/-- R105, the operands that are rationals: 5/2 as 10 and 1 (zigzag numerator, denominator less one), 5/2 as 5 and 1. -/
theorem test_decode_rationals :
    request [0x20#8, 0x0A#8, 0x01#8] = .ok (.setFrequency (5/2)) ∧ request [0x22#8, 0x05#8, 0x01#8] = .ok (.setBandwidth (5/2)) ∧
    request [0x41#8, 0x01#8, 0x13#8, 0x00#8] = .ok (.receive (1/20) false) := by decide +kernel

/-- R105, packet sequencers and the agent step. -/
theorem test_decode_packet :
    request [0x40#8, 0x01#8, 0xAA#8, 0x01#8] = .ok (.send [0xAA#8] true) ∧
    request [0x42#8, 0xC4#8, 0x13#8] = .ok (.startBeacon 2500) ∧ request [0x43#8] = .ok .stopBeacon ∧
    request [0x44#8] = .ok .readTemperature ∧ request [0x45#8, 0x05#8] = .ok (.calibrateTemperature 0x05#8) ∧
    decode Params.default .agent [] = .ok .pollStep := ⟨rfl, rfl, rfl, rfl, rfl, rfl⟩

/-- R110: 0x0A, 0x16, 0x31 and 0x46 stand behind the listed codes. -/
theorem test_decode_illegal_select :
    request [0x0A#8] = .error .illegalSelect ∧ request [0x16#8] = .error .illegalSelect ∧
    request [0x31#8] = .error .illegalSelect ∧ request [0x46#8] = .error .illegalSelect ∧ request [] = .error .noRequest :=
  ⟨rfl, rfl, rfl, rfl, rfl⟩

/-- Words as the opcode table numbers them, byte 0 in the highest bits (log 13). -/
theorem test_decode_table_words :
    decodeTableWord 32 0xAB897B20 = some (.pinSet 0x09#6 0x3B#6) ∧ decodeTableWord 24 0xAB0020 = some .pinGet ∧
    decodeTableWord 24 0xAA6100 = some (.speedCfg 1#3) ∧ decodeTableWord 16 0xA842 = some (.clkByte 0x42#8) ∧
    decodeTableWord 16 0x42FF = some (.regRead 0x42#7) ∧ decodeTableWord 16 0x8183 = some (.regWrite 0x01#7 0x83#8) ∧
    decodeTableWord 8 0x02 = some (.transfer [] 0) ∧ decodeTableWord 8 0x41 = some (.receive 0 false) ∧
    decodeTableWord 0 0 = some .pollStep := by decide +kernel

/-! ### Wire commands and serial transactions (95_test_vectors.md sections 2.1 and 2.2) -/

/-- `PIN_SET out=0x00 dir=0x3F`: chip-select falls, a serial transaction starts. -/
theorem test_pin_set_starts_transaction :
    seen (fun t => (t.pinsOut, t.pinsDir, t.csLow, t.radio.txn)) (.pinSet 0x00#6 0x3F#6)
      (calm 1 { session with radio := { session.radio with txn := [0x42#8] } }) = some (0x00#6, 0x3F#6, true, []) := by decide

/-- A frame equal to the previous one changes nothing (R130). -/
theorem test_pin_set_again :
    seen (fun t => t.radio.txn) (.pinSet 0x01#6 0x3F#6)
      (calm 1 { session with radio := { session.radio with txn := [0x42#8] } }) = some [0x42#8] := by decide

/-- R51: with chip-select an input, its external level rising before the frame ends the transaction. -/
theorem test_external_edge :
    seen (fun t => t.radio.txn) .pinGet
      (given [{ quiet with ext := 0x01#6 }] { session with pinsDir := 0x3E#6, radio := { session.radio with txn := [0x42#8] } }) =
      some [] := by decide

/-- R132's example: pin 2 an input pulled high, the rest outputs, pin 0 high: bits 5:0 are 0x05; bits 7:6 are the draw's. -/
theorem test_pin_get :
    seen (fun t => t.inQ) .pinGet (given [{ highPin with echo := 0xC0#8 }] { session with pinsDir := 0x3B#6 }) = some [0xC5#8] := by
  decide

/-- R136: the second byte of a read brings the register. -/
theorem test_clk_byte_reads :
    seen (fun t => (t.inQ, t.radio.txn)) (.clkByte 0xFF#8)
      (calm 1 (holding [(0x42#7, 0x12#8)]
        { session with pinsOut := 0x00#6, radio := { session.radio with txn := [0x42#8] } })) =
      some ([0x12#8], [0x42#8, 0xFF#8]) := by decide

/-- R134: with chip-select high the echo is a draw and RADIO is not touched. -/
theorem test_clk_byte_unselected :
    seen (fun t => (t.inQ, t.radio.txn)) (.clkByte 0x42#8) (given [{ quiet with echo := 0x5A#8 }] session) =
      some ([0x5A#8], []) := by decide

/-- R135: nothing of the far end changes. -/
theorem test_speed_cfg :
    seen (fun t => (t.pinsOut, t.pinsDir, t.inQ)) (.speedCfg 1#3) (calm 1 session) = some (0x01#6, 0x3F#6, []) := by decide

/-- `REG_READ 0x42`. -/
theorem test_reg_read :
    seen (fun t => t.res) (.regRead 0x42#7) (calm 2 (holding [(0x42#7, 0x12#8)] session)) =
      some (some (.bytes [0x00#8, 0x12#8])) := by decide

/-- `REG_READ 0x00`: the pointer moves on, 0xFF to 0x00. -/
theorem test_reg_read_fifo :
    regsAfter [0x0D#7] (.regRead 0x00#7) (calm 2 (holding [(0x0D#7, 0xFF#8)] session)) =
      some ([0x00#8], some (.bytes [0x00#8, 0x00#8]), []) := by decide

/-- `REG_WRITE 0x12 <- 0x08`: TX-done cleared, other flags kept. -/
theorem test_reg_write_flags :
    seen (fun t => t.reg 0x12#7) (.regWrite 0x12#7 0x08#8) (calm 2 (holding [(0x12#7, 0x48#8)] session)) = some 0x40#8 := by
  decide

/-- `REG_WRITE 0x00 <- 0x48`. -/
theorem test_reg_write_fifo :
    seen (fun t => (t.fifoAt 0x07#8, t.reg 0x0D#7)) (.regWrite 0x00#7 0x48#8) (calm 2 (holding [(0x0D#7, 0x07#8)] session)) =
      some (0x48#8, 0x08#8) := by decide

/-! ### Session (section 2.3) -/

/-- One matching device, everything answered. -/
def found : Enumeration := { found := 1, openOk := true, configOk := true, claimOk := true }

/-- A closed session with one answer to `open`. -/
def closedWith (e : Enumeration) (ts : List Tick) : State :=
  given ts { State.reset with env := { State.reset.env with enums := [e] } }

/-- The first row: both frames, then `OPEN` = 1, `DIR` = 0x3F, `OUT` = 0x01. -/
theorem test_open :
    seen (fun t => (t.res, t.isOpen, t.dir, t.out, t.wireLog)) .openSession (closedWith found [quiet, quiet]) =
      some (some (.bool true), true, 0x3F#6, 0x01#6,
        [.out [0xAA#8, 0x61#8, 0x00#8], .out [0xAB#8, 0x81#8, 0x7F#8, 0x20#8]]) := by decide

/-- All true; the second `BulkOut` fails. -/
theorem test_open_second_frame_fails :
    seen (fun t => (t.res, t.isOpen, t.dir, t.lastCause, t.wireLog)) .openSession (closedWith found [quiet, lost]) =
      some (some (.bool false), false, 0x00#6, .bulkTransferError,
        [.out [0xAA#8, 0x61#8, 0x00#8], .outFailed [0xAB#8, 0x81#8, 0x7F#8, 0x20#8]]) := by decide

/-- open, `DIR`=0x3B, `OUT`=0x09. -/
theorem test_close :
    seen (fun t => (t.res, t.isOpen, t.dir, t.out, t.wireLog)) .closeSession
        (calm 1 { session with dir := 0x3B#6, out := 0x09#6 }) =
      some (some .unit, false, 0x00#6, 0x00#6, [.out [0xAB#8, 0x80#8, 0x40#8, 0x20#8]]) := by decide

/-- closed, then open. -/
theorem test_is_active :
    seen State.res .isActive State.reset = some (some (.bool false)) ∧
    seen State.res .isActive session = some (some (.bool true)) := by decide

/-! ### Transfer (section 2.4) -/

/-- Program P3b: the echoes of the burst are a stub; least significant bit first. -/
theorem test_transfer_lsb_first :
    seen (fun t => (t.res, t.wireLog.take 2)) (.transfer [0x12#8, 0x34#8] 1)
        (given [quiet, quiet, quiet, quiet, quiet, { quiet with echo := 0x48#8 }, quiet, quiet] { session with lsbFirst := true }) =
      some (some (.bytes [0x12#8]), [.out [0xAB#8, 0x80#8, 0x7F#8, 0x20#8], .out [0xA8#8, 0x48#8]]) := by decide

/-- `transfer([0x42], 1)`, the second `BulkIn` fails: 5 transactions, chip-select left low. -/
theorem test_transfer_fails :
    seen (fun t => (t.res, t.out, t.busFault, t.wireLog)) (.transfer [0x42#8] 1) (given [quiet, quiet, quiet, quiet, lost] session) =
      some (some (.bytes []), 0x00#6, true, [.out [0xAB#8, 0x80#8, 0x7F#8, 0x20#8], .out [0xA8#8, 0x42#8], .back 0x00#8,
        .out [0xA8#8, 0xFF#8], .backFailed]) := by decide

/-! ### Digital pins (section 2.5) -/

theorem test_digital_write :
    seen (fun t => (t.res, t.out, t.wireLog)) (.digitalWrite 5 true) (calm 1 session) =
      some (some (.bool true), 0x21#6, [.out [0xAB#8, 0xA1#8, 0x7F#8, 0x20#8]]) := by decide

/-- `digitalWrite(3, true)`, `BulkOut` fails: not rolled back. -/
theorem test_digital_write_fails :
    seen (fun t => (t.res, t.out, t.wireLog)) (.digitalWrite 3 true) (given [lost] session) =
      some (some (.bool false), 0x09#6, [.outFailed [0xAB#8, 0x89#8, 0x7F#8, 0x20#8]]) := by decide

/-- A running loop whose callback asks for one operation; every look at a poll loop's clock is past its bound. -/
def callbackAsks (i : Instr) (ts : List Tick) : State :=
  given ts { polling .high with pseq := .callback (Callback.start [{ op := i, elapsed := [] }]) }

/-- A running callback that writes pin 3. -/
def callbackWrites (ts : List Tick) : State := callbackAsks (.digitalWrite 3 true) ts

/-- R386, the last row: the callback's update falls between FG's reading of `OUT` and its writing, and is lost. -/
theorem test_lost_update :
    seen State.out (.digitalWrite 5 true) (callbackWrites [{ quiet with poll := { PollOrder.none with beforeStore := 3 } }]) =
      some 0x21#6 := by decide

/-- R188: the callback's update and frame fall between the building and the sending of FG's frame, which is stale. -/
theorem test_stale_frame :
    seen (fun t => (t.out, t.pinsOut)) (.digitalWrite 5 true)
        (callbackWrites [{ quiet with poll := { PollOrder.none with beforeSend := 5 } }, quiet]) = some (0x29#6, 0x21#6) := by
  decide

/-- `pinMode(2, INPUT)`. -/
theorem test_pin_mode :
    seen (fun t => (t.res, t.dir, t.wireLog)) (.pinMode 2 0) (calm 1 session) =
      some (some (.bool true), 0x3B#6, [.out [0xAB#8, 0x81#8, 0x7B#8, 0x20#8]]) := by decide

/-- Section 2.11: the pin check comes before the mode check, the open check before both. -/
theorem test_pin_mode_checks :
    seen State.lastCause (.pinMode 7 5) session = some .invalidPin ∧ seen State.lastCause (.pinMode 1 5) session = some .invalidMode ∧
    seen State.lastCause (.pinMode 7 5) State.reset = some .sessionClosed := by decide

/-- `digitalRead(2)`, the adapter answers 0x05; bits 7:6 are ignored. -/
theorem test_digital_read :
    seen (fun t => (t.res, t.wireLog)) (.digitalRead 2) (given [{ highPin with echo := 0xC0#8 }, quiet]
        { session with dir := 0x3B#6, pinsDir := 0x3B#6 }) =
      some (some (.bool true), [.out [0xAB#8, 0x00#8, 0x20#8], .back 0xC5#8]) := by decide

/-! ### Interrupt emulation (section 2.6) -/

theorem test_configure_interrupt :
    seen (fun t => (t.res, t.dir, t.irqCfg, t.wireLog)) (.configureInterrupt 2 true) (calm 1 session) =
      some (some (.bool true), 0x3B#6, true, [.out [0xAB#8, 0x81#8, 0x7B#8, 0x20#8]]) := by decide

theorem test_configure_interrupt_wrong_pin :
    seen (fun t => (t.res, t.lastCause)) (.configureInterrupt 3 true) session = some (some (.bool false), .invalidPin) := by decide

theorem test_set_interrupt_callback :
    seen (fun t => (t.res, t.cbSet)) (.setInterruptCallback 0) session = some (some (.bool true), true) ∧
    seen (fun t => (t.res, t.lastCause)) (.setInterruptCallback 0) (polling .high) =
      some (some (.bool false), .interruptActive) := by decide

theorem test_enable_interrupt :
    seen (fun t => (t.res, t.irqEn, t.lastLevel)) (.enableInterrupt true) { session with irqCfg := true, cbSet := true } =
      some (some (.bool true), true, .unknown) ∧
    seen (fun t => (t.res, t.lastCause)) (.enableInterrupt true) session = some (some (.bool false), .notConfigured) := by decide

theorem test_disable_interrupt :
    seen (fun t => (t.res, t.irqEn, t.lastLevel)) (.enableInterrupt false) (polling .high) =
      some (some (.bool true), false, .unknown) := by decide

/-- POLL_STEP with 0x05, then with 0x01 after a high sample: the Callback. -/
theorem test_poll_step :
    seen (fun t => (t.lastLevel, t.callbacks)) .pollStep (given [highPin, quiet] (polling .unknown)) = some (.high, 0) ∧
    seen (fun t => (t.lastLevel, t.callbacks)) .pollStep (given [quiet, quiet, quiet] (polling .high)) = some (.low, 1) := by decide

/-- POLL_STEP, `BulkIn` fails: a spurious Callback. -/
theorem test_poll_step_spurious :
    seen (fun t => (t.lastLevel, t.callbacks, t.busFault)) .pollStep (given [highPin, lost, quiet] (polling .high)) =
      some (.low, 1, true) := by decide

/-- What is seen after one step of the machine. -/
def stepped {α : Type} (f : State → α) (s : State) : Option α :=
  match step s with
  | .next t => some (f t)
  | .fault _ | .refused _ => none

/-- R20: with no arrival POLLER makes one step, a bulk transaction of its POLL_STEP. -/
theorem test_poller_steps_alone :
    stepped (fun t => (t.pseq, t.wireLog)) (given [quiet] (polling .high)) =
      some (.takeResponse, [.out [0xAB#8, 0x00#8, 0x20#8]]) := by decide

/-- A request that arrives after `n` steps of POLLER. -/
def arriving (n : Nat) (bytes : List Byte) (s : State) : State :=
  { s with inbox := [{ level := .operation, bytes := bytes }], env := { s.env with gaps := [n] } }

/-- R20, R201: three steps of POLLER begin a POLL_STEP while FG is `Idle`; the stop request finds its callback running, which the
join ends. -/
theorem test_stop_inside_poll_step :
    stepped (fun t => (t.irqEn, t.pseq, t.lastLevel, t.callbacks, t.out)) (arriving 3 [0x08#8, 0x00#8]
        (given [quiet, quiet, { quiet with callback := [{ op := .digitalWrite 3 true, elapsed := [] }] }, quiet]
          (polling .high))) =
      some (false, .idle, .unknown, 1, 0x09#6) := by decide

/-- R20: two steps of POLLER between FG's last transaction, which fails, and its return. -/
theorem test_poller_before_fail :
    seen (fun t => (t.res, t.wireLog, t.pseq)) (.digitalWrite 5 true)
        (given [{ lost with poll := { PollOrder.none with after := 2 } }, quiet, highPin] (polling .high)) =
      some (some (.bool false), [.outFailed [0xAB#8, 0xA1#8, 0x7B#8, 0x20#8], .out [0xAB#8, 0x00#8, 0x20#8], .back 0x01#8],
        .test false) := by decide

/-- R348: a callback's `readTemperature` fails as the operation does, when a read of its own does; with every read answered no cause
is recorded. -/
theorem test_callback_temperature :
    seen (fun t => (t.lastCause, t.busFault, t.env.ticks)) .pollStep (callbackAsks .readTemperature [quiet, lost]) =
      some (.temperatureFailed, true, []) ∧
    seen (fun t => (t.lastCause, t.busFault, t.env.ticks)) .pollStep
      (callbackAsks .readTemperature (List.replicate 30 quiet)) = some (.none, false, []) := by decide +kernel

/-- R348: a callback's `send` times out only after a look at the flags that does not show TX-done, and is refused when too long. -/
theorem test_callback_send :
    seen (fun t => (t.lastCause, t.env.ticks)) .pollStep (callbackAsks (.send [] false) (List.replicate 48 quiet)) =
      some (.timeout, []) ∧
    seen (fun t => (t.lastCause, t.env.ticks)) .pollStep
      (callbackAsks (.send [] false) (List.replicate 42 quiet ++ flagged 0x08#8 :: List.replicate 17 quiet)) = some (.none, []) ∧
    seen (fun t => (t.lastCause, t.trace.length)) .pollStep (callbackAsks (.send (List.replicate 256 0x00#8) false) []) =
      some (.payloadTooLong, 1) := by decide +kernel

/-! ### Register access (section 2.7) -/

theorem test_read_register :
    seen (fun t => (t.res, t.wireLog)) (.readRegister 0xC2#8) (calm 6 (holding [(0x42#7, 0x12#8)] session)) =
      some (some (.byte 0x12#8), [.out [0xAB#8, 0x80#8, 0x7F#8, 0x20#8], .out [0xA8#8, 0x42#8], .back 0x00#8,
        .out [0xA8#8, 0xFF#8], .back 0x12#8, .out [0xAB#8, 0x81#8, 0x7F#8, 0x20#8]]) := by decide

theorem test_write_register :
    seen (fun t => (t.reg 0x01#7, t.wireLog)) (.writeRegister 0x01#8 0x81#8) (calm 6 session) =
      some (0x81#8, [.out [0xAB#8, 0x80#8, 0x7F#8, 0x20#8], .out [0xA8#8, 0x81#8], .back 0x00#8,
        .out [0xA8#8, 0x81#8], .back 0x00#8, .out [0xAB#8, 0x81#8, 0x7F#8, 0x20#8]]) := by decide

theorem test_set_mode :
    regsAfter [0x01#7] (.setMode .receiveSingle) (calm 6 session) = some ([0x86#8], some .unit, []) := by decide

theorem test_get_mode :
    seen State.res .getMode (calm 6 (holding [(0x01#7, 0x82#8)] session)) = some (some (.other 2#3)) ∧
    seen State.res .getMode (calm 6 (holding [(0x01#7, 0x03#8)] session)) = some (some (.opmode .transmit)) := by decide

theorem test_get_irq_flags :
    regsAfter [0x12#7] .getIrqFlags (calm 6 (holding [(0x12#7, 0x48#8)] session)) = some ([0x48#8], some (.byte 0x48#8), []) := by
  decide

theorem test_clear_irq_flags :
    regsAfter [0x12#7] .clearIrqFlags (calm 6 (holding [(0x12#7, 0x48#8)] session)) = some ([0x00#8], some .unit, []) := by decide

/-! ### Parameter codecs (sections 2.8 and 2.9) -/

/-- `frf_enc`: 868.3 MHz, and the largest whole number of Hz that fits; `frf_dec`. -/
theorem test_frequency_functions :
    frfEnc (8683/10) = 0xD91333 ∧ frfEnc (1023999969/1000000) = 0xFFFFFF ∧ frfEnc (1023999970/1000000) = 0x1000000 ∧
    frfDec 0xD90666#24 = 8680999755859375/10000000000000 := by decide +kernel

/-- `setFrequency(868.1)`, `setFrequency(1024)`. -/
theorem test_set_frequency :
    regsAfter [0x06#7, 0x07#7, 0x08#7] (.setFrequency (8681/10)) (calm 18 session) =
      some ([0xD9#8, 0x06#8, 0x66#8], some .unit, []) ∧
    seen State.lastCause (.setFrequency 1024) session = some .invalidParameter := by decide +kernel

theorem test_get_frequency :
    seen State.res .getFrequency (calm 18 (holding [(0x06#7, 0xD9#8), (0x07#7, 0x06#8), (0x08#7, 0x66#8)] session)) =
      some (some (.rat (8680999755859375/10000000000000))) := by decide +kernel

theorem test_set_bandwidth :
    regsAfter [0x1D#7] (.setBandwidth 250) (calm 12 (holding [(0x1D#7, 0x72#8)] session)) = some ([0x82#8], some .unit, []) ∧
    regsAfter [0x1D#7] (.setBandwidth 600) (calm 12 (holding [(0x1D#7, 0x72#8)] session)) = some ([0x92#8], some .unit, []) := by
  decide +kernel

theorem test_get_bandwidth :
    seen State.res .getBandwidth (calm 6 (holding [(0x1D#7, 0x72#8)] session)) = some (some (.rat 125)) ∧
    seen State.res .getBandwidth (calm 6 (holding [(0x1D#7, 0xA2#8)] session)) = some (some (.reserved 10)) := by decide +kernel

theorem test_set_spreading_factor :
    regsAfter [0x1E#7, 0x31#7, 0x37#7] (.setSpreadingFactor 9) (calm 24 (holding [(0x1E#7, 0x74#8)] session)) =
      some ([0x94#8, 0xC3#8, 0x0A#8], some .unit, []) ∧
    regsAfter [0x1E#7, 0x31#7, 0x37#7] (.setSpreadingFactor 3) (calm 24 (holding [(0x1E#7, 0x74#8)] session)) =
      some ([0x64#8, 0xC5#8, 0x0C#8], some .unit, []) := by decide +kernel

theorem test_get_spreading_factor :
    seen State.res .getSpreadingFactor (calm 6 (holding [(0x1E#7, 0x94#8)] session)) = some (some (.int 9)) := by decide

theorem test_set_coding_rate :
    regsAfter [0x1D#7] (.setCodingRate 8) (calm 12 (holding [(0x1D#7, 0x72#8)] session)) = some ([0x78#8], some .unit, []) ∧
    regsAfter [0x1D#7] (.setCodingRate 2) (calm 12 (holding [(0x1D#7, 0x78#8)] session)) = some ([0x72#8], some .unit, []) := by
  decide +kernel

theorem test_get_coding_rate :
    seen State.res .getCodingRate (calm 6 (holding [(0x1D#7, 0x78#8)] session)) = some (some (.int 8)) := by decide

theorem test_set_tx_power :
    regsAfter [0x09#7] (.setTxPower 20 true) (calm 6 session) = some ([0x92#8], some .unit, []) ∧
    regsAfter [0x09#7] (.setTxPower 14 false) (calm 6 session) = some ([0x0E#8], some .unit, []) := by decide

theorem test_get_tx_power :
    seen State.res .getTxPower (calm 6 (holding [(0x09#7, 0xEF#8)] session)) = some (some (.power 17 true)) := by decide

theorem test_get_rssi :
    seen State.res .getRssi (calm 6 (holding [(0x1A#7, 37#8)] session)) = some (some (.int (-100))) := by decide

theorem test_get_snr :
    seen State.res .getSnr (calm 6 (holding [(0x19#7, 0xEC#8)] session)) = some (some (.rat (-5))) ∧
    seen State.res .getSnr (calm 6 (holding [(0x19#7, 0xFF#8)] session)) = some (some (.rat (-1/4))) := by decide +kernel

theorem test_set_preamble_length :
    regsAfter [0x20#7, 0x21#7] (.setPreambleLength 0x1234#16) (calm 12 session) = some ([0x12#8, 0x34#8], some .unit, []) := by decide

theorem test_get_preamble_length :
    seen State.res .getPreambleLength (calm 12 (holding [(0x20#7, 0x12#8), (0x21#7, 0x34#8)] session)) =
      some (some (.u16 4660#16)) := by decide

theorem test_set_sync_word :
    regsAfter [0x39#7] (.setSyncWord 0x12#8) (calm 6 session) = some ([0x12#8], some .unit, []) := by decide

theorem test_get_sync_word :
    seen State.res .getSyncWord (calm 6 (holding [(0x39#7, 0x34#8)] session)) = some (some (.byte 0x34#8)) := by decide

theorem test_set_invert_iq :
    regsAfter [0x33#7, 0x3B#7] (.setInvertIQ true) (calm 12 session) = some ([0x66#8, 0x19#8], some .unit, []) ∧
    regsAfter [0x33#7, 0x3B#7] (.setInvertIQ false) (calm 12 session) = some ([0x27#8, 0x1D#8], some .unit, []) := by decide

/-! ### Packet sequencers (section 2.10 and the programs) -/

/-- A state with one list of `elapsed()` values. -/
def clocked (c : List Rat) (s : State) : State := { s with env := { s.env with clocks := [c] } }

/-- Program P4: "Hello", TX-done at the first poll: 15 transfers, 90 bulk transactions. -/
theorem test_send_hello :
    regsAfter [0x01#7, 0x33#7, 0x3B#7, 0x40#7, 0x22#7, 0x0D#7, 0x12#7] (.send [0x48#8, 0x65#8, 0x6C#8, 0x6C#8, 0x6F#8] false)
        (clocked [] (given (List.replicate 72 quiet ++ [flagged 0x08#8] ++ List.replicate 17 quiet) session)) =
      some ([0x81#8, 0x27#8, 0x1D#8, 0x40#8, 0x05#8, 0x05#8, 0x00#8], some (.bool true), []) := by decide +kernel

/-- `send([0xAA], true)`, the flag never appears, two polls: mode left at 0x83. -/
theorem test_send_times_out :
    seen (fun t => (t.res, t.lastCause, t.reg 0x01#7, t.reg 0x33#7, t.env.ticks)) (.send [0xAA#8] true)
        (clocked [1, 2] (calm 72 session)) =
      some (some (.bool false), .timeout, 0x83#8, 0x27#8, []) := by decide +kernel

/-- Program P5: no flag, two polls, 8 transfers. -/
theorem test_receive_times_out :
    seen (fun t => (t.res, t.lastCause, t.reg 0x01#7, t.reg 0x40#7, t.env.ticks)) (.receive (1/20) false)
        (clocked [1/40, 1/20] (calm 48 session)) =
      some (some (.bytes []), .timeout, 0x85#8, 0x00#8, []) := by decide +kernel

/-- Program P6: one CRC error, then a good packet: 17 transfers, 102 bulk transactions. -/
theorem test_receive_after_crc_error :
    seen (fun t => (t.res, t.reg 0x01#7, t.reg 0x0D#7, t.reg 0x33#7, t.env.ticks)) (.receive 1 true)
        (clocked [1/2] (given (List.replicate 30 quiet ++ [flagged 0x60#8] ++ List.replicate 11 quiet ++ [flagged 0x50#8] ++
            List.replicate 59 quiet)
          { holding [(0x13#7, 0x03#8), (0x10#7, 0x10#8)] session with
            radio := (((holding [(0x13#7, 0x03#8), (0x10#7, 0x10#8)] session).radio.setFifo 0x10#8 0xDE#8).setFifo 0x11#8
              0xAD#8).setFifo 0x12#8 0x01#8 })) =
      some (some (.bytes [0xDE#8, 0xAD#8, 0x01#8]), 0x85#8, 0x13#8, 0x27#8, []) := by decide +kernel

/-- `startBeacon(2500)` and `startBeacon(65536000)`; the parameters are log 2's. -/
theorem test_start_beacon :
    regsAfter [0x50#7, 0x51#7, 0x22#7, 0x01#7] (.startBeacon 2500) (calm 36 session) =
      some ([0x00#8, 0x02#8, 0x01#8, 0x8B#8], some .unit, []) ∧
    seen State.lastCause (.startBeacon 65536000) session = some .invalidParameter := by decide +kernel

theorem test_stop_beacon :
    regsAfter [0x01#7] .stopBeacon (calm 6 session) = some ([0x81#8], some .unit, []) := by decide

/-- `readTemperature()`: five transfers, the mode byte put back. -/
theorem test_read_temperature :
    regsAfter [0x01#7] .readTemperature (calm 30 (holding [(0x01#7, 0x81#8), (0x52#7, 0xE5#8)] session)) =
      some ([0x81#8], some (.temperature 0xE5#8 0x00#8), []) := by decide +kernel

theorem test_calibrate_temperature :
    regsAfter [0x01#7, 0x53#7] (.calibrateTemperature 0x05#8) (calm 24 (holding [(0x01#7, 0x81#8)] session)) =
      some ([0x81#8, 0x05#8], some (.bool true), []) := by decide +kernel

/-! ### The step -/

/-- A table word placed after reset runs as the first instruction; `startBeacon` on the closed session fails. -/
theorem test_step_runs_word :
    (match step (State.reset.withFetchWord 8 0x42) with
      | .next t => some (t.res, t.lastCause, t.inbox)
      | _ => none) = some (some .unit, .sessionClosed, []) := by decide +kernel

/-- R136: a serial transaction of the address byte alone brings one draw and accesses no register. -/
theorem test_step_address_alone :
    (match step { calm 1 session with inbox := [{ level := .serial, bytes := [0x80#8] }] } with
      | .next t => some (t.res, t.radio.txn, t.radio.regs)
      | _ => none) = some (some (.bytes [0x00#8]), [], []) := by decide

/-! ### What meets the hypotheses of the statements -/

theorem witness_params : Params.default.Ok where
  opcodes := by decide
  subTags := by decide
  subMarks := by decide
  endMark := by decide
  pins := by decide
  regs := by decide
  irqMasks := by decide
  modes := by decide
  beaconMode := by decide
  detection := by decide
  endpoints := by decide
  iqAddrs := by
    intro a
    simp only [Params.default, List.mem_cons, Prod.mk.injEq, List.not_mem_nil, or_false]
    constructor <;> rintro ⟨v, ⟨rfl, -⟩ | ⟨rfl, -⟩⟩ <;> simp
  beaconLen := by decide
  tempMode := by decide
  loraBit := by decide
  speedTag := by decide

/-- Without a polling loop every session is serialised. -/
theorem serialised_off {n : Nat} {s : State} (h : s.LoopOff) : s.Serialised n :=
  ⟨h.2, fun e => absurd (h.1.symm.trans e) (by decide)⟩

theorem answers_of {n : Nat} {s : State} (h : s.LoopOff) (hl : n ≤ s.env.ticks.length)
    (ho : ∀ t ∈ s.env.ticks.take n, t.answer = .ok) : s.Answers n := ⟨serialised_off h, hl, ho⟩

theorem witness_sound (ts : List Tick) : (given ts session).Sound := ⟨witness_params, rfl, rfl⟩

theorem cs_high : session.out.getLsbD session.par.csPin.val = true := by decide

theorem cs_output : session.dir.getLsbD session.par.csPin.val = true := by decide

/-- A session as `open` leaves it is ready, whatever the environment answers next. -/
theorem witness_ready (ts : List Tick) : (given ts session).Ready :=
  ⟨witness_params, rfl, rfl, cs_high, cs_output, rfl, rfl, rfl, rfl, rfl, rfl⟩

/-- Quiet transactions answer `ok`. -/
theorem witness_answers (n : Nat) : (calm n session).Answers n := by
  refine answers_of ⟨rfl, rfl⟩ (by simp [calm, given]) fun t h => ?_
  obtain ⟨-, rfl⟩ := List.mem_replicate.mp (List.mem_of_mem_take h)
  rfl

/-- A session with a running loop is serialised too, and answers, where no step of POLLER falls among the transactions. -/
theorem witness_answers_loop (n : Nat) : (calm n (polling .low)).Answers n := by
  have h : ∀ t ∈ (calm n (polling .low)).env.ticks.take n, t = quiet := fun t h => by
    obtain ⟨-, rfl⟩ := List.mem_replicate.mp (List.mem_of_mem_take h)
    rfl
  exact ⟨⟨rfl, fun _ t ht => by rw [h t ht]; rfl⟩, by simp [calm, given], fun t ht => by rw [h t ht]; rfl⟩

theorem witness_still (n : Nat) : (calm n session).RadioStill n := by
  intro t h
  obtain ⟨-, rfl⟩ := List.mem_replicate.mp (List.mem_of_mem_take h)
  rfl

theorem witness_iqOnly : session.IqOnly := by
  intro inv av h
  cases inv <;> simp [session, State.reset, Params.iqWrites, Params.default] at h <;> rcases h with rfl | rfl <;> decide

/-- The invariant holds of a state with a running loop. -/
theorem witness_inv (ts : List Tick) : (given ts (polling .unknown)).Inv :=
  ⟨rfl, rfl, ⟨fun _ => rfl, fun _ => rfl⟩, fun _ => ⟨rfl, rfl, rfl⟩, fun h => (nomatch h), fun h => (nomatch h), rfl, rfl⟩

/-- It holds of an open session without one, and of a closed one. -/
theorem witness_inv_off (ts : List Tick) : (given ts session).Inv :=
  ⟨rfl, rfl, ⟨fun _ => rfl, fun _ => rfl⟩, fun h => (nomatch h), fun _ => ⟨rfl, rfl⟩, fun h => (nomatch h), rfl, rfl⟩

/-- `DecodeEncode`: the least bandwidth. -/
theorem witness_DecodeEncode : Params.default.Ok ∧ (Instr.setBandwidth 0).wellFormed = true := ⟨witness_params, by decide +kernel⟩

theorem witness_FramesHaveOneMeaning :
    decodeWire Params.default [0xAB#8, 0x00#8, 0x20#8] = .ok .pinGet ∧ decodeSerial [0x42#8, 0xFF#8] = .ok (.regRead 0x42#7) :=
  ⟨rfl, rfl⟩

theorem witness_DecodedWellFormed : decode Params.default .operation [0x22#8, 0x00#8, 0x00#8] = .ok (.setBandwidth 0) := by
  decide +kernel

/-- An arrival in front of a state. -/
def presented (l : Level) (bs : List Byte) (s : State) : State := { s with inbox := [{ level := l, bytes := bs }] }

/-- `IllegalSelectDropped`: the code behind the last one listed. -/
theorem witness_IllegalSelectDropped :
    0x46#8 ∉ [0x00#8, 0x01#8, 0x02#8, 0x03#8, 0x04#8, 0x05#8, 0x06#8, 0x07#8, 0x08#8, 0x09#8, 0x10#8, 0x11#8, 0x12#8, 0x13#8,
      0x14#8, 0x15#8, 0x20#8, 0x21#8, 0x22#8, 0x23#8, 0x24#8, 0x25#8, 0x26#8, 0x27#8, 0x28#8, 0x29#8, 0x2A#8, 0x2B#8,
      0x2C#8, 0x2D#8, 0x2E#8, 0x2F#8, 0x30#8, 0x40#8, 0x41#8, 0x42#8, 0x43#8, 0x44#8, 0x45#8] ∧
    (presented .operation [0x46#8] State.reset).inbox = { level := .operation, bytes := 0x46#8 :: [] } :: [] := by decide

/-- `UnencodedRefused`: no bytes at all at the adapter; three bytes, none and one at the radio. -/
theorem witness_UnencodedRefused :
    (∀ i : Instr, i.level = .wire → encode State.reset.par i ≠ []) ∧ 2 < [0x42#8, 0xFF#8, 0xFF#8].length ∧
    (([] : List Byte).length ≤ 1 ∧ ([] : List Byte).length ≤ (calm 1 session).env.ticks.length) ∧
    ([0x42#8].length ≤ 1 ∧ [0x42#8].length ≤ (calm 1 session).env.ticks.length) ∧ (calm 1 session).Sound :=
  ⟨fun i h => by cases i <;> simp_all [Instr.level, encode], by decide, by decide, by decide, witness_sound _⟩

/-- `StepRunsArrival`, clause by clause. -/
theorem witness_StepRunsArrival :
    decode State.reset.par .operation [0x09#8] = .ok .isActive ∧
    decode State.reset.par (tablePlace State.reset.par 24 0xAB0020).1 (tablePlace State.reset.par 24 0xAB0020).2 = .ok .pinGet ∧
    (session.LoopOff ∧ Instr.pinGet.level ≠ .operation) ∧
    ((arriving 3 [0x09#8] (polling .high)).irqEn = true ∧ { session with pseq := .store .low }.pseq ≠ .idle ∧
      Instr.isActive.level = .operation ∧ (arriving 3 [0x09#8] (polling .high)).env.gaps = 3 :: []) ∧
    ((polling .unknown).inbox = [] ∧ session.inbox = [] ∧ session.LoopOff) :=
  ⟨rfl, rfl, ⟨⟨rfl, rfl⟩, by decide⟩, ⟨rfl, by decide, rfl, rfl⟩, rfl, rfl, rfl, rfl⟩

/-- `StepKeepsInv`: a POLL_STEP of a running loop. -/
theorem witness_StepKeepsInv :
    (given [highPin, quiet] (polling .unknown)).Inv ∧ ∃ t, step (given [highPin, quiet] (polling .unknown)) = .next t :=
  ⟨witness_inv _, _, rfl⟩

/-- `FaultsRecorded`, `ConstantsKept`, `SessionChangesOnlyBy`, `NoPollerNoCallback`: a digital write whose frame fails. -/
theorem witness_instruction :
    (given [lost] session).FaultsShown ∧ (given [lost] session).LoopOff ∧ (given [lost] session).Inv ∧
    (∃ t, exec (.digitalWrite 3 true) (given [lost] session) = .next t) ∧
    { session with busFault := true }.busFault = true ∧ (polling .high).cbSet = true :=
  ⟨by unfold State.FaultsShown; decide, ⟨rfl, rfl⟩, witness_inv_off _, ⟨_, rfl⟩, rfl, rfl⟩

/-- `PinSetEffect`, `PinGetAndSpeedEffect`, `RegReadEffect` and `RegWriteEffect`, with the classes of their clauses: the FIFO window,
a register that is none of the named ones, the mode, the flags. -/
theorem witness_far_end :
    (given [quiet, quiet] session).Sound ∧ (given [quiet, quiet] session).env.ticks = quiet :: quiet :: [] ∧
    regClass session.par 0x00#7 = .window ∧ regClass session.par 0x7F#7 = .plain ∧ regClass session.par 0x7F#7 ≠ .window ∧
    0x01#7 = session.par.regOpMode ∧ (0x12#7 = session.par.regIrqFlags ∧ quiet.radio = RadioEvent.nothing) :=
  ⟨witness_sound _, by decide⟩

/-- Chip-select low, with the bytes of a transaction. -/
def selected (txn : List Byte) : State :=
  given [quiet] { session with pinsOut := 0x00#6, radio := { session.radio with txn := txn } }

theorem witness_selected (txn : List Byte) : (selected txn).Sound := ⟨witness_params, rfl, rfl⟩

/-- `ClkByteEffect`, clause by clause: chip-select high; low with no byte yet; with the address byte of a read of a register and of
the FIFO; with that of a write of a plain register, of the mode, of the flags and of the FIFO. -/
theorem witness_ClkByteEffect :
    ((given [quiet] session).pinsAt quiet).csLow = false ∧ ((selected []).pinsAt quiet).csLow = true ∧
    (selected []).txnAt quiet = [] ∧
    ((selected [0x7F#8]).txnAt quiet = [0x7F#8] ∧ (0x7F#8).getLsbD 7 = false ∧
      regClass session.par ((0x7F#8).extractLsb' 0 7) ≠ .window) ∧
    ((0x00#8).getLsbD 7 = false ∧ regClass session.par ((0x00#8).extractLsb' 0 7) = .window) ∧
    ((0xFF#8).getLsbD 7 = true ∧ regClass session.par ((0xFF#8).extractLsb' 0 7) = .plain) ∧
    ((0x81#8).getLsbD 7 = true ∧ (0x81#8).extractLsb' 0 7 = session.par.regOpMode) ∧
    ((0x92#8).getLsbD 7 = true ∧ (0x92#8).extractLsb' 0 7 = session.par.regIrqFlags) ∧
    ((0x80#8).getLsbD 7 = true ∧ regClass session.par ((0x80#8).extractLsb' 0 7) = .window) := by decide

/-- `OpenSucceeds`: one device and ordinal 0. -/
theorem witness_OpenSucceeds :
    (closedWith found [quiet, quiet]).Sound ∧ (closedWith found [quiet, quiet]).isOpen = false ∧
    (closedWith found [quiet, quiet]).env.enums = found :: [] ∧
    (closedWith found [quiet, quiet]).par.devIndex < found.found ∧ (found.openOk = true ∧ found.configOk = true ∧ found.claimOk = true) ∧
    (closedWith found [quiet, quiet]).Answers 2 ∧ (closedWith found [quiet, quiet]).inQ = [] :=
  ⟨⟨witness_params, by decide, by decide⟩, rfl, rfl, by decide, by decide, answers_of ⟨rfl, rfl⟩ (by decide) (by decide), rfl⟩

/-- `OpenFailureCauses`, the five answers that refuse, the ordinal equal to the number of matches among them. -/
theorem witness_OpenFailureCauses_enumeration :
    (closedWith { found with found := 0 } []).isOpen = false ∧
    (0 < 1 ∧ 1 ≤ { Params.default with devIndex := 1 }.devIndex) ∧
    (Params.default.devIndex < found.found ∧ { found with openOk := false }.openOk = false) ∧
    { found with configOk := false }.configOk = false ∧ { found with claimOk := false }.claimOk = false := by decide

/-- `OpenFailureCauses`, the first frame and the second. -/
theorem witness_OpenFailureCauses_frame :
    ((closedWith found [lost]).env.ticks = [] ++ lost :: [] ∧ [].length (α := Tick) ≤ 1) ∧
    ((closedWith found [quiet, lost]).env.ticks = [quiet] ++ lost :: [] ∧ [quiet].length ≤ 1 ∧ ∀ tk ∈ [quiet], tk.answer = .ok) ∧
    lost.answer ≠ .ok := by decide

/-- `OpenFailureCauses`, `SessionChangesOnlyBy`: the invariant holds of a closed session. -/
theorem witness_inv_closed (e : Enumeration) (ts : List Tick) : (closedWith e ts).Inv :=
  ⟨rfl, rfl, ⟨fun h => (nomatch h), fun h => (nomatch h)⟩, fun h => (nomatch h), fun _ => ⟨rfl, rfl⟩, fun _ => ⟨rfl, rfl, rfl⟩,
    rfl, rfl⟩

/-- `OpenAgain`, `CloseEffect`, `IsActiveEffect`: closed; open without a loop, the frame answered or not; open with one. -/
theorem witness_session :
    State.reset.isOpen = false ∧ session.isOpen = true ∧ session.pseq = .idle ∧
    ((polling .high).isOpen = true ∧ (polling .high).irqEn = true ∧ (polling .high).pseq = .idle) ∧
    ((given [quiet] session).env.ticks = quiet :: [] ∧ quiet.answer = .ok) ∧
    ((given [lost] session).env.ticks = lost :: [] ∧ lost.answer ≠ .ok) := by decide

/-- `TransferFraming`: the empty transfer, in either bit order. -/
theorem witness_TransferFraming :
    (calm 2 session).isOpen = true ∧ (calm 2 session).Answers (2 + 2 * (([] : List Byte).length + 0)) ∧
    (calm 2 { session with lsbFirst := true }).Answers (2 + 2 * (([] : List Byte).length + 0)) ∧
    ((calm 2 (polling .low)).isOpen = true ∧ (calm 2 (polling .low)).Answers (2 + 2 * (([] : List Byte).length + 0))) :=
  ⟨rfl, witness_answers 2, answers_of ⟨rfl, rfl⟩ (by decide) (by decide), rfl, witness_answers_loop 2⟩

/-- `TransferStopsAtFailure`: the first transaction of the empty transfer, and its last. -/
theorem witness_TransferStopsAtFailure :
    ((given [lost] session).env.ticks = [] ++ lost :: [] ∧ ([] : List Tick).length ≤ 1 + 2 * (([] : List Byte).length + 0)) ∧
    ((given [quiet, lost] session).env.ticks = [quiet] ++ lost :: [] ∧ [quiet].length = 1 + 2 * (([] : List Byte).length + 0)) ∧
    (∀ tk ∈ [quiet], tk.answer = .ok) ∧ lost.answer ≠ .ok ∧ (given [quiet, lost] session).Serialised ([quiet].length + 1) :=
  ⟨by decide, by decide, by decide, by decide, serialised_off ⟨rfl, rfl⟩⟩

/-- `ClosedSession`: both clauses, the second at the bounds of the operands. -/
theorem witness_ClosedSession :
    State.reset.isOpen = false ∧ State.reset.LoopOff ∧ Instr.isActive.level = .operation ∧ Instr.isActive ≠ .openSession ∧
    (∃ t, exec .isActive State.reset = .next t) ∧
    needsOpen State.reset.par (.setFrequency 0) = true ∧ needsOpen State.reset.par (.startBeacon 65535999) = true ∧
    needsOpen State.reset.par (.setInvertIQ true) = true ∧ needsOpen State.reset.par .getSnr = true ∧
    closedAnswer (.send [] false) = some (.bool false) :=
  ⟨rfl, ⟨rfl, rfl⟩, rfl, by decide, ⟨_, rfl⟩, by decide +kernel, by decide, by decide, rfl, rfl⟩

/-- `DigitalWriteEffect`, `PinModeEffect`, `DigitalReadEffect`, `ConfigureInterruptEffect`: the highest pin and mode, an empty `IN_Q`
and one with a left-over byte. -/
theorem witness_pins :
    (given [quiet, quiet] session).Sound ∧ ((given [quiet, quiet] session).isOpen = true ∧ (given [quiet, quiet] session).Serialised 2) ∧
    5 ≤ 5 ∧ 1 ≤ 1 ∧ (given [quiet, quiet] session).env.ticks = quiet :: quiet :: [] ∧ quiet.answer = .ok ∧ session.inQ = [] ∧
    { session with inQ := [0x05#8] }.inQ = 0x05#8 :: [] :=
  ⟨witness_sound _, ⟨rfl, serialised_off ⟨rfl, rfl⟩⟩, by decide⟩

/-- `RequestsRejected`: the lowest refused pin and mode, a pin that is not the reserved one, a running loop, no configured pin, no
callback, and a callback that asks. -/
theorem witness_RequestsRejected :
    session.isOpen = true ∧ 5 < 6 ∧ 1 < 2 ∧ 3 ≠ session.par.irqPin.val ∧
    ((polling .high).isOpen = true ∧ (polling .high).irqEn = true) ∧ session.irqCfg = false ∧
    { session with irqCfg := true }.cbSet = false ∧
    (callbackAsks (.pinMode 5 2) []).pseq = .callback (Callback.start [{ op := .pinMode 5 2, elapsed := [] }]) := by decide

/-- `PinFrameFailure`: the frame, the request, the response. -/
theorem witness_PinFrameFailure :
    ((given [quiet, lost] session).isOpen = true ∧ (given [quiet, lost] session).Serialised ([quiet].length + 1)) ∧ lost.answer ≠ .ok ∧
    (given [lost] session).env.ticks = [] ++ lost :: [] ∧
    ((given [quiet, lost] session).env.ticks = [quiet] ++ lost :: [] ∧ [quiet].length ≤ 1 ∧ ∀ tk ∈ [quiet], tk.answer = .ok) :=
  ⟨⟨rfl, serialised_off ⟨rfl, rfl⟩⟩, by decide, rfl, rfl, by decide⟩

/-- `InterruptSetup`, `LoopStopped`, clause by clause. -/
theorem witness_interrupt :
    session.irqEn = false ∧
    (session.isOpen = true ∧ { session with irqCfg := true, cbSet := true }.irqCfg = true ∧
      { session with irqCfg := true, cbSet := true }.irqEn = false) ∧
    ((polling .high).irqCfg = true ∧ (polling .high).cbSet = true ∧ (polling .high).irqEn = true ∧ (polling .high).pseq = .idle) ∧
    ({ polling .high with pseq := .test false }.pseq = .test false ∧ (polling .high).lastLevel = .high) := by decide

/-- A callback that asks for the loop and nothing else. -/
def asking : Callback := Callback.start [{ op := .enableInterrupt true, elapsed := [] }]

/-- `LoopStopped`: a join during which nothing asks for the loop, and one during which the callback does. -/
theorem witness_LoopStopped :
    (given [quiet, quiet] { polling .high with pseq := .takeResponse }).NoRestart ∧
    ({ polling .high with pseq := .callback asking }.pseq = .callback asking ∧ asking.steps = [] ∧ asking.tasks = [] ∧
      asking.rest = [{ op := .enableInterrupt true, elapsed := [] }]) :=
  ⟨⟨fun c h => (nomatch h), by decide, by decide⟩, rfl, rfl, rfl, rfl⟩

/-- `PollStepSample`: a first sample, and a falling edge with a callback that does nothing. -/
theorem witness_PollStepSample :
    (given [highPin, quiet] (polling .unknown)).Sound ∧ (polling .unknown).inQ = [] ∧
    ((given [highPin, quiet] (polling .unknown)).env.ticks = highPin :: quiet :: [] ∧ highPin.ext.getLsbD session.par.irqPin = true ∧
      (polling .unknown).pinsDir.getLsbD session.par.irqPin = false ∧ (polling .unknown).lastLevel ≠ .high) ∧
    ((given [quiet, quiet, quiet] (polling .high)).env.ticks = quiet :: quiet :: quiet :: [] ∧
      quiet.ext.getLsbD session.par.irqPin = false ∧ (polling .high).cbSet = true ∧ quiet.callback = []) :=
  ⟨⟨witness_params, by decide, by decide⟩, rfl, by decide, by decide⟩

/-- `PollStepReadFails`: the request and the response, after a low and after a high sample. -/
theorem witness_PollStepReadFails :
    ((polling .low).irqEn = true ∧ (polling .low).pseq = .idle ∧ (polling .low).lastLevel ≠ .high) ∧
    (given [lost] (polling .low)).env.ticks = [] ++ lost :: [] ∧
    ((polling .high).lastLevel = .high ∧ (polling .high).cbSet = true) ∧
    (given [quiet, lost, quiet] (polling .high)).env.ticks = [quiet] ++ lost :: quiet :: [] ∧ [quiet].length ≤ 1 ∧
    lost.answer ≠ .ok ∧ quiet.callback = [] := by decide

/-- `ReadRegisterEffect`, `WriteRegisterEffect`, `ModeRegister`, `IrqFlags`: a ready session, and the classes at the first and the last
address. -/
theorem witness_register_access :
    (calm 6 session).Ready ∧ (calm 6 session).Answers 6 ∧ (calm 6 session).RadioStill 6 ∧
    regClass session.par ((0x80#8).extractLsb' 0 7) = .window ∧ regClass session.par ((0xFF#8).extractLsb' 0 7) = .plain ∧
    (0x01#8).extractLsb' 0 7 = session.par.regOpMode ∧ regClass session.par ((0x12#8).extractLsb' 0 7) = .latched :=
  ⟨witness_ready _, witness_answers 6, witness_still 6, by decide⟩

/-- `ModeRegister`: codes with a mode and a code without one. -/
theorem witness_mode_codes : modeCode Params.default .receiveSingle = 6#3 ∧ ∀ m, modeCode Params.default m ≠ 7#3 :=
  ⟨rfl, fun m => by cases m <;> decide⟩

/-- `FailedReadIsFree`: closed, and the first and the last transaction of an open session's read. -/
theorem witness_FailedReadIsFree :
    State.reset.isOpen = false ∧ session.isOpen = true ∧ (given [lost] session).env.ticks = [] ++ lost :: [] ∧
    (given (List.replicate 5 quiet ++ [lost]) session).Serialised ((List.replicate 5 quiet).length + 1) ∧
    (List.replicate 5 quiet).length < 6 ∧ (∀ tk ∈ List.replicate 5 quiet, tk.answer = .ok) ∧ lost.answer ≠ .ok :=
  ⟨rfl, rfl, rfl, serialised_off ⟨rfl, rfl⟩, by decide, by decide, by decide⟩

/-- `FrequencyLaws`: a tie, the least frequency, the greatest whole number of Hz that fits and the next one. -/
theorem witness_FrequencyLaws :
    |(1/2 : Rat) - (roundHaz (1/2) : Rat)| = 1/2 ∧ frfEnc 0 ≤ 0xFFFFFF ∧
    ((0 : Rat) ≤ 1023999969/1000000 ∧ frfEnc (1023999969/1000000) ≤ 0xFFFFFF) ∧ ¬frfEnc (1023999970/1000000) ≤ 0xFFFFFF := by
  decide +kernel

/-- `BandwidthLaws`: below, at and above the table. -/
theorem witness_BandwidthLaws :
    Config.bwTable[9]? = some 500 ∧ bwIdx 0 = 0 ∧ bwIdx (781/100) = 1 ∧ bwIdx 500 = 9 ∧ bwIdx 600 = 9 := by decide +kernel

/-- `SetFrequencyEffect`: both ends of what fits, and both sides outside. -/
theorem witness_SetFrequencyEffect :
    (calm 18 session).Ready ∧ (calm 18 session).Answers 18 ∧ ((0 : Rat) ≤ 0 ∧ frfEnc 0 ≤ 0xFFFFFF) ∧ (-1 : Rat) < 0 ∧
    0xFFFFFF < frfEnc 1024 := ⟨witness_ready _, witness_answers 18, by decide +kernel, by decide +kernel, by decide +kernel⟩

/-- `FieldSetters`, `RegisterSetters`, `PlainGetters`, `SignalGetters`, `GetterAfterSetter`: the longest of them has 36 transactions. -/
theorem witness_codecs :
    (calm 36 session).Ready ∧ (calm 36 session).Answers 36 ∧
    (∀ inv, (session.par.iqWrites inv).length = 2 ∧ ∀ av ∈ session.par.iqWrites inv, regClass session.par av.1 = .plain) :=
  ⟨witness_ready _, witness_answers 36, fun inv => ⟨by cases inv <;> rfl, fun av h => by
    cases inv <;> simp [session, State.reset, Params.iqWrites, Params.default] at h <;> rcases h with rfl | rfl <;> decide⟩⟩

/-- RADIO acts as listed, shown by looking at each answer. -/
theorem acts_of {n : Nat} {acts : List (Nat × RadioEvent)} {s : State}
    (h : ∀ i < n, ∀ tk ∈ s.env.ticks[i]?, tk.radio = (acts.lookup i).getD RadioEvent.nothing) : s.RadioActs n acts :=
  fun i tk hi ht => h i hi tk ht

/-- RADIO only sets the flag given, shown by looking at each answer. -/
theorem sets_of {m n : Nat} {never : Byte} {s : State} (f : Byte) (hf : f &&& never = 0#8)
    (h : ∀ i < n, ∀ tk ∈ s.env.ticks[i]?, tk.radio = RadioEvent.nothing ∨
      i < m ∧ tk.radio = { RadioEvent.nothing with setFlags := f }) : s.RadioSets m n never := fun i tk hi ht => by
  rcases h i hi tk ht with e | ⟨hm, e⟩
  · exact .inl e
  · exact .inr ⟨hm, f, hf, e⟩

/-- `n` answers, RADIO setting flags before the one numbered `i`. -/
def flaggedAt (n i : Nat) (e : RadioEvent) : List Tick := (List.replicate n quiet).set i { quiet with radio := e }

/-- TX-done, and RADIO back in Standby by itself. -/
def txDoneEvent : RadioEvent := { RadioEvent.nothing with setFlags := 0x08#8, opMode := some 0x81#8 }

/-- RX-done, two bytes from 0xFF on. -/
def rxDoneEvent : RadioEvent :=
  { RadioEvent.nothing with setFlags := 0x40#8, nbBytes := some 0x02#8, rxCurrent := some 0xFF#8, fifo := [(0xFF#8, 0xDE#8)] }

/-- RX-done with CRC error. -/
def crcEvent : RadioEvent := { RadioEvent.nothing with setFlags := 0x60#8 }

/-- A session whose answers and clock are given is ready. -/
theorem ready_clocked (c : List Rat) (ts : List Tick) : (clocked c (given ts session)).Ready :=
  ⟨witness_params, rfl, rfl, cs_high, cs_output, rfl, rfl, rfl, rfl, rfl, rfl⟩

/-- `SendSucceeds`: the empty payload, one poll before TX-done, inverted polarity. -/
theorem witness_SendSucceeds :
    (clocked [1] (given (flaggedAt 78 48 txDoneEvent) session)).Ready ∧
    78 = 6 * ((sendSetupAccesses session.par [] true).length + 1 + 3 + (restoreAccesses session.par true).length) ∧
    (clocked [1] (given (flaggedAt 78 48 txDoneEvent) session)).Answers 78 ∧ (∀ x ∈ ([1] : List Rat).take 1, x < 2) ∧
    session.reg session.par.regIrqFlags &&& session.par.irqTxDone = 0#8 ∧ 0x08#8 &&& session.par.irqTxDone ≠ 0#8 ∧
    (clocked [1] (given (flaggedAt 78 48 txDoneEvent) session)).RadioActs 78
      [(6 * ((sendSetupAccesses session.par [] true).length + 1), txDoneEvent)] :=
  ⟨ready_clocked _ _, by decide, answers_of ⟨rfl, rfl⟩ (by decide) (by decide), by decide +kernel, by decide, by decide,
    acts_of (by decide +kernel)⟩

/-- `SendTimesOut`: a test short of 2 seconds, then one that is not. -/
theorem witness_SendTimesOut :
    (clocked [1, 2] (calm 60 session)).Ready ∧
    60 = 6 * ((sendSetupAccesses session.par [0xAA#8] false).length + 1 + 1 + (restoreAccesses session.par false).length) ∧
    (clocked [1, 2] (calm 60 session)).Answers 60 ∧ (∀ x ∈ ([1, 2] : List Rat).take 1, x < 2) ∧
    (∀ x, ([1, 2] : List Rat)[1]? = some x → 2 ≤ x) ∧ (clocked [1, 2] (calm 60 session)).RadioStill 60 :=
  ⟨ready_clocked _ _, by decide, answers_of ⟨rfl, rfl⟩ (by decide) (by decide), by decide +kernel,
    fun x h => by simp at h; simp [← h], by unfold State.RadioStill; decide⟩

/-- `ReceiveSucceeds`: one poll without a packet, then one of two bytes across the end of the FIFO. -/
theorem witness_ReceiveSucceeds :
    (clocked [0] (given (flaggedAt 90 36 rxDoneEvent) session)).Ready ∧ (0 : Rat) ≤ 1 ∧
    2 = (rxDoneEvent.nbBytes.getD (session.reg session.par.regRxNbBytes)).toNat ∧
    78 = 6 * ((receiveSetupAccesses session.par false).length + 1 + 5 + 2 + (restoreAccesses session.par false).length) ∧
    (clocked [0] (given (flaggedAt 90 36 rxDoneEvent) session)).Answers 78 ∧
    (∀ x ∈ ([0] : List Rat).take 1, 0 ≤ x ∧ x < 1) ∧ rxDoneEvent.setFlags &&& session.par.irqRxDone ≠ 0#8 ∧
    rxDoneEvent.setFlags &&& session.par.irqCrcError = 0#8 ∧ rxDoneEvent.opMode = none ∧
    (clocked [0] (given (flaggedAt 90 36 rxDoneEvent) session)).RadioActs 78
      [(6 * ((receiveSetupAccesses session.par false).length + 1), rxDoneEvent)] :=
  ⟨ready_clocked _ _, by decide +kernel, by decide, by decide, answers_of ⟨rfl, rfl⟩ (by decide) (by decide), by decide +kernel,
    by decide, by decide, rfl, acts_of (by decide +kernel)⟩

/-- `ReceiveTimesOut`: a bound of 0, the end of the clock list, and a valid header at the poll. -/
theorem witness_ReceiveTimesOut :
    (clocked [] (given (flaggedAt 42 30 { RadioEvent.nothing with setFlags := 0x10#8 }) session)).Ready ∧ (0 : Rat) ≤ 0 ∧
    42 = 6 * ((receiveSetupAccesses session.par false).length + 0 + 2 + (restoreAccesses session.par false).length) ∧
    (clocked [] (given (flaggedAt 42 30 { RadioEvent.nothing with setFlags := 0x10#8 }) session)).Answers 42 ∧
    (∀ x, ([] : List Rat)[0]? = some x → 0 ≤ x) ∧
    (clocked [] (given (flaggedAt 42 30 { RadioEvent.nothing with setFlags := 0x10#8 }) session)).RadioSets 42 42 0x40#8 :=
  ⟨ready_clocked _ _, by decide +kernel, by decide, answers_of ⟨rfl, rfl⟩ (by decide) (by decide), by simp,
    sets_of (0x10#8) (by decide) (by decide)⟩

/-- `ReceiveRetriesAfterCrcError`: a CRC error, then a packet of two bytes. -/
theorem witness_ReceiveRetriesAfterCrcError :
    (clocked [1/2] (given ((flaggedAt 84 42 rxDoneEvent).set 30 { quiet with radio := crcEvent }) session)).Ready ∧
    2 = ((rxDoneEvent.nbBytes.or crcEvent.nbBytes).getD (session.reg session.par.regRxNbBytes)).toNat ∧
    84 = 6 * ((receiveSetupAccesses session.par false).length + 7 + 2 + (restoreAccesses session.par false).length) ∧
    (clocked [1/2] (given ((flaggedAt 84 42 rxDoneEvent).set 30 { quiet with radio := crcEvent }) session)).Answers 84 ∧
    crcEvent.setFlags &&& session.par.irqRxDone ≠ 0#8 ∧ crcEvent.setFlags &&& session.par.irqCrcError ≠ 0#8 ∧
    (clocked [1/2] (given ((flaggedAt 84 42 rxDoneEvent).set 30 { quiet with radio := crcEvent }) session)).RadioActs 84
      [(6 * (receiveSetupAccesses session.par false).length, crcEvent), (6 * ((receiveSetupAccesses session.par false).length + 2), rxDoneEvent)] :=
  ⟨ready_clocked _ _, by decide, by decide, answers_of ⟨rfl, rfl⟩ (by decide) (by decide), by decide, by decide, acts_of (by decide +kernel)⟩

/-- `PacketRejected` and `BeaconEffect`: both sides of each bound. -/
theorem witness_packet_bounds :
    255 < (List.replicate 256 0x00#8).length ∧ 65535 < 65536000 / 1000 ∧ 65535999 / 1000 ≤ 65535 ∧
    36 = 6 * (5 + session.par.beaconPayload.length) ∧ ((calm 36 session).Ready ∧ (calm 36 session).Answers 36) ∧
    (calm 36 session).RadioStill 36 :=
  ⟨by rw [List.length_replicate]; decide, by decide, by decide, by decide, ⟨witness_ready _, witness_answers 36⟩, witness_still 36⟩

/-- `TemperatureEffect`: the runs that complete, a callback's request, and a failure at the first and the last transaction of the mode
read and of the two other reads. -/
theorem witness_TemperatureEffect :
    ((callbackAsks .readTemperature [lost]).isOpen = true ∧ (callbackAsks .readTemperature [lost]).pseq =
      .callback (Callback.start [{ op := .readTemperature, elapsed := [] }])) ∧
    ((calm 30 session).Ready ∧ (calm 30 session).Answers 30 ∧ (calm 30 session).RadioStill 30) ∧
    ∀ k ∈ [0, 5, 12, 23], (given (List.replicate k quiet ++ [lost]) session).Ready ∧
      (∀ tk ∈ List.replicate k quiet, tk.answer = .ok) ∧ lost.answer ≠ .ok ∧
      (given (List.replicate k quiet ++ [lost]) session).Serialised (k + 1) ∧
      (given (List.replicate k quiet ++ [lost]) session).RadioStill (k + 1) :=
  ⟨⟨rfl, rfl⟩, ⟨witness_ready _, witness_answers 30, witness_still 30⟩, fun k hk => ⟨witness_ready _, by
    intro tk h
    rw [List.eq_of_mem_replicate h]
    rfl, by decide, serialised_off ⟨rfl, rfl⟩, by
    intro t h
    have h' : t ∈ List.replicate k quiet ++ [lost] := List.mem_of_mem_take h
    rcases List.mem_append.mp h' with h | h
    · rw [List.eq_of_mem_replicate h]
      rfl
    · rw [List.mem_singleton.mp h]
      rfl⟩⟩

end Sys2Proof.Tests
end

section
/-! SUPPORT. Requests whose select code is none of R105's (30_encoding.md R110): what the decoder and a step make of them. -/

namespace Sys2Proof

/-- The select codes of the table of R105. -/
def selectCodes : List Byte :=
  [0x00#8, 0x01#8, 0x02#8, 0x03#8, 0x04#8, 0x05#8, 0x06#8, 0x07#8, 0x08#8, 0x09#8, 0x10#8, 0x11#8, 0x12#8, 0x13#8,
    0x14#8, 0x15#8, 0x20#8, 0x21#8, 0x22#8, 0x23#8, 0x24#8, 0x25#8, 0x26#8, 0x27#8, 0x28#8, 0x29#8, 0x2A#8, 0x2B#8,
    0x2C#8, 0x2D#8, 0x2E#8, 0x2F#8, 0x30#8, 0x40#8, 0x41#8, 0x42#8, 0x43#8, 0x44#8, 0x45#8]

/-- Each listed code, evaluated, has operands to read. -/
theorem isSome_operandsOf_of_mem : ∀ op ∈ selectCodes, (operandsOf op).isSome = true :=
  List.all_eq_true.mp (show selectCodes.all (fun op => (operandsOf op).isSome) = true from rfl)

/-- Outside the table every test of the code's number fails, so only the default case of `operandsOf` is left. -/
theorem operandsOf_of_notMem (op : Byte) (h : op ∉ selectCodes) : operandsOf op = none := by
  simp only [selectCodes, List.mem_cons, List.not_mem_nil, ← BitVec.toNat_inj, BitVec.toNat_ofNat, Nat.reducePow,
    Nat.reduceMod, not_or, not_false_eq_true, and_true] at h
  unfold operandsOf
  split
  case h_40 => rfl
  all_goals omega

/-- The decoder has operands for exactly the codes of the table. -/
theorem operandsOf_eq_none_iff (op : Byte) : operandsOf op = none ↔ op ∉ selectCodes := by
  refine ⟨fun hnone hmem => ?_, operandsOf_of_notMem op⟩
  have hsome := isSome_operandsOf_of_mem op hmem
  simp [hnone] at hsome

/-- An unlisted code is refused before any operand byte is read. -/
theorem decodeOperation_of_notMem (op : Byte) (operands : List Byte) (h : op ∉ selectCodes) :
    decodeOperation (op :: operands) = .error .illegalSelect := by
  simp only [decodeOperation, (operandsOf_eq_none_iff op).mpr h]

namespace Machine

/-- An arrival that is no instruction is taken and answered by `rejected`; POLLER makes no step before it. -/
theorem step_of_decodeRequest_error (s : State) (r : Request) (rest : List Request) (e : DecodeError)
    (hinbox : s.inbox = r :: rest) (hdecode : s.decodeRequest r = .error e) : step s = rejected e (s.taken rest) := by
  simp only [step, hinbox, hdecode]

@[simp] theorem rejected_illegalSelect (s : State) : rejected .illegalSelect s = .next s := rfl

/-- Settles O5: an unlisted code decodes to `illegalSelect`, which leaves the state without the request as it is. -/
theorem illegalSelectDropped : Obligations.IllegalSelectDropped := by
  intro s op operands rest hop hinbox
  have hdecode : s.decodeRequest { level := .operation, bytes := op :: operands } = .error .illegalSelect :=
    decodeOperation_of_notMem op operands hop
  calc step s
      = rejected .illegalSelect (s.taken rest) := step_of_decodeRequest_error s _ rest _ hinbox hdecode
    _ = .next { s with inbox := rest } := rejected_illegalSelect _

end Machine

end Sys2Proof
end

section
/-! SUPPORT. Operations that answer at once (41_session_ops.md R153, R157): the body leaves the state it is given, so one run is the
start of an operation followed by its return. -/

namespace Sys2Proof.Machine

/-- `open` runs `openOp` between its start and its return. -/
theorem exec_openSession (s : State) : exec .openSession s = .next (runOp 0x00#8 openOp s) := rfl

/-- The body of `isActive` reads `OPEN` and keeps the state. -/
theorem exec_isActive (s : State) : exec .isActive s = .next (runOp 0x09#8 (fun s => (.bool s.isOpen, s)) s) := rfl

/-- Step O0: on an open session `open` goes no further than its first test (R153). -/
theorem openOp_of_isOpen {s : State} (h : s.isOpen = true) : openOp s = (.bool true, s) := by
  simp only [openOp, h, if_true]

/-- A body that keeps the state adds nothing between the start and the return. -/
theorem runOp_of_body_eq {op : Byte} {body : State → Result × State} {s : State} {r : Result}
    (h : body (s.enter op) = (r, s.enter op)) : runOp op body s = (s.enter op).leave r := by
  simp only [runOp, h]

/-- The start of an operation writes `RES`, `SEQ` and the operation's fault mark, nothing the frame names. -/
theorem NothingSent.enter (s : State) (op : Byte) : NothingSent s (s.enter op) :=
  ⟨rfl, rfl, rfl, rfl, rfl, rfl, rfl, rfl, rfl, rfl, rfl, rfl, rfl, rfl, rfl, rfl, rfl, rfl, rfl⟩

/-- The return of an operation writes `RES`, `SEQ` and the buffers, nothing the frame names. -/
theorem NothingSent.leave (s : State) (r : Result) : NothingSent s (s.leave r) :=
  ⟨rfl, rfl, rfl, rfl, rfl, rfl, rfl, rfl, rfl, rfl, rfl, rfl, rfl, rfl, rfl, rfl, rfl, rfl, rfl⟩

/-- An operation whose body keeps the state puts its answer on port RES and changes nothing else: not the far end, not a register
of the session, not what the environment has yet to answer. -/
theorem runOp_answers_at_once {op : Byte} {body : State → Result × State} {s : State} {r : Result}
    (h : body (s.enter op) = (r, s.enter op)) :
    (runOp op body s).res = some r ∧ NothingSent s (runOp op body s) ∧ (runOp op body s).lastCause = s.lastCause ∧
      (runOp op body s).env = s.env ∧ (runOp op body s).seq = Seq.idle ∧ (runOp op body s).buf = none := by
  rw [runOp_of_body_eq h]
  refine ⟨State.leave_res _ r, (NothingSent.enter s op).trans (.leave _ r), ?_, ?_, State.leave_seq _ r, State.leave_buf _ r⟩
  · rw [State.leave_lastCause, State.enter_lastCause]
  · rw [State.leave_env, State.enter_env]

/-- Settles O22: the start of the operation keeps `OPEN`, so the test of step O0 answers at once. -/
theorem openAgain : Obligations.OpenAgain := by
  intro s hopen
  have hbody : openOp (s.enter 0x00#8) = (.bool true, s.enter 0x00#8) :=
    openOp_of_isOpen ((State.enter_isOpen s _).trans hopen)
  exact ⟨_, exec_openSession s, runOp_answers_at_once hbody⟩

/-- Settles O24: the body answers `OPEN` as the start of the operation left it, which is as it was before. -/
theorem isActiveEffect : Obligations.IsActiveEffect := by
  intro s
  have hbody : (Result.bool (s.enter 0x09#8).isOpen, s.enter 0x09#8) = (.bool s.isOpen, s.enter 0x09#8) := by
    rw [State.enter_isOpen]
  exact ⟨_, exec_isActive s, runOp_answers_at_once hbody⟩

end Sys2Proof.Machine
end

section
/-! SUPPORT. The bandwidth codec (46_param_codecs.md R248): what its search finds, and the three laws that follow. -/

namespace Sys2Proof.Machine

/-- `BW_TABLE` rises from entry to entry. -/
theorem bwTable_sortedLT : Config.bwTable.SortedLT := by
  refine List.Pairwise.sortedLT ?_
  norm_num [Config.bwTable]

/-- An entry stands before another only if it is the smaller one. -/
theorem bwTable_lt_of_lt {i j : Nat} {e f : Rat} (hi : Config.bwTable[i]? = some e) (hj : Config.bwTable[j]? = some f)
    (hij : i < j) : e < f := by
  obtain ⟨_, rfl⟩ := List.getElem?_eq_some_iff.mp hi
  obtain ⟨_, rfl⟩ := List.getElem?_eq_some_iff.mp hj
  exact List.sortedLT_iff_getElem_lt_getElem_of_lt.mp bwTable_sortedLT hij

/-- The table's last index is 9. -/
theorem le_nine_of_bwTable {i : Nat} {e : Rat} (hi : Config.bwTable[i]? = some e) : i ≤ 9 := by
  obtain ⟨hlt, -⟩ := List.getElem?_eq_some_iff.mp hi
  exact Nat.le_of_lt_succ hlt

/-- The search ends at the first sufficient entry, or finds none in the whole table. -/
theorem bwIdx_cases (b : Rat) :
    (∃ e, Config.bwTable[bwIdx b]? = some e ∧ b ≤ e ∧
      ∀ (i : Nat) f, Config.bwTable[i]? = some f → i < bwIdx b → f < b) ∨
    (bwIdx b = 9 ∧ ∀ (i : Nat) f, Config.bwTable[i]? = some f → f < b) := by
  cases hfind : Config.bwTable.findIdx? (fun e => decide (b ≤ e)) with
  | some k =>
    have hk : bwIdx b = k := by simp only [bwIdx, hfind, Option.getD_some]
    obtain ⟨hlt, hsuff, hbefore⟩ := List.findIdx?_eq_some_iff_getElem.mp hfind
    rw [hk]
    refine .inl ⟨_, List.getElem?_eq_getElem hlt, of_decide_eq_true hsuff, fun i f hi hik => ?_⟩
    obtain ⟨_, rfl⟩ := List.getElem?_eq_some_iff.mp hi
    simpa using hbefore i hik
  | none =>
    have h9 : bwIdx b = 9 := by simp only [bwIdx, hfind, Option.getD_none]
    refine .inr ⟨h9, fun i f hi => ?_⟩
    simpa using List.findIdx?_eq_none_iff.mp hfind f (List.mem_of_getElem? hi)

theorem bwIdx_le_nine (b : Rat) : bwIdx b ≤ 9 := by
  obtain ⟨e, hentry, -, -⟩ | ⟨h9, -⟩ := bwIdx_cases b
  · exact le_nine_of_bwTable hentry
  · exact h9.le

/-- Every entry before the index is too small. -/
theorem lt_of_lt_bwIdx {b e : Rat} {i : Nat} (hi : Config.bwTable[i]? = some e) (hlt : i < bwIdx b) : e < b := by
  obtain ⟨-, -, -, hbefore⟩ | ⟨-, hall⟩ := bwIdx_cases b
  · exact hbefore i e hi hlt
  · exact hall i e hi

/-- The entry at the index is sufficient, unless the index is the last. -/
theorem le_or_bwIdx_eq_nine {b e : Rat} (hentry : Config.bwTable[bwIdx b]? = some e) : b ≤ e ∨ bwIdx b = 9 := by
  obtain ⟨f, hf, hsuff, -⟩ | ⟨h9, -⟩ := bwIdx_cases b
  · obtain rfl : f = e := Option.some_inj.mp (hf.symm.trans hentry)
    exact .inl hsuff
  · exact .inr h9

/-- No sufficient entry stands before the index. -/
theorem bwIdx_le_of_le {b e : Rat} {i : Nat} (hi : Config.bwTable[i]? = some e) (hbe : b ≤ e) : bwIdx b ≤ i :=
  Nat.le_of_not_lt fun hlt => (lt_of_lt_bwIdx hi hlt).not_ge hbe

/-- The entry that suffices for the larger request suffices for the smaller one. -/
theorem bwIdx_mono {b c : Rat} (hbc : b ≤ c) : bwIdx b ≤ bwIdx c := by
  obtain ⟨e, hentry, hsuff, -⟩ | ⟨h9, -⟩ := bwIdx_cases c
  · exact bwIdx_le_of_le hentry (hbc.trans hsuff)
  · exact h9 ▸ bwIdx_le_nine b

/-- An entry suffices for itself, and those before it are smaller. -/
theorem bwIdx_bwTable {i : Nat} {e : Rat} (hi : Config.bwTable[i]? = some e) : bwIdx e = i := by
  refine (bwIdx_le_of_le hi le_rfl).antisymm (Nat.le_of_not_lt fun hlt => ?_)
  obtain ⟨f, hf, hsuff, -⟩ | ⟨-, hall⟩ := bwIdx_cases e
  · exact (bwTable_lt_of_lt hf hi hlt).not_ge hsuff
  · exact lt_irrefl e (hall i e hi)

/-- The table in kHz is R248's table in Hz divided by 1000. -/
theorem bwTable_eq_hz : Config.bwTable =
    [7800, 10400, 15600, 20800, 31250, 41700, 62500, 125000, 250000, 500000].map (fun hz : Rat => hz / 1000) := by
  norm_num [Config.bwTable]

/-- Settles O45: the table's values, what the search finds, and the two laws that follow from it and the table's order. -/
theorem bandwidthLaws : Obligations.BandwidthLaws :=
  ⟨bwTable_eq_hz, fun b => ⟨bwIdx_le_nine b, fun _ _ => lt_of_lt_bwIdx, fun _ => le_or_bwIdx_eq_nine⟩,
    fun _ _ => bwIdx_mono, fun _ _ => bwIdx_bwTable⟩

end Sys2Proof.Machine
end

section
/-! SUPPORT. The TX power codec (46_param_codecs.md R260), through the numbers its bytes stand for. -/

namespace Sys2Proof.Machine

theorem le_clamp {lo hi : Int} (x : Int) (h : lo ≤ hi) : lo ≤ clamp x lo hi := by
  unfold clamp
  split_ifs <;> omega

theorem clamp_le {lo hi : Int} (x : Int) (h : lo ≤ hi) : clamp x lo hi ≤ hi := by
  unfold clamp
  split_ifs <;> omega

/-- The mask of a field is a number of one bits, as many as the field is wide. -/
theorem toNat_fieldOnes {hi lo : Nat} (h : hi - lo < 8) : (fieldOnes hi lo).toNat = 2 ^ (hi - lo + 1) - 1 :=
  (show ∀ d < 8, ((1#8 <<< (d + 1)) - 1#8).toNat = 2 ^ (d + 1) - 1 by decide) _ h

/-- `ext` as arithmetic: the field's bits shifted down. -/
theorem toNat_extField (v : Byte) {hi lo : Nat} (h : hi - lo < 8) :
    (extField v hi lo).toNat = v.toNat / 2 ^ lo % 2 ^ (hi - lo + 1) := by
  rw [extField, BitVec.toNat_and, toNat_fieldOnes h, Nat.and_two_pow_sub_one_eq_mod, BitVec.toNat_ushiftRight,
    Nat.shiftRight_eq_div_pow]

/-- A byte holds a number of 0 to 255 as it is. -/
theorem toNat_ofInt_byte {i : Int} (h0 : 0 ≤ i) (h : i < 256) : ((BitVec.ofInt 8 i).toNat : Int) = i := by
  rw [BitVec.toNat_ofInt]
  omega

/-- The boost bit over a value below it adds 128. -/
theorem toNat_boostBit_or {v : Byte} (h : v.toNat < 128) : (0x80#8 ||| v).toNat = 128 + v.toNat :=
  (BitVec.toNat_or _ _).trans (Nat.two_pow_add_eq_or_of_lt (i := 7) h 1).symm

theorem toNat_pwrEnc_boost (level : Int) : ((pwrEnc level true).toNat : Int) = 128 + (clamp level 2 20 - 2) := by
  have hlo := le_clamp level (show (2 : Int) ≤ 20 by decide)
  have hhi := clamp_le level (show (2 : Int) ≤ 20 by decide)
  have hval := toNat_ofInt_byte (i := clamp level 2 20 - 2) (by omega) (by omega)
  have hor := toNat_boostBit_or (v := BitVec.ofInt 8 (clamp level 2 20 - 2)) (by omega)
  simp only [pwrEnc, if_true, hor, Nat.cast_add, hval, Nat.cast_ofNat]

theorem toNat_pwrEnc_direct (level : Int) : ((pwrEnc level false).toNat : Int) = clamp level 0 15 := by
  have hlo := le_clamp level (show (0 : Int) ≤ 15 by decide)
  have hhi := clamp_le level (show (0 : Int) ≤ 15 by decide)
  exact toNat_ofInt_byte hlo (by omega)

/-- An encoded level with the boost bit lies in 128 + [0, 18]. -/
theorem toNat_pwrEnc_boost_bounds (level : Int) :
    128 ≤ (pwrEnc level true).toNat ∧ (pwrEnc level true).toNat ≤ 146 := by
  have hval := toNat_pwrEnc_boost level
  have hlo := le_clamp level (show (2 : Int) ≤ 20 by decide)
  have hhi := clamp_le level (show (2 : Int) ≤ 20 by decide)
  omega

/-- An encoded level without the boost bit lies in [0, 15]. -/
theorem toNat_pwrEnc_direct_le (level : Int) : (pwrEnc level false).toNat ≤ 15 := by
  have hval := toNat_pwrEnc_direct level
  have hhi := clamp_le level (show (0 : Int) ≤ 15 by decide)
  omega

/-- The boost bit says whether the byte is at least 128. -/
theorem getLsbD_seven (v : Byte) : v.getLsbD 7 = decide (128 ≤ v.toNat) :=
  (BitVec.msb_eq_getLsbD_last v).symm.trans (BitVec.msb_eq_decide v)

theorem pwrDec_eq (v : Byte) : pwrDec v =
    (if v.getLsbD 7 then ((v.toNat % 32 + 2 : Nat) : Int) else ((v.toNat % 32 : Nat) : Int), v.getLsbD 7) := by
  have hlevel : (extField v 4 0).toNat = v.toNat % 32 := by simp [toNat_extField]
  simp only [pwrDec, hlevel]
  cases v.getLsbD 7 <;> rfl

/-- Below bit 7 an encoded level is at most 18, so that it fits bits 4:0 and is read back whole. -/
theorem pwrDec_pwrEnc (level : Int) (boost : Bool) :
    pwrDec (pwrEnc level boost) = (if boost then clamp level 2 20 else clamp level 0 15, boost) := by
  rw [pwrDec_eq, getLsbD_seven]
  cases boost with
  | true =>
    have hval := toNat_pwrEnc_boost level
    obtain ⟨hbit, hle⟩ := toNat_pwrEnc_boost_bounds level
    simp only [hbit, decide_true, if_true, Prod.mk.injEq, and_true]
    omega
  | false =>
    have hval := toNat_pwrEnc_direct level
    have hle := toNat_pwrEnc_direct_le level
    have hbit : ¬ 128 ≤ (pwrEnc level false).toNat := by omega
    simp only [hbit, decide_false, Bool.false_eq_true, if_false, Prod.mk.injEq, and_true]
    omega

/-- Bits 6:5 of an encoded power are 0: below bit 7 its value is less than 32. -/
theorem extractLsb_pwrEnc (level : Int) (boost : Bool) : (pwrEnc level boost).extractLsb' 5 2 = 0#2 := by
  refine BitVec.eq_of_toNat_eq ?_
  rw [BitVec.extractLsb'_toNat, Nat.shiftRight_eq_div_pow, BitVec.toNat_ofNat]
  cases boost with
  | true =>
    obtain ⟨hge, hle⟩ := toNat_pwrEnc_boost_bounds level
    omega
  | false =>
    have hle := toNat_pwrEnc_direct_le level
    omega

/-- Settles O46: the encoded byte as a number, the decoder as arithmetic on it, and the two together. -/
theorem powerLaws : Obligations.PowerLaws :=
  ⟨fun level => ⟨toNat_pwrEnc_boost level, toNat_pwrEnc_direct level⟩, pwrDec_eq,
    fun level boost => ⟨pwrDec_pwrEnc level boost, extractLsb_pwrEnc level boost⟩, by decide⟩

end Sys2Proof.Machine
end

section
/-! SUPPORT. The registers after creation (10_state.md R52, 70_reset_and_hazards.md R371). -/

namespace Sys2Proof.Machine

/-- Creation without an argument takes the parameter's bit order, which is the datasheet order (`LSB_FIRST_DEFAULT` = 0). -/
theorem State.reset_lsbFirst :
    State.reset.lsbFirst = State.reset.par.lsbFirstDefault ∧ State.reset.lsbFirst = false :=
  ⟨rfl, rfl⟩

/-- Settles O8: `State.reset` is a literal, so each register is read off it; only the bit order goes through a parameter. -/
theorem resetValues : Obligations.ResetValues := by
  obtain ⟨hparam, hzero⟩ := State.reset_lsbFirst
  refine ⟨?isOpen, ?handle, ?dir, ?out, hparam, hzero, ?irqCfg, ?cbSet, ?irqEn, ?lastLevel, ?lastCause, ?busFault, ?seq, ?pseq,
    ?buf⟩ <;> rfl

end Sys2Proof.Machine
end

section
/-! SUPPORT. Encoding (30_encoding.md): what a request's operands read back to, what each decoder can answer, and the frames and
serial transactions read both ways. -/

namespace Sys2Proof

/-! ### Operand readers, one and two at a time -/

@[simp] theorem readNothing_eq (i : Instr) (bs : List Byte) : readNothing i bs = some (i, bs) := rfl

@[simp] theorem readByte_cons (b : Byte) (r : List Byte) : readByte (b :: r) = some (b, r) := rfl

@[simp] theorem readU16_putU16_nil (v : BitVec 16) : readU16 (putU16 v) = some (v, []) := by
  simpa using readU16_putU16 v []

@[simp] theorem readOpMode_putOpMode_nil (m : OpMode) : readOpMode (putOpMode m) = some (m, []) := by
  simpa using readOpMode_putOpMode m []

theorem readNonnegRat_putNonnegRat_nil {q : Rat} (h : 0 ≤ q) : readNonnegRat (putNonnegRat q) = some (q, []) := by
  simpa using readNonnegRat_putNonnegRat q [] h

theorem with1_eq {α : Type} {ra : Reader α} (k : α → Instr) {bs r : List Byte} {a : α} (ha : ra bs = some (a, r)) :
    with1 ra k bs = some (k a, r) := by
  simp only [with1, ha]

theorem with2_eq {α β : Type} {ra : Reader α} {rb : Reader β} (k : α → β → Instr) {bs r r' : List Byte} {a : α} {b : β}
    (ha : ra bs = some (a, r)) (hb : rb r = some (b, r')) : with2 ra rb k bs = some (k a b, r') := by
  simp only [with2, ha, hb]

/-! ### Decoding what was encoded -/

/-- A request whose operand bytes are read to their end is the instruction read. -/
theorem decodeOperation_of_read {op : Byte} {r : Reader Instr} {bs : List Byte} {i : Instr} (hop : operandsOf op = some r)
    (hr : r bs = some (i, [])) : decodeOperation (op :: bs) = .ok i := by
  simp [decodeOperation, hop, hr]

/-- Each request is what its select code and its operand bytes decode to. -/
theorem decodeOperation_encode (p : Params) (i : Instr) (hlevel : i.level = .operation) (hwf : i.wellFormed = true) :
    decodeOperation (encode p i) = .ok i := by
  cases i with
  | pinSet | pinGet | clkByte | speedCfg | regRead | regWrite | pollStep => exact Level.noConfusion hlevel
  | transfer w n => exact decodeOperation_of_read rfl (with2_eq _ (readBytes_putBytes w _) (readNat_putNat_nil n))
  | digitalWrite pin v => exact decodeOperation_of_read rfl (with2_eq _ (readNat_putNat pin _) (readBool_putBool_nil v))
  | pinMode pin m => exact decodeOperation_of_read rfl (with2_eq _ (readNat_putNat pin _) (readNat_putNat_nil m))
  | configureInterrupt pin en => exact decodeOperation_of_read rfl (with2_eq _ (readNat_putNat pin _) (readBool_putBool_nil en))
  | digitalRead n | setInterruptCallback n | startBeacon n => exact decodeOperation_of_read rfl (with1_eq _ (readNat_putNat_nil n))
  | enableInterrupt b | setInvertIQ b => exact decodeOperation_of_read rfl (with1_eq _ (readBool_putBool_nil b))
  | readRegister b | setSyncWord b | calibrateTemperature b => exact decodeOperation_of_read rfl (with1_eq _ (readByte_cons b []))
  | writeRegister a v => exact decodeOperation_of_read rfl (with2_eq _ (readByte_cons a _) (readByte_cons v []))
  | setMode m => exact decodeOperation_of_read rfl (with1_eq _ (readOpMode_putOpMode_nil m))
  | setFrequency f => exact decodeOperation_of_read rfl (with1_eq _ (readRat_putRat_nil f))
  | setBandwidth b =>
    exact decodeOperation_of_read rfl (with1_eq _ (readNonnegRat_putNonnegRat_nil (of_decide_eq_true hwf)))
  | setSpreadingFactor z | setCodingRate z => exact decodeOperation_of_read rfl (with1_eq _ (readInt_putInt_nil z))
  | setTxPower z b => exact decodeOperation_of_read rfl (with2_eq _ (readInt_putInt z _) (readBool_putBool_nil b))
  | setPreambleLength v => exact decodeOperation_of_read rfl (with1_eq _ (readU16_putU16_nil v))
  | send data b => exact decodeOperation_of_read rfl (with2_eq _ (readBytes_putBytes data _) (readBool_putBool_nil b))
  | receive t b =>
    exact decodeOperation_of_read rfl
      (with2_eq _ (readNonnegRat_putNonnegRat t _ (of_decide_eq_true hwf)) (readBool_putBool_nil b))
  | openSession | closeSession | isActive | getMode | getIrqFlags | clearIrqFlags | getFrequency | getBandwidth
  | getSpreadingFactor | getCodingRate | getTxPower | getRssi | getSnr | getPreambleLength | getSyncWord | stopBeacon
  | readTemperature => exact decodeOperation_of_read rfl (readNothing_eq _ [])

/-- The address byte names its register, with its write flag clear or set. -/
theorem addrByte_bits (a : RegAddr) :
    (readAddrByte (a.setWidth 8)).getLsbD 7 = false ∧ (readAddrByte (a.setWidth 8)).extractLsb' 0 7 = a ∧
      (writeAddrByte (a.setWidth 8)).getLsbD 7 = true ∧ (writeAddrByte (a.setWidth 8)).extractLsb' 0 7 = a := by
  revert a; decide

/-- A serial transaction of two bytes is the register access its bytes are. -/
theorem decodeSerial_encode (p : Params) (i : Instr) (hlevel : i.level = .serial) : decodeSerial (encode p i) = .ok i := by
  cases i with
  | regRead a =>
    obtain ⟨hbit, haddr, -, -⟩ := addrByte_bits a
    simp only [encode, decodeSerial, hbit, haddr, Bool.false_eq_true, if_false]
  | regWrite a v =>
    obtain ⟨-, -, hbit, haddr⟩ := addrByte_bits a
    simp only [encode, decodeSerial, hbit, haddr, if_true]
  | _ => exact Level.noConfusion hlevel

/-- A frame is told by its first byte and its length; the speed item gives its value back because its tag leaves bits 2:0 free. -/
theorem decodeWire_encode {p : Params} (hp : p.Ok) (i : Instr) (hlevel : i.level = .wire) :
    decodeWire p (encode p i) = .ok i := by
  cases i with
  | pinSet out dir => simp [encode, decodeWire]
  | pinGet => simp [encode, decodeWire]
  | clkByte d => simp [encode, decodeWire]
  | speedCfg v =>
    have hopcode : p.opSpeedCfg ≠ p.opPinStream := hp.opcodes.2.1.symm
    simp [encode, decodeWire, hopcode, speedItem_value p.speedSetTag v hp.speedTag]
  | _ => exact Level.noConfusion hlevel

/-- Settles O1, level by level. -/
theorem decodeEncode : Obligations.DecodeEncode := by
  intro p i hp hwf
  cases hlevel : i.level with
  | wire => exact decodeWire_encode hp i hlevel
  | serial => exact decodeSerial_encode p i hlevel
  | operation => exact decodeOperation_encode p i hlevel hwf
  | agent =>
    cases i with
    | pollStep => rfl
    | _ => exact Level.noConfusion hlevel

/-! ### What was decoded, encoded again -/

/-- A pin item is its tag and its mask. -/
theorem pinItem_fields (b : Byte) : pinItem (b.extractLsb' 6 2) (b.extractLsb' 0 6) = b := by
  revert b; decide

/-- What the adapter takes for a frame is the frame of the command it takes it for. -/
theorem encode_of_decodeWire {p : Params} {bs : List Byte} {i : Instr} (h : decodeWire p bs = .ok i) :
    i.level = .wire ∧ encode p i = bs := by
  unfold decodeWire at h
  split at h
  case h_1 b0 d =>
    split at h
    case isTrue hop => cases h; exact ⟨rfl, by rw [hop]; rfl⟩
    case isFalse => cases h
  case h_2 b0 b1 b2 =>
    split at h
    case isTrue hask => obtain ⟨rfl, rfl, rfl⟩ := hask; cases h; exact ⟨rfl, rfl⟩
    case isFalse =>
      split at h
      case isTrue hspeed =>
        obtain ⟨rfl, hitem, rfl⟩ := hspeed
        cases h
        exact ⟨rfl, by simp only [encode, ← hitem]⟩
      case isFalse => cases h
  case h_3 b0 b1 b2 b3 =>
    split at h
    case isTrue hpins =>
      obtain ⟨rfl, hout, hdir, rfl⟩ := hpins
      cases h
      exact ⟨rfl, by simp only [encode, ← hout, ← hdir, pinItem_fields]⟩
    case isFalse => cases h
  case h_4 => cases h

/-- The adapter refuses a frame for one reason only. -/
theorem decodeWire_error {p : Params} {bs : List Byte} {e : DecodeError} (h : decodeWire p bs = .error e) :
    e = .unknownFrame := by
  unfold decodeWire at h
  repeat' split at h
  all_goals cases h
  all_goals rfl

/-- Bytes that are no command's frame are refused. -/
theorem decodeWire_of_unencoded {p : Params} {bs : List Byte} (h : ∀ i : Instr, i.level = .wire → encode p i ≠ bs) :
    decodeWire p bs = .error .unknownFrame := by
  cases hdec : decodeWire p bs with
  | ok i =>
    obtain ⟨hlevel, henc⟩ := encode_of_decodeWire hdec
    exact absurd henc (h i hlevel)
  | error e => rw [decodeWire_error hdec]

/-- The two forms of an address byte, put together from its bits. -/
theorem addrByte_of_bits (b : Byte) :
    (b.getLsbD 7 = true → writeAddrByte ((b.extractLsb' 0 7).setWidth 8) = b) ∧
      (b.getLsbD 7 = false → b = (0#1 ++ b.extractLsb' 0 7 : BitVec 8)) := by
  revert b; decide

/-- What the radio takes for an access is that access, but for the byte it ignores in a read. -/
theorem encode_of_decodeSerial {p : Params} {bs : List Byte} {i : Instr} (h : decodeSerial bs = .ok i) :
    i.level = .serial ∧ (encode p i = bs ∨ ∃ (a : RegAddr) (x : Byte), i = .regRead a ∧ bs = [(0#1 ++ a : BitVec 8), x]) := by
  unfold decodeSerial at h
  split at h
  case h_1 b0 b1 =>
    obtain ⟨hwrite, hread⟩ := addrByte_of_bits b0
    split at h
    case isTrue hbit => cases h; exact ⟨rfl, .inl (by simp only [encode, hwrite hbit])⟩
    case isFalse hbit =>
      cases h
      exact ⟨rfl, .inr ⟨_, b1, rfl, by rw [← hread (by simpa using hbit)]⟩⟩
  all_goals cases h

/-- Settles O2: both decoders read backwards. -/
theorem framesHaveOneMeaning : Obligations.FramesHaveOneMeaning :=
  fun _ _ _ => ⟨encode_of_decodeWire, encode_of_decodeSerial⟩

/-! ### Whatever decodes is well-formed -/

/-- Whatever a reader reads satisfies `P`. -/
def Reader.Gives {α : Type} (ra : Reader α) (P : α → Prop) : Prop := ∀ bs a r, ra bs = some (a, r) → P a

theorem Reader.gives_trivial {α : Type} (ra : Reader α) : ra.Gives fun _ => True := fun _ _ _ _ => trivial

theorem gives_readNothing {Q : Instr → Prop} {i : Instr} (h : Q i) : Reader.Gives (readNothing i) Q := by
  intro bs j r hj
  cases hj
  exact h

theorem gives_with1 {α : Type} {ra : Reader α} {P : α → Prop} {Q : Instr → Prop} {k : α → Instr} (ha : ra.Gives P)
    (hk : ∀ a, P a → Q (k a)) : Reader.Gives (with1 ra k) Q := by
  intro bs i r hi
  simp only [with1] at hi
  split at hi
  case h_1 a r' hread => cases hi; exact hk a (ha _ _ _ hread)
  case h_2 => cases hi

theorem gives_with2 {α β : Type} {ra : Reader α} {rb : Reader β} {P : α → Prop} {Q : Instr → Prop} {k : α → β → Instr}
    (ha : ra.Gives P) (hk : ∀ a b, P a → Q (k a b)) : Reader.Gives (with2 ra rb k) Q := by
  intro bs i r hi
  simp only [with2] at hi
  split at hi
  case h_1 a r' hread =>
    split at hi
    case h_1 => cases hi; exact hk a _ (ha _ _ _ hread)
    case h_2 => cases hi
  case h_2 => cases hi

/-- A rational with a natural numerator is not negative. -/
theorem ratOf_nonneg {n d : Nat} {q : Rat} (h : ratOf n d = some q) : 0 ≤ q := by
  unfold ratOf at h
  split at h
  case isTrue hc =>
    cases h
    exact Rat.num_nonneg.mp (Int.natCast_nonneg n)
  case isFalse => cases h

theorem gives_readNonnegRat : readNonnegRat.Gives fun q => 0 ≤ q := by
  intro bs q r h
  simp only [readNonnegRat] at h
  split at h
  case h_1 num r1 =>
    split at h
    case h_1 d r2 =>
      obtain ⟨q', hq', heq⟩ := Option.map_eq_some_iff.mp h
      cases heq
      exact ratOf_nonneg hq'
    case h_2 => cases h
  case h_2 => cases h

/-- A well-formed request. -/
def Instr.IsRequest (i : Instr) : Prop := i.wellFormed = true ∧ i.level = .operation

/-- Every row of the select table reads well-formed requests. -/
theorem gives_operandsOf {op : Byte} {r : Reader Instr} (h : operandsOf op = some r) : r.Gives Instr.IsRequest := by
  unfold operandsOf at h
  split at h
  all_goals cases h
  case h_19 => exact gives_with1 gives_readNonnegRat fun _ hq => ⟨decide_eq_true hq, rfl⟩
  case h_35 => exact gives_with2 gives_readNonnegRat fun _ _ hq => ⟨decide_eq_true hq, rfl⟩
  all_goals first
    | exact gives_readNothing ⟨rfl, rfl⟩
    | exact gives_with1 (Reader.gives_trivial _) fun _ _ => ⟨rfl, rfl⟩
    | exact gives_with2 (Reader.gives_trivial _) fun _ _ _ => ⟨rfl, rfl⟩

theorem isRequest_of_decodeOperation {bs : List Byte} {i : Instr} (h : decodeOperation bs = .ok i) : i.IsRequest := by
  unfold decodeOperation at h
  split at h
  case h_1 => cases h
  case h_2 =>
    split at h
    case h_1 => cases h
    case h_2 hop =>
      split at h
      case h_1 => cases h
      case h_2 hread =>
        split at h
        case isTrue => cases h; exact gives_operandsOf hop _ _ _ hread
        case isFalse => cases h

theorem wellFormed_of_level {i : Instr} (h : i.level ≠ .operation) : i.wellFormed = true := by
  cases i with
  | setBandwidth | receive => exact absurd rfl h
  | _ => rfl

/-- Settles O3: only a request has operands that can be ill-formed, and the readers of the select table give none. -/
theorem decodedWellFormed : Obligations.DecodedWellFormed := by
  intro p l bs i h
  have hother : i.level = l → l ≠ .operation → i.wellFormed = true ∧ i.level = l :=
    fun he hl => ⟨wellFormed_of_level (he ▸ hl), he⟩
  cases l with
  | wire => exact hother (encode_of_decodeWire h).1 (by decide)
  | serial => exact hother (encode_of_decodeSerial (p := p) h).1 (by decide)
  | operation => exact isRequest_of_decodeOperation h
  | agent =>
    simp only [decode] at h
    split at h
    · cases h; exact hother rfl (by decide)
    · cases h

/-- Settles O4: each word, evaluated. -/
theorem knownWords : Obligations.KnownWords := by
  refine ⟨?_, ?_, ?_, ?_, ?_, ?_, ?_, ?_, ?_⟩ <;> rfl

end Sys2Proof
end

section
/-! SUPPORT. The far end (40_wire_commands.md): a frame that reaches the adapter, a serial transaction at the radio, what each leaves of
the bridge and what it makes of the radio. -/

namespace Sys2Proof.Machine

/-! ### The bridge beside the far end -/

theorem SameSession.refl (s : State) : SameSession s s :=
  ⟨rfl, rfl, rfl, rfl, rfl, rfl, rfl, rfl, rfl, rfl, rfl, rfl, rfl, rfl⟩

theorem SameSession.trans {s t u : State} (h : SameSession s t) (k : SameSession t u) : SameSession s u :=
  ⟨k.par.trans h.par, k.isOpen.trans h.isOpen, k.handle.trans h.handle, k.dir.trans h.dir, k.out.trans h.out,
    k.lsbFirst.trans h.lsbFirst, k.irqCfg.trans h.irqCfg, k.cbSet.trans h.cbSet, k.irqEn.trans h.irqEn,
    k.lastLevel.trans h.lastLevel, k.lastCause.trans h.lastCause, k.busFault.trans h.busFault, k.pseq.trans h.pseq,
    k.inbox.trans h.inbox⟩

/-- The registers `SameSession` compares. -/
def State.sessionRegs (s : State) : Params × Bool × Handle × PinMask × PinMask × Bool × Bool × Bool × Bool × PinLevel × Cause ×
    Bool × PSeq × List Request :=
  (s.par, s.isOpen, s.handle, s.dir, s.out, s.lsbFirst, s.irqCfg, s.cbSet, s.irqEn, s.lastLevel, s.lastCause, s.busFault, s.pseq,
    s.inbox)

theorem sameSession_iff (s t : State) : SameSession s t ↔ t.sessionRegs = s.sessionRegs := by
  simp only [State.sessionRegs, Prod.mk.injEq]
  exact ⟨fun ⟨h1, h2, h3, h4, h5, h6, h7, h8, h9, h10, h11, h12, h13, h14⟩ =>
    ⟨h1, h2, h3, h4, h5, h6, h7, h8, h9, h10, h11, h12, h13, h14⟩,
    fun ⟨h1, h2, h3, h4, h5, h6, h7, h8, h9, h10, h11, h12, h13, h14⟩ =>
    ⟨h1, h2, h3, h4, h5, h6, h7, h8, h9, h10, h11, h12, h13, h14⟩⟩

/-- The same said of two other states with those registers. -/
theorem SameSession.congr {s t s' t' : State} (h : SameSession s t) (hs : s'.sessionRegs = s.sessionRegs)
    (ht : t'.sessionRegs = t.sessionRegs) : SameSession s' t' :=
  (sameSession_iff s' t').mpr ((ht.trans ((sameSession_iff s t).mp h)).trans hs.symm)

theorem BridgeUntouched.refl (s : State) : BridgeUntouched s s := ⟨.refl s, rfl, rfl, rfl, rfl, rfl⟩

theorem BridgeUntouched.trans {s t u : State} (h : BridgeUntouched s t) (k : BridgeUntouched t u) : BridgeUntouched s u :=
  ⟨h.toSameSession.trans k.toSameSession, k.seq.trans h.seq, k.buf.trans h.buf, k.res.trans h.res, k.trace.trans h.trace,
    k.opFault.trans h.opFault⟩

theorem BridgeUntouched.withRadio (s : State) (r : Radio) : BridgeUntouched s { s with radio := r } :=
  ⟨(SameSession.refl s).congr rfl rfl, rfl, rfl, rfl, rfl, rfl⟩

theorem BridgeUntouched.dropTxn (s : State) : BridgeUntouched s s.dropTxn := .withRadio s _

theorem BridgeUntouched.pinsAt (t : Tick) (s : State) : BridgeUntouched s (s.pinsAt t) :=
  ⟨(SameSession.refl s).congr rfl rfl, rfl, rfl, rfl, rfl, rfl⟩

theorem BridgeUntouched.drawTick (s : State) : BridgeUntouched s s.drawTick.2 := by
  unfold State.drawTick
  split <;> exact ⟨⟨rfl, rfl, rfl, rfl, rfl, rfl, rfl, rfl, rfl, rfl, rfl, rfl, rfl, rfl⟩, rfl, rfl, rfl, rfl, rfl⟩

theorem BridgeUntouched.arrive (t : Tick) (s : State) : BridgeUntouched s (s.arrive t) := by
  refine ⟨⟨?_, ?_, ?_, ?_, ?_, ?_, ?_, ?_, ?_, ?_, ?_, ?_, ?_, ?_⟩, ?_, ?_, ?_, ?_, ?_⟩ <;> simp

theorem BridgeUntouched.adapterRun (t : Tick) (c : WireCmd) (s : State) : BridgeUntouched s (adapterRun t c s) := by
  refine ⟨⟨?_, ?_, ?_, ?_, ?_, ?_, ?_, ?_, ?_, ?_, ?_, ?_, ?_, ?_⟩, ?_, ?_, ?_, ?_, ?_⟩ <;> simp

/-- A frame at the adapter is none of the bridge's own business. -/
theorem BridgeUntouched.deliver (c : WireCmd) (s : State) : BridgeUntouched s (deliver c s) :=
  ((BridgeUntouched.drawTick s).trans (.arrive _ _)).trans (.adapterRun _ _ _)

/-! ### Chip-select -/

/-- Chip-select depends on the pins alone. -/
theorem csLow_of_pins {s u : State} (hp : u.par = s.par) (ho : u.pinsOut = s.pinsOut) (hd : u.pinsDir = s.pinsDir)
    (he : u.pinsExt = s.pinsExt) : u.csLow = s.csLow := by
  simp only [State.csLow, State.levels, hp, ho, hd, he]

theorem csLow_arrive (t : Tick) (s : State) : (s.arrive t).csLow = (s.pinsAt t).csLow :=
  csLow_of_pins (by simp) (by simp) (by simp) (by simp)

theorem csLow_pinsAt_drawTick (t : Tick) (s : State) : (s.drawTick.2.pinsAt t).csLow = (s.pinsAt t).csLow :=
  csLow_of_pins (by simp) (by simp) (by simp) (by simp)

theorem txnAt_drawTick (t : Tick) (s : State) : s.drawTick.2.txnAt t = s.txnAt t := by
  have hnow : s.drawTick.2.csLow = s.csLow := csLow_of_pins (by simp) (by simp) (by simp) (by simp)
  simp only [State.txnAt, hnow, csLow_pinsAt_drawTick, State.drawTick_radio]

/-- A transaction that is in progress at an arrival has had no edge before it. -/
theorem csLow_of_txnAt_ne_nil {s : State} {t : Tick} (h : s.txnAt t ≠ []) : s.csLow = (s.pinsAt t).csLow := by
  by_contra he
  exact h (by rw [State.txnAt, if_neg he])

/-! ### The radio without its `TXN` -/

theorem Radio.setIfSome_withTxn (r : Radio) (l : List Byte) (a : RegAddr) (o : Option Byte) :
    ({ r with txn := l } : Radio).setIfSome a o = { r.setIfSome a o with txn := l } := by
  cases o <;> rfl

theorem Radio.fillFifo_withTxn (r : Radio) (l : List Byte) (f : List (Byte × Byte)) :
    ({ r with txn := l } : Radio).fillFifo f = { r.fillFifo f with txn := l } := by
  induction f generalizing r with
  | nil => rfl
  | cons c f ih => exact ih (r.setFifo c.1 c.2)

/-- RADIO's own steps do not look at `TXN`. -/
theorem Radio.act_withTxn (p : Params) (e : RadioEvent) (r : Radio) (l : List Byte) :
    ({ r with txn := l } : Radio).act p e = { r.act p e with txn := l } := by
  have hflags : (if e.setFlags = 0#8 then ({ r with txn := l } : Radio) else ({ r with txn := l } : Radio).setReg p.regIrqFlags
      (irqSet (({ r with txn := l } : Radio).reg p.regIrqFlags) e.setFlags)) =
      { (if e.setFlags = 0#8 then r else r.setReg p.regIrqFlags (irqSet (r.reg p.regIrqFlags) e.setFlags)) with txn := l } := by
    split <;> rfl
  simp only [Radio.act, hflags, Radio.setIfSome_withTxn, Radio.fillFifo_withTxn]

theorem Radio.txn_clock (p : Params) (t : Tick) (d : Byte) (r : Radio) : (r.clock p t d).2.txn = r.txn ++ [d] := by
  unfold Radio.clock
  split
  case h_1 h => rw [h]; rfl
  case h_2 h => split <;> (rw [h]; rfl)
  case h_3 => rfl

/-! ### What RADIO's own steps leave, as a frame -/

theorem State.Sound.radioWf {s : State} (h : s.Sound) : s.radio.Wf := ⟨h.regsWf, h.fifoWf⟩

theorem and_not_irqSet (a b : Byte) : a &&& ~~~irqSet a b = 0#8 := by
  apply BitVec.eq_of_getLsbD_eq
  intro i hi
  simp only [irqSet, BitVec.getLsbD_and, BitVec.getLsbD_or, BitVec.getLsbD_not, hi, decide_true, Bool.true_and,
    BitVec.getLsbD_zero]
  cases a.getLsbD i <;> simp

/-- After RADIO's own steps `e`, which are none if it is still, only the registers in `w` and the FIFO bytes in `f` were changed. -/
theorem RadioFrame.of_act {n : Nat} {s t : State} {w : List RegAddr} {f : List Byte} (e : RadioEvent) (hs : s.Sound)
    (hstill : s.RadioStill n → e = RadioEvent.nothing) (hreg : ∀ a, a ∉ w → t.reg a = (s.radio.act s.par e).reg a)
    (hfifo : ∀ a, a ∉ f → t.fifoAt a = (s.radio.act s.par e).fifoByte a) : RadioFrame n w f s t := by
  refine ⟨fun a ha hn => ?_, fun hn => ?_, fun hq a hn => ?_, fun hq a hn => ?_⟩
  · rw [hreg a hn, Radio.reg_act_plain _ _ _ _ ha]; rfl
  · rw [hreg _ hn, Radio.reg_act_flags hs.params _ _ hs.radioWf]; exact and_not_irqSet _ _
  · rw [hreg a hn, hstill hq]; rfl
  · rw [hfifo a hn, hstill hq]; rfl

/-- RADIO's own steps before an arrival: those of the answer, or none. -/
theorem exists_act_of_arrive (t : Tick) (s : State) : ∃ e, (e = t.radio ∨ e = RadioEvent.nothing) ∧
    (s.csLow = true → (s.pinsAt t).csLow = true → e = RadioEvent.nothing) ∧
    (s.arrive t).radio = { s.radio.act s.par e with txn := s.txnAt t } := by
  rw [State.arrive_radio, State.txnAt]
  have hsame : ∀ e, s.radio.act s.par e = { s.radio.act s.par e with txn := s.radio.txn } := fun e => by
    rw [← Radio.txn_act s.par e s.radio]
  by_cases hlow : (s.csLow && (s.pinsAt t).csLow) = true
  · obtain ⟨h1, h2⟩ := (Bool.and_eq_true _ _).mp hlow
    exact ⟨.nothing, .inr rfl, fun _ _ => rfl, by simp [h1, h2]⟩
  · refine ⟨t.radio, .inl rfl, fun h1 h2 => absurd (by simp [h1, h2]) hlow, ?_⟩
    rw [if_neg hlow]
    split
    · exact hsame _
    · exact Radio.act_withTxn _ _ _ _

/-- The radio as a frame finds it: after RADIO's own steps, with the transaction of the moment. -/
theorem arrive_drawTick_radio (s : State) (tk : Tick) : ∃ e, (e = tk.radio ∨ e = RadioEvent.nothing) ∧
    (s.csLow = true → (s.pinsAt tk).csLow = true → e = RadioEvent.nothing) ∧
    (s.drawTick.2.arrive tk).radio = { s.radio.act s.par e with txn := s.txnAt tk } := by
  have hnow : s.drawTick.2.csLow = s.csLow := csLow_of_pins (by simp) (by simp) (by simp) (by simp)
  simpa only [hnow, csLow_pinsAt_drawTick, txnAt_drawTick, State.drawTick_radio, State.drawTick_par]
    using exists_act_of_arrive tk s.drawTick.2

theorem arrive_drawTick_txn (s : State) (tk : Tick) : (s.drawTick.2.arrive tk).radio.txn = s.txnAt tk := by
  obtain ⟨e, -, -, hradio⟩ := arrive_drawTick_radio s tk
  rw [hradio]

section
variable {s : State} {tk : Tick} {rest : List Tick} (ht : s.env.ticks = tk :: rest)
include ht

theorem radioStill_head {n : Nat} (h : s.RadioStill (n + 1)) : tk.radio = RadioEvent.nothing := h tk (by simp [ht])

theorem deliver_of_ticks (c : WireCmd) : deliver c s = adapterRun tk c (s.drawTick.2.arrive tk) := by
  rw [deliver, s.drawTick_fst tk rest ht]

/-- A frame that writes no register at the radio. -/
theorem RadioFrame.of_arrive {u : State} (hs : s.Sound)
    (hreg : ∀ a, u.reg a = (s.drawTick.2.arrive tk).reg a) (hfifo : ∀ a, u.fifoAt a = (s.drawTick.2.arrive tk).fifoAt a) :
    RadioFrame 1 [] [] s u := by
  obtain ⟨e, hcase, -, hradio⟩ := arrive_drawTick_radio s tk
  refine .of_act e hs (fun hq => hcase.elim (·.trans (radioStill_head ht hq)) id) (fun a _ => ?_) (fun a _ => ?_)
  · rw [hreg, State.reg, hradio]; rfl
  · rw [hfifo, State.fifoAt, hradio]; rfl

end

/-! ### PIN_SET, PIN_GET, SPEED_CFG (40_wire_commands.md R130, R132, R135) -/

theorem exec_pinSet (out dir : PinMask) (s : State) : exec (.pinSet out dir) s = .next (deliver (.pins out dir) s) := rfl
theorem exec_pinGet (s : State) : exec .pinGet s = .next (deliver .askPins s) := rfl
theorem exec_speedCfg (v : BitVec 3) (s : State) : exec (.speedCfg v) s = .next (deliver (.speed v) s) := rfl

theorem adapterRun_pins_reg (t : Tick) (o d : PinMask) (s : State) (a : RegAddr) :
    (adapterRun t (.pins o d) s).reg a = s.reg a := by
  simp only [adapterRun, adapterPins, State.reg, State.edgeSince]; split <;> rfl

theorem adapterRun_pins_fifoAt (t : Tick) (o d : PinMask) (s : State) (a : Byte) :
    (adapterRun t (.pins o d) s).fifoAt a = s.fifoAt a := by
  simp only [adapterRun, adapterPins, State.fifoAt, State.edgeSince]; split <;> rfl

/-- New pins empty `TXN` exactly where they make an edge of chip-select. -/
theorem adapterRun_pins_txn (t : Tick) (o d : PinMask) (s : State) :
    (adapterRun t (.pins o d) s).radio.txn = if s.csLow = (adapterRun t (.pins o d) s).csLow then s.radio.txn else [] := by
  have hcs : (adapterRun t (.pins o d) s).csLow = ({ s with pinsOut := o, pinsDir := d } : State).csLow :=
    csLow_of_pins (by simp) (by simp) (by simp) (by simp)
  rw [hcs]
  split
  · next h => rw [adapterRun_pins_radio_same t o d s h]
  · next h => rw [adapterRun_pins_radio_edge t o d s h]

/-- Settles O15: the arrival, then the new pins, each with its edge. -/
theorem pinSetEffect : Obligations.PinSetEffect := by
  intro s tk rest out dir hs ht
  have hcs : (s.drawTick.2.arrive tk).csLow = (s.pinsAt tk).csLow :=
    (csLow_arrive tk _).trans (csLow_pinsAt_drawTick tk s)
  refine ⟨_, exec_pinSet out dir s, .deliver _ s, ?_⟩
  rw [deliver_of_ticks ht]
  refine ⟨by simp [s.drawTick_ticks tk rest ht], by simp, by simp, by simp, by simp, ?frame, ?txn⟩
  case frame => exact .of_arrive ht hs (adapterRun_pins_reg _ _ _ _) (adapterRun_pins_fifoAt _ _ _ _)
  case txn => rw [adapterRun_pins_txn, hcs, arrive_drawTick_txn s tk]

/-- The level of one pin: the driven one of an output, the external one of an input. -/
theorem getLsbD_levels (s : State) {i : Nat} (hi : i < 6) :
    s.levels.getLsbD i = if s.pinsDir.getLsbD i then s.pinsOut.getLsbD i else s.pinsExt.getLsbD i := by
  simp only [State.levels, BitVec.getLsbD_or, BitVec.getLsbD_and, BitVec.getLsbD_not, hi, decide_true, Bool.true_and]
  cases s.pinsDir.getLsbD i <;> simp

/-- The six low bits of a pin response are the levels. -/
theorem getLsbD_response (hi : BitVec 2) (m : PinMask) {i : Nat} (h : i < 6) : (hi ++ m : BitVec 8).getLsbD i = m.getLsbD i := by
  rw [BitVec.getLsbD_append, if_pos h]

/-- Settles O16: the response byte is built from the levels of the moment; neither command writes anything else. -/
theorem pinGetAndSpeedEffect : Obligations.PinGetAndSpeedEffect := by
  intro s tk rest hs ht
  refine ⟨⟨_, tk.echo.extractLsb' 6 2 ++ (s.pinsAt tk).levels, exec_pinGet s, .deliver _ s, ?_⟩,
    fun v => ⟨_, exec_speedCfg v s, .deliver _ s, ?_⟩⟩
  · rw [deliver_of_ticks ht]
    have hlevels : (s.drawTick.2.arrive tk).levels = (s.pinsAt tk).levels := by simp [State.levels]
    refine ⟨by simp [s.drawTick_ticks tk rest ht], by simp, by simp, by simp, by simp [hlevels], ?txn, ?frame, fun p => ?level⟩
    case txn => rw [adapterRun_askPins_radio, arrive_drawTick_txn s tk]
    case frame => exact .of_arrive ht hs (fun _ => rfl) (fun _ => rfl)
    case level => rw [getLsbD_response _ _ p.isLt, getLsbD_levels _ p.isLt]; rfl
  · rw [deliver_of_ticks ht, adapterRun_speed]
    exact ⟨by simp [s.drawTick_ticks tk rest ht], by simp, by simp, by simp, by simp, arrive_drawTick_txn s tk,
      .of_arrive ht hs (fun _ => rfl) (fun _ => rfl)⟩

/-! ### One register access at the radio, by class (40_wire_commands.md R138, R139) -/

theorem regClass_eq_window_iff (p : Params) (a : RegAddr) : regClass p a = .window ↔ a = p.regFifo := by
  unfold regClass
  repeat' split
  all_goals simp_all

/-- The registers and FIFO bytes an access touches: none, or the pointer of the window, or what a write stores. -/
theorem reg_regRead_window {p : Params} {a : RegAddr} {r : Radio} (hw : r.Wf) (h : regClass p a = .window) :
    (r.regRead p a).1 = r.fifoByte (r.reg p.regFifoAddrPtr) ∧
      (r.regRead p a).2.reg p.regFifoAddrPtr = r.reg p.regFifoAddrPtr + 1#8 ∧
      (∀ b, b ≠ p.regFifoAddrPtr → (r.regRead p a).2.reg b = r.reg b) ∧
      (∀ b, (r.regRead p a).2.fifoByte b = r.fifoByte b) := by
  rw [Radio.regRead_window _ _ _ h]
  exact ⟨rfl, Radio.reg_setReg_same _ _ _ hw, fun b hb => Radio.reg_setReg_other _ _ _ _ hb, fun _ => rfl⟩

theorem reg_regWrite_of_ne_window {p : Params} {a : RegAddr} (v j : Byte) {r : Radio} (h : regClass p a ≠ .window) :
    (∀ b, b ≠ a → (r.regWrite p a v j).reg b = r.reg b) ∧ (∀ b, (r.regWrite p a v j).fifoByte b = r.fifoByte b) := by
  unfold Radio.regWrite
  split
  case h_4 hc => exact absurd hc h
  all_goals exact ⟨fun b hb => Radio.reg_setReg_other _ _ _ _ hb, fun _ => rfl⟩

theorem reg_regWrite_plain_or_mode {p : Params} (hp : p.Ok) {a : RegAddr} (v j : Byte) {r : Radio} (hw : r.Wf)
    (h : regClass p a = .plain ∨ a = p.regOpMode) : (r.regWrite p a v j).reg a = v := by
  rcases h with h | rfl
  · rw [Radio.regWrite_plain _ _ _ _ _ h]; exact Radio.reg_setReg_same _ _ _ hw
  · rw [Radio.regWrite_opMode hp]; exact Radio.reg_setReg_same _ _ _ hw

theorem reg_regWrite_flags {p : Params} (hp : p.Ok) (v j : Byte) {r : Radio} (hw : r.Wf) :
    (r.regWrite p p.regIrqFlags v j).reg p.regIrqFlags = r.reg p.regIrqFlags &&& ~~~v := by
  rw [Radio.regWrite_flags hp]; exact Radio.reg_setReg_same _ _ _ hw

theorem reg_regWrite_window {p : Params} {a : RegAddr} (v j : Byte) {r : Radio} (hw : r.Wf) (h : regClass p a = .window) :
    (r.regWrite p a v j).fifoByte (r.reg p.regFifoAddrPtr) = v ∧
      (r.regWrite p a v j).reg p.regFifoAddrPtr = r.reg p.regFifoAddrPtr + 1#8 ∧
      (∀ b, b ≠ p.regFifoAddrPtr → (r.regWrite p a v j).reg b = r.reg b) ∧
      (∀ b, b ≠ r.reg p.regFifoAddrPtr → (r.regWrite p a v j).fifoByte b = r.fifoByte b) := by
  obtain rfl := (regClass_eq_window_iff p a).mp h
  rw [Radio.regWrite_window]
  exact ⟨Radio.fifoByte_setFifo_same _ _ _ hw, Radio.reg_setReg_same _ _ _ (hw.setFifo _ _),
    fun b hb => Radio.reg_setReg_other _ _ _ _ hb, fun b hb => Radio.fifoByte_setFifo_other _ _ _ _ hb⟩

/-! ### CLK_BYTE (40_wire_commands.md R134) -/

/-- Settles O17: with chip-select high the adapter answers alone; with it low the byte is the next of the transaction, and in a
transaction that has begun RADIO has made no steps of its own. -/
theorem clkByteEffect : Obligations.ClkByteEffect := by
  intro s tk rest d hs ht
  obtain ⟨v, hv⟩ : ∃ v, v = s.drawTick.2.arrive tk := ⟨_, rfl⟩
  have hpar : v.par = s.par := by rw [hv]; simp
  have hq : v.inQ = s.inQ := by rw [hv]; simp
  have htxn : v.radio.txn = s.txnAt tk := by rw [hv]; exact arrive_drawTick_txn s tk
  have hcs : v.csLow = (s.pinsAt tk).csLow := by rw [hv]; exact (csLow_arrive tk _).trans (csLow_pinsAt_drawTick tk s)
  have hframe : ∀ {u : State}, (∀ a, u.reg a = v.reg a) → (∀ a, u.fifoAt a = v.fifoAt a) → RadioFrame 1 [] [] s u := by
    rw [hv]; exact fun h1 h2 => .of_arrive ht hs h1 h2
  obtain ⟨t, htd⟩ : ∃ t, t = deliver (.clock d) s := ⟨_, rfl⟩
  have htv : t = adapterRun tk (.clock d) v := by rw [htd, hv, deliver_of_ticks ht]
  have hshape : t.env.ticks = rest ∧ t.pinsExt = tk.ext ∧ t.pinsOut = s.pinsOut ∧ t.pinsDir = s.pinsDir := by
    rw [htv, hv]; simp [s.drawTick_ticks tk rest ht]
  obtain ⟨hticks, hext, hout, hdir⟩ := hshape
  have hbridge : BridgeUntouched s t := by rw [htd]; exact .deliver _ s
  cases hlow : (s.pinsAt tk).csLow with
  | false =>
    obtain ⟨hradio, hecho⟩ := adapterRun_clock_high tk d v (hcs.trans hlow)
    rw [← htv] at hradio hecho
    refine ⟨t, tk.echo, by rw [htd]; rfl, hbridge, hticks, hext, hout, hdir, by rw [hecho, hq], fun _ => ?_, fun h => nomatch h⟩
    exact ⟨by rw [hradio, htxn], hframe (fun a => by rw [State.reg, hradio]; rfl) (fun a => by rw [State.fifoAt, hradio]; rfl)⟩
  | true =>
    obtain ⟨hradio, hecho⟩ := adapterRun_clock_low tk d v (hcs.trans hlow)
    rw [← htv, hpar] at hradio hecho
    refine ⟨t, _, by rw [htd]; rfl, hbridge, hticks, hext, hout, hdir, by rw [hecho, hq], fun h => (nomatch h), fun _ => ?_⟩
    refine ⟨by rw [hradio, Radio.txn_clock, htxn], fun hnil => ?first, fun a ha hbit => ?read, fun a ha hbit => ?write⟩
    case first =>
      rw [Radio.clock_first _ _ _ _ (htxn.trans hnil)] at hradio
      exact hframe (fun a => by rw [State.reg, hradio]; rfl) (fun a => by rw [State.fifoAt, hradio]; rfl)
    all_goals
      have hsame : v.radio = s.radio := by
        obtain ⟨e, -, hnone, he⟩ := arrive_drawTick_radio s tk
        have hnow : s.csLow = true := (csLow_of_txnAt_ne_nil (by rw [ha]; exact List.cons_ne_nil _ _)).trans hlow
        rw [hv, he, hnone hnow hlow, Radio.act_nothing]
        rw [State.txnAt, if_pos (hnow.trans hlow.symm)]
      rw [hsame] at htxn hradio
    case read =>
      rw [Radio.clock_read _ _ a _ _ (htxn.trans ha) hbit] at hradio
      rw [hsame, Radio.clock_read _ _ a _ _ (htxn.trans ha) hbit]
      refine ⟨fun hc => ?_, fun hc => ?_⟩
      · rw [Radio.regRead_val _ _ _ hc] at hradio ⊢
        exact ⟨rfl, .of_act .nothing hs (fun _ => rfl) (fun b _ => by rw [State.reg, hradio]; rfl)
          (fun b _ => by rw [State.fifoAt, hradio]; rfl)⟩
      · obtain ⟨hval, hptr, hregs, hfifo⟩ := reg_regRead_window hs.radioWf hc
        exact ⟨hval, by rw [State.reg, hradio]; exact hptr, .of_act .nothing hs (fun _ => rfl)
          (fun b hb => by rw [State.reg, hradio]; exact hregs b (by simpa using hb))
          (fun b _ => by rw [State.fifoAt, hradio]; exact hfifo b)⟩
    case write =>
      rw [Radio.clock_write _ _ a _ _ (htxn.trans ha) hbit] at hradio
      refine ⟨fun hc => ?_, fun hc => ?_, fun hc => ?_, fun hc => ?_⟩
      · obtain ⟨hregs, hfifo⟩ := reg_regWrite_of_ne_window d tk.junk (r := s.radio) hc
        exact .of_act .nothing hs (fun _ => rfl) (fun b hb => by rw [State.reg, hradio]; exact hregs b (by simpa using hb))
          (fun b _ => by rw [State.fifoAt, hradio]; exact hfifo b)
      · rw [State.reg, hradio]; exact reg_regWrite_plain_or_mode hs.params d _ hs.radioWf hc
      · rw [State.reg, hradio, hc]; exact reg_regWrite_flags hs.params d _ hs.radioWf
      · obtain ⟨hstored, hptr, hregs, hfifo⟩ := reg_regWrite_window d tk.junk hs.radioWf hc
        exact ⟨by rw [State.fifoAt, hradio]; exact hstored, by rw [State.reg, hradio]; exact hptr,
          .of_act .nothing hs (fun _ => rfl) (fun b hb => by rw [State.reg, hradio]; exact hregs b (by simpa using hb))
            (fun b hb => by rw [State.fifoAt, hradio]; exact hfifo b fun e => hb (List.mem_singleton.mpr e))⟩

/-! ### One serial transaction (40_wire_commands.md R136, R138, R139) -/

/-- What the bytes of a serial transaction leave of everything but the radio and the environment. -/
structure Clocked (s t : State) : Prop extends BridgeUntouched s t where
  pinsOut : t.pinsOut = s.pinsOut
  pinsDir : t.pinsDir = s.pinsDir
  inQ : t.inQ = s.inQ

theorem Clocked.trans {s t u : State} (h : Clocked s t) (k : Clocked t u) : Clocked s u :=
  ⟨h.toBridgeUntouched.trans k.toBridgeUntouched, k.pinsOut.trans h.pinsOut, k.pinsDir.trans h.pinsDir, k.inQ.trans h.inQ⟩

theorem Clocked.withRadio (s : State) (r : Radio) : Clocked s { s with radio := r } := ⟨.withRadio s r, rfl, rfl, rfl⟩

theorem Clocked.pinsAt_drawTick (t : Tick) (s : State) : Clocked s (s.drawTick.2.pinsAt t) :=
  ⟨(BridgeUntouched.drawTick s).trans (.pinsAt _ _), by simp, by simp, by simp⟩

theorem Clocked.clockBytes (l : List Byte) (s : State) : Clocked s (clockBytes l s).2 := by
  induction l generalizing s with
  | nil => exact ⟨.refl s, rfl, rfl, rfl⟩
  | cons d l ih => exact ((Clocked.pinsAt_drawTick _ s).trans (.withRadio _ _)).trans (ih _)

/-- A serial transaction delivers the bytes clocked back and changes nothing but the far end. -/
theorem serialTransaction_clocked (l : List Byte) (s : State) :
    Clocked s { serialTransaction l s with res := s.res } :=
  have h := (Clocked.withRadio s _).trans (Clocked.clockBytes l s.dropTxn)
  ⟨⟨h.toSameSession.congr rfl rfl, h.seq, h.buf, rfl, h.trace, h.opFault⟩, h.pinsOut, h.pinsDir, h.inQ⟩

theorem serialTransaction_radio (l : List Byte) (s : State) :
    (serialTransaction l s).radio = { (clockBytes l s.dropTxn).2.radio with txn := [] } := rfl

theorem serialTransaction_res (l : List Byte) (s : State) :
    (serialTransaction l s).res = some (.bytes (clockBytes l s.dropTxn).1) := rfl

/-- The first byte of a serial transaction: RADIO's own steps fall before it. -/
theorem clockBytes_first {s : State} {tk : Tick} {rest : List Tick} (ht : s.env.ticks = tk :: rest) (h : s.radio.txn = [])
    (d : Byte) (l : List Byte) : ∃ u, (clockBytes (d :: l) s) = (tk.echo :: (clockBytes l u).1, (clockBytes l u).2) ∧
      u.radio = { s.radio.act s.par tk.radio with txn := [d] } ∧ u.env.ticks = rest ∧ u.par = s.par ∧ u.pinsExt = tk.ext := by
  refine ⟨{ s.drawTick.2.pinsAt tk with radio := { s.radio.act s.par tk.radio with txn := [d] } }, ?_, rfl,
    s.drawTick_ticks tk rest ht, s.drawTick_par, rfl⟩
  simp only [clockBytes, s.drawTick_fst tk rest ht, State.pinsAt_radio, State.drawTick_radio, h, if_true, State.pinsAt_par,
    State.drawTick_par, Radio.clock_first _ _ _ _ ((Radio.txn_act s.par tk.radio s.radio).trans h)]

/-- Its second byte: RADIO has no steps of its own while chip-select is low. -/
theorem clockBytes_second {s : State} {tk : Tick} {rest : List Tick} (ht : s.env.ticks = tk :: rest) (h : s.radio.txn ≠ [])
    (d : Byte) : (clockBytes [d] s).1 = [(s.radio.clock s.par tk d).1] ∧
      (clockBytes [d] s).2.radio = (s.radio.clock s.par tk d).2 ∧ (clockBytes [d] s).2.env.ticks = rest ∧
      (clockBytes [d] s).2.pinsExt = tk.ext := by
  simp [clockBytes, s.drawTick_fst tk rest ht, h, s.drawTick_ticks tk rest ht]

/-- A serial transaction of two bytes: RADIO's own steps, then both bytes. -/
theorem serialTransaction_two {s : State} {t1 t2 : Tick} {rest : List Tick} (ht : s.env.ticks = t1 :: t2 :: rest) (b d : Byte) :
    let r : Radio := { s.radio.act s.par t1.radio with txn := [b] }
    (serialTransaction [b, d] s).res = some (.bytes [t1.echo, (r.clock s.par t2 d).1]) ∧
      (serialTransaction [b, d] s).radio = { (r.clock s.par t2 d).2 with txn := [] } ∧
      (serialTransaction [b, d] s).env.ticks = rest ∧ (serialTransaction [b, d] s).pinsExt = t2.ext := by
  intro r
  obtain ⟨u, hfirst, hradio, hticks, hpar, -⟩ := clockBytes_first (s := s.dropTxn) ht rfl b [d]
  have hr : u.radio = r := by
    rw [hradio, State.dropTxn_radio, State.dropTxn_par, Radio.act_withTxn]
  obtain ⟨hecho, hafter, hleft, hext⟩ := clockBytes_second hticks (by rw [hradio]; exact List.cons_ne_nil _ _) d
  rw [hr, hpar, State.dropTxn_par] at hecho hafter
  refine ⟨?_, ?_, ?_, ?_⟩
  · rw [serialTransaction_res, hfirst, hecho]
  · rw [serialTransaction_radio, hfirst, hafter]
  · exact (by rw [hfirst] : (clockBytes [b, d] s.dropTxn).2.env.ticks = (clockBytes [d] u).2.env.ticks).trans hleft
  · exact (by rw [hfirst] : (clockBytes [b, d] s.dropTxn).2.pinsExt = (clockBytes [d] u).2.pinsExt).trans hext

theorem exec_regRead (a : RegAddr) (s : State) :
    exec (.regRead a) s = .next (serialTransaction [readAddrByte (a.setWidth 8), Config.dummy] s) := rfl

theorem exec_regWrite (a : RegAddr) (v : Byte) (s : State) :
    exec (.regWrite a v) s = .next (serialTransaction [writeAddrByte (a.setWidth 8), v] s) := rfl

/-- Settles O18: `RegRead` of the radio as RADIO's own steps have left it. -/
theorem regReadEffect : Obligations.RegReadEffect := by
  intro s t1 t2 rest a hs ht
  obtain ⟨hbit, haddr, -, -⟩ := addrByte_bits a
  have hact := hs.radioWf.act s.par t1.radio
  have hstill : s.RadioStill 1 → t1.radio = .nothing := radioStill_head ht
  have hptr : (s.radio.act s.par t1.radio).reg s.par.regFifoAddrPtr = s.reg s.par.regFifoAddrPtr :=
    Radio.reg_act_plain _ _ _ _ (class_fifoAddrPtr hs.params)
  obtain ⟨hres, hradio, hticks, hext⟩ := serialTransaction_two ht (readAddrByte (a.setWidth 8)) Config.dummy
  have hclock := serialTransaction_clocked [readAddrByte (a.setWidth 8), Config.dummy] s
  rw [Radio.clock_read _ _ _ _ _ rfl hbit, haddr, Radio.withTxn_regRead] at hres hradio
  refine ⟨_, _, _, exec_regRead a s, hclock.toSameSession.congr rfl rfl, hclock.seq, hclock.buf, hclock.trace, hticks, hext, hclock.pinsOut,
    hclock.pinsDir, hclock.inQ, hres, rfl, fun hc => ?_, fun hc => ?_⟩
  · rw [Radio.regRead_val _ _ _ hc] at hradio ⊢
    exact ⟨by rw [State.reg, hradio]; rfl, .of_act _ hs hstill (fun b _ => by rw [State.reg, hradio]; rfl)
      (fun b _ => by rw [State.fifoAt, hradio]; rfl)⟩
  · obtain ⟨hval, hnext, hregs, hfifo⟩ := reg_regRead_window hact hc
    rw [hptr] at hval hnext
    refine ⟨?_, by rw [State.reg, hradio]; exact hnext, .of_act _ hs hstill
      (fun b hb => by rw [State.reg, hradio]; exact hregs b (by simpa using hb))
      (fun b _ => by rw [State.fifoAt, hradio]; exact hfifo b)⟩
    rw [hval, State.fifoAt, hradio]; exact (hfifo _).symm

/-- Settles O19: `RegWrite` of the radio as RADIO's own steps have left it. -/
theorem regWriteEffect : Obligations.RegWriteEffect := by
  intro s t1 t2 rest a v hs ht
  obtain ⟨-, -, hbit, haddr⟩ := addrByte_bits a
  have hact := hs.radioWf.act s.par t1.radio
  have hstill : s.RadioStill 1 → t1.radio = .nothing := radioStill_head ht
  have hptr : (s.radio.act s.par t1.radio).reg s.par.regFifoAddrPtr = s.reg s.par.regFifoAddrPtr :=
    Radio.reg_act_plain _ _ _ _ (class_fifoAddrPtr hs.params)
  obtain ⟨hres, hradio, hticks, hext⟩ := serialTransaction_two ht (writeAddrByte (a.setWidth 8)) v
  have hclock := serialTransaction_clocked [writeAddrByte (a.setWidth 8), v] s
  rw [Radio.clock_write _ _ _ _ _ rfl hbit, haddr, Radio.withTxn_regWrite] at hres hradio
  refine ⟨_, _, _, exec_regWrite a v s, hclock.toSameSession.congr rfl rfl, hclock.seq, hclock.buf, hclock.trace, hticks, hext, hclock.pinsOut,
    hclock.pinsDir, hclock.inQ, hres, rfl, fun hc => ?_, fun hc => ?_, fun hc hquiet => ?_, fun hc => ?_⟩
  · obtain ⟨hregs, hfifo⟩ := reg_regWrite_of_ne_window v t2.junk (r := s.radio.act s.par t1.radio) hc
    exact .of_act _ hs hstill (fun b hb => by rw [State.reg, hradio]; exact hregs b (by simpa using hb))
      (fun b _ => by rw [State.fifoAt, hradio]; exact hfifo b)
  · rw [State.reg, hradio]; exact reg_regWrite_plain_or_mode hs.params v _ hact hc
  · rw [hquiet, Radio.act_nothing] at hradio
    rw [State.reg, hradio, hc]; exact reg_regWrite_flags hs.params v _ hs.radioWf
  · obtain ⟨hstored, hnext, hregs, hfifo⟩ := reg_regWrite_window v t2.junk hact hc
    rw [hptr] at hstored hnext hfifo
    exact ⟨by rw [State.fifoAt, hradio]; exact hstored, by rw [State.reg, hradio]; exact hnext, .of_act _ hs hstill
      (fun b hb => by rw [State.reg, hradio]; exact hregs b (by simpa using hb))
      (fun b hb => by rw [State.fifoAt, hradio]; exact hfifo b (by simpa using hb))⟩

/-! ### Byte lists that are no instruction -/

theorem decodeSerial_long {bs : List Byte} (h : 2 < bs.length) : decodeSerial bs = .error .serialShape := by
  match bs, h with
  | _ :: _ :: _ :: _, _ => rfl

theorem decodeSerial_short {bs : List Byte} (h : bs.length ≤ 1) : decodeSerial bs = .error (.noAccess bs) := by
  match bs, h with
  | [], _ => rfl
  | [_], _ => rfl

/-- A transaction that ends before its data byte lets RADIO act, and accesses nothing. -/
theorem serialTransaction_short {s : State} {bs : List Byte} (hs : s.Sound) (hlen : bs.length ≤ 1)
    (hgiven : bs.length ≤ s.env.ticks.length) : RadioFrame bs.length [] [] s (serialTransaction bs s) := by
  match bs, hlen with
  | [], _ => exact .of_act .nothing hs (fun _ => rfl) (fun _ _ => rfl) (fun _ _ => rfl)
  | [d], _ =>
    match ht : s.env.ticks, hgiven with
    | tk :: rest, _ =>
      obtain ⟨u, hfirst, hradio, -, -, -⟩ := clockBytes_first (s := s.dropTxn) ht rfl d []
      have hr : (serialTransaction [d] s).radio = { s.radio.act s.par tk.radio with txn := [] } := by
        rw [serialTransaction_radio, hfirst]
        simp only [clockBytes, hradio, State.dropTxn_radio, State.dropTxn_par, Radio.act_withTxn]
      exact .of_act tk.radio hs (radioStill_head ht) (fun b _ => by rw [State.reg, hr]; rfl)
        (fun b _ => by rw [State.fifoAt, hr]; rfl)

/-- Settles O6: the three answers of `rejected` that name U1, U9 and R136. -/
theorem unencodedRefused : Obligations.UnencodedRefused := by
  intro s bs rest
  refine ⟨fun hno hinbox => ?_, fun hlong hinbox => ?_, fun hshort hgiven hs hinbox => ?_⟩
  · exact step_of_decodeRequest_error s _ rest _ hinbox (decodeWire_of_unencoded hno)
  · exact step_of_decodeRequest_error s _ rest _ hinbox (decodeSerial_long hlong)
  · have hclock := serialTransaction_clocked bs (s.taken rest)
    have hframe := serialTransaction_short (s := s.taken rest) ⟨hs.params, hs.regsWf, hs.fifoWf⟩ hshort hgiven
    refine ⟨_, step_of_decodeRequest_error s _ rest _ hinbox (decodeSerial_short hshort), ?_, hclock.inbox, hclock.trace,
      hclock.pinsOut, hclock.pinsDir, hclock.inQ, rfl, ⟨hframe.plain, hframe.latched, hframe.regs, hframe.fifo⟩⟩
    exact ⟨hclock.par, hclock.isOpen, hclock.handle, hclock.dir, hclock.out, hclock.lsbFirst, hclock.irqCfg, hclock.cbSet,
      hclock.irqEn, hclock.lastLevel, hclock.lastCause, hclock.busFault, hclock.pseq, rfl⟩

end Sys2Proof.Machine
end

section
/-! SUPPORT. The step (10_state.md R20, R22): which instruction runs and what falls before it; POLL_STEP as POLLER's single steps. -/

namespace Sys2Proof.Machine

/-! ### POLLER's steps, counted -/

theorem pollSteps_add (m n : Nat) (s : State) : pollSteps (m + n) s = pollSteps n (pollSteps m s) := by
  induction m generalizing s with
  | zero => rw [Nat.zero_add]; rfl
  | succ m ih => rw [Nat.succ_add]; exact ih _

/-- `t` is reached from `s` by single steps of POLLER. -/
def PolledTo (s t : State) : Prop := ∃ n, t = pollSteps n s

theorem PolledTo.refl (s : State) : PolledTo s s := ⟨0, rfl⟩

theorem PolledTo.one (s : State) : PolledTo s (pollMicro s) := ⟨1, rfl⟩

theorem PolledTo.trans {s t u : State} (h : PolledTo s t) (k : PolledTo t u) : PolledTo s u := by
  obtain ⟨m, rfl⟩ := h
  obtain ⟨n, rfl⟩ := k
  exact ⟨m + n, (pollSteps_add m n s).symm⟩

theorem PolledTo.finishCallback (n : Nat) (s : State) : PolledTo s (finishCallback n s) := by
  induction n generalizing s with
  | zero => exact .refl s
  | succ n ih =>
    unfold Machine.finishCallback
    split
    · exact (PolledTo.one s).trans (ih _)
    all_goals exact .refl s

/-- The join is a number of POLLER's steps, by where POLLER stands. -/
theorem PolledTo.joinPoller (s : State) : PolledTo s (joinPoller s) := by
  have hstore : ∀ (s : State) (l : PinLevel), s.pseq = .store l → PolledTo s (Machine.joinPoller s) := fun s l h => by
    rw [joinPoller_store s l h]; exact .one s
  have hcallback : ∀ (s : State) (c : Callback), s.pseq = .callback c → PolledTo s (Machine.joinPoller s) := fun s c h => by
    rw [joinPoller_callback s c h]; exact (PolledTo.finishCallback _ s).trans (.one _)
  have htest : ∀ (s : State) (b : Bool), s.pseq = .test b → PolledTo s (Machine.joinPoller s) := fun s b h => by
    rw [joinPoller_test s b h]
    refine (PolledTo.one s).trans ?_
    rcases pollMicro_test s b h with ⟨c, e⟩ | ⟨l, e⟩
    · exact hcallback _ c e
    · exact hstore _ l e
  cases h : s.pseq with
  | idle => rw [joinPoller_idle s h]; exact .refl s
  | takeResponse =>
    obtain ⟨b, e⟩ := pollMicro_takeResponse s h
    rw [joinPoller_takeResponse s h]
    exact (PolledTo.one s).trans (htest _ b e)
  | test b => exact htest s b h
  | callback c => exact hcallback s c h
  | store l => exact hstore s l h

theorem PolledTo.pollStepRun (s : State) : PolledTo s (pollStepRun s) := by
  unfold Machine.pollStepRun
  split
  · exact (PolledTo.one s).trans (.joinPoller _)
  · exact .joinPoller s

/-! ### What runs, and after what -/

theorem exec_pollStep (s : State) : exec .pollStep s = .next (pollStepRun s) := rfl

theorem step_of_decodeRequest_ok {s : State} {r : Request} {rest : List Request} {i : Instr} (hinbox : s.inbox = r :: rest)
    (hdecode : s.decodeRequest r = .ok i) : step s = exec i (beforeStart i (s.taken rest)) := by
  simp only [step, hinbox, hdecode]

theorem step_of_inbox_nil {s : State} (h : s.inbox = []) : step s = .next (pollMicro s) := by
  simp only [step, h]

/-- POLLER's steps fall before operations of FG only. -/
theorem beforeStart_of_level {i : Instr} (h : i.level ≠ .operation) (s : State) : beforeStart i s = s := if_neg h

theorem pollGap_of_gaps {s : State} (h : s.irqEn = true ∨ s.pseq ≠ .idle) {n : Nat} {more : List Nat}
    (hgaps : s.env.gaps = n :: more) :
    pollGap s = pollSteps n { s with env := { s.env with gaps := more, drawn := s.env.drawn + 1 } } := by
  have hruns : s.pollerRuns = true := by simpa [State.pollerRuns] using h
  simp only [pollGap, hruns, if_true, State.drawGap, hgaps]

/-- Settles O7, clause by clause. -/
theorem stepRunsArrival : Obligations.StepRunsArrival := by
  refine ⟨fun s r rest i hinbox hdecode => ?arrival, fun s nbits w i hdecode => ?word, fun i s h => ?alone,
    fun i s n more h hlevel hgaps => ?gap, fun s => step_of_inbox_nil, fun s hinbox hoff => ?still, fun s => ?poll⟩
  case arrival => exact step_of_decodeRequest_ok hinbox hdecode
  case word => exact step_of_decodeRequest_ok (s := s.withFetchWord nbits w) rfl hdecode
  case alone =>
    rcases h with hoff | hlevel
    · exact beforeStart_loopOff i hoff
    · exact beforeStart_of_level hlevel s
  case gap => rw [beforeStart, if_pos hlevel]; exact pollGap_of_gaps h hgaps
  case still => rw [step_of_inbox_nil hinbox, pollMicro_loopOff s hoff]
  case poll =>
    obtain ⟨n, hn⟩ := PolledTo.pollStepRun s
    exact ⟨n, by rw [exec_pollStep, hn]⟩

/-- Settles O9: each conjunct is read off the literal `State.reset`. -/
theorem resetInv : Obligations.ResetInv :=
  ⟨⟨rfl, rfl, ⟨fun h => (nomatch h), fun h => (nomatch h)⟩, fun h => (nomatch h), fun _ => ⟨rfl, rfl⟩, fun _ => ⟨rfl, rfl, rfl⟩, rfl, rfl⟩,
    ⟨rfl, rfl⟩, rfl, rfl, rfl⟩

end Sys2Proof.Machine
end

section
/-! SUPPORT. What each instruction can change of the session, whatever the environment answers: the operations that touch neither the
session's opening nor the loop, then the five that do. -/

namespace Sys2Proof.Machine

/-! ### Operations that keep the session and the loop -/

/-- The operations that open or close the session, or write a register of the polling loop. -/
def Instr.steersSession : Instr → Bool
  | .openSession | .closeSession | .configureInterrupt _ _ | .setInterruptCallback _ | .enableInterrupt _ => true
  | _ => false

theorem runOp_res (op : Byte) (body : State → Result × State) (s : State) :
    (runOp op body s).res = some (body (s.enter op)).1 := rfl

/-- Every other operation is contained: it keeps the session and the loop, and sends nothing on a closed session. -/
theorem exec_contained (i : Instr) (s : State) (hlevel : i.level = .operation) (hsteer : Instr.steersSession i = false) :
    ∃ t, exec i s = .next t ∧ Contained s t ∧ t.seq = Seq.idle ∧ t.buf = none := by
  cases i with
  | pinSet | pinGet | clkByte | speedCfg | regRead | regWrite | pollStep => exact Level.noConfusion hlevel
  | openSession | closeSession | configureInterrupt | setInterruptCallback | enableInterrupt => exact Bool.noConfusion hsteer
  | transfer w n => exact ⟨_, rfl, .runOp _ _ s (.transferBytes w n _), rfl, rfl⟩
  | digitalWrite pin v => exact ⟨_, rfl, .runOp _ _ s (.digitalWriteOp pin v _), rfl, rfl⟩
  | digitalRead pin => exact ⟨_, rfl, .runOp _ _ s (.digitalReadOp pin _), rfl, rfl⟩
  | pinMode pin m => exact ⟨_, rfl, .runOp _ _ s (.pinModeOp pin m _), rfl, rfl⟩
  | isActive => exact ⟨_, rfl, .runOp _ _ s (.refl _), rfl, rfl⟩
  | readRegister a => exact ⟨_, rfl, .runOp _ _ s (.readAt a _), rfl, rfl⟩
  | writeRegister a v => exact ⟨_, rfl, .runOp _ _ s (.writeAt a v _), rfl, rfl⟩
  | setMode m => exact ⟨_, rfl, .runOp _ _ s (.putMode _ m _), rfl, rfl⟩
  | getMode | getIrqFlags | getBandwidth | getSpreadingFactor | getCodingRate | getTxPower | getRssi | getSnr | getSyncWord =>
    exact ⟨_, rfl, .runOp _ _ s (.readReg _ _ _), rfl, rfl⟩
  | clearIrqFlags => exact ⟨_, rfl, .runOp _ _ s (.clearFlags _ _), rfl, rfl⟩
  | setFrequency f => exact ⟨_, rfl, .runOp _ _ s (.setFrequencyOp f _), rfl, rfl⟩
  | getFrequency => exact ⟨_, rfl, .runOp _ _ s (.getFrequencyOp _), rfl, rfl⟩
  | setBandwidth | setCodingRate => exact ⟨_, rfl, .runOp _ _ s (.rmw _ _ _ _ _), rfl, rfl⟩
  | setSpreadingFactor sf => exact ⟨_, rfl, .runOp _ _ s (.setSpreadingFactorOp sf _), rfl, rfl⟩
  | setTxPower | setSyncWord => exact ⟨_, rfl, .runOp _ _ s (.writeReg _ _ _ _), rfl, rfl⟩
  | setPreambleLength v => exact ⟨_, rfl, .runOp _ _ s (.setPreambleLengthOp v _), rfl, rfl⟩
  | getPreambleLength => exact ⟨_, rfl, .runOp _ _ s (.getPreambleLengthOp _), rfl, rfl⟩
  | setInvertIQ inv => exact ⟨_, rfl, .runOp _ _ s (.setIQ _ inv _), rfl, rfl⟩
  | send data inv => exact ⟨_, rfl, .runOp _ _ s (.sendOp data inv _), rfl, rfl⟩
  | receive t inv => exact ⟨_, rfl, .runOp _ _ s (.receiveOp t inv _), rfl, rfl⟩
  | startBeacon ms => exact ⟨_, rfl, .runOp _ _ s (.startBeaconOp ms _), rfl, rfl⟩
  | stopBeacon => exact ⟨_, rfl, .runOp _ _ s (.putMode _ _ _), rfl, rfl⟩
  | readTemperature => exact ⟨_, rfl, .runOp _ _ s (.readTemperatureOp _), rfl, rfl⟩
  | calibrateTemperature o => exact ⟨_, rfl, .runOp _ _ s (.calibrateTemperatureOp o _), rfl, rfl⟩

/-! ### Instructions presented at the far end -/

theorem clockBytes_wf (l : List Byte) (s : State) (h : s.radio.Wf) : (clockBytes l s).2.radio.Wf := by
  induction l generalizing s with
  | nil => exact h
  | cons d l ih =>
    refine ih _ (Radio.Wf.clock ?_ _ _ d)
    rw [State.pinsAt_radio, State.drawTick_radio]
    split
    · exact h.act _ _
    · exact h

theorem serialTransaction_wf (l : List Byte) (s : State) (h : s.radio.Wf) : (serialTransaction l s).radio.Wf :=
  (clockBytes_wf l s.dropTxn (h.withTxn [])).withTxn []

/-- A wire command or a serial transaction keeps every register of the session, `SEQ`, the buffers and the trace. -/
theorem exec_farEnd (i : Instr) (s : State) (hlevel : i.level = .wire ∨ i.level = .serial) :
    ∃ t, exec i s = .next t ∧ SameSession s t ∧ t.seq = s.seq ∧ t.buf = s.buf ∧ t.trace = s.trace ∧ (s.radio.Wf → t.radio.Wf) := by
  have hwire : ∀ c, ∃ t, Host.Outcome.next (φ := Fault) (ρ := Refusal) (deliver c s) = .next t ∧ SameSession s t ∧ t.seq = s.seq ∧
      t.buf = s.buf ∧ t.trace = s.trace ∧ (s.radio.Wf → t.radio.Wf) := fun c =>
    have h := BridgeUntouched.deliver c s
    ⟨_, rfl, h.toSameSession, h.seq, h.buf, h.trace, (Beside.deliver c s).wf⟩
  have hserial : ∀ l, ∃ t, Host.Outcome.next (φ := Fault) (ρ := Refusal) (serialTransaction l s) = .next t ∧ SameSession s t ∧
      t.seq = s.seq ∧ t.buf = s.buf ∧ t.trace = s.trace ∧ (s.radio.Wf → t.radio.Wf) := fun l =>
    have h := serialTransaction_clocked l s
    ⟨_, rfl, h.toSameSession.congr rfl rfl, h.seq, h.buf, h.trace, serialTransaction_wf l s⟩
  cases i with
  | pinSet out dir => exact hwire (.pins out dir)
  | pinGet => exact hwire .askPins
  | clkByte d => exact hwire (.clock d)
  | speedCfg v => exact hwire (.speed v)
  | regRead a => exact hserial _
  | regWrite a v => exact hserial _
  | _ => exact absurd hlevel (by simp [Instr.level])

/-! ### Operations that write a register of the loop -/

/-- What `configureInterrupt`, `setInterruptCallback` and the start of the loop leave: `Contained`, but for the register each writes. -/
structure Steered (s t : State) : Prop extends Steady s t where
  idle : s.LoopOff → t.pseq = .idle ∧ (t.irqEn = false → t.lastLevel = s.lastLevel)
  own : s.LoopOff → ∃ new, t.trace = new ++ s.trace ∧ ∀ e ∈ new, e.byPoller = false
  closed : s.isOpen = false → NothingSent s { t with cbSet := s.cbSet }

/-- An event list that is as before has no new event of POLLER's. -/
theorem own_of_trace_eq {s t : State} (h : t.trace = s.trace) : ∃ new, t.trace = new ++ s.trace ∧ ∀ e ∈ new, e.byPoller = false :=
  ⟨[], h, fun _ he => nomatch he⟩

theorem Contained.steered {s t : State} (h : Contained s t) : Steered s t := by
  refine ⟨h.toSteady, fun hoff => ?_, fun hoff => ?_, fun hc => ?_⟩
  · obtain ⟨hidle, hlevel, -⟩ := h.quiet hoff
    exact ⟨hidle.2, fun _ => hlevel⟩
  · obtain ⟨-, -, -, -, hown⟩ := h.quiet hoff
    exact hown
  · have k := h.closed hc
    exact ⟨k.par, k.isOpen, k.handle, k.dir, k.out, k.lsbFirst, k.irqCfg, rfl, k.irqEn, k.lastLevel, k.busFault, k.pseq,
      k.inbox, k.trace, k.pinsDir, k.pinsOut, k.pinsExt, k.inQ, k.radio⟩

theorem configureChecks_open {pin : Nat} {s : State} (h : configureChecks pin s = none) : s.isOpen = true := by
  simp only [configureChecks] at h; split at h <;> simp_all

/-- A frame of an open session, with `IRQ_CFG` written or not. -/
theorem Calm.steered {s t : State} (hopen : s.isOpen = true) (h : Calm s t) : Steered s t :=
  (Contained.ofOpen hopen h).steered

theorem Steered.withIrqCfg {s t : State} (hopen : s.isOpen = true) (h : Calm s t) :
    Steered s { t with irqCfg := true } := by
  have k := h.steered hopen
  exact ⟨⟨k.par, k.isOpen, k.handle, k.lsbFirst, k.inbox, k.cbSet, k.loop, k.fault,
    fun hn he => ⟨(k.needs hn he).1, rfl, (k.needs hn he).2.2⟩, k.wf⟩, k.idle, k.own, fun hc => by rw [hopen] at hc; cases hc⟩

/-- `unconfigure`, `registerCallback` and `startLoop` touch neither POLLER's position nor the trace. -/
theorem unconfigure_idle (s : State) : (unconfigure s).2.pseq = s.pseq ∧ (unconfigure s).2.lastLevel = s.lastLevel ∧
    (unconfigure s).2.trace = s.trace ∧ (unconfigure s).2.irqEn = s.irqEn ∧ (unconfigure s).2.cbSet = s.cbSet := by
  unfold unconfigure; split <;> exact ⟨rfl, rfl, rfl, rfl, rfl⟩

theorem registerCallback_idle (s : State) : (registerCallback s).2.pseq = s.pseq ∧ (registerCallback s).2.irqEn = s.irqEn ∧
    NothingSent s { (registerCallback s).2 with cbSet := s.cbSet } := by
  unfold registerCallback
  split <;> exact ⟨rfl, rfl, rfl, rfl, rfl, rfl, rfl, rfl, rfl, rfl, rfl, rfl, rfl, rfl, rfl, rfl, rfl, rfl, rfl, rfl, rfl⟩

theorem startLoop_idle (s : State) : (startLoop s).2.pseq = s.pseq ∧ (startLoop s).2.trace = s.trace ∧
    (startLoop s).2.cbSet = s.cbSet ∧ ((startLoop s).2.irqEn = false → (startLoop s).2.lastLevel = s.lastLevel) ∧
    (s.isOpen = false → (startLoop s).2 = s.fail .sessionClosed) := by
  unfold startLoop
  refine ⟨?_, ?_, ?_, ?_, fun h => by simp [h]⟩
  all_goals repeat' split
  all_goals first | exact fun _ => rfl | exact fun h => (nomatch h) | rfl

theorem Steered.configureInterruptOp (pin : Nat) (enable : Bool) (s : State) :
    Steered s (configureInterruptOp pin enable s).2 ∧
      (s.LoopOff → (configureInterruptOp pin enable s).2.irqEn = false ∧ (configureInterruptOp pin enable s).2.cbSet = s.cbSet) := by
  simp only [Machine.configureInterruptOp]
  split
  case h_1 c hc => exact ⟨(Contained.fail s c).steered, fun hoff => ⟨hoff.1, rfl⟩⟩
  case h_2 hc =>
    have hopen := configureChecks_open hc
    cases enable with
    | true =>
      have hcalm := (Contained.atStep s (.main 'I' 2)).toCalm.trans (.setDirection s.par.irqPin.val false _)
      have hkept := fun hoff => (hcalm.quiet hoff)
      simp only [if_true]
      split
      · refine ⟨.withIrqCfg hopen hcalm, fun hoff => ?_⟩
        obtain ⟨hidle, -, -, hset, -⟩ := hcalm.quiet hoff
        exact ⟨hidle.1, hset⟩
      · refine ⟨hcalm.steered hopen, fun hoff => ?_⟩
        obtain ⟨hidle, -, -, hset, -⟩ := hcalm.quiet hoff
        exact ⟨hidle.1, hset⟩
    | false =>
      obtain ⟨hpseq, hlevel, htrace, hen, hset⟩ := unconfigure_idle s
      simp only [Bool.false_eq_true, if_false]
      exact ⟨⟨(Beside.unconfigure s).toSteady, fun hoff => ⟨hpseq.trans hoff.2, fun _ => hlevel⟩, fun _ => own_of_trace_eq htrace,
        fun h => by rw [hopen] at h; cases h⟩, fun hoff => ⟨hen.trans hoff.1, hset⟩⟩

theorem Steered.setInterruptCallbackOp (fn : Nat) (s : State) :
    Steered s (setInterruptCallbackOp fn s).2 ∧ (setInterruptCallbackOp fn s).2.irqEn = s.irqEn := by
  obtain ⟨hpseq, hen, hsent⟩ := registerCallback_idle s
  exact ⟨⟨(Beside.registerCallback s).toSteady, fun hoff => ⟨hpseq.trans hoff.2, fun _ => hsent.lastLevel⟩,
    fun _ => own_of_trace_eq hsent.trace, fun _ => hsent⟩, hen⟩

theorem Steered.startLoop (s : State) : Steered s (startLoop s).2 ∧ (startLoop s).2.cbSet = s.cbSet := by
  obtain ⟨hpseq, htrace, hset, hlevel, hclosed⟩ := startLoop_idle s
  refine ⟨⟨(Beside.startLoop s).toSteady, fun hoff => ⟨hpseq.trans hoff.2, hlevel⟩, fun _ => own_of_trace_eq htrace, fun hc => ?_⟩, hset⟩
  rw [hclosed hc]
  exact ⟨rfl, rfl, rfl, rfl, rfl, rfl, rfl, rfl, rfl, rfl, rfl, rfl, rfl, rfl, rfl, rfl, rfl, rfl, rfl⟩

/-- An operation from its start to its return is steered when its body is. -/
theorem Steered.runOp {op : Byte} {body : State → Result × State} {s : State} (h : Steered (s.enter op) (body (s.enter op)).2) :
    Steered s (runOp op body s) :=
  ⟨⟨h.par, h.isOpen, h.handle, h.lsbFirst, h.inbox, h.cbSet, h.loop, h.fault, h.needs, h.wf⟩, h.idle, h.own, fun hc =>
    have k := h.closed hc
    ⟨k.par, k.isOpen, k.handle, k.dir, k.out, k.lsbFirst, k.irqCfg, rfl, k.irqEn, k.lastLevel, k.busFault, k.pseq, k.inbox,
      k.trace, k.pinsDir, k.pinsOut, k.pinsExt, k.inQ, k.radio⟩⟩

theorem exec_configureInterrupt (pin : Nat) (en : Bool) (s : State) :
    exec (.configureInterrupt pin en) s = .next (runOp 0x06#8 (configureInterruptOp pin en) s) := rfl

theorem exec_setInterruptCallback (fn : Nat) (s : State) :
    exec (.setInterruptCallback fn) s = .next (runOp 0x07#8 (setInterruptCallbackOp fn) s) := rfl

theorem exec_enableInterrupt (en : Bool) (s : State) :
    exec (.enableInterrupt en) s = .next (runOp 0x08#8 (enableInterruptOp en) s) := rfl

theorem enableInterruptOp_true (s : State) : enableInterruptOp true s = (.bool (startLoop s).1, (startLoop s).2) := rfl

theorem enableInterruptOp_false_off {s : State} (h : s.irqEn = false) : enableInterruptOp false s = (.bool true, s) := by
  simp only [enableInterruptOp, h, Bool.false_eq_true, if_false]

theorem enableInterruptOp_false_on {s : State} (h : s.irqEn = true) :
    enableInterruptOp false s = (.bool true, { joinPoller { s with irqEn := false } with lastLevel := .unknown }) := by
  simp only [enableInterruptOp, h, Bool.false_eq_true, if_false, if_true, stopPoller]

/-! ### `close` (41_session_ops.md R155) -/

theorem exec_closeSession (s : State) : exec .closeSession s = .next (runOp 0x01#8 closeOp s) := rfl

theorem closeOp_closed {s : State} (h : s.isOpen = false) : closeOp s = (.unit, s) := by
  simp only [closeOp, h, Bool.false_eq_true, if_false]

theorem closeOp_open {s : State} (h : s.isOpen = true) :
    closeOp s = (.unit, (sendPins ((stopPoller s).closeMasks.atBus (.main 'C' 4))).2.dropHandle) := by
  simp only [closeOp, h, if_true]

/-- The registers of a session that has been closed (10_state.md R52), with what a close keeps. -/
structure ClosedFrom (s t : State) : Prop where
  isOpen : t.isOpen = false
  handle : t.handle = .invalid
  dir : t.dir = 0x00#6
  out : t.out = 0x00#6
  irqCfg : t.irqCfg = false
  irqEn : t.irqEn = false
  lastLevel : t.lastLevel = .unknown
  pseq : t.pseq = .idle
  txn : t.radio.txn = []
  par : t.par = s.par
  lsbFirst : t.lsbFirst = s.lsbFirst
  inbox : t.inbox = s.inbox
  cbSet : s.cbSet = true → t.cbSet = true
  cbSetOff : s.irqEn = false → t.cbSet = s.cbSet
  fault : s.busFault = true → t.busFault = true
  wf : s.radio.Wf → t.radio.Wf

theorem ClosedFrom.closeOp {s : State} (hopen : s.isOpen = true) (hidle : s.irqEn = false → s.pseq = .idle) :
    ClosedFrom s (closeOp s).2 := by
  rw [closeOp_open hopen]
  have hstop := Beside.stopPoller s
  obtain ⟨u, hu⟩ : ∃ u, u = (stopPoller s).closeMasks.atBus (.main 'C' 4) := ⟨_, rfl⟩
  have hoff : u.LoopOff := by rw [hu]; exact ⟨rfl, stopPoller_pseq s hidle⟩
  have hsend := Calm.sendPins u
  obtain ⟨hoff', hlevel, hcfg, hset, -⟩ := hsend.quiet hoff
  obtain ⟨hdir, hout⟩ := bulkOut_masks (.pins u.out u.dir) u hoff
  rw [← hu]
  refine ⟨rfl, rfl, hdir.trans (by rw [hu]; rfl), hout.trans (by rw [hu]; rfl), hcfg.trans (by rw [hu]; rfl), hoff'.1,
    hlevel.trans (by rw [hu]; rfl), hoff'.2, rfl, ?_, ?_, ?_, fun h => ?_, fun h => ?_, fun h => ?_, fun h => ?_⟩
  · rw [State.dropHandle_par, hsend.par, hu]; exact hstop.par
  · rw [State.dropHandle_lsbFirst, hsend.lsbFirst, hu]; exact hstop.lsbFirst
  · rw [State.dropHandle_inbox, hsend.inbox, hu]; exact hstop.inbox
  · exact hset.trans (by rw [hu]; exact hstop.cbSet h)
  · exact hset.trans (by rw [hu]; simp [stopPoller, h])
  · exact hsend.fault (by rw [hu]; exact hstop.fault h)
  · exact (hsend.wf (by rw [hu]; exact hstop.wf h)).withTxn []

/-! ### `open` (41_session_ops.md R151) -/

theorem Calm.openMasks (s : State) : Calm s s.openMasks :=
  ⟨⟨rfl, rfl, rfl, rfl, rfl, id, fun h => ⟨h, rfl⟩, id, id, id⟩, fun h => ⟨h, rfl, rfl, rfl, own_of_trace_eq rfl⟩⟩

/-- Steps O6 to O10: both frames, or the undoing after the first that fails. -/
theorem openBus_cases (s : State) : ∃ v, Calm s.openedProvisionally v ∧
    (openBus s = (.bool true, v.openedWell) ∨ openBus s = (.bool false, openUndo v)) := by
  have hfirst := (Contained.atBus s.openedProvisionally (.main 'O' 7)).toCalm.trans
    (.bulkOut (.speed s.openedProvisionally.par.speedValue) _)
  have hsecond := ((hfirst.trans (.openMasks _)).trans (Contained.atBus _ (.main 'O' 9)).toCalm).trans (.sendPins _)
  simp only [openBus]
  split
  · split
    · exact ⟨_, hsecond, .inl rfl⟩
    · exact ⟨_, hsecond, .inr rfl⟩
  · exact ⟨_, hfirst, .inr rfl⟩

/-- The state in which the environment's answers are tested: its four answers drawn, the search for devices on record. -/
def State.enumerated (s : State) : State := s.drawEnumeration.2.emit (.enumerated s.par.usbVid s.par.usbPid)

theorem openOp_refused {s : State} {c : Cause} (h : s.isOpen = false) (hc : openRefused s.par s.drawEnumeration.1 = some c) :
    openOp s = (.bool false, (s.enumerated.fail c).callbackDoubt) := by
  simp only [openOp, h, Bool.false_eq_true, if_false, State.drawEnumeration_par, State.emit_par, hc, State.enumerated]

theorem openOp_answered {s : State} (h : s.isOpen = false) (hc : openRefused s.par s.drawEnumeration.1 = none) :
    openOp s = openBus s.enumerated := by
  simp only [openOp, h, Bool.false_eq_true, if_false, State.drawEnumeration_par, State.emit_par, hc, State.enumerated]

theorem State.enumerated_masks (s : State) : s.enumerated.dir = s.dir ∧ s.enumerated.out = s.out := by
  simp [State.enumerated]

theorem Calm.enumerated (s : State) : Calm s s.enumerated := by
  rw [State.enumerated, s.drawEnumeration_fields]
  exact ⟨⟨rfl, rfl, rfl, rfl, rfl, id, fun h => ⟨h, rfl⟩, id, id, id⟩,
    fun h => ⟨h, rfl, rfl, rfl, [_], rfl, by simp [Event.byPoller]⟩⟩

/-- What `open` on a closed session ends in: a refusal, an open session, or an undone opening; before the end nothing but FG has acted
on the session. -/
theorem openOp_cases {s : State} (h : s.isOpen = false) :
    (∃ c, openOp s = (.bool false, (s.enumerated.fail c).callbackDoubt)) ∨
    (∃ v, Calm s.enumerated.openedProvisionally v ∧
      (openOp s = (.bool true, v.openedWell) ∨ openOp s = (.bool false, openUndo v))) := by
  cases hc : openRefused s.par s.drawEnumeration.1 with
  | some c => exact .inl ⟨c, openOp_refused h hc⟩
  | none =>
    rw [openOp_answered h hc]
    exact .inr (openBus_cases s.enumerated)

end Sys2Proof.Machine
end

section
/-! SUPPORT. The invariant between operations (10_state.md R52): what keeps it. -/

namespace Sys2Proof.Machine

theorem State.Inv.radioWf {s : State} (h : s.Inv) : s.radio.Wf := ⟨h.regsWf, h.fifoWf⟩

/-- Without a loop POLLER is idle; a loop needs an open session. -/
theorem State.Inv.loopOff {s : State} (h : s.Inv) (hen : s.irqEn = false) : s.LoopOff := ⟨hen, (h.pollerIdle hen).1⟩

theorem State.Inv.loopOff_of_closed {s : State} (h : s.Inv) (hc : s.isOpen = false) : s.LoopOff := by
  cases hen : s.irqEn with
  | false => exact h.loopOff hen
  | true =>
    obtain ⟨hopen, -⟩ := h.pollerNeeds hen
    rw [hc] at hopen; cases hopen

theorem State.Inv.of_sameSession {s t : State} (hs : s.Inv) (h : SameSession s t) (hseq : t.seq = s.seq) (hbuf : t.buf = s.buf)
    (hwf : s.radio.Wf → t.radio.Wf) : t.Inv where
  seqIdle := hseq.trans hs.seqIdle
  noBuffers := hbuf.trans hs.noBuffers
  handleValid := by rw [h.handle, h.isOpen]; exact hs.handleValid
  pollerNeeds := by rw [h.irqEn, h.isOpen, h.irqCfg, h.cbSet]; exact hs.pollerNeeds
  pollerIdle := by rw [h.irqEn, h.pseq, h.lastLevel]; exact hs.pollerIdle
  closedRegs := by rw [h.isOpen, h.dir, h.out, h.irqCfg]; exact hs.closedRegs
  regsWf := (hwf hs.radioWf).1
  fifoWf := (hwf hs.radioWf).2

/-- A state without a loop that meets the rest of the invariant. -/
theorem State.Inv.of_loopOff {t : State} (hseq : t.seq = Seq.idle) (hbuf : t.buf = none) (hhandle : t.handle = .valid ↔ t.isOpen = true)
    (hoff : t.LoopOff) (hlevel : t.lastLevel = .unknown)
    (hclosed : t.isOpen = false → t.dir = 0x00#6 ∧ t.out = 0x00#6 ∧ t.irqCfg = false) (hwf : t.radio.Wf) : t.Inv :=
  ⟨hseq, hbuf, hhandle, fun he => absurd (hoff.1.symm.trans he) (by decide), fun _ => ⟨hoff.2, hlevel⟩, hclosed, hwf.1, hwf.2⟩

/-- POLLER's steps keep the invariant: there are none without a loop, and a loop is never stopped by them. -/
theorem State.Inv.of_poller {s t : State} (hs : s.Inv) (h : Beside s t) (hoff : s.LoopOff → t = s) : t.Inv := by
  cases hen : s.irqEn with
  | false => rw [hoff (hs.loopOff hen)]; exact hs
  | true =>
    obtain ⟨hopen, -⟩ := hs.pollerNeeds hen
    have hloop : t.irqEn = true := (h.loop hen).1
    exact ⟨h.seq.trans hs.seqIdle, h.buf.trans hs.noBuffers, by rw [h.handle, h.isOpen]; exact hs.handleValid, h.needs hs.pollerNeeds,
      fun he => absurd (hloop.symm.trans he) (by decide), fun hc => absurd (hopen.symm.trans (h.isOpen.symm.trans hc)) (by decide), (h.wf hs.radioWf).1,
      (h.wf hs.radioWf).2⟩

/-- A steered operation keeps the invariant: if no loop runs afterwards none ran before, and a closed session was left alone. -/
theorem State.Inv.of_steered {s t : State} (hs : s.Inv) (h : Steered s t) (hseq : t.seq = Seq.idle) (hbuf : t.buf = none) : t.Inv := by
  refine ⟨hseq, hbuf, by rw [h.handle, h.isOpen]; exact hs.handleValid, h.needs hs.pollerNeeds, fun hen => ?_, fun hc => ?_,
    (h.wf hs.radioWf).1, (h.wf hs.radioWf).2⟩
  · have hbefore : s.irqEn = false := by
      by_contra hne
      have := (h.loop (by simpa using hne)).1
      rw [hen] at this; cases this
    obtain ⟨hpseq, hlevel⟩ := h.idle (hs.loopOff hbefore)
    exact ⟨hpseq, (hlevel hen).trans (hs.pollerIdle hbefore).2⟩
  · have hclosed := h.isOpen.symm.trans hc
    have k := h.closed hclosed
    obtain ⟨hdir, hout, hcfg⟩ := hs.closedRegs hclosed
    exact ⟨k.dir.trans hdir, k.out.trans hout, k.irqCfg.trans hcfg⟩

/-- `close` on an open session leaves the registers of a closed one. -/
theorem State.Inv.of_closedFrom {s t : State} (hs : s.Inv) (h : ClosedFrom s t) (hseq : t.seq = Seq.idle) (hbuf : t.buf = none) :
    t.Inv where
  seqIdle := hseq
  noBuffers := hbuf
  handleValid := by simp [h.handle, h.isOpen]
  pollerNeeds := fun he => by rw [h.irqEn] at he; cases he
  pollerIdle := fun _ => ⟨h.pseq, h.lastLevel⟩
  closedRegs := fun _ => ⟨h.dir, h.out, h.irqCfg⟩
  regsWf := (h.wf hs.radioWf).1
  fifoWf := (h.wf hs.radioWf).2

/-- The start of an operation leaves what a `close` needs to know. -/
theorem ClosedFrom.runOp {s : State} (hopen : s.isOpen = true) (hidle : s.irqEn = false → s.pseq = .idle) :
    ClosedFrom s (runOp 0x01#8 Machine.closeOp s) :=
  have h := ClosedFrom.closeOp (s := s.enter 0x01#8) hopen hidle
  ⟨h.isOpen, h.handle, h.dir, h.out, h.irqCfg, h.irqEn, h.lastLevel, h.pseq, h.txn, h.par, h.lsbFirst, h.inbox, h.cbSet, h.cbSetOff,
    h.fault, h.wf⟩

theorem closeSession_keeps_inv {s : State} (hs : s.Inv) : (runOp 0x01#8 closeOp s).Inv := by
  cases hopen : s.isOpen with
  | true => exact hs.of_closedFrom (.runOp hopen fun he => (hs.pollerIdle he).1) rfl rfl
  | false =>
    refine hs.of_steered (.runOp ?_) rfl rfl
    rw [closeOp_closed (s := s.enter 0x01#8) hopen]
    exact (Contained.refl _).steered

/-- The end of the loop: the session is open, POLLER is idle, no level is remembered. -/
theorem enableInterrupt_keeps_inv {s : State} (hs : s.Inv) (en : Bool) : (runOp 0x08#8 (enableInterruptOp en) s).Inv := by
  cases en with
  | true => exact hs.of_steered (.runOp (Steered.startLoop _).1) rfl rfl
  | false =>
    cases hen : s.irqEn with
    | false =>
      refine hs.of_steered (.runOp ?_) rfl rfl
      rw [enableInterruptOp_false_off (s := s.enter 0x08#8) hen]
      exact (Contained.refl _).steered
    | true =>
      obtain ⟨hopen, -⟩ := hs.pollerNeeds hen
      obtain ⟨u, hu⟩ : ∃ u, u = { s.enter 0x08#8 with irqEn := false } := ⟨_, rfl⟩
      have hjoin := Beside.joinPoller u
      have hstate : runOp 0x08#8 (enableInterruptOp false) s = ({ joinPoller u with lastLevel := .unknown }).leave (.bool true) := by
        simp only [runOp, enableInterruptOp_false_on (s := s.enter 0x08#8) hen, hu]
      have hisOpen : (joinPoller u).isOpen = s.isOpen := hjoin.isOpen.trans (by rw [hu]; rfl)
      have hhandle : (joinPoller u).handle = s.handle := hjoin.handle.trans (by rw [hu]; rfl)
      have hwf : (joinPoller u).radio.Wf := hjoin.wf (by rw [hu]; exact hs.radioWf)
      rw [hstate]
      exact ⟨rfl, rfl, by simpa [hisOpen, hhandle] using hs.handleValid,
        hjoin.needs (fun he => by rw [hu] at he; cases he), fun _ => ⟨joinPoller_pseq u, rfl⟩,
        fun hc => absurd (hopen.symm.trans (hisOpen.symm.trans hc)) (by decide), hwf.1, hwf.2⟩

/-- Opening starts where no loop runs, so whether it succeeds or is undone no loop runs afterwards. -/
theorem openSession_keeps_inv {s : State} (hs : s.Inv) : (runOp 0x00#8 openOp s).Inv := by
  cases hopen : s.isOpen with
  | true =>
    refine hs.of_steered (.runOp ?_) rfl rfl
    rw [openOp_of_isOpen (s := s.enter 0x00#8) hopen]
    exact (Contained.refl _).steered
  | false =>
    have hoff : (s.enter 0x00#8).LoopOff := hs.loopOff_of_closed hopen
    have hlevel := (hs.pollerIdle hoff.1).2
    obtain ⟨hdir, hout, hcfg⟩ := hs.closedRegs hopen
    have hfirst := Calm.enumerated (s.enter 0x00#8)
    obtain ⟨hdir', hout'⟩ := State.enumerated_masks (s.enter 0x00#8)
    obtain ⟨hoff1, hlevel1, hcfg1, -, -⟩ := hfirst.quiet hoff
    have hwf1 := hfirst.wf hs.radioWf
    rcases openOp_cases (s := s.enter 0x00#8) hopen with ⟨c, he⟩ | ⟨v, hv, he⟩
    · simp only [runOp, he]
      exact .of_loopOff rfl rfl (by simpa [hfirst.handle, hfirst.isOpen] using hs.handleValid) hoff1 (hlevel1.trans hlevel)
        (fun _ => ⟨hdir'.trans hdir, hout'.trans hout, hcfg1.trans hcfg⟩) hwf1
    · obtain ⟨hoff2, hlevel2, hcfg2, -, -⟩ := hv.quiet hoff1
      have hlevel' := hlevel2.trans (hlevel1.trans hlevel)
      rcases he with he | he <;> simp only [runOp, he]
      · have hopened : v.isOpen = true := hv.isOpen
        have hvalid : v.handle = .valid := hv.handle
        exact .of_loopOff rfl rfl (by simp [hopened, hvalid]) hoff2 hlevel' (fun hc => absurd (hopened.symm.trans hc) (by decide))
          ((hv.wf hwf1).withTxn [])
      · exact .of_loopOff rfl rfl (by simp) hoff2 hlevel' (fun _ => ⟨rfl, rfl, hcfg2.trans (hcfg1.trans hcfg)⟩) (hv.wf hwf1)

/-- Every instruction keeps the invariant. -/
theorem exec_keeps_inv {i : Instr} {s t : State} (hs : s.Inv) (h : exec i s = .next t) : t.Inv := by
  cases hlevel : i.level with
  | wire | serial =>
    obtain ⟨u, hu, hsame, hseq, hbuf, -, hwf⟩ := exec_farEnd i s (by simp [hlevel])
    cases h.symm.trans hu
    exact hs.of_sameSession hsame hseq hbuf hwf
  | agent =>
    cases i with
    | pollStep => cases h; exact hs.of_poller (.pollStepRun s) (pollStepRun_loopOff s)
    | _ => exact Level.noConfusion hlevel
  | operation =>
    cases hsteer : Instr.steersSession i with
    | false =>
      obtain ⟨u, hu, hcont, hseq, hbuf⟩ := exec_contained i s hlevel hsteer
      cases h.symm.trans hu
      exact hs.of_steered hcont.steered hseq hbuf
    | true =>
      cases i with
      | openSession => cases h; exact openSession_keeps_inv hs
      | closeSession => cases h; exact closeSession_keeps_inv hs
      | configureInterrupt pin en => cases h; exact hs.of_steered (.runOp (Steered.configureInterruptOp pin en _).1) rfl rfl
      | setInterruptCallback fn => cases h; exact hs.of_steered (.runOp (Steered.setInterruptCallbackOp fn _).1) rfl rfl
      | enableInterrupt en => cases h; exact enableInterrupt_keeps_inv hs en
      | _ => exact Bool.noConfusion hsteer

theorem State.Inv.taken {s : State} (h : s.Inv) (rest : List Request) : (s.taken rest).Inv :=
  ⟨h.seqIdle, h.noBuffers, h.handleValid, h.pollerNeeds, h.pollerIdle, h.closedRegs, h.regsWf, h.fifoWf⟩

theorem rejected_keeps_inv {e : DecodeError} {s t : State} (hs : s.Inv) (h : rejected e s = .next t) : t.Inv := by
  cases e with
  | illegalSelect => cases h; exact hs
  | noAccess bytes =>
    cases h
    have hclock := serialTransaction_clocked bytes s
    exact hs.of_sameSession (hclock.toSameSession.congr rfl rfl) hclock.seq hclock.buf (serialTransaction_wf bytes s)
  | _ => cases h

/-- Settles O10: POLLER's steps, the arrival that is no instruction, and the instruction each keep the invariant. -/
theorem stepKeepsInv : Obligations.StepKeepsInv := by
  intro s t hs h
  cases hinbox : s.inbox with
  | nil =>
    rw [step_of_inbox_nil hinbox] at h
    cases h
    exact hs.of_poller (.pollMicro s) (pollMicro_loopOff s)
  | cons r rest =>
    cases hdecode : s.decodeRequest r with
    | error e => exact rejected_keeps_inv (hs.taken rest) ((step_of_decodeRequest_error s r rest e hinbox hdecode).symm.trans h)
    | ok i =>
      have hstart : (beforeStart i (s.taken rest)).Inv := (hs.taken rest).of_poller (.beforeStart i _) (beforeStart_loopOff i)
      exact exec_keeps_inv hstart ((step_of_decodeRequest_ok hinbox hdecode).symm.trans h)

end Sys2Proof.Machine
end

section
/-! SUPPORT. One bulk transaction of either agent at the answer that comes next: what it leaves of the bridge, of the adapter, of the
radio and of the wire trace, whether it is answered or fails. -/

namespace Sys2Proof.Machine

/-! ### Frames of the session and of the radio -/

theorem SameSession.withOut {s t : State} (h : SameSession s t) (m : PinMask) : SameSession { s with out := m } { t with out := m } :=
  ⟨h.par, h.isOpen, h.handle, h.dir, rfl, h.lsbFirst, h.irqCfg, h.cbSet, h.irqEn, h.lastLevel, h.lastCause, h.busFault, h.pseq, h.inbox⟩

theorem SameSession.withDir {s t : State} (h : SameSession s t) (m : PinMask) : SameSession { s with dir := m } { t with dir := m } :=
  ⟨h.par, h.isOpen, h.handle, rfl, h.out, h.lsbFirst, h.irqCfg, h.cbSet, h.irqEn, h.lastLevel, h.lastCause, h.busFault, h.pseq, h.inbox⟩

theorem Answered.sameSession {rest : List Tick} {s t : State} (h : Answered rest s t) : SameSession s t :=
  ⟨h.par, h.isOpen, h.handle, h.dir, h.out, h.lsbFirst, h.irqCfg, h.cbSet, h.irqEn, h.lastLevel, h.lastCause, h.busFault, h.pseq, h.inbox⟩

/-- What one transaction that fails leaves, but for the far end. -/
structure Missed (rest : List Tick) (s t : State) : Prop where
  kept : Kept s { t with opFault := s.opFault }
  out : t.out = s.out
  busFault : t.busFault = true
  seq : t.seq = s.seq
  buf : t.buf = s.buf
  ticks : t.env.ticks = rest

theorem Missed.sameSession {rest : List Tick} {s t : State} (h : Missed rest s t) :
    SameSession s { t with busFault := s.busFault } :=
  have k := h.kept
  ⟨k.par, k.isOpen, k.handle, k.dir, h.out, k.lsbFirst, k.irqCfg, k.cbSet, k.irqEn, k.lastLevel, k.lastCause, rfl, k.pseq, k.inbox⟩

/-- Two frames one after the other. -/
theorem RadioFrame.andThen {m n : Nat} {w x : List RegAddr} {f g : List Byte} {s t u : State} (h : RadioFrame m w f s t)
    (hp : t.par = s.par) (ht : t.env.ticks = s.env.ticks.drop m) (k : RadioFrame n x g t u) :
    RadioFrame (m + n) (w ++ x) (f ++ g) s u := by
  have hstill : s.RadioStill (m + n) → t.RadioStill n := fun hs y hy =>
    hs y (by rw [ht] at hy; rw [List.take_add]; exact List.mem_append.2 (.inr hy))
  refine ⟨fun a ha hn => ?_, fun hn => ?_, fun hs a hn => ?_, fun hs a hn => ?_⟩ <;>
    obtain ⟨hw, hx⟩ := not_or.mp (mt List.mem_append.mpr hn)
  · rw [k.plain a (by rw [hp]; exact ha) hx, h.plain a ha hw]
  · have h1 := h.latched hw
    have h2 := k.latched (by rw [hp]; exact hx)
    rw [hp] at h2
    generalize s.reg s.par.regIrqFlags = a at h1 ⊢
    generalize t.reg s.par.regIrqFlags = b at h1 h2
    generalize u.reg s.par.regIrqFlags = c at h2 ⊢
    apply BitVec.eq_of_getLsbD_eq
    intro i hi
    have e1 := congrArg (fun x => x.getLsbD i) h1
    have e2 := congrArg (fun x => x.getLsbD i) h2
    simp only [BitVec.getLsbD_and, BitVec.getLsbD_not, hi, decide_true, Bool.true_and, BitVec.getLsbD_zero] at e1 e2 ⊢
    cases ha : a.getLsbD i <;> cases hb : b.getLsbD i <;> simp_all
  · rw [k.regs (hstill hs) a hx, h.regs (hs.mono (by omega)) a hw]
  · rw [k.fifo (hstill hs) a hx, h.fifo (hs.mono (by omega)) a hw]

/-- A frame says nothing of the session's registers, of FG's position or of the wire. -/
theorem RadioFrame.congr {n : Nat} {w : List RegAddr} {f : List Byte} {s t s' t' : State} (h : RadioFrame n w f s t)
    (hp : s'.par = s.par) (hr : s'.radio = s.radio) (hk : s'.env.ticks = s.env.ticks) (ht : ∀ a, t'.reg a = t.reg a)
    (hf : ∀ a, t'.fifoAt a = t.fifoAt a) : RadioFrame n w f s' t' := by
  have hreg : ∀ a, s'.reg a = s.reg a := fun a => by rw [State.reg, hr]; rfl
  have hfifo : ∀ a, s'.fifoAt a = s.fifoAt a := fun a => by rw [State.fifoAt, hr]; rfl
  have hstill : s'.RadioStill n → s.RadioStill n := fun hq => by simpa only [State.RadioStill, hk] using hq
  refine ⟨fun a ha hn => ?_, fun hn => ?_, fun hq a hn => ?_, fun hq a hn => ?_⟩
  · rw [ht, hreg, h.plain a (by rw [← hp]; exact ha) hn]
  · rw [ht, hreg, hp]; exact h.latched (by rw [← hp]; exact hn)
  · rw [ht, hreg, h.regs (hstill hq) a hn]
  · rw [hf, hfifo, h.fifo (hstill hq) a hn]

/-! ### One transaction -/

section
variable {s : State} {tk : Tick} {rest : List Tick} (who : Who)

theorem sendAt_drawTick_ok (ha : tk.answer = .ok) (c : WireCmd) :
    sendAt who c tk s.drawTick.2 = (true, (adapterRun tk c (s.drawTick.2.arrive tk)).emit (.sent who (c.frame s.par) true)) := by
  simp only [sendAt, ha, State.arrive_par, State.drawTick_par]

theorem sendAt_drawTick_fail (ha : tk.answer ≠ .ok) (c : WireCmd) :
    sendAt who c tk s.drawTick.2 = (false,
      ((if tk.answer = Answer.failExecuted then adapterRun tk c (s.drawTick.2.arrive tk) else s.drawTick.2.arrive tk).emit
        (.sent who (c.frame s.par) false)).busFailed) := by
  simp only [sendAt, State.arrive_par, State.drawTick_par]
  cases hc : tk.answer <;> simp_all

theorem takeAt_drawTick_ok (ha : tk.answer = .ok) {b : Byte} {q : List Byte} (hq : s.inQ = b :: q) :
    takeAt who tk s.drawTick.2 =
      (some b, { s.drawTick.2.arrive tk with inQ := q }.emit (.taken who (some b))) := by
  simp only [takeAt, ha, State.arrive_inQ, State.drawTick_inQ, hq]

theorem takeAt_drawTick_fail (ha : tk.answer ≠ .ok) :
    takeAt who tk s.drawTick.2 = (none,
      ({ s.drawTick.2.arrive tk with inQ := if tk.answer = Answer.failExecuted then s.inQ.tail else s.inQ }.emit
        (.taken who none)).busFailed) := by
  have hi : (s.drawTick.2.arrive tk).inQ = s.inQ := by simp
  simp only [takeAt]
  generalize s.drawTick.2.arrive tk = u at hi ⊢
  rw [← hi]
  obtain ⟨q, hq⟩ : ∃ q, q = u.inQ := ⟨_, rfl⟩
  rw [← hq]
  cases hc : tk.answer with
  | ok => exact absurd hc ha
  | failUnchanged | failExecuted => cases q <;> simp [State.emit, State.busFailed, ← hq]

variable (ht : s.env.ticks = tk :: rest)
include ht

theorem sendAt_answered (ha : tk.answer = .ok) (c : WireCmd) : Answered rest s (sendAt who c tk s.drawTick.2).2 := by
  rw [sendAt_drawTick_ok who ha]
  refine ⟨⟨?_, ?_, ?_, ?_, ?_, ?_, ?_, ?_, ?_, ?_, ?_, ?_, ?_, ?_, ?_, ?_⟩, ?_, ?_, ?_, ?_, ?_⟩ <;>
    simp [s.drawTick_ticks tk rest ht, State.drawTick_enums, State.drawTick_clocks]

theorem takeAt_answered (ha : tk.answer = .ok) {b : Byte} {q : List Byte} (hq : s.inQ = b :: q) :
    Answered rest s (takeAt who tk s.drawTick.2).2 := by
  rw [takeAt_drawTick_ok who ha hq]
  refine ⟨⟨?_, ?_, ?_, ?_, ?_, ?_, ?_, ?_, ?_, ?_, ?_, ?_, ?_, ?_, ?_, ?_⟩, ?_, ?_, ?_, ?_, ?_⟩ <;>
    simp [s.drawTick_ticks tk rest ht, State.drawTick_enums, State.drawTick_clocks]

theorem sendAt_missed (ha : tk.answer ≠ .ok) (c : WireCmd) : Missed rest s (sendAt who c tk s.drawTick.2).2 := by
  rw [sendAt_drawTick_fail who ha]
  split <;> refine ⟨⟨?_, ?_, ?_, ?_, ?_, ?_, ?_, ?_, ?_, ?_, ?_, ?_, ?_, ?_, ?_, ?_⟩, ?_, ?_, ?_, ?_, ?_⟩ <;>
    simp [s.drawTick_ticks tk rest ht, State.drawTick_enums, State.drawTick_clocks]

theorem takeAt_missed (ha : tk.answer ≠ .ok) : Missed rest s (takeAt who tk s.drawTick.2).2 := by
  rw [takeAt_drawTick_fail who ha]
  refine ⟨⟨?_, ?_, ?_, ?_, ?_, ?_, ?_, ?_, ?_, ?_, ?_, ?_, ?_, ?_, ?_, ?_⟩, ?_, ?_, ?_, ?_, ?_⟩ <;>
    simp [s.drawTick_ticks tk rest ht, State.drawTick_enums, State.drawTick_clocks]

/-- A PIN_SET or SPEED_CFG frame writes no register at the radio, answered or not. -/
theorem sendAt_still_frame (hs : s.Sound) {c : WireCmd}
    (hreg : ∀ v a, (adapterRun tk c v).reg a = v.reg a) (hfifo : ∀ v a, (adapterRun tk c v).fifoAt a = v.fifoAt a) :
    RadioFrame 1 [] [] s (sendAt who c tk s.drawTick.2).2 := by
  by_cases ha : tk.answer = .ok
  · rw [sendAt_drawTick_ok who ha]
    exact .of_arrive ht hs (hreg _) (hfifo _)
  · rw [sendAt_drawTick_fail who ha]
    split
    · exact .of_arrive ht hs (hreg _) (hfifo _)
    · exact .of_arrive ht hs (fun _ => rfl) (fun _ => rfl)

theorem takeAt_frame (hs : s.Sound) : RadioFrame 1 [] [] s (takeAt who tk s.drawTick.2).2 := by
  have h : (takeAt who tk s.drawTick.2).2.radio = (s.drawTick.2.arrive tk).radio := by
    simp only [takeAt]; split <;> rfl
  exact .of_arrive ht hs (fun a => by rw [State.reg, h]; rfl) (fun a => by rw [State.fifoAt, h]; rfl)

end

/-- The bridge's own part in soundness is its parameters. -/
theorem Answered.sound {rest : List Tick} {s t : State} (h : Answered rest s t) (hs : s.Sound) (hw : t.radio.Wf) : t.Sound :=
  ⟨by rw [h.par]; exact hs.params, hw.1, hw.2⟩

/-! ### The frames of the digital pins -/

/-- What an answered PIN_SET frame leaves: the adapter's latch, the wire, `TXN` after the edge it may make. -/
structure PinsSent (tk : Tick) (o d : PinMask) (rest : List Tick) (s t : State) : Prop extends Answered rest s t where
  pinsOut : t.pinsOut = o
  pinsDir : t.pinsDir = d
  inQ : t.inQ = s.inQ
  log : t.wireLog = s.wireLog ++ [.out (pinFrame s.par o d)]
  txn : t.radio.txn = if (s.pinsAt tk).csLow = t.csLow then s.txnAt tk else []
  frame : s.Sound → RadioFrame 1 [] [] s t

/-- What an answered PIN_GET frame leaves: the response behind what was in `IN_Q`. -/
structure Asked (tk : Tick) (rest : List Tick) (s t : State) : Prop extends Answered rest s t where
  pinsOut : t.pinsOut = s.pinsOut
  pinsDir : t.pinsDir = s.pinsDir
  csLow : t.csLow = (s.pinsAt tk).csLow
  inQ : t.inQ = s.inQ ++ [tk.echo.extractLsb' 6 2 ++ (s.pinsAt tk).levels]
  txn : t.radio.txn = s.txnAt tk
  sound : s.Sound → t.Sound
  frame : s.Sound → RadioFrame 1 [] [] s t

/-- What the taking of one byte leaves: the rest of `IN_Q`. -/
structure Took (tk : Tick) (q : List Byte) (rest : List Tick) (s t : State) : Prop extends Answered rest s t where
  pinsOut : t.pinsOut = s.pinsOut
  pinsDir : t.pinsDir = s.pinsDir
  inQ : t.inQ = q
  txn : t.radio.txn = s.txnAt tk
  frame : s.Sound → RadioFrame 1 [] [] s t

section
variable {s : State} {tk : Tick} {rest : List Tick} (who : Who) (ht : s.env.ticks = tk :: rest) (ha : tk.answer = .ok)
include ht ha

theorem sendAt_pins (o d : PinMask) : PinsSent tk o d rest s (sendAt who (.pins o d) tk s.drawTick.2).2 := by
  have hframe := fun hs => sendAt_still_frame (s := s) who ht hs (adapterRun_pins_reg tk o d) (adapterRun_pins_fifoAt tk o d)
  have hans := sendAt_answered who ht ha (.pins o d)
  rw [sendAt_drawTick_ok who ha] at hans hframe ⊢
  refine ⟨hans, by simp, by simp, by simp, ?_, ?_, hframe⟩
  · rw [State.wireLog_emit, State.wireLog_congr (s := s) (by simp)]; rfl
  · have hcs : (s.drawTick.2.arrive tk).csLow = (s.pinsAt tk).csLow := (csLow_arrive tk _).trans (csLow_pinsAt_drawTick tk s)
    rw [State.emit_radio, adapterRun_pins_txn, hcs, arrive_drawTick_txn s tk]
    rfl

theorem sendAt_askPins : Asked tk rest s (sendAt who .askPins tk s.drawTick.2).2 := by
  have hframe := fun hs => sendAt_still_frame (s := s) (c := .askPins) who ht hs (fun _ _ => rfl) (fun _ _ => rfl)
  have hans := sendAt_answered who ht ha .askPins
  have hlevels : (s.drawTick.2.arrive tk).levels = (s.pinsAt tk).levels := by simp [State.levels]
  have hwf := (Beside.sendAt who .askPins tk s.drawTick.2).wf
  rw [sendAt_drawTick_ok who ha] at hans hframe hwf ⊢
  refine ⟨hans, by simp, by simp, ?_, by simp [hlevels], ?_, fun hs => hans.sound hs (hwf ?_), hframe⟩
  · exact (csLow_of_pins rfl rfl rfl rfl).trans ((csLow_arrive tk _).trans (csLow_pinsAt_drawTick tk s))
  · rw [State.emit_radio, adapterRun_askPins_radio, arrive_drawTick_txn s tk]
  · rw [State.drawTick_radio]; exact hs.radioWf

theorem takeAt_byte {b : Byte} {q : List Byte} (hq : s.inQ = b :: q) : Took tk q rest s (takeAt who tk s.drawTick.2).2 := by
  have hframe := fun hs => takeAt_frame (s := s) who ht hs
  have hans := takeAt_answered who ht ha hq
  rw [takeAt_drawTick_ok who ha hq] at hans hframe ⊢
  exact ⟨hans, by simp, by simp, rfl, arrive_drawTick_txn s tk, hframe⟩

end

/-! ### The same transactions made by FG alone -/

section
variable {s : State} {tk : Tick} {rest : List Tick} (h : Alone tk s) (ht : s.env.ticks = tk :: rest)
include h ht

theorem bulkOut_missed (ha : tk.answer ≠ .ok) (c : WireCmd) : (bulkOut c s).1 = false ∧ Missed rest s (bulkOut c s).2 := by
  rw [bulkOut_alone h ht]
  exact ⟨by rw [sendAt_drawTick_fail _ ha], sendAt_missed _ ht ha c⟩

theorem bulkIn_missed (ha : tk.answer ≠ .ok) : (bulkIn s).1 = none ∧ Missed rest s (bulkIn s).2 := by
  rw [bulkIn_alone h ht]
  exact ⟨by rw [takeAt_drawTick_fail _ ha], takeAt_missed _ ht ha⟩

theorem bulkOut_pins (ha : tk.answer = .ok) (o d : PinMask) :
    (bulkOut (.pins o d) s).1 = true ∧ PinsSent tk o d rest s (bulkOut (.pins o d) s).2 := by
  rw [bulkOut_alone h ht]
  exact ⟨by rw [sendAt_drawTick_ok _ ha], sendAt_pins _ ht ha o d⟩

theorem bulkOut_askPins (ha : tk.answer = .ok) : (bulkOut .askPins s).1 = true ∧ Asked tk rest s (bulkOut .askPins s).2 := by
  rw [bulkOut_alone h ht]
  exact ⟨by rw [sendAt_drawTick_ok _ ha], sendAt_askPins _ ht ha⟩

theorem bulkIn_byte (ha : tk.answer = .ok) {b : Byte} {q : List Byte} (hq : s.inQ = b :: q) :
    (bulkIn s).1 = some b ∧ Took tk q rest s (bulkIn s).2 := by
  rw [bulkIn_alone h ht]
  exact ⟨by rw [takeAt_drawTick_ok _ ha hq], takeAt_byte _ ht ha hq⟩

end

end Sys2Proof.Machine
end

section
/-! SUPPORT. The digital pin operations and `configureInterrupt` (43_digital_pins.md, 44_interrupt_emulation.md R196) in a serialised
session: one frame of the shadow masks, answered or failed. -/

namespace Sys2Proof.Machine

theorem SameSession.withCause {s t : State} (h : SameSession s t) (c : Cause) :
    SameSession { s with lastCause := c } { t with lastCause := c } :=
  ⟨h.par, h.isOpen, h.handle, h.dir, h.out, h.lsbFirst, h.irqCfg, h.cbSet, h.irqEn, h.lastLevel, rfl, h.busFault, h.pseq, h.inbox⟩

theorem State.Sound.congr {s t : State} (h : s.Sound) (hp : t.par = s.par) (hr : t.radio = s.radio) : t.Sound :=
  ⟨by rw [hp]; exact h.params, by rw [hr]; exact h.regsWf, by rw [hr]; exact h.fifoWf⟩

/-! ### The shadow masks -/

theorem getLsbD_putBit {pin : Nat} (hpin : pin ≤ 5) (b : Bool) (m : PinMask) {q : Nat} (hq : q < 6) :
    (putBit pin b m).getLsbD q = if q = pin then b else m.getLsbD q := by
  have hmask : (pinMask pin).getLsbD q = decide (q = pin) := getLsbD_pinMask ⟨pin, by omega⟩ q
  cases b
  · simp only [putBit, Bool.false_eq_true, if_false, BitVec.getLsbD_and, BitVec.getLsbD_not, hmask, hq, decide_true, Bool.true_and]
    split <;> simp [*]
  · simp only [putBit, if_true, BitVec.getLsbD_or, hmask]
    split <;> simp [*]

section
variable {s : State} {tk : Tick} {rest : List Tick} (h : Alone tk s) (ht : s.env.ticks = tk :: rest) (l : Label) (u : MaskUpdate)
include h ht

/-- One bit of a shadow mask changed and the frame of both masks answered. -/
theorem sendShadow_ok (ha : tk.answer = .ok) : ∃ t, sendShadow l u s = (true, t) ∧
    PinsSent tk (u.apply s).out (u.apply s).dir rest (u.apply (s.atBus l)) t := by
  have hv : Alone tk (u.apply (s.atBus l)) := by cases u <;> exact h
  have htv : (u.apply (s.atBus l)).env.ticks = tk :: rest := by cases u <;> exact ht
  have hmasks : (u.apply (s.atBus l)).out = (u.apply s).out ∧ (u.apply (s.atBus l)).dir = (u.apply s).dir := by
    cases u <;> exact ⟨rfl, rfl⟩
  obtain ⟨hok, hsent⟩ := bulkOut_pins hv htv ha (u.apply s).out (u.apply s).dir
  refine ⟨_, ?_, hsent⟩
  simp only [sendShadow, updatePins_alone (s := s.atBus l) h ht, hmasks, hok, if_true]

/-- The same with the frame failing: the mask keeps its change. -/
theorem sendShadow_missed (ha : tk.answer ≠ .ok) : ∃ t, sendShadow l u s = (false, t.fail .bulkTransferError) ∧
    Missed rest (u.apply (s.atBus l)) t := by
  have hv : Alone tk (u.apply (s.atBus l)) := by cases u <;> exact h
  have htv : (u.apply (s.atBus l)).env.ticks = tk :: rest := by cases u <;> exact ht
  obtain ⟨hfail, hmissed⟩ := bulkOut_missed hv htv ha (.pins (u.apply (s.atBus l)).out (u.apply (s.atBus l)).dir)
  refine ⟨_, ?_, hmissed⟩
  simp only [sendShadow, updatePins_alone (s := s.atBus l) h ht, hfail, Bool.false_eq_true, if_false]

end

/-! ### The checks passed -/

theorem pinChecks_ok {pin : Nat} {s : State} (ho : s.isOpen = true) (hp : pin ≤ 5) : pinChecks pin s = none := by
  simp [pinChecks, ho, hp]

theorem pinModeChecks_ok {pin mode : Nat} {s : State} (ho : s.isOpen = true) (hp : pin ≤ 5) (hm : mode ≤ 1) :
    pinModeChecks pin mode s = none := by
  simp [pinModeChecks, pinChecks_ok ho hp, hm]

theorem configureChecks_ok {s : State} (ho : s.isOpen = true) : configureChecks s.par.irqPin.val s = none := by
  simp [configureChecks, ho]

theorem exec_digitalWrite (pin : Nat) (v : Bool) (s : State) :
    exec (.digitalWrite pin v) s = .next (runOp 0x03#8 (digitalWriteOp pin v) s) := rfl

theorem exec_digitalRead (pin : Nat) (s : State) : exec (.digitalRead pin) s = .next (runOp 0x04#8 (digitalReadOp pin) s) := rfl

theorem exec_pinMode (pin mode : Nat) (s : State) :
    exec (.pinMode pin mode) s = .next (runOp 0x05#8 (pinModeOp pin mode) s) := rfl

theorem digitalWriteOp_open {pin : Nat} {s : State} (ho : s.isOpen = true) (hp : pin ≤ 5) (v : Bool) :
    digitalWriteOp pin v s = (.bool (sendShadow (.main 'W' 3) (.out pin v) s).1, (sendShadow (.main 'W' 3) (.out pin v) s).2) := by
  simp only [digitalWriteOp, pinChecks_ok ho hp]

theorem pinModeOp_open {pin mode : Nat} {s : State} (ho : s.isOpen = true) (hp : pin ≤ 5) (hm : mode ≤ 1) :
    pinModeOp pin mode s = (.bool (sendShadow (.main 'M' 4) (.dir pin (decide (mode = 1))) s).1,
      (sendShadow (.main 'M' 4) (.dir pin (decide (mode = 1))) s).2) := by
  simp only [pinModeOp, pinModeChecks_ok ho hp hm, setDirection]

/-- The state in which an operation returns once its body's outcome is known. -/
theorem exec_of_body {i : Instr} {op : Byte} {body : State → Result × State} {s t : State} {r : Result}
    (hi : exec i s = .next (runOp op body s)) (h : body (s.enter op) = (r, t)) : exec i s = .next (t.leave r) := by
  rw [hi, runOp, h]

/-- Settles O29. -/
theorem digitalWriteEffect : Obligations.DigitalWriteEffect := by
  intro s pin value tk rest hs ho hser hpin ht ha
  obtain ⟨t, hsend, hsent⟩ := sendShadow_ok (s := s.enter 0x03#8) (hser.alone ht) ht (.main 'W' 3) (.out pin value) ha
  have hrun := exec_of_body (exec_digitalWrite pin value s) ((digitalWriteOp_open (s := s.enter 0x03#8) ho hpin value).trans (by rw [hsend]))
  have hout : t.out = putBit pin value s.out := hsent.out
  refine ⟨_, hrun, rfl, fun q hq => ?bits,
    (hsent.sameSession.withOut s.out).congr rfl rfl, hsent.pinsOut.trans hout.symm, hsent.pinsDir, hsent.inQ, ?log, hsent.txn,
    (hsent.frame (hs.congr rfl rfl)).congr rfl rfl rfl (fun _ => rfl) (fun _ => rfl), hsent.ticks, rfl, rfl⟩
  case bits => rw [State.leave_out, hout]; exact getLsbD_putBit hpin value s.out hq
  case log => exact hsent.log.trans (by rw [State.leave_out, hout]; rfl)

/-- Settles O30. -/
theorem pinModeEffect : Obligations.PinModeEffect := by
  intro s pin mode tk rest hs ho hser hpin hmode ht ha
  obtain ⟨t, hsend, hsent⟩ := sendShadow_ok (s := s.enter 0x05#8) (hser.alone ht) ht (.main 'M' 4) (.dir pin (decide (mode = 1))) ha
  have hrun := exec_of_body (exec_pinMode pin mode s) ((pinModeOp_open (s := s.enter 0x05#8) ho hpin hmode).trans (by rw [hsend]))
  have hdir : t.dir = putBit pin (decide (mode = 1)) s.dir := hsent.dir
  refine ⟨_, hrun, rfl, fun q hq => ?bits,
    (hsent.sameSession.withDir s.dir).congr rfl rfl, hsent.pinsOut, hsent.pinsDir.trans hdir.symm, hsent.inQ, ?log, hsent.txn,
    (hsent.frame (hs.congr rfl rfl)).congr rfl rfl rfl (fun _ => rfl) (fun _ => rfl), hsent.ticks, rfl, rfl⟩
  case bits => rw [State.leave_dir, hdir]; exact getLsbD_putBit hpin _ s.dir hq
  case log => exact hsent.log.trans (by rw [State.leave_dir, hdir]; rfl)

theorem configureInterruptOp_enable {s : State} (ho : s.isOpen = true) :
    configureInterruptOp s.par.irqPin.val true s =
      if (sendShadow (.main 'M' 4) (.dir s.par.irqPin.val false) (s.atStep (.main 'I' 2))).1 then
        (.bool true, { (sendShadow (.main 'M' 4) (.dir s.par.irqPin.val false) (s.atStep (.main 'I' 2))).2 with irqCfg := true })
      else (.bool false, (sendShadow (.main 'M' 4) (.dir s.par.irqPin.val false) (s.atStep (.main 'I' 2))).2) := by
  rw [configureInterruptOp, configureChecks_ok ho]
  rfl

theorem configureInterruptOp_disable {s : State} (ho : s.isOpen = true) (he : s.irqEn = false) :
    configureInterruptOp s.par.irqPin.val false s = (.bool true, { s with irqCfg := false }) := by
  simp only [configureInterruptOp, configureChecks_ok ho, Bool.false_eq_true, if_false, unconfigure, he]

theorem SameSession.withIrqCfg {s t : State} (h : SameSession s t) (b : Bool) :
    SameSession { s with irqCfg := b } { t with irqCfg := b } :=
  ⟨h.par, h.isOpen, h.handle, h.dir, h.out, h.lsbFirst, rfl, h.cbSet, h.irqEn, h.lastLevel, h.lastCause, h.busFault, h.pseq, h.inbox⟩

theorem SameSession.withFault {s t : State} (h : SameSession s t) (b : Bool) :
    SameSession { s with busFault := b } { t with busFault := b } :=
  ⟨h.par, h.isOpen, h.handle, h.dir, h.out, h.lsbFirst, h.irqCfg, h.cbSet, h.irqEn, h.lastLevel, h.lastCause, rfl, h.pseq, h.inbox⟩

/-- Settles O34: the enabling is `setDirection` of the reserved pin, the disabling one register. -/
theorem configureInterruptEffect : Obligations.ConfigureInterruptEffect := by
  refine ⟨fun s tk rest hs ho hser ht ha => ?enable, fun s ho he => ?disable⟩
  case enable =>
    obtain ⟨t, hsend, hsent⟩ := sendShadow_ok (s := (s.enter 0x06#8).atStep (.main 'I' 2)) (hser.alone ht) ht (.main 'M' 4)
      (.dir s.par.irqPin.val false) ha
    have hrun : exec (.configureInterrupt s.par.irqPin true) s = .next (({ t with irqCfg := true }).leave (.bool true)) :=
      exec_of_body (exec_configureInterrupt _ true s) ((configureInterruptOp_enable (s := s.enter 0x06#8) ho).trans (by
        rw [State.enter_par, hsend]; rfl))
    have hdir : t.dir = putBit s.par.irqPin.val false s.dir := hsent.dir
    refine ⟨_, hrun, rfl, rfl, fun q hq => ?bits,
      ((hsent.sameSession.withDir s.dir).withIrqCfg s.irqCfg).congr rfl rfl, hsent.pinsOut, hsent.pinsDir.trans hdir.symm,
      hsent.inQ, ?log, (hsent.frame (hs.congr rfl rfl)).congr rfl rfl rfl (fun _ => rfl) (fun _ => rfl), hsent.ticks, rfl, rfl⟩
    case bits => rw [State.leave_dir, hdir]; exact getLsbD_putBit (by omega) false s.dir hq
    case log => exact hsent.log.trans (by rw [State.leave_dir, hdir]; rfl)
  case disable =>
    have hrun := exec_of_body (exec_configureInterrupt _ false s) (configureInterruptOp_disable (s := s.enter 0x06#8) ho he)
    exact ⟨_, hrun, rfl, rfl,
      ⟨rfl, rfl, rfl, rfl, rfl, rfl, rfl, rfl, rfl, rfl, rfl, rfl, rfl, rfl, rfl, rfl, rfl, rfl, rfl⟩, rfl, rfl⟩

/-! ### `digitalRead` (43_digital_pins.md R183) -/

/-- The queried bit of a response. -/
theorem and_pinMask_ne_zero (b : Byte) {pin : Nat} (hp : pin ≤ 5) :
    decide (b &&& (pinMask pin).setWidth 8 ≠ 0#8) = b.getLsbD pin := by
  have hmask : (pinMask pin).setWidth 8 = BitVec.twoPow 8 pin :=
    (show ∀ p : Fin 6, (pinMask p.val).setWidth 8 = BitVec.twoPow 8 p.val by decide) ⟨pin, by omega⟩
  have hne : BitVec.twoPow 8 pin ≠ 0#8 :=
    (show ∀ p : Fin 6, BitVec.twoPow 8 p.val ≠ 0#8 by decide) ⟨pin, by omega⟩
  rw [hmask, BitVec.and_twoPow]
  cases b.getLsbD pin <;> simp [hne]

/-- `TXN` at the transaction after a request. -/
theorem Asked.txnAt {t1 : Tick} {rest : List Tick} {s w : State} (h : Asked t1 rest s w) (t2 : Tick) :
    w.txnAt t2 = s.txnAfter t1 t2 := by
  have hcs : (w.pinsAt t2).csLow = (s.pinsAt t2).csLow := csLow_of_pins h.par h.pinsOut h.pinsDir rfl
  simp only [State.txnAt, State.txnAfter, h.csLow, hcs, h.txn]

/-- The levels of the moment, pin by pin. -/
theorem getLsbD_levels_pinsAt (s : State) (t : Tick) (hi : BitVec 2) {pin : Nat} (h : pin < 6) :
    (hi ++ (s.pinsAt t).levels : BitVec 8).getLsbD pin =
      if s.pinsDir.getLsbD pin then s.pinsOut.getLsbD pin else t.ext.getLsbD pin := by
  rw [getLsbD_response _ _ h, getLsbD_levels _ h]
  rfl

/-- A request and its response. -/
theorem digitalReadOp_answered {pin : Nat} {s w : State} {b : Byte} {t : State} (ho : s.isOpen = true) (hp : pin ≤ 5)
    (h2 : bulkOut .askPins (s.atBus (.main 'G' 2)) = (true, w)) (h3 : bulkIn (w.atBus (.main 'G' 3)) = (some b, t)) :
    digitalReadOp pin s = (.bool (b.getLsbD pin), t) := by
  simp only [digitalReadOp, pinChecks_ok ho hp, h2, if_true, h3, and_pinMask_ne_zero b hp]

/-- Settles O31: the response joins the back of `IN_Q`, the byte taken is the front of it. -/
theorem digitalReadEffect : Obligations.DigitalReadEffect := by
  intro s pin t1 t2 rest hs ho hser hpin ht ha1 ha2
  obtain ⟨v, hv⟩ : ∃ v, v = (s.enter 0x04#8).atBus (.main 'G' 2) := ⟨_, rfl⟩
  have hvs : v.Sound := by rw [hv]; exact hs.congr rfl rfl
  have halone1 : Alone t1 v := by rw [hv]; exact hser.alone ht
  have halone2 : Alone t2 v := by rw [hv]; exact ⟨hser.1, fun he => hser.2 he t2 (by simp [ht])⟩
  obtain ⟨hok1, hasked⟩ := bulkOut_askPins halone1 (by rw [hv]; exact ht) ha1
  obtain ⟨w, hw⟩ : ∃ w, w = (bulkOut .askPins v).2 := ⟨_, rfl⟩
  rw [← hw] at hasked
  obtain ⟨b, q, hq⟩ : ∃ b q, w.inQ = b :: q := by
    rw [hasked.inQ]; cases v.inQ <;> exact ⟨_, _, rfl⟩
  have hnext : Alone t2 (w.atBus (.main 'G' 3)) := halone2.of_kept (hasked.toKept.trans (by constructor <;> rfl))
  obtain ⟨hok2, htook⟩ := bulkIn_byte (s := w.atBus (.main 'G' 3)) hnext hasked.ticks ha2 hq
  have hlog2 := bulkIn_log (s := w.atBus (.main 'G' 3)) hnext hasked.ticks ha2 b q hq
  have hlog1 := bulkOut_log halone1 (by rw [hv]; exact ht) ha1 .askPins
  obtain ⟨t, htd⟩ : ∃ t, t = (bulkIn (w.atBus (.main 'G' 3))).2 := ⟨_, rfl⟩
  rw [← htd] at htook hlog2
  rw [← hw] at hlog1
  have hrun := exec_of_body (exec_digitalRead pin s) (digitalReadOp_answered (s := s.enter 0x04#8) ho hpin
    (w := w) (by rw [← hv]; exact Prod.ext hok1 hw.symm) (t := t) (Prod.ext hok2 htd.symm))
  have hframe : RadioFrame 2 [] [] v t := (hasked.frame hvs).andThen hasked.par (by rw [hasked.ticks, hv]; simp [ht])
    ((htook.frame ((hasked.sound hvs).congr rfl rfl)).congr rfl rfl rfl (fun _ => rfl) (fun _ => rfl))
  have hinQ : w.inQ = s.inQ ++ [t1.echo.extractLsb' 6 2 ++ (s.pinsAt t1).levels] := by rw [hasked.inQ, hv]; rfl
  refine ⟨_, b, b.getLsbD pin, hrun, rfl,
    (hasked.sameSession.trans (htook.sameSession.congr rfl rfl)).congr (by rw [hv]; rfl) rfl,
    htook.pinsOut.trans (hasked.pinsOut.trans (by rw [hv]; rfl)), htook.pinsDir.trans (hasked.pinsDir.trans (by rw [hv]; rfl)), ?log,
    ?txn, hframe.congr (by rw [hv]; rfl) (by rw [hv]; rfl) (by rw [hv]; rfl) (fun _ => rfl) (fun _ => rfl), htook.ticks, rfl, rfl,
    fun hempty => ?fresh, fun c r hleft => ?leftover⟩
  case log =>
    refine hlog2.trans ?_
    rw [State.wireLog_congr (s := w) (u := w.atBus (.main 'G' 3)) rfl, hlog1, hv]
    exact List.append_assoc _ _ _
  case txn => exact htook.txn.trans ((hasked.txnAt t2).trans (by rw [hv]; rfl))
  case fresh =>
    rw [hempty, List.nil_append, hq] at hinQ
    obtain ⟨rfl, rfl⟩ := List.cons.inj hinQ
    exact ⟨htook.inQ, getLsbD_levels_pinsAt s t1 _ (by omega)⟩
  case leftover =>
    rw [hleft, List.cons_append, hq] at hinQ
    obtain ⟨rfl, rfl⟩ := List.cons.inj hinQ
    exact ⟨rfl, rfl, _, htook.inQ⟩

/-- A request whose frame fails. -/
theorem digitalReadOp_missed_request {pin : Nat} {s w : State} (ho : s.isOpen = true) (hp : pin ≤ 5)
    (h2 : bulkOut .askPins (s.atBus (.main 'G' 2)) = (false, w)) :
    digitalReadOp pin s = (.bool false, w.fail .bulkTransferError) := by
  simp only [digitalReadOp, pinChecks_ok ho hp, h2, Bool.false_eq_true, if_false]

/-- A request whose response fails. -/
theorem digitalReadOp_missed_response {pin : Nat} {s w t : State} (ho : s.isOpen = true) (hp : pin ≤ 5)
    (h2 : bulkOut .askPins (s.atBus (.main 'G' 2)) = (true, w)) (h3 : bulkIn (w.atBus (.main 'G' 3)) = (none, t)) :
    digitalReadOp pin s = (.bool false, t.fail .bulkTransferError) := by
  simp only [digitalReadOp, pinChecks_ok ho hp, h2, if_true, h3]

theorem digitalRead_request_missed {s : State} {pin : Nat} {bad : Tick} {rest : List Tick} (ho : s.isOpen = true)
    (hser : s.Serialised 1) (hpin : pin ≤ 5) (ht : s.env.ticks = bad :: rest) (hbad : bad.answer ≠ .ok) :
    ∃ t, exec (.digitalRead pin) s = .next t ∧ t.res = some (.bool false) ∧ t.lastCause = .bulkTransferError ∧ t.busFault = true ∧
      t.env.ticks = rest ∧ SameSession s { t with lastCause := s.lastCause, busFault := s.busFault } := by
  obtain ⟨hfail, hmissed⟩ := bulkOut_missed (s := (s.enter 0x04#8).atBus (.main 'G' 2)) (hser.alone ht) ht hbad .askPins
  have hrun := exec_of_body (exec_digitalRead pin s) (digitalReadOp_missed_request (s := s.enter 0x04#8) ho hpin
    (Prod.ext hfail rfl))
  exact ⟨_, hrun, rfl, rfl, hmissed.busFault, hmissed.ticks, (hmissed.sameSession.withCause s.lastCause).congr rfl rfl⟩

theorem digitalRead_response_missed {s : State} {pin : Nat} {good bad : Tick} {rest : List Tick} (ho : s.isOpen = true)
    (hser : s.Serialised 2) (hpin : pin ≤ 5) (ht : s.env.ticks = good :: bad :: rest) (hgood : good.answer = .ok)
    (hbad : bad.answer ≠ .ok) :
    ∃ t, exec (.digitalRead pin) s = .next t ∧ t.res = some (.bool false) ∧ t.lastCause = .bulkTransferError ∧ t.busFault = true ∧
      t.env.ticks = rest ∧ SameSession s { t with lastCause := s.lastCause, busFault := s.busFault } := by
  have halone : Alone bad s := ⟨hser.1, fun he => hser.2 he bad (by simp [ht])⟩
  obtain ⟨hok, hasked⟩ := bulkOut_askPins (s := (s.enter 0x04#8).atBus (.main 'G' 2)) (hser.alone ht) ht hgood
  obtain ⟨w, hw⟩ : ∃ w, w = (bulkOut .askPins ((s.enter 0x04#8).atBus (.main 'G' 2))).2 := ⟨_, rfl⟩
  rw [← hw] at hasked
  have hnext : Alone bad (w.atBus (.main 'G' 3)) :=
    Alone.of_kept (s := (s.enter 0x04#8).atBus (.main 'G' 2)) halone (hasked.toKept.trans (by constructor <;> rfl))
  obtain ⟨hfail, hmissed⟩ := bulkIn_missed hnext hasked.ticks hbad
  obtain ⟨t, htd⟩ : ∃ t, t = (bulkIn (w.atBus (.main 'G' 3))).2 := ⟨_, rfl⟩
  rw [← htd] at hmissed
  have hrun := exec_of_body (exec_digitalRead pin s) (digitalReadOp_missed_response (s := s.enter 0x04#8) ho hpin
    (Prod.ext hok hw.symm) (Prod.ext hfail htd.symm))
  exact ⟨_, hrun, rfl, rfl, hmissed.busFault, hmissed.ticks,
    ((hasked.sameSession.withFault s.busFault).trans ((hmissed.sameSession.withFault s.busFault).congr rfl rfl) |>.withCause s.lastCause).congr rfl rfl⟩

theorem eq_nil_or_singleton {α : Type} {l : List α} (h : l.length ≤ 1) : l = [] ∨ ∃ a, l = [a] := by
  rcases Nat.le_one_iff_eq_zero_or_eq_one.mp h with h0 | h1
  · exact .inl (List.length_eq_zero_iff.mp h0)
  · exact .inr (List.length_eq_one_iff.mp h1)

/-- Settles O33: the mask is changed before the frame is sent, and nothing puts it back. -/
theorem pinFrameFailure : Obligations.PinFrameFailure := by
  intro s bad rest ho hbad
  refine ⟨fun pin value hser hpin ht => ?write, fun pin mode hser hpin hmode ht => ?mode, fun hser ht => ?configure,
    fun pin pre hser hpin hpre hok ht => ?read⟩
  case write =>
    obtain ⟨t, hsend, hmissed⟩ := sendShadow_missed (s := s.enter 0x03#8) (hser.alone ht) ht (.main 'W' 3) (.out pin value) hbad
    have hrun := exec_of_body (exec_digitalWrite pin value s) ((digitalWriteOp_open (s := s.enter 0x03#8) ho hpin value).trans (by rw [hsend]))
    have hout : t.out = putBit pin value s.out := hmissed.out
    exact ⟨_, hrun, rfl, rfl, hmissed.busFault, hmissed.ticks,
      fun q hq => by rw [State.leave_out, State.fail_out, hout]; exact getLsbD_putBit hpin value s.out hq,
      ((hmissed.sameSession.withOut s.out).withCause s.lastCause).congr rfl rfl⟩
  case mode =>
    obtain ⟨t, hsend, hmissed⟩ := sendShadow_missed (s := s.enter 0x05#8) (hser.alone ht) ht (.main 'M' 4)
      (.dir pin (decide (mode = 1))) hbad
    have hrun := exec_of_body (exec_pinMode pin mode s) ((pinModeOp_open (s := s.enter 0x05#8) ho hpin hmode).trans (by rw [hsend]))
    have hdir : t.dir = putBit pin (decide (mode = 1)) s.dir := hmissed.kept.dir
    exact ⟨_, hrun, rfl, rfl, hmissed.busFault, hmissed.ticks,
      fun q hq => by rw [State.leave_dir, State.fail_dir, hdir]; exact getLsbD_putBit hpin _ s.dir hq,
      ((hmissed.sameSession.withDir s.dir).withCause s.lastCause).congr rfl rfl⟩
  case configure =>
    obtain ⟨t, hsend, hmissed⟩ := sendShadow_missed (s := (s.enter 0x06#8).atStep (.main 'I' 2)) (hser.alone ht) ht (.main 'M' 4)
      (.dir s.par.irqPin.val false) hbad
    have hrun : exec (.configureInterrupt s.par.irqPin true) s = .next ((t.fail .bulkTransferError).leave (.bool false)) :=
      exec_of_body (exec_configureInterrupt _ true s) ((configureInterruptOp_enable (s := s.enter 0x06#8) ho).trans (by
        rw [State.enter_par, hsend]; rfl))
    have hdir : t.dir = putBit s.par.irqPin.val false s.dir := hmissed.kept.dir
    exact ⟨_, hrun, rfl, rfl, hmissed.busFault, hmissed.ticks,
      fun q hq => by rw [State.leave_dir, State.fail_dir, hdir]; exact getLsbD_putBit (by omega) false s.dir hq,
      ((hmissed.sameSession.withDir s.dir).withCause s.lastCause).congr rfl rfl⟩
  case read =>
    obtain rfl | ⟨good, rfl⟩ := eq_nil_or_singleton hpre
    · exact digitalRead_request_missed ho hser hpin ht hbad
    · exact digitalRead_response_missed ho hser hpin ht (hok good (List.mem_singleton.mpr rfl)) hbad

end Sys2Proof.Machine
end

section
/-! SUPPORT. Requests answered without bus activity (42_transfer.md R165; 44_interrupt_emulation.md R198, R200; 47_packet_sequencers.md
R291, R302). -/

namespace Sys2Proof.Machine

theorem getLsbD_rev8 (b : Byte) {i : Nat} (h : i < 8) : (rev8 b).getLsbD i = b.getLsbD (7 - i) := by
  rw [rev8, BitVec.getLsbD_reverse, BitVec.getMsbD_eq_getLsbD]
  simp [h]

theorem rev8_rev8 (b : Byte) : rev8 (rev8 b) = b := BitVec.reverse_reverse_eq

/-- Settles O25: the bits of a reversal in general, the fixed points by evaluation over the bytes. -/
theorem bitReversal : Obligations.BitReversal := by
  refine ⟨fun b i hi => getLsbD_rev8 b hi, rev8_rev8, ?_, rfl, rfl, rfl, rfl⟩
  decide

/-- An operation whose body decides at once: no bus activity, the registers as the body leaves them. -/
theorem NothingSent.returned {s u : State} {op : Byte} {r : Result} (h : NothingSent (s.enter op) u) : NothingSent s (u.leave r) :=
  (NothingSent.enter s op).trans (h.trans (.leave u r))

theorem NothingSent.fail (s : State) (c : Cause) : NothingSent s (s.fail c) :=
  ⟨rfl, rfl, rfl, rfl, rfl, rfl, rfl, rfl, rfl, rfl, rfl, rfl, rfl, rfl, rfl, rfl, rfl, rfl, rfl⟩

theorem setInterruptCallbackOp_off {s : State} (h : s.irqEn = false) (fn : Nat) :
    setInterruptCallbackOp fn s = (.bool true, { s with cbSet := true }) := by
  simp only [setInterruptCallbackOp, registerCallback, h, Bool.false_eq_true, if_false]

theorem enableInterruptOp_true_off {s : State} (ho : s.isOpen = true) (hc : s.irqCfg = true) (hb : s.cbSet = true)
    (he : s.irqEn = false) : enableInterruptOp true s = (.bool true, { s with lastLevel := .unknown, irqEn := true }) := by
  simp only [enableInterruptOp_true, startLoop, ho, hc, hb, he, Bool.not_true, Bool.false_eq_true, if_false]

theorem enableInterruptOp_true_on {s : State} (ho : s.isOpen = true) (hc : s.irqCfg = true) (hb : s.cbSet = true)
    (he : s.irqEn = true) : enableInterruptOp true s = (.bool true, s) := by
  simp only [enableInterruptOp_true, startLoop, ho, hc, hb, he, Bool.not_true, Bool.false_eq_true, if_false, if_true]

/-- Settles O35: each of the three is one or two registers written. -/
theorem interruptSetup : Obligations.InterruptSetup := by
  refine ⟨fun s fn he => ?register, fun s ho hc hb he => ?start, fun s ho hc hb he => ?again⟩
  case register =>
    exact ⟨_, exec_of_body (exec_setInterruptCallback fn s) (setInterruptCallbackOp_off (s := s.enter 0x07#8) he fn), rfl, rfl,
      ⟨rfl, rfl, rfl, rfl, rfl, rfl, rfl, rfl, rfl, rfl, rfl, rfl, rfl, rfl, rfl, rfl, rfl, rfl, rfl⟩, rfl, rfl⟩
  case start =>
    exact ⟨_, exec_of_body (exec_enableInterrupt true s) (enableInterruptOp_true_off (s := s.enter 0x08#8) ho hc hb he), rfl, rfl, rfl,
      ⟨rfl, rfl, rfl, rfl, rfl, rfl, rfl, rfl, rfl, rfl, rfl, rfl, rfl, rfl, rfl, rfl, rfl, rfl, rfl⟩, rfl, rfl⟩
  case again =>
    obtain ⟨hres, hsent, hcause, henv, -, -⟩ :=
      runOp_answers_at_once (op := 0x08#8) (enableInterruptOp_true_on (s := s.enter 0x08#8) ho hc hb he)
    exact ⟨_, exec_enableInterrupt true s, hres, hsent, hcause, henv⟩

theorem exec_send (data : List Byte) (inv : Bool) (s : State) : exec (.send data inv) s = .next (runOp 0x40#8 (sendOp data inv) s) := rfl

theorem exec_startBeacon (ms : Nat) (s : State) : exec (.startBeacon ms) s = .next (runOp 0x42#8 (startBeaconOp ms) s) := rfl

theorem sendOp_tooLong {data : List Byte} (h : 255 < data.length) (inv : Bool) (s : State) :
    sendOp data inv s = (.bool false, s.fail .payloadTooLong) :=
  if_pos (show Config.maxPayload < data.length from h)

theorem startBeaconOp_tooLong {ms : Nat} (h : 65535 < ms / 1000) (s : State) :
    startBeaconOp ms s = (.unit, s.fail .invalidParameter) :=
  if_pos (show 65535 < beaconSecs ms from h)

/-- Settles O58: both tests come first. -/
theorem packetRejected : Obligations.PacketRejected :=
  ⟨fun s data inv h => ⟨_, exec_of_body (exec_send data inv s) (sendOp_tooLong h inv _), rfl, rfl, (NothingSent.fail _ _).returned, rfl⟩,
    fun s ms h => ⟨_, exec_of_body (exec_startBeacon ms s) (startBeaconOp_tooLong h _), rfl, rfl, (NothingSent.fail _ _).returned, rfl⟩⟩

end Sys2Proof.Machine
end

section
/-! SUPPORT. `open` and `close` with what their frames are answered (41_session_ops.md R151, R155). -/

namespace Sys2Proof.Machine

/-! ### The environment's answers to `open` -/

theorem State.drawEnumeration_fst {s : State} {e : Enumeration} {more : List Enumeration} (h : s.env.enums = e :: more) :
    s.drawEnumeration.1 = e := by
  simp only [State.drawEnumeration, h]

theorem State.drawEnumeration_ticks (s : State) : s.drawEnumeration.2.env.ticks = s.env.ticks := by
  unfold State.drawEnumeration; split <;> rfl

/-- The search for devices writes no register and is no line of the wire trace. -/
theorem State.enumerated_sameSession (s : State) : SameSession s s.enumerated := by
  rw [State.enumerated, s.drawEnumeration_fields]
  exact ⟨rfl, rfl, rfl, rfl, rfl, rfl, rfl, rfl, rfl, rfl, rfl, rfl, rfl, rfl⟩

theorem State.enumerated_nothingSent (s : State) : NothingSent s { s.enumerated with trace := s.trace } := by
  rw [State.enumerated, s.drawEnumeration_fields]
  exact ⟨rfl, rfl, rfl, rfl, rfl, rfl, rfl, rfl, rfl, rfl, rfl, rfl, rfl, rfl, rfl, rfl, rfl, rfl, rfl⟩

theorem State.enumerated_ticks (s : State) : s.enumerated.env.ticks = s.env.ticks := s.drawEnumeration_ticks

theorem State.enumerated_wireLog (s : State) : s.enumerated.wireLog = s.wireLog := by
  rw [State.enumerated, State.wireLog_emit, State.wireLog_congr (s := s) (by simp)]
  exact List.append_nil _

theorem State.enumerated_far (s : State) : s.enumerated.radio = s.radio ∧ s.enumerated.inQ = s.inQ := by
  rw [State.enumerated, s.drawEnumeration_fields]
  exact ⟨rfl, rfl⟩

theorem openRefused_none {p : Params} {e : Enumeration} (hi : p.devIndex < e.found) (h1 : e.openOk = true) (h2 : e.configOk = true)
    (h3 : e.claimOk = true) : openRefused p e = none := by
  simp only [openRefused, if_neg (show ¬ e.found = 0 by omega), if_neg (show ¬ e.found ≤ p.devIndex by omega), h1, h2, h3,
    Bool.not_true, Bool.false_eq_true, if_false]

/-! ### The frames of `open` -/

section
variable {s w v : State}

theorem openBus_answered (h1 : bulkOut (.speed s.par.speedValue) (s.openedProvisionally.atBus (.main 'O' 7)) = (true, w))
    (h2 : sendPins (w.openMasks.atBus (.main 'O' 9)) = (true, v)) : openBus s = (.bool true, v.openedWell) := by
  simp only [openBus, State.openedProvisionally_par, h1, h2, if_true]

theorem openBus_first_missed (h1 : bulkOut (.speed s.par.speedValue) (s.openedProvisionally.atBus (.main 'O' 7)) = (false, w)) :
    openBus s = (.bool false, openUndo w) := by
  simp only [openBus, State.openedProvisionally_par, h1, Bool.false_eq_true, if_false]

theorem openBus_second_missed (h1 : bulkOut (.speed s.par.speedValue) (s.openedProvisionally.atBus (.main 'O' 7)) = (true, w))
    (h2 : sendPins (w.openMasks.atBus (.main 'O' 9)) = (false, v)) : openBus s = (.bool false, openUndo v) := by
  simp only [openBus, State.openedProvisionally_par, h1, h2, if_true, Bool.false_eq_true, if_false]

end

/-- What an answered SPEED_CFG frame leaves. -/
structure Sped (value : BitVec 3) (rest : List Tick) (s t : State) : Prop extends Answered rest s t where
  inQ : t.inQ = s.inQ
  log : t.wireLog = s.wireLog ++ [.out ((WireCmd.speed value).frame s.par)]
  sound : s.Sound → t.Sound
  frame : s.Sound → RadioFrame 1 [] [] s t

theorem bulkOut_speed {s : State} {tk : Tick} {rest : List Tick} (h : Alone tk s) (ht : s.env.ticks = tk :: rest)
    (ha : tk.answer = .ok) (v : BitVec 3) : (bulkOut (.speed v) s).1 = true ∧ Sped v rest s (bulkOut (.speed v) s).2 := by
  have hans := bulkOut_answered h ht ha (.speed v)
  have hlog := bulkOut_log h ht ha (.speed v)
  have hwf := (Beside.bulkOut (.speed v) s).wf
  have hframe := fun hs => sendAt_still_frame (s := s) (c := .speed v) (.fg s.seq) ht hs (fun _ _ => rfl) (fun _ _ => rfl)
  rw [← bulkOut_alone h ht] at hframe
  refine ⟨by rw [bulkOut_ok h ht ha], hans, ?_, hlog, fun hs => hans.sound hs (hwf hs.radioWf), hframe⟩
  rw [bulkOut_ok h ht ha]; simp

theorem getLsbD_dirOpen (p : Fin 6) : (0x3F#6).getLsbD p.val = true := by
  revert p; decide

/-- Settles O20: the speed frame changes nothing, the pin frame delivers the masks of O8. -/
theorem openSucceeds : Obligations.OpenSucceeds := by
  intro s e more hs hclosed henums hindex hopenOk hconfigOk hclaimOk hans
  obtain ⟨t1, t2, rest, ht, g1, g2⟩ := hans.two
  obtain ⟨s0, hs0⟩ : ∃ s0, s0 = (s.enter 0x00#8).enumerated := ⟨_, rfl⟩
  have hsame : SameSession s s0 := by rw [hs0]; exact (State.enumerated_sameSession (s.enter 0x00#8)).congr rfl rfl
  obtain ⟨hradio0, hinQ0⟩ : s0.radio = s.radio ∧ s0.inQ = s.inQ := by rw [hs0]; exact State.enumerated_far _
  have hticks0 : s0.env.ticks = t1 :: t2 :: rest := by rw [hs0, State.enumerated_ticks]; exact ht
  have hlog0 : s0.wireLog = s.wireLog := by rw [hs0, State.enumerated_wireLog]; rfl
  have halone : ∀ tk, Given tk s → Alone tk s0 := fun tk g => ⟨hsame.pseq.trans g.alone.1, fun he => g.alone.2 (hsame.irqEn.symm.trans he)⟩
  have hsound0 : s0.Sound := hs.congr hsame.par hradio0
  obtain ⟨p, hp⟩ : ∃ p, p = s0.openedProvisionally.atBus (.main 'O' 7) := ⟨_, rfl⟩
  have hp1 : Alone t1 p := by rw [hp]; exact halone t1 g1
  obtain ⟨hok1, hsped⟩ := bulkOut_speed hp1 (by rw [hp]; exact hticks0) g1.ok s0.par.speedValue
  obtain ⟨w, hw⟩ : ∃ w, w = (bulkOut (.speed s0.par.speedValue) p).2 := ⟨_, rfl⟩
  rw [← hw] at hsped
  obtain ⟨q, hq⟩ : ∃ q, q = w.openMasks.atBus (.main 'O' 9) := ⟨_, rfl⟩
  have hq2 : Alone t2 q := by
    have hp2 : Alone t2 p := by rw [hp]; exact halone t2 g2
    rw [hq]; exact ⟨hsped.pseq.trans hp2.1, fun he => hp2.2 (hsped.irqEn.symm.trans he)⟩
  obtain ⟨hok2, hsent⟩ := bulkOut_pins hq2 (by rw [hq]; exact hsped.ticks) g2.ok q.out q.dir
  obtain ⟨v, hv⟩ : ∃ v, v = (bulkOut (.pins q.out q.dir) q).2 := ⟨_, rfl⟩
  rw [← hv] at hsent
  have hwpar : w.par = s.par := hsped.par.trans (by rw [hp]; exact hsame.par)
  have hqout : q.out = pinMask s.par.csPin.val := by rw [hq, ← hwpar]; rfl
  have hqdir : q.dir = 0x3F#6 := by rw [hq]; rfl
  have hbody : openOp (s.enter 0x00#8) = (.bool true, v.openedWell) := by
    rw [openOp_answered (s := s.enter 0x00#8) hclosed (by
      rw [State.drawEnumeration_fst (s := s.enter 0x00#8) henums]; exact openRefused_none hindex hopenOk hconfigOk hclaimOk), ← hs0]
    exact openBus_answered (by rw [← hp]; exact Prod.ext hok1 hw.symm) (by rw [← hq]; exact Prod.ext hok2 hv.symm)
  have hvout : v.out = pinMask s.par.csPin.val := hsent.out.trans hqout
  have hvdir : v.dir = 0x3F#6 := hsent.dir.trans hqdir
  have hvpar : v.par = s.par := hsent.par.trans (by rw [hq]; exact hwpar)
  have hvOpen : v.isOpen = true := hsent.isOpen.trans (by rw [hq]; exact hsped.isOpen.trans (by rw [hp]; rfl))
  have hvinQ : v.inQ = s.inQ := hsent.inQ.trans (by rw [hq]; exact hsped.inQ.trans (by rw [hp]; exact hinQ0))
  have hvlsb : v.lsbFirst = s.lsbFirst := hsent.lsbFirst.trans (by rw [hq]; exact hsped.lsbFirst.trans (by rw [hp]; exact hsame.lsbFirst))
  have hpinsOut : v.pinsOut = pinMask s.par.csPin.val := hsent.pinsOut.trans hqout
  have hpinsDir : v.pinsDir = 0x3F#6 := hsent.pinsDir.trans hqdir
  have hpsound : p.Sound := by rw [hp]; exact hsound0.congr rfl rfl
  have hqsound : q.Sound := by rw [hq]; exact (hsped.sound hpsound).congr rfl rfl
  have hwf : v.radio.Wf := by rw [hv]; exact (Beside.bulkOut _ q).wf hqsound.radioWf
  have hframe : RadioFrame 2 [] [] p v := (hsped.frame hpsound).andThen hsped.par (by rw [hsped.ticks, hp]; simp [hticks0])
    ((hsent.frame hqsound).congr (by rw [hq]; rfl) (by rw [hq]; rfl) (by rw [hq]; rfl) (fun _ => rfl) (fun _ => rfl))
  refine ⟨_, exec_of_body (exec_openSession s) hbody, rfl, hvOpen,
    hsent.handle.trans (by rw [hq]; exact hsped.handle.trans (by rw [hp]; rfl)), hvdir, hvout, rfl, hpinsDir, hpinsOut, hvinQ, ?session,
    ?log, hframe.congr (by rw [hp]; exact hsame.par.symm) (by rw [hp]; exact hradio0.symm) (by rw [hp]; exact ht.trans hticks0.symm)
      (fun _ => rfl) (fun _ => rfl), rfl, ?ticks, rfl, rfl, fun hempty hmsb => ?ready⟩
  case session =>
    have hpw : SameSession p w := hsped.sameSession
    have hqv : SameSession q v := hsent.sameSession
    refine ⟨hvpar, rfl, rfl, rfl, rfl, hvlsb, hqv.irqCfg.trans ?_, hqv.cbSet.trans ?_, hqv.irqEn.trans ?_, hqv.lastLevel.trans ?_, rfl,
      hqv.busFault.trans ?_, hqv.pseq.trans ?_, hqv.inbox.trans ?_⟩ <;> rw [hq]
    · exact hpw.irqCfg.trans (by rw [hp]; exact hsame.irqCfg)
    · exact hpw.cbSet.trans (by rw [hp]; exact hsame.cbSet)
    · exact hpw.irqEn.trans (by rw [hp]; exact hsame.irqEn)
    · exact hpw.lastLevel.trans (by rw [hp]; exact hsame.lastLevel)
    · exact hpw.busFault.trans (by rw [hp]; exact hsame.busFault)
    · exact hpw.pseq.trans (by rw [hp]; exact hsame.pseq)
    · exact hpw.inbox.trans (by rw [hp]; exact hsame.inbox)
  case log =>
    have hfirst : w.wireLog = s.wireLog ++ [.out ((WireCmd.speed s.par.speedValue).frame s.par)] := by
      rw [hsped.log, hp, hsame.par, ← hlog0, ← hsame.par]; rfl
    have hsecond : v.wireLog = w.wireLog ++ [.out (pinFrame s.par v.out v.dir)] := by
      rw [hsent.log, hq, ← hwpar, hsent.out, hsent.dir, hq]; rfl
    exact hsecond.trans (by rw [hfirst, List.append_assoc]; rfl)
  case ticks => exact hsent.ticks.trans (by rw [ht]; rfl)
  case ready =>
    refine ⟨by rw [State.leave_par, State.openedWell_par, hvpar]; exact hs.params, hvOpen, hvlsb.trans hmsb, ?_, ?_, hpinsOut.trans hvout.symm,
      hpinsDir.trans hvdir.symm, hvinQ.trans hempty, rfl, hwf.1, hwf.2⟩
    · simp only [State.leave_out, State.openedWell_out, State.leave_par, State.openedWell_par, hvout, hvpar, getLsbD_pinMask,
        decide_true]
    · simp only [State.leave_dir, State.openedWell_dir, State.leave_par, State.openedWell_par, hvdir, hvpar, getLsbD_dirOpen]

/-! ### A failing `open` -/

/-- The first cause that applies is the one recorded. -/
theorem openRefused_some {p : Params} {e : Enumeration} {c : Cause}
    (h : c = .noDeviceFound ∧ e.found = 0 ∨ c = .indexOutOfRange ∧ 0 < e.found ∧ e.found ≤ p.devIndex ∨
      c = .usbOpenFailed ∧ p.devIndex < e.found ∧ e.openOk = false ∨
      c = .usbConfigFailed ∧ p.devIndex < e.found ∧ e.openOk = true ∧ e.configOk = false ∨
      c = .interfaceClaimFailed ∧ p.devIndex < e.found ∧ e.openOk = true ∧ e.configOk = true ∧ e.claimOk = false) :
    openRefused p e = some c := by
  have hrange : p.devIndex < e.found → ¬ e.found = 0 ∧ ¬ e.found ≤ p.devIndex := fun hi => by omega
  rcases h with ⟨rfl, h0⟩ | ⟨rfl, h0, hi⟩ | ⟨rfl, hi, h1⟩ | ⟨rfl, hi, h1, h2⟩ | ⟨rfl, hi, h1, h2, h3⟩
  · simp [openRefused, h0]
  · simp [openRefused, hi, show ¬ e.found = 0 by omega]
  all_goals
    obtain ⟨hne, hnle⟩ := hrange hi
    simp only [openRefused, *]
    rfl

/-- What is left of a session whose opening failed at a frame: `u` is the state in which it had been opened provisionally. -/
theorem openUndo_failed {s v : State} {rest : List Tick} (hs : s.Inv) (hclosed : s.isOpen = false)
    (hv : SameSession { s with isOpen := true, handle := .valid, dir := v.dir, out := v.out, busFault := true } v)
    (hticks : v.env.ticks = rest) :
    let t := (openUndo v).leave (.bool false)
    t.res = some (.bool false) ∧ t.lastCause = .bulkTransferError ∧
      t.busFault = true ∧ t.isOpen = false ∧ t.handle = .invalid ∧ t.dir = 0x00#6 ∧ t.out = 0x00#6 ∧
      t.env.ticks = rest ∧ t.irqCfg = false ∧ t.irqEn = false ∧ t.lastLevel = .unknown ∧ t.pseq = .idle ∧
      t.seq = Seq.idle ∧ t.buf = none ∧ (t.cbSet = true → s.cbSet = true) ∧ t.par = s.par ∧ t.lsbFirst = s.lsbFirst ∧
      t.inbox = s.inbox := by
  obtain ⟨hen, hpseq⟩ := hs.loopOff_of_closed hclosed
  obtain ⟨-, -, hcfg⟩ := hs.closedRegs hclosed
  refine ⟨rfl, rfl, hv.busFault, rfl, rfl, rfl, rfl, hticks, hv.irqCfg.trans hcfg, hv.irqEn.trans hen,
    hv.lastLevel.trans (hs.pollerIdle hen).2, hv.pseq.trans hpseq, rfl, rfl, fun hset => ?_, hv.par, hv.lsbFirst, hv.inbox⟩
  have hand : (v.cbSet && Config.keepsCallback v.env.drawn) = true := hset
  exact hv.cbSet.symm.trans (Bool.and_eq_true_iff.mp hand).1

/-- Settles O21: a refusal before the frames, or the undoing after one that fails. -/
theorem openFailureCauses : Obligations.OpenFailureCauses := by
  refine ⟨fun s e more c hclosed henums hcause => ?refused,
    fun s e more pre bad rest hs hclosed henums hindex hopenOk hconfigOk hclaimOk ht hpre hok hbad => ?failed⟩
  case refused =>
    have hbody := openOp_refused (s := s.enter 0x00#8) hclosed
      (by rw [State.drawEnumeration_fst (s := s.enter 0x00#8) henums]; exact openRefused_some hcause)
    obtain ⟨u, hu⟩ : ∃ u, u = (s.enter 0x00#8).enumerated := ⟨_, rfl⟩
    have hsent : NothingSent (s.enter 0x00#8) { u with trace := s.trace } := by rw [hu]; exact State.enumerated_nothingSent _
    have hlog : u.wireLog = s.wireLog := by rw [hu]; exact State.enumerated_wireLog _
    have hticks : u.env.ticks = s.env.ticks := by rw [hu]; exact State.enumerated_ticks _
    rw [← hu] at hbody
    refine ⟨_, exec_of_body (exec_openSession s) hbody, rfl, rfl, ?_, fun hset => ?_, hlog, hticks⟩
    · exact ⟨hsent.par, hsent.isOpen, hsent.handle, hsent.dir, hsent.out, hsent.lsbFirst, hsent.irqCfg, rfl, hsent.irqEn, hsent.lastLevel,
        hsent.busFault, hsent.pseq, hsent.inbox, rfl, hsent.pinsDir, hsent.pinsOut, hsent.pinsExt, hsent.inQ, hsent.radio⟩
    · have hand : (u.cbSet && Config.keepsCallback u.env.drawn) = true := hset
      exact hsent.cbSet.symm.trans (Bool.and_eq_true_iff.mp hand).1
  case failed =>
    obtain ⟨s0, hs0⟩ : ∃ s0, s0 = (s.enter 0x00#8).enumerated := ⟨_, rfl⟩
    have hsame : SameSession s s0 := by rw [hs0]; exact (State.enumerated_sameSession (s.enter 0x00#8)).congr rfl rfl
    have hoff : s0.LoopOff := by
      obtain ⟨hen, hpseq⟩ := hs.loopOff_of_closed hclosed
      exact ⟨hsame.irqEn.trans hen, hsame.pseq.trans hpseq⟩
    have hticks0 : s0.env.ticks = pre ++ bad :: rest := by rw [hs0, State.enumerated_ticks]; exact ht
    obtain ⟨p, hp⟩ : ∃ p, p = s0.openedProvisionally.atBus (.main 'O' 7) := ⟨_, rfl⟩
    have hpoff : p.LoopOff := by rw [hp]; exact hoff
    have hpticks : p.env.ticks = pre ++ bad :: rest := by rw [hp]; exact hticks0
    have hstart : openOp (s.enter 0x00#8) = openBus s0 := by
      rw [openOp_answered (s := s.enter 0x00#8) hclosed (by
        rw [State.drawEnumeration_fst (s := s.enter 0x00#8) henums]; exact openRefused_none hindex hopenOk hconfigOk hclaimOk), ← hs0]
    obtain rfl | ⟨good, rfl⟩ := eq_nil_or_singleton hpre
    case inl =>
      obtain ⟨hfail, hmissed⟩ := bulkOut_missed (.of_loopOff hpoff bad) hpticks hbad (.speed s0.par.speedValue)
      obtain ⟨w, hw⟩ : ∃ w, w = (bulkOut (.speed s0.par.speedValue) p).2 := ⟨_, rfl⟩
      rw [← hw] at hmissed
      refine ⟨_, exec_of_body (exec_openSession s) (hstart.trans (openBus_first_missed (w := w) (by
        rw [← hp]; exact Prod.ext hfail hw.symm))), openUndo_failed hs hclosed ?_ hmissed.ticks⟩
      have hpw := hmissed.sameSession
      rw [hp] at hpw
      exact ⟨hpw.par.trans hsame.par, hpw.isOpen, hpw.handle, rfl, rfl, hpw.lsbFirst.trans hsame.lsbFirst, hpw.irqCfg.trans hsame.irqCfg,
        hpw.cbSet.trans hsame.cbSet, hpw.irqEn.trans hsame.irqEn, hpw.lastLevel.trans hsame.lastLevel,
        hpw.lastCause.trans hsame.lastCause, hmissed.busFault, hpw.pseq.trans hsame.pseq, hpw.inbox.trans hsame.inbox⟩
    case inr =>
      obtain ⟨hok1, hsped⟩ := bulkOut_speed (.of_loopOff hpoff good) hpticks (hok good (List.mem_singleton.mpr rfl)) s0.par.speedValue
      obtain ⟨w, hw⟩ : ∃ w, w = (bulkOut (.speed s0.par.speedValue) p).2 := ⟨_, rfl⟩
      rw [← hw] at hsped
      have hqoff : (w.openMasks.atBus (.main 'O' 9)).LoopOff := ⟨hsped.irqEn.trans hpoff.1, hsped.pseq.trans hpoff.2⟩
      obtain ⟨hfail, hmissed⟩ := bulkOut_missed (.of_loopOff hqoff bad) hsped.ticks hbad
        (.pins (w.openMasks.atBus (.main 'O' 9)).out (w.openMasks.atBus (.main 'O' 9)).dir)
      obtain ⟨v, hv⟩ : ∃ v, v = (sendPins (w.openMasks.atBus (.main 'O' 9))).2 := ⟨_, rfl⟩
      have hmissed' : Missed rest (w.openMasks.atBus (.main 'O' 9)) v := by rw [hv]; exact hmissed
      refine ⟨_, exec_of_body (exec_openSession s) (hstart.trans (openBus_second_missed (w := w) (v := v) (by
        rw [← hp]; exact Prod.ext hok1 hw.symm) (Prod.ext hfail hv.symm))), openUndo_failed hs hclosed ?_ hmissed'.ticks⟩
      have hpw := hsped.sameSession
      rw [hp] at hpw
      have hqv := hmissed'.sameSession
      exact ⟨hqv.par.trans (hpw.par.trans hsame.par), hqv.isOpen.trans hpw.isOpen, hqv.handle.trans hpw.handle, rfl, rfl,
        hqv.lsbFirst.trans (hpw.lsbFirst.trans hsame.lsbFirst), hqv.irqCfg.trans (hpw.irqCfg.trans hsame.irqCfg),
        hqv.cbSet.trans (hpw.cbSet.trans hsame.cbSet), hqv.irqEn.trans (hpw.irqEn.trans hsame.irqEn),
        hqv.lastLevel.trans (hpw.lastLevel.trans hsame.lastLevel), hqv.lastCause.trans (hpw.lastCause.trans hsame.lastCause),
        hmissed'.busFault, hqv.pseq.trans (hpw.pseq.trans hsame.pseq), hqv.inbox.trans (hpw.inbox.trans hsame.inbox)⟩

/-! ### `close` -/

/-- With no POLL_STEP in progress the stop is one register. -/
theorem stopPoller_idle {s : State} (h : s.pseq = .idle) : stopPoller s = { s with irqEn := false } := by
  unfold stopPoller
  split
  · exact joinPoller_idle _ h
  · next he =>
    have : s.irqEn = false := by simpa using he
    rw [← this]

/-- The registers `close` writes before its frame. -/
theorem close_frame {s : State} {tk : Tick} {rest : List Tick} (hs : s.Sound) (hidle : s.pseq = .idle) (ht : s.env.ticks = tk :: rest) :
    let u := (stopPoller s).closeMasks.atBus (.main 'C' 4)
    let t := (sendPins u).2
    t.lastCause = s.lastCause ∧ t.inQ = s.inQ ∧ RadioFrame 1 [] [] s t ∧ t.env.ticks = rest ∧
      (tk.answer = .ok → t.pinsDir = 0x00#6 ∧ t.pinsOut = 0x00#6 ∧ t.busFault = s.busFault ∧
        t.wireLog = s.wireLog ++ [.out (pinFrame s.par 0x00#6 0x00#6)]) ∧
      (tk.answer ≠ .ok → t.busFault = true ∧ t.wireLog = s.wireLog ++ [.outFailed (pinFrame s.par 0x00#6 0x00#6)]) := by
  intro u t
  have hu : u = ({ s with irqEn := false } : State).closeMasks.atBus (.main 'C' 4) := by
    simp only [u, stopPoller_idle hidle]
  have halone : Alone tk u := .of_loopOff (by rw [hu]; exact ⟨rfl, hidle⟩) tk
  have hticks : u.env.ticks = tk :: rest := by rw [hu]; exact ht
  have hsend : t = (bulkOut (.pins 0x00#6 0x00#6) u).2 := by
    simp only [t, sendPins]
    rw [show u.out = 0x00#6 by rw [hu]; rfl, show u.dir = 0x00#6 by rw [hu]; rfl]
  have husound : u.Sound := by rw [hu]; exact hs.congr rfl rfl
  have hframe := sendAt_still_frame (s := u) (.fg u.seq) hticks husound (adapterRun_pins_reg tk 0x00#6 0x00#6)
    (adapterRun_pins_fifoAt tk 0x00#6 0x00#6)
  rw [← bulkOut_alone halone hticks, ← hsend] at hframe
  have hframe' : RadioFrame 1 [] [] s t := hframe.congr (by rw [hu]; rfl) (by rw [hu]; rfl) (by rw [hu]; rfl) (fun _ => rfl) (fun _ => rfl)
  have hinQ : t.inQ = s.inQ := by
    rw [hsend]
    by_cases ha : tk.answer = .ok
    · rw [bulkOut_ok halone hticks ha, hu]; simp
    · rw [bulkOut_fail halone hticks ha, hu]; split <;> simp
  by_cases ha : tk.answer = .ok
  · obtain ⟨-, hsent⟩ := bulkOut_pins halone hticks ha 0x00#6 0x00#6
    rw [← hsend] at hsent
    refine ⟨hsent.lastCause.trans (by rw [hu]; rfl), hinQ, hframe', hsent.ticks, fun _ => ⟨hsent.pinsDir, hsent.pinsOut,
      hsent.busFault.trans (by rw [hu]; rfl), hsent.log.trans (by rw [hu]; rfl)⟩, fun hne => absurd ha hne⟩
  · obtain ⟨-, hmissed⟩ := bulkOut_missed halone hticks ha (.pins 0x00#6 0x00#6)
    have hlog := bulkOut_fail_log halone hticks ha (.pins 0x00#6 0x00#6)
    rw [← hsend] at hmissed hlog
    exact ⟨hmissed.sameSession.lastCause.trans (by rw [hu]; rfl), hinQ, hframe', hmissed.ticks, fun hok => absurd hok ha,
      fun _ => ⟨hmissed.busFault, hlog.trans (by rw [hu]; rfl)⟩⟩

/-- Settles O23. -/
theorem closeEffect : Obligations.CloseEffect := by
  refine ⟨fun s hclosed => ?closed, fun s hs hopen => ?opened, fun s tk rest hs hopen hidle ht => ?frame⟩
  case closed =>
    obtain ⟨hres, hsent, hcause, henv, -, -⟩ := runOp_answers_at_once (op := 0x01#8) (closeOp_closed (s := s.enter 0x01#8) hclosed)
    exact ⟨_, exec_closeSession s, hres, hsent, hcause, henv⟩
  case opened =>
    have h := ClosedFrom.runOp hopen fun he => (hs.pollerIdle he).1
    have hset : (runOp 0x01#8 closeOp s).cbSet = s.cbSet := by
      cases hen : s.irqEn with
      | false => exact h.cbSetOff hen
      | true =>
        obtain ⟨-, -, hset⟩ := hs.pollerNeeds hen
        exact (h.cbSet hset).trans hset.symm
    refine ⟨_, exec_closeSession s, ?_, h.isOpen, h.handle, h.dir, h.out, h.irqCfg, h.irqEn, h.lastLevel, h.pseq, rfl, rfl, hset, h.par,
      h.lsbFirst, h.inbox, h.txn⟩
    rw [runOp_res, closeOp_open (s := s.enter 0x01#8) hopen]
  case frame =>
    obtain ⟨hcause, hinQ, hframe, hticks, hok, hfail⟩ := close_frame (s := s.enter 0x01#8) (hs.congr rfl rfl) hidle ht
    exact ⟨_, exec_of_body (exec_closeSession s) (closeOp_open (s := s.enter 0x01#8) hopen), hcause, hinQ,
      hframe.congr rfl rfl rfl (fun _ => rfl) (fun _ => rfl), hticks, hok, hfail⟩

end Sys2Proof.Machine
end

section
/-! SUPPORT. What every instruction does to the session: one case per kind of instruction, and what follows from it for the constants, the
session, the loop and the trace (10_state.md R20, R33). -/

namespace Sys2Proof.Machine

/-- How an instruction came to the state it leaves: by its kind, or by the operation that writes a register of the session or the
loop. -/
inductive Ran : Instr → State → State → Prop where
  | farEnd {i : Instr} {s t : State} (hi : Instr.steersSession i = false) (h : SameSession s t) (htrace : t.trace = s.trace) : Ran i s t
  | poller (s : State) : Ran .pollStep s (pollStepRun s)
  | contained {i : Instr} {s t : State} (hi : Instr.steersSession i = false) (h : Contained s t) : Ran i s t
  | opened (s : State) : Ran .openSession s (runOp 0x00#8 openOp s)
  | closed (s : State) : Ran .closeSession s (runOp 0x01#8 closeOp s)
  | configured (pin : Nat) (en : Bool) (s : State) : Ran (.configureInterrupt pin en) s (runOp 0x06#8 (configureInterruptOp pin en) s)
  | registered (fn : Nat) (s : State) : Ran (.setInterruptCallback fn) s (runOp 0x07#8 (setInterruptCallbackOp fn) s)
  | steered (en : Bool) (s : State) : Ran (.enableInterrupt en) s (runOp 0x08#8 (enableInterruptOp en) s)

theorem Ran.of_exec {i : Instr} {s t : State} (h : exec i s = .next t) : Ran i s t := by
  cases hlevel : i.level with
  | wire | serial =>
    obtain ⟨u, hu, hsame, -, -, htrace, -⟩ := exec_farEnd i s (by simp [hlevel])
    cases h.symm.trans hu
    refine .farEnd ?_ hsame htrace
    cases i <;> first | rfl | exact Level.noConfusion hlevel
  | agent =>
    cases i with
    | pollStep => cases h; exact .poller s
    | _ => exact Level.noConfusion hlevel
  | operation =>
    cases hsteer : Instr.steersSession i with
    | false =>
      obtain ⟨u, hu, hcont, -, -⟩ := exec_contained i s hlevel hsteer
      cases h.symm.trans hu
      exact .contained hsteer hcont
    | true =>
      cases i with
      | openSession => cases h; exact .opened s
      | closeSession => cases h; exact .closed s
      | configureInterrupt pin en => cases h; exact .configured pin en s
      | setInterruptCallback fn => cases h; exact .registered fn s
      | enableInterrupt en => cases h; exact .steered en s
      | _ => exact Bool.noConfusion hsteer

/-! ### What no instruction writes -/

/-- The registers no instruction writes, the arrivals, and what is only ever set. -/
structure Lasting (s t : State) : Prop where
  par : t.par = s.par
  lsbFirst : t.lsbFirst = s.lsbFirst
  inbox : t.inbox = s.inbox
  fault : s.busFault = true → t.busFault = true
  cbSet : s.cbSet = true → t.cbSet = true

theorem Lasting.refl (s : State) : Lasting s s := ⟨rfl, rfl, rfl, id, id⟩

theorem Lasting.trans {s t u : State} (h : Lasting s t) (k : Lasting t u) : Lasting s u :=
  ⟨k.par.trans h.par, k.lsbFirst.trans h.lsbFirst, k.inbox.trans h.inbox, k.fault ∘ h.fault, k.cbSet ∘ h.cbSet⟩

theorem Lasting.openedProvisionally (s : State) : Lasting s s.openedProvisionally := ⟨rfl, rfl, rfl, id, id⟩

theorem Steady.lasting {s t : State} (h : Steady s t) : Lasting s t := ⟨h.par, h.lsbFirst, h.inbox, h.fault, h.cbSet⟩

theorem SameSession.lasting {s t : State} (h : SameSession s t) : Lasting s t :=
  ⟨h.par, h.lsbFirst, h.inbox, fun e => h.busFault.trans e, fun e => h.cbSet.trans e⟩

/-- Both ends of an operation write only its own position and the result. -/
theorem Lasting.runOp {op : Byte} {body : State → Result × State} {s : State} (h : Lasting (s.enter op) (body (s.enter op)).2) :
    Lasting s (runOp op body s) := ⟨h.par, h.lsbFirst, h.inbox, h.fault, h.cbSet⟩

theorem Lasting.closeOp (s : State) : Lasting s (closeOp s).2 := by
  cases hopen : s.isOpen with
  | false => rw [closeOp_closed hopen]; exact .refl s
  | true =>
    rw [closeOp_open hopen]
    have hstop := (Beside.stopPoller s).toSteady.lasting
    have hsend := (Calm.sendPins ((stopPoller s).closeMasks.atBus (.main 'C' 4))).toSteady.lasting
    exact ⟨hsend.par.trans hstop.par, hsend.lsbFirst.trans hstop.lsbFirst, hsend.inbox.trans hstop.inbox,
      hsend.fault ∘ hstop.fault, hsend.cbSet ∘ hstop.cbSet⟩

theorem Lasting.enableInterruptOp (en : Bool) (s : State) : Lasting s (enableInterruptOp en s).2 := by
  cases en with
  | true => exact (Beside.startLoop s).toSteady.lasting
  | false =>
    cases hen : s.irqEn with
    | false => rw [enableInterruptOp_false_off hen]; exact .refl s
    | true =>
      rw [enableInterruptOp_false_on hen]
      have hjoin := (Beside.joinPoller { s with irqEn := false }).toSteady.lasting
      exact ⟨hjoin.par, hjoin.lsbFirst, hjoin.inbox, hjoin.fault, hjoin.cbSet⟩

/-- A refused or undone opening, with `CB_SET` in doubt (log 20); anything else of it lasts. -/
theorem openOp_lasting (s : State) : Lasting s (openOp s).2 ∨
    (openOp s).1 = .bool false ∧ Lasting s { (openOp s).2 with cbSet := true } := by
  cases hopen : s.isOpen with
  | true => rw [openOp_of_isOpen hopen]; exact .inl (.refl s)
  | false =>
    have hfirst := (Calm.enumerated s).toSteady.lasting
    rcases openOp_cases hopen with ⟨c, he⟩ | ⟨v, hv, he | he⟩ <;> rw [he]
    · exact .inr ⟨rfl, hfirst.par, hfirst.lsbFirst, hfirst.inbox, hfirst.fault, fun _ => rfl⟩
    · have h := (hfirst.trans (.openedProvisionally _)).trans hv.toSteady.lasting
      exact .inl ⟨h.par, h.lsbFirst, h.inbox, h.fault, h.cbSet⟩
    · have h := (hfirst.trans (.openedProvisionally _)).trans hv.toSteady.lasting
      exact .inr ⟨rfl, h.par, h.lsbFirst, h.inbox, h.fault, fun _ => rfl⟩

/-- Every instruction but a failing `open` lasts; that one, but for `CB_SET`. -/
theorem Ran.lasting {i : Instr} {s t : State} (h : Ran i s t) :
    Lasting s t ∨ i = .openSession ∧ t.res = some (.bool false) ∧ Lasting s { t with cbSet := true } := by
  cases h with
  | farEnd _ h => exact .inl h.lasting
  | poller => exact .inl (Beside.pollStepRun s).toSteady.lasting
  | contained _ h => exact .inl h.toSteady.lasting
  | opened =>
    rcases openOp_lasting (s.enter 0x00#8) with h | ⟨hres, h⟩
    · exact .inl h.runOp
    · exact .inr ⟨rfl, by rw [runOp_res, hres], h.par, h.lsbFirst, h.inbox, h.fault, h.cbSet⟩
  | closed => exact .inl (Lasting.closeOp _).runOp
  | configured pin en => exact .inl (Steered.configureInterruptOp pin en _).1.toSteady.lasting.runOp
  | registered fn => exact .inl (Steered.setInterruptCallbackOp fn _).1.toSteady.lasting.runOp
  | steered en => exact .inl (Lasting.enableInterruptOp en _).runOp

/-- Settles O12. -/
theorem constantsKept : Obligations.ConstantsKept := by
  intro i s t h
  rcases (Ran.of_exec h).lasting with hl | ⟨hi, hres, hl⟩
  · exact ⟨hl.par, hl.lsbFirst, hl.inbox, hl.fault, fun hs => .inl (hl.cbSet hs)⟩
  · exact ⟨hl.par, hl.lsbFirst, hl.inbox, hl.fault, fun _ => .inr ⟨hi, hres⟩⟩

/-! ### What opens and closes the session, starts and stops the loop, registers a callback -/

/-- An instruction that keeps the session, and with a loop keeps both the loop and the callback. -/
structure SameLoop (s t : State) : Prop where
  isOpen : t.isOpen = s.isOpen
  handle : t.handle = s.handle
  irqEn : t.irqEn = s.irqEn
  cbSet : t.cbSet = s.cbSet

/-- While the loop runs it stays; without it POLLER has no steps, so what `h` says of a run without POLLER decides. -/
theorem Steady.sameLoop {s t : State} (hs : s.Inv) (k : Steady s t) (h : s.LoopOff → t.irqEn = false ∧ t.cbSet = s.cbSet) :
    SameLoop s t := by
  cases hen : s.irqEn with
  | true =>
    obtain ⟨hloop, hset⟩ := k.loop hen
    exact ⟨k.isOpen, k.handle, hloop.trans hen.symm, hset⟩
  | false =>
    obtain ⟨hloop, hset⟩ := h (hs.loopOff hen)
    exact ⟨k.isOpen, k.handle, hloop.trans hen.symm, hset⟩

theorem Calm.sameLoop {s t : State} (hs : s.Inv) (h : Calm s t) : SameLoop s t :=
  h.toSteady.sameLoop hs fun hoff => by
    obtain ⟨hloop, -, -, hset, -⟩ := h.quiet hoff
    exact ⟨hloop.1, hset⟩

/-- Where no loop runs on a closed session, `open` keeps the loop register, and `CB_SET` unless it fails. -/
theorem openOp_sameLoop {s : State} (hs : s.isOpen = false → s.LoopOff) : (openOp s).2.irqEn = s.irqEn ∧
    ((openOp s).2.cbSet = s.cbSet ∨ (openOp s).1 = .bool false ∧ s.cbSet = true) := by
  cases hopen : s.isOpen with
  | true => rw [openOp_of_isOpen hopen]; exact ⟨rfl, .inl rfl⟩
  | false =>
    have hfirst := Calm.enumerated s
    have hoff := hs hopen
    obtain ⟨hoff1, -, -, hset1, -⟩ := hfirst.quiet hoff
    have hdoubt : ∀ u : State, u.cbSet = s.cbSet →
        u.callbackDoubt.cbSet = s.cbSet ∨ (Result.bool false = .bool false ∧ s.cbSet = true) := fun u hu => by
      cases hset : s.cbSet with
      | true => exact .inr ⟨rfl, rfl⟩
      | false => exact .inl (by rw [State.callbackDoubt_cbSet, hu, hset]; rfl)
    rcases openOp_cases hopen with ⟨c, he⟩ | ⟨v, hv, he⟩
    · rw [he]
      exact ⟨hoff1.1.trans hoff.1.symm, hdoubt _ hset1⟩
    · obtain ⟨hoff2, -, -, hset2, -⟩ := hv.quiet hoff1
      rcases he with he | he <;> rw [he]
      · exact ⟨hoff2.1.trans hoff.1.symm, .inl (hset2.trans hset1)⟩
      · exact ⟨hoff2.1.trans hoff.1.symm, hdoubt (({ v with handle := .invalid, isOpen := false, dir := 0x00#6, out := 0x00#6 } :
          State).fail .bulkTransferError) (hset2.trans hset1)⟩

/-- A callback is never lost but by a failing `open`: with a loop there is one, and without a loop nothing but FG runs. -/
theorem State.Inv.cbSet_of_mono {s : State} {b : Bool} (hs : s.Inv) (hmono : s.cbSet = true → b = true)
    (hoff : s.irqEn = false → b = s.cbSet) : b = s.cbSet := by
  cases hen : s.irqEn with
  | false => exact hoff hen
  | true =>
    obtain ⟨-, -, hset⟩ := hs.pollerNeeds hen
    exact (hmono hset).trans hset.symm

/-- Settles O13, by the kind of instruction. -/
theorem sessionChangesOnlyBy : Obligations.SessionChangesOnlyBy := by
  intro i s t hs h
  have hall : ∀ {u : State}, SameLoop s u → (i ≠ .openSession → i ≠ .closeSession → u.isOpen = s.isOpen ∧ u.handle = s.handle) ∧
      ((∀ en, i ≠ .enableInterrupt en) → i ≠ .closeSession → u.irqEn = s.irqEn) ∧
      ((∀ fn, i ≠ .setInterruptCallback fn) → u.cbSet = s.cbSet ∨
        i = .openSession ∧ u.res = some (.bool false) ∧ s.cbSet = true) := fun k =>
    ⟨fun _ _ => ⟨k.isOpen, k.handle⟩, fun _ _ => k.irqEn, fun _ => .inl k.cbSet⟩
  cases Ran.of_exec h with
  | farEnd _ h => exact hall ⟨h.isOpen, h.handle, h.irqEn, h.cbSet⟩
  | poller =>
    exact hall ((Beside.pollStepRun s).toSteady.sameLoop hs fun hoff => by rw [pollStepRun_loopOff s hoff]; exact ⟨hoff.1, rfl⟩)
  | contained _ h => exact hall (h.toCalm.sameLoop hs)
  | opened =>
    obtain ⟨hloop, hset⟩ := openOp_sameLoop (s := s.enter 0x00#8) hs.loopOff_of_closed
    refine ⟨fun hne => absurd rfl hne, fun _ _ => hloop, fun _ => ?_⟩
    rcases hset with hset | ⟨hres, hset⟩
    · exact .inl hset
    · exact .inr ⟨rfl, by rw [runOp_res, hres], hset⟩
  | closed =>
    refine ⟨fun _ hne => absurd rfl hne, fun _ hne => absurd rfl hne, fun _ => .inl ?_⟩
    refine hs.cbSet_of_mono (Lasting.closeOp (s.enter 0x01#8)).runOp.cbSet fun hen => ?_
    cases hopen : s.isOpen with
    | true => exact (ClosedFrom.runOp hopen fun he => (hs.pollerIdle he).1).cbSetOff hen
    | false =>
      rw [runOp, closeOp_closed (s := s.enter 0x01#8) hopen]; rfl
  | configured pin en =>
    obtain ⟨hsteer, hoff⟩ := Steered.configureInterruptOp pin en (s.enter 0x06#8)
    exact hall (hsteer.runOp.toSteady.sameLoop hs hoff)
  | registered fn =>
    obtain ⟨hsteer, hen⟩ := Steered.setInterruptCallbackOp fn (s.enter 0x07#8)
    have hrun := hsteer.runOp
    exact ⟨fun _ _ => ⟨hrun.isOpen, hrun.handle⟩, fun _ _ => hen, fun hne => absurd rfl (hne fn)⟩
  | steered en =>
    have hsame : (runOp 0x08#8 (enableInterruptOp en) s).isOpen = s.isOpen ∧ (runOp 0x08#8 (enableInterruptOp en) s).handle = s.handle := by
      cases en with
      | true => exact ⟨(Steered.startLoop (s.enter 0x08#8)).1.isOpen, (Steered.startLoop (s.enter 0x08#8)).1.handle⟩
      | false =>
        cases hen : s.irqEn with
        | false => rw [runOp, enableInterruptOp_false_off (s := s.enter 0x08#8) hen]; exact ⟨rfl, rfl⟩
        | true =>
          have hjoin := Beside.joinPoller { s.enter 0x08#8 with irqEn := false }
          rw [runOp, enableInterruptOp_false_on (s := s.enter 0x08#8) hen]
          exact ⟨hjoin.isOpen, hjoin.handle⟩
    refine ⟨fun _ _ => hsame, fun hne => absurd rfl (hne en), fun _ => .inl ?_⟩
    refine hs.cbSet_of_mono (Lasting.enableInterruptOp en (s.enter 0x08#8)).runOp.cbSet fun hen => ?_
    cases en with
    | true => exact (Steered.startLoop (s.enter 0x08#8)).2
    | false => rw [runOp, enableInterruptOp_false_off (s := s.enter 0x08#8) hen]; rfl

/-! ### Without a loop every event is FG's own -/

/-- What is new in the trace is none of POLLER's. -/
def OwnTrace (s t : State) : Prop := ∃ new, t.trace = new ++ s.trace ∧ ∀ e ∈ new, e.byPoller = false

theorem OwnTrace.trans {s t u : State} (h : OwnTrace s t) (k : OwnTrace t u) : OwnTrace s u := by
  obtain ⟨n, hn, hown⟩ := h
  obtain ⟨m, hm, hown'⟩ := k
  refine ⟨m ++ n, by rw [hm, hn, List.append_assoc], fun e he => ?_⟩
  rcases List.mem_append.mp he with he | he
  · exact hown' e he
  · exact hown e he

theorem Calm.ownTrace {s t : State} (h : Calm s t) (hoff : s.LoopOff) : OwnTrace s t := by
  obtain ⟨-, -, -, -, hown⟩ := h.quiet hoff
  exact hown

theorem openOp_ownTrace {s : State} (hoff : s.LoopOff) : OwnTrace s (openOp s).2 := by
  cases hopen : s.isOpen with
  | true => rw [openOp_of_isOpen hopen]; exact own_of_trace_eq rfl
  | false =>
    have hfirst := Calm.enumerated s
    have hoff1 := hfirst.loopOff hoff
    rcases openOp_cases hopen with ⟨c, he⟩ | ⟨v, hv, he | he⟩ <;> rw [he]
    · exact hfirst.ownTrace hoff
    all_goals exact (hfirst.ownTrace hoff).trans (hv.ownTrace hoff1)

theorem closeOp_ownTrace {s : State} (hoff : s.LoopOff) : OwnTrace s (closeOp s).2 := by
  cases hopen : s.isOpen with
  | false => rw [closeOp_closed hopen]; exact own_of_trace_eq rfl
  | true =>
    rw [closeOp_open hopen, stopPoller_idle hoff.2]
    exact (Calm.sendPins (({ s with irqEn := false } : State).closeMasks.atBus (.main 'C' 4))).ownTrace ⟨rfl, hoff.2⟩

/-- Settles O14. -/
theorem noPollerNoCallback : Obligations.NoPollerNoCallback := by
  intro i s t hoff h
  cases Ran.of_exec h with
  | farEnd _ _ htrace => exact own_of_trace_eq htrace
  | poller => rw [pollStepRun_loopOff s hoff]; exact own_of_trace_eq rfl
  | contained _ h => exact h.toCalm.ownTrace hoff
  | opened => exact openOp_ownTrace (s := s.enter 0x00#8) hoff
  | closed => exact closeOp_ownTrace (s := s.enter 0x01#8) hoff
  | configured pin en => exact (Steered.configureInterruptOp pin en (s.enter 0x06#8)).1.own hoff
  | registered fn => exact (Steered.setInterruptCallbackOp fn (s.enter 0x07#8)).1.own hoff
  | steered en =>
    cases en with
    | true => exact (Steered.startLoop (s.enter 0x08#8)).1.own hoff
    | false => rw [runOp, enableInterruptOp_false_off (s := s.enter 0x08#8) hoff.1]; exact own_of_trace_eq rfl

end Sys2Proof.Machine
end

section
/-! SUPPORT. Chains of register accesses on a ready session: what a chain leaves of the session, of the wire and of the radio, link by
link; and what one read or write by class adds as a link (45_register_access.md). -/

namespace Sys2Proof.Machine

/-- In the next `n` bulk transactions RADIO by itself changes no register outside `own` and no FIFO byte. -/
def State.RadioOnly (n : Nat) (own : List RegAddr) (s : State) : Prop :=
  ∀ tk ∈ s.env.ticks.take n, ∀ r : Radio, (∀ a, a ∉ own → (r.act s.par tk.radio).reg a = r.reg a) ∧
    ∀ b, (r.act s.par tk.radio).fifoByte b = r.fifoByte b

/-- A chain of register accesses between two running states: the session and the wire, the registers in `w` and the FIFO bytes in `f`
that it writes, and what RADIO's own steps can make of the rest. -/
structure Chain (accs : List RegAccess) (w : List RegAddr) (f : List Byte) (s t : State) : Prop where
  access : Access accs { s with buf := none } { t with buf := none }
  running : t.Running
  frame : RadioFrame (6 * accs.length) w f s t
  regs : ∀ own, s.RadioOnly (6 * accs.length) own → ∀ a, a ∉ w → a ∉ own → t.reg a = s.reg a
  fifo : ∀ own, s.RadioOnly (6 * accs.length) own → ∀ b, b ∉ f → t.fifoAt b = s.fifoAt b
  flags : ∀ never, s.par.regIrqFlags ∉ w → (∀ tk ∈ s.env.ticks.take (6 * accs.length), tk.radio.setFlags &&& never = 0#8) →
    s.reg s.par.regIrqFlags &&& never = 0#8 → t.reg s.par.regIrqFlags &&& never = 0#8

theorem State.RadioStill.only {n : Nat} {s : State} (h : s.RadioStill n) (own : List RegAddr) : s.RadioOnly n own :=
  fun tk htk r => by rw [h tk htk, Radio.act_nothing]; exact ⟨fun _ _ => rfl, fun _ => rfl⟩

section
variable {accs accs' : List RegAccess} {w w' : List RegAddr} {f f' : List Byte} {s t u : State}

theorem Chain.par (h : Chain accs w f s t) : t.par = s.par := h.access.par

theorem Chain.out (h : Chain accs w f s t) : t.out = s.out := h.access.out

theorem Chain.isOpen (h : Chain accs w f s t) : t.isOpen = s.isOpen := h.access.isOpen

theorem Chain.clocks (h : Chain accs w f s t) : t.env.clocks = s.env.clocks := h.access.clocks

theorem Chain.ticks (h : Chain accs w f s t) : t.env.ticks = s.env.ticks.drop (6 * accs.length) := h.access.ticks

/-- Where the answers of a chain end those of the next one begin. -/
theorem Chain.answers (h : Chain accs w f s t) {m n : Nat} (ha : s.Answers m) (hm : 6 * accs.length + n ≤ m) : t.Answers n :=
  (h.access.answers (n := n) ((ha.mono hm).congr rfl rfl rfl)).congr rfl rfl rfl

theorem Chain.mem_take (h : Chain accs w f s t) {n : Nat} {tk : Tick} (htk : tk ∈ t.env.ticks.take n) :
    tk ∈ s.env.ticks.take (6 * accs.length + n) := by
  rw [List.take_add]
  exact List.mem_append.mpr (.inr (by rw [← h.ticks]; exact htk))

theorem Chain.still (h : Chain accs w f s t) {m n : Nat} (hs : s.RadioStill m) (hm : 6 * accs.length + n ≤ m) : t.RadioStill n :=
  fun tk htk => hs.mono hm tk (h.mem_take htk)

theorem State.RadioOnly.mono {own : List RegAddr} {m n : Nat} (h : s.RadioOnly n own) (hm : m ≤ n) : s.RadioOnly m own :=
  fun tk htk => h tk ((List.take_sublist_take_left hm).subset htk)

theorem Chain.only (h : Chain accs w f s t) {own : List RegAddr} {n : Nat} (hs : s.RadioOnly (6 * accs.length + n) own) :
    t.RadioOnly n own := fun tk htk => by
  rw [h.par]
  exact hs tk (h.mem_take htk)

theorem Chain.refl (hr : s.Running) : Chain [] [] [] s s :=
  ⟨.refl rfl hr.inQEmpty hr.txnEmpty, hr, .refl s, fun _ _ _ _ _ => rfl, fun _ _ _ _ => rfl, fun _ _ _ h => h⟩

theorem Chain.trans (h : Chain accs w f s t) (k : Chain accs' w' f' t u) :
    Chain (accs ++ accs') (w ++ w') (f ++ f') s u := by
  have hlen : 6 * (accs ++ accs').length = 6 * accs.length + 6 * accs'.length := by rw [List.length_append, Nat.mul_add]
  refine ⟨h.access.trans k.access, k.running, ?_, fun own hs a hw ho => ?_, fun own hs b hf => ?_, fun never hw hn h0 => ?_⟩
  · rw [hlen]; exact h.frame.andThen h.par h.ticks k.frame
  · obtain ⟨h1, h2⟩ := not_or.mp (mt List.mem_append.mpr hw)
    rw [hlen] at hs
    rw [k.regs own (h.only hs) a h2 ho, h.regs own (hs.mono (Nat.le_add_right _ _)) a h1 ho]
  · obtain ⟨h1, h2⟩ := not_or.mp (mt List.mem_append.mpr hf)
    rw [hlen] at hs
    rw [k.fifo own (h.only hs) b h2, h.fifo own (hs.mono (Nat.le_add_right _ _)) b h1]
  · obtain ⟨h1, h2⟩ := not_or.mp (mt List.mem_append.mpr hw)
    rw [hlen] at hn
    have hpar := h.par
    have hstep := k.flags never (by rw [hpar]; exact h2) (fun tk htk => hn tk (h.mem_take htk))
    rw [hpar] at hstep
    exact hstep (h.flags never h1 (fun tk htk => hn tk ((List.take_sublist_take_left (Nat.le_add_right _ _)).subset htk)) h0)

/-- A chain that is said to write more. -/
theorem Chain.mono (h : Chain accs w f s t) (hw : w ⊆ w') (hf : f ⊆ f') : Chain accs w' f' s t :=
  ⟨h.access, h.running, h.frame.mono hw hf, fun own hs a ha => h.regs own hs a (fun e => ha (hw e)),
    fun own hs b hb => h.fifo own hs b (fun e => hb (hf e)), fun never hn => h.flags never (fun e => hn (hw e))⟩

/-- Writes of FG's own position and of the buffers are no part of a chain. -/
theorem Chain.atStep {l : Label} (h : Chain accs w f (s.atStep l) t) : Chain accs w f s t :=
  ⟨⟨⟨h.access.par, h.access.isOpen, h.access.handle, h.access.dir, h.access.lsbFirst, h.access.irqCfg, h.access.cbSet,
      h.access.irqEn, h.access.lastLevel, h.access.lastCause, h.access.pseq, h.access.inbox, h.access.res, h.access.enums,
      h.access.clocks, h.access.opFault⟩, h.access.out, h.access.busFault, h.access.buf, h.access.latchOut, h.access.latchDir,
      h.access.inQ, h.access.txn, h.access.ticks, h.access.frames⟩, h.running,
    h.frame.congr rfl rfl rfl (fun _ => rfl) (fun _ => rfl), h.regs, h.fifo, h.flags⟩

theorem State.Running.sleepFor (h : s.Running) (q : Rat) : (s.sleepFor q).Running :=
  ⟨⟨h.params, h.isOpen, h.msbFirst, h.csHigh, h.csOutput, h.latchOut, h.latchDir, h.inQEmpty, h.txnEmpty,
    h.regsWf, h.fifoWf⟩, h.noFault⟩

/-- A sleep is no access. -/
theorem Chain.sleepFor (hr : s.Running) (q : Rat) : Chain [] [] [] s (s.sleepFor q) := by
  refine ⟨⟨⟨rfl, rfl, rfl, rfl, rfl, rfl, rfl, rfl, rfl, rfl, rfl, rfl, rfl, rfl, rfl, rfl⟩, rfl, rfl, rfl, rfl, rfl, hr.inQEmpty,
    hr.txnEmpty, rfl, ?_⟩, hr.sleepFor q, .congr (.refl s) rfl rfl rfl (fun _ => rfl) (fun _ => rfl), fun _ _ _ _ _ => rfl,
    fun _ _ _ _ => rfl, fun _ _ _ h => h⟩
  simp [State.framesSent, State.wireLog, State.sleepFor, State.emit, Event.line]

/-- An operation whose body is a chain of register accesses completes. -/
theorem Chain.completed (op : Byte) (r : Result) (h : Chain accs w f (s.enter op) t) : Completed accs s (t.leave r) :=
  have k : Completed accs { s with buf := none } (({ t with buf := none } : State).leave r) := Access.completed op r h.access
  ⟨k.session.congr rfl rfl, k.noFault, k.latchOut, k.latchDir, k.inQ, k.txn, rfl, rfl, k.ticks, k.frames⟩

/-- One access is a link when it leaves the radio as its own first steps had left it, but for what the access writes. -/
theorem Chain.of_access {x : RegAccess} (hr : s.Running) (h : Access [x] s t) (hw : t.radio.Wf)
    (hreg : ∀ a, a ∉ w → t.radio.reg a = s.quiet.reg a) (hfifo : ∀ b, b ∉ f → t.radio.fifoByte b = s.quiet.fifoByte b) :
    Chain [x] w f s t := by
  have hquiet : ∀ own, s.RadioOnly (6 * [x].length) own → (∀ a, a ∉ own → s.quiet.reg a = s.radio.reg a) ∧
      ∀ b, s.quiet.fifoByte b = s.radio.fifoByte b := fun own ho => by
    unfold State.quiet; split
    · exact ⟨fun _ _ => rfl, fun _ => rfl⟩
    · next tk rest htk => exact ho tk (by simp [htk]) s.radio
  refine ⟨⟨⟨h.par, h.isOpen, h.handle, h.dir, h.lsbFirst, h.irqCfg, h.cbSet, h.irqEn, h.lastLevel, h.lastCause, h.pseq, h.inbox,
    h.res, h.enums, h.clocks, h.opFault⟩, h.out, h.busFault, rfl, h.latchOut, h.latchDir, h.inQ, h.txn, h.ticks, h.frames⟩,
    h.toRunning hr hw, .of_quiet hr.toReady hreg hfifo, fun own ho a hn hno => ?_, fun own ho b hn => ?_, fun never hn hset h0 => ?_⟩
  · exact (hreg a hn).trans ((hquiet own ho).1 a hno)
  · exact (hfifo b hn).trans ((hquiet own ho).2 b)
  · rw [State.reg, hreg _ hn]
    unfold State.quiet; split
    · exact h0
    · next tk rest htk =>
      have hset := hset tk (by simp [htk])
      rw [Radio.reg_act_flags hr.params _ _ ⟨hr.regsWf, hr.fifoWf⟩, irqSet]
      have h0 : s.radio.reg s.par.regIrqFlags &&& never = 0#8 := h0
      rw [BitVec.and_comm] at h0 hset ⊢
      rw [BitVec.and_or_distrib_left, h0, hset]; rfl

end

/-! ### One link -/

section
variable {s : State} (hr : s.Running) (ha : s.Answers 6) (l : Label)
include hr ha

/-- A read of a register that is not the FIFO window answers what the register then holds. -/
theorem readReg_chain (a : RegAddr) (hc : regClass s.par a ≠ .window) :
    ∃ t, readReg l a s = (t.reg a, t) ∧ Chain [.read a] [] [] s t ∧ t.radio = { s.quiet with txn := [] } := by
  obtain ⟨hval, hacc, hrad⟩ := readReg_ready hr ha l a
  rw [Radio.regRead_val _ _ _ hc] at hval hrad
  refine ⟨_, Prod.ext (hval.trans ?_) rfl, .of_access hr hacc ?_ (fun b _ => by rw [hrad]; rfl) (fun b _ => by rw [hrad]; rfl), hrad⟩
  · rw [State.reg, hrad]; rfl
  · rw [hrad]; exact State.quiet_wf hr.toReady

/-- A plain register holds what it held. -/
theorem readReg_plain_chain (a : RegAddr) (hc : regClass s.par a = .plain) :
    ∃ t, readReg l a s = (s.reg a, t) ∧ Chain [.read a] [] [] s t := by
  obtain ⟨t, ht, hchain, hrad⟩ := readReg_chain hr ha l a (by rw [hc]; decide)
  exact ⟨t, ht.trans (by rw [hchain.frame.plain a hc List.not_mem_nil]), hchain⟩

/-- A read of the FIFO window answers the byte at the pointer, which moves on. -/
theorem readReg_fifo_chain :
    ∃ t, readReg l s.par.regFifo s = (t.fifoAt (s.reg s.par.regFifoAddrPtr), t) ∧
      Chain [.read s.par.regFifo] [s.par.regFifoAddrPtr] [] s t ∧
      t.reg s.par.regFifoAddrPtr = s.reg s.par.regFifoAddrPtr + 1#8 := by
  obtain ⟨hval, hacc, hrad⟩ := readReg_ready hr ha l s.par.regFifo
  have hq : s.quiet.reg s.par.regFifoAddrPtr = s.reg s.par.regFifoAddrPtr := State.quiet_plain _ (class_fifoAddrPtr hr.params)
  have hwf := State.quiet_wf hr.toReady
  rw [Radio.regRead_window _ _ _ (class_fifo _)] at hval hrad
  refine ⟨_, Prod.ext (hval.trans ?_) rfl, .of_access hr hacc ?_ (fun b hb => ?_) (fun b _ => by rw [hrad]; rfl), ?_⟩
  · rw [State.fifoAt, hrad, hq]; rfl
  · rw [hrad]; exact hwf.advance _
  · rw [hrad]; exact Radio.reg_setReg_other _ _ _ _ (by simpa using hb)
  · rw [State.reg, hrad]; exact (Radio.reg_setReg_same _ _ _ hwf).trans (by rw [hq])

/-- A write that leaves some byte in its own register and nothing elsewhere. -/
theorem writeReg_chain (a : RegAddr) (v : Byte) (hc : regClass s.par a ≠ .window) :
    Chain [.write a v] [a] [] s (writeReg l a v s) := by
  obtain ⟨hacc, j, hrad⟩ := writeReg_ready hr.toReady ha l a v
  have hwf := State.quiet_wf hr.toReady
  have hset : ∃ x, s.quiet.regWrite s.par a v j = s.quiet.setReg a x := by
    cases hclass : regClass s.par a with
    | window => exact absurd hclass hc
    | _ => exact ⟨_, by unfold Radio.regWrite; rw [hclass]⟩
  obtain ⟨x, hx⟩ := hset
  rw [hx] at hrad
  refine .of_access hr hacc ?_ (fun b hb => ?_) (fun b _ => by rw [hrad]; rfl)
  · rw [hrad]; exact hwf.setReg _ _
  · rw [hrad]; exact Radio.reg_setReg_other _ _ _ _ (by simpa using hb)

theorem writeReg_plain_chain (a : RegAddr) (v : Byte) (hc : regClass s.par a = .plain) :
    Chain [.write a v] [a] [] s (writeReg l a v s) ∧ (writeReg l a v s).reg a = v := by
  obtain ⟨-, -, -, hval⟩ := writeReg_plain hr ha l a v hc
  exact ⟨writeReg_chain hr ha l a v (by rw [hc]; decide), hval⟩

theorem writeReg_opMode_chain (v : Byte) :
    Chain [.write s.par.regOpMode v] [s.par.regOpMode] [] s (writeReg l s.par.regOpMode v s) ∧
      (writeReg l s.par.regOpMode v s).reg s.par.regOpMode = v := by
  obtain ⟨-, -, -, hval⟩ := writeReg_opMode hr ha l v
  exact ⟨writeReg_chain hr ha l _ v (by rw [class_opMode hr.params]; decide), hval⟩

theorem putMode_chain (m : OpMode) :
    Chain [.write s.par.regOpMode (modeByte s.par m)] [s.par.regOpMode] [] s (putMode l m s) ∧
      (putMode l m s).reg s.par.regOpMode = modeByte s.par m := writeReg_opMode_chain hr ha l _

/-- Every flag written as 1 is cleared, whatever RADIO had set (R139). -/
theorem clearFlags_chain :
    Chain [.write s.par.regIrqFlags 0xFF#8] [s.par.regIrqFlags] [] s (clearFlags l s) ∧
      (clearFlags l s).reg s.par.regIrqFlags = 0#8 := by
  obtain ⟨-, -, -, hval⟩ := writeReg_flags hr ha l 0xFF#8
  refine ⟨writeReg_chain hr ha l _ _ (by rw [class_irqFlags hr.params]; decide), hval.trans ?_⟩
  exact (congrArg (s.quiet.reg s.par.regIrqFlags &&& ·) (show ~~~0xFF#8 = 0#8 by decide)).trans (by simp)

/-- A write through the FIFO window stores the byte at the pointer, which moves on. -/
theorem writeReg_fifo_chain (v : Byte) :
    Chain [.write s.par.regFifo v] [s.par.regFifoAddrPtr] [s.reg s.par.regFifoAddrPtr] s (writeReg l s.par.regFifo v s) ∧
      (writeReg l s.par.regFifo v s).fifoAt (s.reg s.par.regFifoAddrPtr) = v ∧
      (writeReg l s.par.regFifo v s).reg s.par.regFifoAddrPtr = s.reg s.par.regFifoAddrPtr + 1#8 := by
  obtain ⟨-, -, -, hptr, hbyte⟩ := writeReg_fifo hr ha l v
  obtain ⟨hacc, j, hrad⟩ := writeReg_ready hr.toReady ha l s.par.regFifo v
  have hq : s.quiet.reg s.par.regFifoAddrPtr = s.reg s.par.regFifoAddrPtr := State.quiet_plain _ (class_fifoAddrPtr hr.params)
  have hwf := (State.quiet_wf hr.toReady).setFifo (s.reg s.par.regFifoAddrPtr) v
  rw [Radio.regWrite_window, hq] at hrad
  refine ⟨.of_access hr hacc ?_ (fun b hb => ?_) (fun b hb => ?_), hbyte, hptr⟩
  · rw [hrad]; exact hwf.advance _
  · rw [hrad]; exact Radio.reg_setReg_other _ _ _ _ (by simpa using hb)
  · rw [hrad]; exact Radio.fifoByte_setFifo_other _ _ _ _ (by simpa using hb)

end

/-- A byte read and written back, where no transaction of the operation has failed. -/
theorem rmw_chain {s : State} (hr : s.Running) (ha : s.Answers 12) (a : RegAddr) (hc : regClass s.par a = .plain) (hi lo : Nat) (v : Byte) :
    Chain [.read a, .write a (insField (s.reg a) hi lo v)] [a] [] s (rmw a hi lo v s) ∧
      (rmw a hi lo v s).reg a = insField (s.reg a) hi lo v := by
  obtain ⟨t, ht, hread⟩ := readReg_plain_chain hr (ha.mono (by decide)) (.access 1) a hc
  obtain ⟨hwrite, hval⟩ := writeReg_plain_chain hread.running (hread.answers ha (by simp)) (.access 2) a
    (insField (s.reg a) hi lo v) (by rw [hread.par]; exact hc)
  have hrun : rmw a hi lo v s = writeReg (.access 2) a (insField (s.reg a) hi lo v) t := by
    simp only [rmw, ht]
    exact writeBack_noFault _ _ _ hread.running.noFault
  rw [hrun]
  exact ⟨hread.trans hwrite, hval⟩

/-- A list of writes of plain registers: each ends with the last byte the list names for it. -/
theorem writeAll_chain (l : Label) (ws : List (RegAddr × Byte)) {s : State} (hr : s.Running) (ha : s.Answers (6 * ws.length))
    (hc : ∀ av ∈ ws, regClass s.par av.1 = .plain) :
    Chain (writesOf ws) (ws.map Prod.fst) [] s (writeAll l ws s) ∧ (writeAll l ws s).IqWritten ws := by
  induction ws generalizing s with
  | nil => exact ⟨.refl hr, fun a ha => nomatch ha⟩
  | cons av ws ih =>
    obtain ⟨a, v⟩ := av
    have hca : regClass s.par a = .plain := hc (a, v) (List.mem_cons_self ..)
    obtain ⟨hone, hval⟩ := writeReg_plain_chain hr (ha.mono (by simp)) l a v hca
    obtain ⟨hrest, hlast⟩ := ih hone.running (hone.answers ha (by simp; omega))
      (fun bv hbv => by rw [hone.par]; exact hc bv (List.mem_cons_of_mem _ hbv))
    refine ⟨hone.trans hrest, fun b hb => ?_⟩
    rw [List.reverse_cons, List.lookup_append]
    by_cases hmem : b ∈ ws.map Prod.fst
    · rw [hlast b hmem]; rfl
    · have hba : b = a := by
        rcases List.mem_cons.mp hb with hb | hb
        · exact hb
        · exact absurd hb hmem
      have hnone : ws.reverse.lookup b = none := by
        rw [List.lookup_eq_none_iff]
        intro p hp
        simp only [bne_iff_ne]
        exact fun e => hmem (List.mem_map.mpr ⟨p, List.mem_reverse.mp hp, e.symm⟩)
      rw [hnone, hba, writeAll, hrest.frame.plain a (by rw [hone.par]; exact hca) (by rw [← hba]; exact hmem), hval]
      simp

end Sys2Proof.Machine
end

section
/-! SUPPORT. The register operations (45_register_access.md): one access each. -/

namespace Sys2Proof.Machine

/-- An operation whose body is a chain of accesses: it returns, its accesses are complete, and what the chain says of the radio is
what the operation says. -/
theorem exec_of_chain {i : Instr} {op : Byte} {body : State → Result × State} {s t : State} {r : Result} {accs : List RegAccess}
    {w : List RegAddr} {f : List Byte} (hi : exec i s = .next (runOp op body s)) (hbody : body (s.enter op) = (r, t))
    (h : Chain accs w f (s.enter op) t) :
    exec i s = .next (t.leave r) ∧ (t.leave r).res = some r ∧ Completed accs s (t.leave r) ∧
      RadioFrame (6 * accs.length) w f s (t.leave r) :=
  ⟨exec_of_body hi hbody, rfl, h.completed op r, h.frame.returned op r⟩

/-- An operation that reads one register, not the FIFO window, and answers with a function of its byte. -/
theorem exec_of_read {i : Instr} {op : Byte} {s : State} (reg : Params → RegAddr) (answer : Params → Byte → Result)
    (hi : exec i s = .next (runOp op (fun u =>
      (answer u.par (readReg (.access 1) (reg u.par) u).1, (readReg (.access 1) (reg u.par) u).2)) s))
    (hs : s.Ready) (ha : s.Answers 6) (hc : regClass s.par (reg s.par) ≠ .window) :
    ∃ t, exec i s = .next t ∧ t.res = some (answer s.par (t.reg (reg s.par))) ∧ Completed [.read (reg s.par)] s t ∧
      RadioFrame 6 [] [] s t := by
  obtain ⟨t, ht, hchain, -⟩ := readReg_chain (hs.enter op) (ha.enter op) (.access 1) (reg s.par) hc
  obtain ⟨hexec, hres, hdone, hframe⟩ := exec_of_chain (r := answer s.par (t.reg (reg s.par))) hi
    (by simp only [State.enter_par, ht]) hchain
  exact ⟨_, hexec, hres, hdone, hframe⟩

/-- Settles O39: by the class of the register. -/
theorem readRegisterEffect : Obligations.ReadRegisterEffect := by
  intro s addr hs ha
  have hr := hs.enter 0x10#8
  have hans := ha.enter 0x10#8
  by_cases hc : regClass s.par (addr.extractLsb' 0 7) = .window
  case neg =>
    obtain ⟨t, ht, hchain, -⟩ := readReg_chain hr hans (s.enter 0x10#8).seq.step (addr.extractLsb' 0 7) hc
    obtain ⟨hexec, hres, hdone, hframe⟩ := exec_of_chain (i := .readRegister addr) rfl (by rw [readAt_eq_readReg, ht]) hchain
    exact ⟨_, _, hexec, hres, hdone, fun _ => ⟨rfl, hframe⟩, fun e => absurd e hc⟩
  case pos =>
    have ha' : addr.extractLsb' 0 7 = (s.enter 0x10#8).par.regFifo := (regClass_eq_window_iff _ _).mp hc
    obtain ⟨t, ht, hchain, hptr⟩ := readReg_fifo_chain hr hans (s.enter 0x10#8).seq.step
    obtain ⟨hexec, hres, hdone, hframe⟩ := exec_of_chain (i := .readRegister addr) rfl (by rw [readAt_eq_readReg, ha', ht]) hchain
    exact ⟨_, _, hexec, hres, by rw [ha']; exact hdone, fun e => absurd hc e, fun _ => ⟨rfl, hptr, hframe⟩⟩

theorem eq_irqFlags_of_latched {p : Params} {a : RegAddr} (h : regClass p a = .latched) : a = p.regIrqFlags := by
  unfold regClass at h
  repeat' split at h
  all_goals simp_all

/-- Settles O40: by the class of the register. -/
theorem writeRegisterEffect : Obligations.WriteRegisterEffect := by
  intro s addr v hs ha
  have hr := hs.enter 0x11#8
  have hans := ha.enter 0x11#8
  have hbody : ∀ a, addr.extractLsb' 0 7 = a → (Result.unit, writeAt addr v (s.enter 0x11#8)) =
      (Result.unit, writeReg (s.enter 0x11#8).seq.step a v (s.enter 0x11#8)) := fun a e => by rw [writeAt_eq_writeReg, e]
  by_cases hc : regClass s.par (addr.extractLsb' 0 7) = .window
  case neg =>
    have hchain := writeReg_chain hr hans (s.enter 0x11#8).seq.step (addr.extractLsb' 0 7) v hc
    obtain ⟨hexec, hres, hdone, hframe⟩ := exec_of_chain (i := .writeRegister addr v) rfl (hbody _ rfl) hchain
    refine ⟨_, hexec, hres, hdone, fun _ => hframe, fun hp => ?_, fun hl hstill => ?_, fun e => absurd e hc⟩
    · rcases hp with hp | hp
      · exact (writeReg_plain_chain hr hans _ _ v hp).2
      · rw [hp]; exact (writeReg_opMode_chain hr hans _ v).2
    · have hflags : addr.extractLsb' 0 7 = s.par.regIrqFlags := eq_irqFlags_of_latched hl
      obtain ⟨-, -, -, hval⟩ := writeReg_flags hr hans (s.enter 0x11#8).seq.step v
      rw [hflags]
      exact hval.trans (by rw [State.enter_quiet, State.quiet_still (hstill.mono (by decide))]; rfl)
  case pos =>
    have ha' : addr.extractLsb' 0 7 = (s.enter 0x11#8).par.regFifo := (regClass_eq_window_iff _ _).mp hc
    obtain ⟨hchain, hbyte, hptr⟩ := writeReg_fifo_chain hr hans (s.enter 0x11#8).seq.step v
    obtain ⟨hexec, hres, hdone, hframe⟩ := exec_of_chain (i := .writeRegister addr v) rfl (hbody _ ha') hchain
    refine ⟨_, hexec, hres, by rw [ha']; exact hdone, fun e => absurd hc e, fun hp => ?_, fun hl => ?_,
      fun _ => ⟨hbyte, hptr, hframe⟩⟩
    · rcases hp with hp | hp
      · rw [hc] at hp; cases hp
      · rw [hp, class_opMode hs.params] at hc; cases hc
    · rw [hc] at hl; cases hl

/-- The mode byte, as the obligations write it. -/
theorem modeByte_eq (p : Params) (m : OpMode) : modeByte p m = p.modeLoraBit ||| (match m with
    | .sleep => p.modeSleep
    | .standby => p.modeStandby
    | .transmit => p.modeTx
    | .receiveContinuous => p.modeRxContinuous
    | .receiveSingle => p.modeRxSingle).setWidth 8 := by
  cases m <;> rfl

/-- The five codes are different, so that the first test that holds is the only one. -/
theorem modeDec_of_code {p : Params} (h : p.Ok) {m : OpMode} {v : Byte} (hm : modeCode p m = v.extractLsb' 0 3) :
    modeDec p v = .opmode m := by
  have hn := h.modes
  simp only [Params.modeCodes, List.nodup_cons, List.mem_cons, List.not_mem_nil, or_false, not_or] at hn
  obtain ⟨⟨h01, h02, h03, h04⟩, ⟨h12, h13, h14⟩, ⟨h23, h24⟩, h34, -⟩ := hn
  unfold modeDec
  rw [← hm]
  cases m with
  | sleep => simp [modeCode]
  | standby => simp [modeCode, Ne.symm h01]
  | transmit => simp [modeCode, Ne.symm h02, Ne.symm h12]
  | receiveContinuous => simp [modeCode, Ne.symm h03, Ne.symm h13, Ne.symm h23]
  | receiveSingle => simp [modeCode, Ne.symm h04, Ne.symm h14, Ne.symm h24, Ne.symm h34]

theorem modeDec_of_no_code {p : Params} {v : Byte} (hm : ∀ m, modeCode p m ≠ v.extractLsb' 0 3) :
    modeDec p v = .other (v.extractLsb' 0 3) := by
  have h : ∀ m, v.extractLsb' 0 3 ≠ modeCode p m := fun m => (hm m).symm
  unfold modeDec
  simp only [show p.modeSleep = modeCode p .sleep from rfl, show p.modeStandby = modeCode p .standby from rfl,
    show p.modeTx = modeCode p .transmit from rfl, show p.modeRxContinuous = modeCode p .receiveContinuous from rfl,
    show p.modeRxSingle = modeCode p .receiveSingle from rfl, h, if_false]

/-- Settles O42. -/
theorem modeRegister : Obligations.ModeRegister := by
  refine ⟨fun s m hs ha => ?_, fun s hs ha => ?_⟩
  · obtain ⟨hchain, hval⟩ := putMode_chain (hs.enter 0x12#8) (ha.enter 0x12#8) (.access 1) m
    obtain ⟨hexec, hres, hdone, hframe⟩ := exec_of_chain (i := .setMode m) rfl rfl hchain
    have hval : (putMode (.access 1) m (s.enter 0x12#8)).reg s.par.regOpMode = modeByte s.par m := hval
    refine ⟨_, hexec, hres, ?_, hframe, hval.trans (modeByte_eq _ m)⟩
    rw [State.leave_reg, hval]; exact hdone
  · obtain ⟨t, hexec, hres, hdone, hframe⟩ := exec_of_read (i := .getMode) (op := 0x13#8) Params.regOpMode modeDec rfl hs ha
      (by rw [class_opMode hs.params]; decide)
    exact ⟨t, _, hexec, hres, hdone, hframe, fun m hm => modeDec_of_code hs.params hm, fun hm => modeDec_of_no_code hm⟩

/-- Settles O43. -/
theorem irqFlags : Obligations.IrqFlags := by
  refine ⟨fun s hs ha => ?_, fun s hs ha => ?_⟩
  · exact exec_of_read (i := .getIrqFlags) (op := 0x14#8) Params.regIrqFlags (fun _ v => .byte v) rfl hs ha
      (by rw [class_irqFlags hs.params]; decide)
  · obtain ⟨hchain, hval⟩ := clearFlags_chain (hs.enter 0x15#8) (ha.enter 0x15#8) (.access 1)
    obtain ⟨hexec, hres, hdone, hframe⟩ := exec_of_chain (i := .clearIrqFlags) rfl rfl hchain
    exact ⟨_, hexec, hres, hdone, hframe, fun _ => hval⟩

end Sys2Proof.Machine
end

section
/-! SUPPORT. The frequency codec as a function (46_param_codecs.md R242, R244, R246): rounding, fit, and the round trip. -/

namespace Sys2Proof.Machine

/-- A number that is not negative rounds down from half a unit above it. -/
theorem roundHaz_of_nonneg {q : Rat} (h : 0 ≤ q) : roundHaz q = ⌊q + 1 / 2⌋ := by
  rw [roundHaz, if_pos h]; rfl

theorem roundHaz_of_neg {q : Rat} (h : q < 0) : roundHaz q = -⌊-q + 1 / 2⌋ := by
  rw [roundHaz, if_neg h.not_ge]; rfl

/-- Rounding half away from zero is symmetric. -/
theorem roundHaz_neg {q : Rat} (h : q < 0) : roundHaz q = -roundHaz (-q) := by
  rw [roundHaz_of_neg h, roundHaz_of_nonneg (by linarith)]

theorem roundHaz_bounds {q : Rat} (h : 0 ≤ q) : (roundHaz q : Rat) ≤ q + 1 / 2 ∧ q - 1 / 2 < roundHaz q := by
  rw [roundHaz_of_nonneg h]
  have hle := Int.floor_le (q + 1 / 2)
  have hlt := Int.lt_floor_add_one (q + 1 / 2)
  exact ⟨hle, by linarith⟩

theorem roundHaz_nonneg {q : Rat} (h : 0 ≤ q) : 0 ≤ roundHaz q := by
  rw [roundHaz_of_nonneg h]
  exact Int.floor_nonneg.mpr (by linarith)

/-- The nearest integer, of two equally near the one farther from zero. -/
theorem roundHaz_nearest (q : Rat) : |q - (roundHaz q : Rat)| ≤ 1 / 2 ∧
    (|q - (roundHaz q : Rat)| = 1 / 2 → |q| < |(roundHaz q : Rat)|) := by
  have hpos : ∀ {q : Rat}, 0 ≤ q → |q - (roundHaz q : Rat)| ≤ 1 / 2 ∧
      (|q - (roundHaz q : Rat)| = 1 / 2 → |q| < |(roundHaz q : Rat)|) := fun {q} h => by
    obtain ⟨hle, hlt⟩ := roundHaz_bounds h
    refine ⟨abs_le.mpr ⟨by linarith, by linarith⟩, fun htie => ?_⟩
    rw [abs_of_nonneg h, abs_of_nonneg (Int.cast_nonneg (roundHaz_nonneg h))]
    rcases abs_choice (q - (roundHaz q : Rat)) with hc | hc <;> linarith
  rcases le_or_gt 0 q with h | h
  · exact hpos h
  · have hflip : q - (roundHaz q : Rat) = -(-q - (roundHaz (-q) : Rat)) := by rw [roundHaz_neg h]; push_cast; ring
    obtain ⟨hle, htie⟩ := hpos (q := -q) (by linarith)
    rw [hflip, abs_neg]
    refine ⟨hle, fun e => ?_⟩
    have hlt := htie e
    rw [abs_neg] at hlt
    rw [roundHaz_neg h, Int.cast_neg, abs_neg]
    exact hlt

/-- A number no more than half a unit below an integer, and less than half a unit above it, rounds to it. -/
theorem roundHaz_eq {q : Rat} {n : Int} (h : 0 ≤ q) (hle : (n : Rat) ≤ q + 1 / 2) (hlt : q < n + 1 / 2) : roundHaz q = n := by
  rw [roundHaz_of_nonneg h, Int.floor_eq_iff]
  exact ⟨hle, by linarith⟩

/-- A whole number of Hz is never equally near to two steps: twice its numerator is even, an odd multiple of 15625 is not. -/
theorem wholeHz_no_tie (hz : Nat) (n : Int) : |(hz : Rat) / 1000000 * 16384 - (n : Rat)| ≠ 1 / 2 := by
  intro h
  have htie : ∀ m : Int, (hz : Rat) * 512 ≠ 15625 * (2 * m + 1) := fun m e => by
    have hint : (hz : Int) * 512 = 15625 * (2 * m + 1) := by exact_mod_cast e
    omega
  rcases abs_choice ((hz : Rat) / 1000000 * 16384 - (n : Rat)) with hc | hc
  · exact htie n (by rw [hc] at h; linarith)
  · refine htie (n - 1) ?_
    push_cast
    rw [hc] at h
    linarith

theorem frfPerMHz_eq : Config.frfPerMHz = 16384 := rfl

theorem frfDec_eq (v : BitVec 24) : frfDec v = (v.toNat : Rat) / 16384 := rfl

theorem frfEnc_of_nonneg {f : Rat} (h : 0 ≤ f) : frfEnc f = ⌊f * 16384 + 1 / 2⌋ := by
  rw [frfEnc, frfPerMHz_eq, roundHaz_of_nonneg (by positivity)]

theorem frfEnc_nonneg {f : Rat} (h : 0 ≤ f) : 0 ≤ frfEnc f := by
  rw [frfEnc, frfPerMHz_eq]
  exact roundHaz_nonneg (by positivity)

theorem frfEnc_le_iff {f : Rat} (h : 0 ≤ f) : frfEnc f ≤ 0xFFFFFF ↔ f < 1024 - 1 / 32768 := by
  rw [frfEnc_of_nonneg h, ← Int.lt_add_one_iff, Int.floor_lt]
  push_cast
  constructor <;> intro hlt <;> linarith

/-- A frequency that fits is kept whole in 24 bits. -/
theorem toNat_frfWord {f : Rat} (h : 0 ≤ f) (hfit : frfEnc f ≤ 0xFFFFFF) : ((frfWord f).toNat : Int) = frfEnc f := by
  have h0 := frfEnc_nonneg h
  rw [frfWord, BitVec.toNat_ofNat]
  omega

theorem frfDec_frfWord {f : Rat} (h : 0 ≤ f) (hfit : frfEnc f ≤ 0xFFFFFF) : |frfDec (frfWord f) - f| ≤ 1 / 32768 := by
  have hval : ((frfWord f).toNat : Rat) = (roundHaz (f * 16384) : Rat) := by
    exact_mod_cast congrArg (Int.cast (R := Rat)) (toNat_frfWord h hfit)
  obtain ⟨hle, hlt⟩ := roundHaz_bounds (q := f * 16384) (by positivity)
  rw [frfDec_eq, hval, abs_le]
  constructor <;> linarith

/-- The encoded value of a frequency given in steps, at most half a step off. -/
theorem frfEnc_eq {f : Rat} {n : Int} (h : 0 ≤ f) (hle : (n : Rat) ≤ f * 16384 + 1 / 2) (hlt : f * 16384 < n + 1 / 2) :
    frfEnc f = n := by
  rw [frfEnc, frfPerMHz_eq]
  exact roundHaz_eq (by positivity) hle hlt

/-- Settles O44. -/
theorem frequencyLaws : Obligations.FrequencyLaws := by
  refine ⟨fun q => ?round, fun hz => wholeHz_no_tie hz _, fun v => ⟨?_, ?_⟩, ⟨?_, ?_, ?_, ?_, ?_, ?_⟩, fun f => frfEnc_le_iff,
    fun f => frfDec_frfWord⟩
  case round =>
    obtain ⟨hnear, htie⟩ := roundHaz_nearest q
    exact ⟨hnear, htie, roundHaz_of_nonneg⟩
  · rw [frfDec_eq]; ring
  · rw [frfDec_eq]; ring
  · rw [frfDec_eq]; norm_num
  all_goals exact frfEnc_eq (by norm_num) (by norm_num) (by norm_num)

end Sys2Proof.Machine
end

section
/-! SUPPORT. Bit fields of a register as concatenations (30_encoding.md R101). -/

namespace Sys2Proof.Machine

/-- A field as a slice of the byte. -/
theorem toNat_extField_slice (v : Byte) {hi lo : Nat} (h : hi - lo < 8) :
    (extField v hi lo).toNat = (v.extractLsb' lo (hi - lo + 1)).toNat := by
  rw [toNat_extField v h, BitVec.extractLsb'_toNat, Nat.shiftRight_eq_div_pow]

/-- The high nibble replaced. -/
theorem insField_high (old v : Byte) : insField old 7 4 v = v.extractLsb' 0 4 ++ old.extractLsb' 0 4 := by
  apply BitVec.eq_of_getLsbD_eq
  intro i hi
  have hones : fieldOnes 7 4 = 0x0F#8 := by decide
  refine Eq.trans ?_ BitVec.getLsbD_append.symm
  simp only [insField, hones]
  interval_cases i <;> simp

/-- Bits 3:1 replaced. -/
theorem insField_mid (old v : Byte) :
    insField old 3 1 v = old.extractLsb' 4 4 ++ v.extractLsb' 0 3 ++ old.extractLsb' 0 1 := by
  apply BitVec.eq_of_getLsbD_eq
  intro i hi
  have hones : fieldOnes 3 1 = 0x07#8 := by decide
  refine Eq.trans ?_ (BitVec.getLsbD_append (x := old.extractLsb' 4 4 ++ v.extractLsb' 0 3)).symm
  rw [BitVec.getLsbD_append]
  simp only [insField, hones]
  interval_cases i <;> simp

theorem extractLsb_high (a b : BitVec 4) : (a ++ b).extractLsb' 4 4 = a := by
  apply BitVec.eq_of_getLsbD_eq
  intro i hi
  rw [BitVec.getLsbD_extractLsb', BitVec.getLsbD_append, if_neg (by omega), Nat.add_sub_cancel_left]
  simp [hi]

theorem extractLsb_mid (a : BitVec 4) (b : BitVec 3) (c : BitVec 1) : (a ++ b ++ c).extractLsb' 1 3 = b := by
  apply BitVec.eq_of_getLsbD_eq
  intro i hi
  rw [BitVec.getLsbD_extractLsb', BitVec.getLsbD_append, if_neg (by omega), Nat.add_sub_cancel_left, BitVec.getLsbD_append,
    if_pos hi]
  simp [hi]

/-- The low bits of a number do not depend on how wide it was kept. -/
theorem extractLsb_ofInt_nibble (x : Int) : (BitVec.ofInt 8 x).extractLsb' 0 4 = BitVec.ofInt 4 x := by
  apply BitVec.eq_of_toNat_eq
  simp only [BitVec.extractLsb'_toNat, BitVec.toNat_ofInt, Nat.shiftRight_zero]
  omega

theorem extractLsb_ofInt_three (x : Int) : (BitVec.ofInt 8 x).extractLsb' 0 3 = BitVec.ofInt 3 x := by
  apply BitVec.eq_of_toNat_eq
  simp only [BitVec.extractLsb'_toNat, BitVec.toNat_ofInt, Nat.shiftRight_zero]
  omega

theorem extractLsb_ofNat_nibble (n : Nat) : (BitVec.ofNat 8 n).extractLsb' 0 4 = BitVec.ofNat 4 n := by
  apply BitVec.eq_of_toNat_eq
  simp only [BitVec.extractLsb'_toNat, BitVec.toNat_ofNat, Nat.shiftRight_zero]
  omega

end Sys2Proof.Machine
end

section
/-! SUPPORT. The parameter codecs as operations (46_param_codecs.md): chains of plain reads and writes. -/

namespace Sys2Proof.Machine

section
variable {accs : List RegAccess} {w : List RegAddr} {s t : State} {m : Nat}

/-- One more write of a plain register. -/
theorem Chain.write (h : Chain accs w [] s t) (ha : s.Answers m) (hm : 6 * accs.length + 6 ≤ m) (l : Label) (a : RegAddr) (v : Byte)
    (hc : regClass s.par a = .plain) :
    Chain (accs ++ [.write a v]) (w ++ [a]) [] s (writeReg l a v t) ∧ (writeReg l a v t).reg a = v ∧
      ∀ b, regClass s.par b = .plain → b ≠ a → (writeReg l a v t).reg b = t.reg b := by
  have hc' : regClass t.par a = .plain := by rw [h.par]; exact hc
  obtain ⟨hone, hval⟩ := writeReg_plain_chain h.running (h.answers ha hm) l a v hc'
  exact ⟨h.trans hone, hval, fun b hb hne => hone.frame.plain b (by rw [h.par]; exact hb) (by simpa using hne)⟩

/-- One more read of a plain register. -/
theorem Chain.read (h : Chain accs w [] s t) (ha : s.Answers m) (hm : 6 * accs.length + 6 ≤ m) (l : Label) (a : RegAddr)
    (hc : regClass s.par a = .plain) :
    ∃ u, readReg l a t = (t.reg a, u) ∧ Chain (accs ++ [.read a]) w [] s u ∧
      ∀ b, regClass s.par b = .plain → u.reg b = t.reg b := by
  have hc' : regClass t.par a = .plain := by rw [h.par]; exact hc
  obtain ⟨u, hu, hone⟩ := readReg_plain_chain h.running (h.answers ha hm) l a hc'
  exact ⟨u, hu, (h.trans hone).mono (by simp) (by simp), fun b hb => hone.frame.plain b (by rw [h.par]; exact hb) List.not_mem_nil⟩

/-- After an operation made of accesses the session is ready for the next one. -/
theorem Chain.resume {f : List Byte} {op : Byte} (h : Chain accs w f (s.enter op) t) (ha : s.Answers m) {n : Nat}
    (hm : 6 * accs.length + n ≤ m) (r : Result) : (t.leave r).Ready ∧ (t.leave r).Answers n :=
  have k := h.running
  ⟨⟨k.params, k.isOpen, k.msbFirst, k.csHigh, k.csOutput, k.latchOut, k.latchDir, k.inQEmpty, k.txnEmpty, k.regsWf, k.fifoWf⟩,
    (h.answers (ha.enter op) hm).congr rfl rfl rfl⟩

end

/-! ### The setters -/

section
variable {s : State} (hr : s.Running)
include hr

theorem setFrequencyOp_chain (ha : s.Answers 18) {f : Rat} (h0 : 0 ≤ f) (hfit : frfEnc f ≤ 0xFFFFFF) :
    ∃ t, setFrequencyOp f s = (.unit, t) ∧
      Chain [.write s.par.regFrfMsb ((frfWord f).extractLsb' 16 8), .write s.par.regFrfMid ((frfWord f).extractLsb' 8 8),
        .write s.par.regFrfLsb ((frfWord f).extractLsb' 0 8)] [s.par.regFrfMsb, s.par.regFrfMid, s.par.regFrfLsb] [] s t ∧
      t.reg s.par.regFrfMsb = (frfWord f).extractLsb' 16 8 ∧ t.reg s.par.regFrfMid = (frfWord f).extractLsb' 8 8 ∧
      t.reg s.par.regFrfLsb = (frfWord f).extractLsb' 0 8 := by
  have hok := hr.params
  have hfits : frfFits f = true := by simp [frfFits, h0, hfit]
  obtain ⟨h1, v1⟩ := writeReg_plain_chain hr (ha.mono (by decide)) (.access 1) s.par.regFrfMsb ((frfWord f).extractLsb' 16 8)
    (class_frfMsb hok)
  obtain ⟨h2, v2, k2⟩ := h1.write ha (by simp) (.access 2) s.par.regFrfMid ((frfWord f).extractLsb' 8 8) (class_frfMid hok)
  obtain ⟨h3, v3, k3⟩ := h2.write ha (by simp) (.access 3) s.par.regFrfLsb ((frfWord f).extractLsb' 0 8) (class_frfLsb hok)
  refine ⟨_, by simp only [setFrequencyOp, hfits, if_true, h1.par, h2.par], h3, ?_, ?_, v3⟩
  · rw [k3 _ (class_frfMsb hok) (reg_ne_reg hok 2 4 (by decide)), k2 _ (class_frfMsb hok) (reg_ne_reg hok 2 3 (by decide)), v1]
  · rw [k3 _ (class_frfMid hok) (reg_ne_reg hok 3 4 (by decide)), v2]

/-- The detection pair that goes with a spreading factor (R253). -/
theorem setSpreadingFactorOp_chain (ha : s.Answers 24) (sf : Int) :
    ∃ t, setSpreadingFactorOp sf s = (.unit, t) ∧
      Chain [.read s.par.regModemConfig2, .write s.par.regModemConfig2 (t.reg s.par.regModemConfig2),
        .write s.par.regDetectOpt (t.reg s.par.regDetectOpt), .write s.par.regDetectThr (t.reg s.par.regDetectThr)]
        [s.par.regModemConfig2, s.par.regDetectOpt, s.par.regDetectThr] [] s t ∧
      t.reg s.par.regModemConfig2 = BitVec.ofInt 4 (clamp sf 6 12) ++ (s.reg s.par.regModemConfig2).extractLsb' 0 4 ∧
      t.reg s.par.regDetectOpt = (if clamp sf 6 12 = 6 then s.par.detOptSf6 else s.par.detOptSf7to12) ∧
      t.reg s.par.regDetectThr = (if clamp sf 6 12 = 6 then s.par.detThrSf6 else s.par.detThrSf7to12) := by
  have hok := hr.params
  obtain ⟨h1, v1⟩ := rmw_chain hr (ha.mono (by decide)) s.par.regModemConfig2 (class_modemConfig2 hok) 7 4 (BitVec.ofInt 8 (sfClamp sf))
  obtain ⟨h2, v2, k2⟩ := h1.write ha (by simp) (.access 3) s.par.regDetectOpt
    (if sfClamp sf = 6 then s.par.detOptSf6 else s.par.detOptSf7to12) (class_detectOpt hok)
  obtain ⟨h3, v3, k3⟩ := h2.write ha (by simp) (.access 4) s.par.regDetectThr
    (if sfClamp sf = 6 then s.par.detThrSf6 else s.par.detThrSf7to12) (class_detectThr hok)
  have hopt := (k3 _ (class_detectOpt hok) (reg_ne_reg hok 21 23 (by decide))).trans v2
  have hmod := (k3 _ (class_modemConfig2 hok) (reg_ne_reg hok 16 23 (by decide))).trans
    ((k2 _ (class_modemConfig2 hok) (reg_ne_reg hok 16 21 (by decide))).trans v1)
  refine ⟨_, by simp only [setSpreadingFactorOp, h1.par, h2.par], ?_, hmod.trans ?_, hopt, v3⟩
  · rw [hopt, hmod, v3]; exact h3
  · rw [insField_high, extractLsb_ofInt_nibble]; rfl

theorem setPreambleLengthOp_chain (ha : s.Answers 12) (v : BitVec 16) :
    ∃ t, setPreambleLengthOp v s = (.unit, t) ∧
      Chain [.write s.par.regPreambleMsb (v.extractLsb' 8 8), .write s.par.regPreambleLsb (v.extractLsb' 0 8)]
        [s.par.regPreambleMsb, s.par.regPreambleLsb] [] s t ∧
      t.reg s.par.regPreambleMsb = v.extractLsb' 8 8 ∧ t.reg s.par.regPreambleLsb = v.extractLsb' 0 8 := by
  have hok := hr.params
  obtain ⟨h1, v1⟩ := writeReg_plain_chain hr (ha.mono (by decide)) (.access 1) s.par.regPreambleMsb (v.extractLsb' 8 8)
    (class_preambleMsb hok)
  obtain ⟨h2, v2, k2⟩ := h1.write ha (by simp) (.access 2) s.par.regPreambleLsb (v.extractLsb' 0 8) (class_preambleLsb hok)
  exact ⟨_, by simp only [setPreambleLengthOp, h1.par], h2,
    (k2 _ (class_preambleMsb hok) (reg_ne_reg hok 17 18 (by decide))).trans v1, v2⟩

/-- The two fields of one register (R249, R257). -/
theorem rmw_bandwidth (ha : s.Answers 12) (b : Rat) :
    ∃ t, rmw s.par.regModemConfig1 7 4 (BitVec.ofNat 8 (bwIdx b)) s = t ∧
      Chain [.read s.par.regModemConfig1, .write s.par.regModemConfig1 (t.reg s.par.regModemConfig1)] [s.par.regModemConfig1] [] s t ∧
      t.reg s.par.regModemConfig1 = BitVec.ofNat 4 (bwIdx b) ++ (s.reg s.par.regModemConfig1).extractLsb' 0 4 := by
  obtain ⟨h, v⟩ := rmw_chain hr ha s.par.regModemConfig1 (class_modemConfig1 hr.params) 7 4 (BitVec.ofNat 8 (bwIdx b))
  exact ⟨_, rfl, by rw [v]; exact h, v.trans (by rw [insField_high, extractLsb_ofNat_nibble])⟩

theorem rmw_codingRate (ha : s.Answers 12) (den : Int) :
    ∃ t, rmw s.par.regModemConfig1 3 1 (crEnc den) s = t ∧
      Chain [.read s.par.regModemConfig1, .write s.par.regModemConfig1 (t.reg s.par.regModemConfig1)] [s.par.regModemConfig1] [] s t ∧
      t.reg s.par.regModemConfig1 = (s.reg s.par.regModemConfig1).extractLsb' 4 4 ++ BitVec.ofInt 3 (clamp den 5 8 - 4) ++
        (s.reg s.par.regModemConfig1).extractLsb' 0 1 := by
  obtain ⟨h, v⟩ := rmw_chain hr ha s.par.regModemConfig1 (class_modemConfig1 hr.params) 3 1 (crEnc den)
  exact ⟨_, rfl, by rw [v]; exact h, v.trans (by rw [insField_mid, crEnc, extractLsb_ofInt_three])⟩

end

/-- A frequency that is negative or does not fit is refused before any transfer. -/
theorem setFrequencyOp_unfit {s : State} {f : Rat} (h : f < 0 ∨ 0xFFFFFF < frfEnc f) :
    setFrequencyOp f s = (.unit, s.fail .invalidParameter) := by
  have hfits : frfFits f = false := by
    rw [frfFits, Bool.and_eq_false_iff, decide_eq_false_iff_not, decide_eq_false_iff_not, not_le, not_le]
    exact h
  simp only [setFrequencyOp, hfits, Bool.false_eq_true, if_false]

/-- Settles O47. -/
theorem setFrequencyEffect : Obligations.SetFrequencyEffect := by
  refine ⟨fun s f hs ha h0 hfit => ?_, fun s f h => ?_⟩
  · obtain ⟨t, ht, hchain, hmsb, hmid, hlsb⟩ := setFrequencyOp_chain (hs.enter 0x20#8) (ha.enter 0x20#8) h0 hfit
    obtain ⟨hexec, hres, hdone, hframe⟩ := exec_of_chain (i := .setFrequency f) rfl ht hchain
    exact ⟨_, frfWord f, toNat_frfWord h0 hfit, hexec, hres, hdone, hframe, hmsb, hmid, hlsb⟩
  · exact ⟨_, exec_of_body (i := .setFrequency f) (op := 0x20#8) rfl (setFrequencyOp_unfit h), rfl, rfl,
      (NothingSent.fail _ _).returned⟩

/-- Settles O48. -/
theorem fieldSetters : Obligations.FieldSetters := by
  refine ⟨fun s b hs ha => ?_, fun s den hs ha => ?_, fun s sf hs ha => ?_⟩
  · obtain ⟨t, ht, hchain, hval⟩ := rmw_bandwidth (hs.enter 0x22#8) (ha.enter 0x22#8) b
    obtain ⟨hexec, hres, hdone, hframe⟩ := exec_of_chain (i := .setBandwidth b) rfl (congrArg (Prod.mk Result.unit) ht) hchain
    exact ⟨_, hexec, hres, hdone, hframe, hval⟩
  · obtain ⟨t, ht, hchain, hval⟩ := rmw_codingRate (hs.enter 0x26#8) (ha.enter 0x26#8) den
    obtain ⟨hexec, hres, hdone, hframe⟩ := exec_of_chain (i := .setCodingRate den) rfl (congrArg (Prod.mk Result.unit) ht) hchain
    exact ⟨_, hexec, hres, hdone, hframe, hval⟩
  · obtain ⟨t, ht, hchain, hmod, hopt, hthr⟩ := setSpreadingFactorOp_chain (hs.enter 0x24#8) (ha.enter 0x24#8) sf
    obtain ⟨hexec, hres, hdone, hframe⟩ := exec_of_chain (i := .setSpreadingFactor sf) rfl ht hchain
    exact ⟨_, hexec, hres, hdone, hframe, hmod, hopt, hthr⟩

/-- Settles O49. -/
theorem registerSetters : Obligations.RegisterSetters := by
  refine ⟨fun s level boost hs ha => ?_, fun s w hs ha => ?_, fun s v hs ha => ?_, fun s inv hs ha hplain => ?_⟩
  · obtain ⟨hchain, hval⟩ := writeReg_plain_chain (hs.enter 0x28#8) (ha.enter 0x28#8) (.access 1) s.par.regPaConfig
      (pwrEnc level boost) (class_paConfig hs.params)
    obtain ⟨hexec, hres, hdone, hframe⟩ := exec_of_chain (i := .setTxPower level boost)
      (t := writeReg (.access 1) s.par.regPaConfig (pwrEnc level boost) (s.enter 0x28#8)) rfl rfl hchain
    exact ⟨_, hexec, hres, by rw [State.leave_reg, hval]; exact hdone, hframe, hval⟩
  · obtain ⟨hchain, hval⟩ := writeReg_plain_chain (hs.enter 0x2E#8) (ha.enter 0x2E#8) (.access 1) s.par.regSyncWord w
      (class_syncWord hs.params)
    obtain ⟨hexec, hres, hdone, hframe⟩ := exec_of_chain (i := .setSyncWord w) rfl rfl hchain
    exact ⟨_, hexec, hres, hdone, hframe, hval⟩
  · obtain ⟨t, ht, hchain, hmsb, hlsb⟩ := setPreambleLengthOp_chain (hs.enter 0x2C#8) (ha.enter 0x2C#8) v
    obtain ⟨hexec, hres, hdone, hframe⟩ := exec_of_chain (i := .setPreambleLength v) rfl ht hchain
    exact ⟨_, hexec, hres, hdone, hframe, hmsb, hlsb⟩
  · obtain ⟨hchain, hwritten⟩ := writeAll_chain (.access 1) (s.par.iqWrites inv) (hs.enter 0x30#8) (ha.enter 0x30#8) hplain
    obtain ⟨hexec, hres, hdone, hframe⟩ := exec_of_chain (i := .setInvertIQ inv) rfl rfl hchain
    rw [writesOf, List.length_map] at hframe
    exact ⟨_, hexec, hres, hdone, hframe, hwritten⟩

end Sys2Proof.Machine
end

section
/-! SUPPORT. The getters (46_param_codecs.md R247 to R269), and each getter after its setter (R272). -/

namespace Sys2Proof.Machine

/-- An operation that reads one plain register answers with a function of what the register holds. -/
theorem exec_of_plain_read {i : Instr} {op : Byte} {s : State} (reg : Params → RegAddr) (answer : Params → Byte → Result)
    (hi : exec i s = .next (runOp op (fun u =>
      (answer u.par (readReg (.access 1) (reg u.par) u).1, (readReg (.access 1) (reg u.par) u).2)) s))
    (hs : s.Ready) (ha : s.Answers 6) (hc : regClass s.par (reg s.par) = .plain) {r : Result}
    (hr : answer s.par (s.reg (reg s.par)) = r) :
    ∃ t, exec i s = .next t ∧ Completed [.read (reg s.par)] s t ∧ RadioFrame 6 [] [] s t ∧ t.res = some r := by
  obtain ⟨t, hexec, hres, hdone, hframe⟩ := exec_of_read reg answer hi hs ha (by rw [hc]; decide)
  rw [hframe.plain _ hc List.not_mem_nil, hr] at hres
  exact ⟨t, hexec, hdone, hframe, hres⟩

section
variable {s : State} (hr : s.Running)
include hr

theorem getFrequencyOp_chain (ha : s.Answers 18) :
    ∃ t, getFrequencyOp s =
        (.rat (frfDec (s.reg s.par.regFrfMsb ++ s.reg s.par.regFrfMid ++ s.reg s.par.regFrfLsb)), t) ∧
      Chain [.read s.par.regFrfMsb, .read s.par.regFrfMid, .read s.par.regFrfLsb] [] [] s t := by
  have hok := hr.params
  obtain ⟨t1, e1, h1⟩ := readReg_plain_chain hr (ha.mono (by decide)) (.access 1) s.par.regFrfMsb (class_frfMsb hok)
  obtain ⟨t2, e2, h2, k2⟩ := h1.read ha (by simp) (.access 2) s.par.regFrfMid (class_frfMid hok)
  obtain ⟨t3, e3, h3, -⟩ := h2.read ha (by simp) (.access 3) s.par.regFrfLsb (class_frfLsb hok)
  have hmid : t1.reg s.par.regFrfMid = s.reg s.par.regFrfMid := h1.frame.plain _ (class_frfMid hok) List.not_mem_nil
  have hlsb : t2.reg s.par.regFrfLsb = s.reg s.par.regFrfLsb :=
    (k2 _ (class_frfLsb hok)).trans (h1.frame.plain _ (class_frfLsb hok) List.not_mem_nil)
  refine ⟨t3, ?_, h3⟩
  simp only [getFrequencyOp, e1, h1.par, e2, h2.par, e3, orFree_noFault _ h3.running.noFault, hmid, hlsb]

theorem getPreambleLengthOp_chain (ha : s.Answers 12) :
    ∃ t, getPreambleLengthOp s = (.u16 (s.reg s.par.regPreambleMsb ++ s.reg s.par.regPreambleLsb), t) ∧
      Chain [.read s.par.regPreambleMsb, .read s.par.regPreambleLsb] [] [] s t := by
  have hok := hr.params
  obtain ⟨t1, e1, h1⟩ := readReg_plain_chain hr (ha.mono (by decide)) (.access 1) s.par.regPreambleMsb (class_preambleMsb hok)
  obtain ⟨t2, e2, h2, -⟩ := h1.read ha (by simp) (.access 2) s.par.regPreambleLsb (class_preambleLsb hok)
  have hlsb : t1.reg s.par.regPreambleLsb = s.reg s.par.regPreambleLsb := h1.frame.plain _ (class_preambleLsb hok) List.not_mem_nil
  refine ⟨t2, ?_, h2⟩
  simp only [getPreambleLengthOp, e1, h1.par, e2, orFree_noFault _ h2.running.noFault, hlsb]

end

/-- The level and the boost bit, as slices of the byte. -/
theorem pwrDec_slices (v : Byte) :
    pwrDec v = (((v.extractLsb' 0 5).toNat : Int) + (if v.getLsbD 7 then 2 else 0), v.getLsbD 7) := by
  have hlevel : (v.extractLsb' 0 5).toNat = v.toNat % 32 := by simp
  rw [pwrDec_eq, hlevel]
  cases v.getLsbD 7 <;> simp

/-- Settles O50. -/
theorem plainGetters : Obligations.PlainGetters := by
  intro s hs
  have hok := hs.params
  refine ⟨fun ha => ?freq, fun ha => ?bw, fun ha => ?sf, fun ha => ?cr, fun ha => ?pwr, fun ha => ?pre, fun ha => ?sync⟩
  case freq =>
    obtain ⟨t, ht, hchain⟩ := getFrequencyOp_chain (hs.enter 0x21#8) (ha.enter 0x21#8)
    obtain ⟨hexec, hres, hdone, hframe⟩ := exec_of_chain (i := .getFrequency) rfl ht hchain
    exact ⟨_, hexec, hdone, hframe, hres⟩
  case bw =>
    exact exec_of_plain_read (i := .getBandwidth) (op := 0x23#8) Params.regModemConfig1 (fun _ v => bwDec (extField v 7 4).toNat)
      rfl hs ha (class_modemConfig1 hok) (by rw [toNat_extField_slice _ (by decide)]; rfl)
  case sf =>
    exact exec_of_plain_read (i := .getSpreadingFactor) (op := 0x25#8) Params.regModemConfig2 (fun _ v => .int (extField v 7 4).toNat)
      rfl hs ha (class_modemConfig2 hok) (by rw [toNat_extField_slice _ (by decide)])
  case cr =>
    exact exec_of_plain_read (i := .getCodingRate) (op := 0x27#8) Params.regModemConfig1
      (fun _ v => .int ((extField v 3 1).toNat + 4)) rfl hs ha (class_modemConfig1 hok) (by rw [toNat_extField_slice _ (by decide)])
  case pwr =>
    exact exec_of_plain_read (i := .getTxPower) (op := 0x29#8) Params.regPaConfig (fun _ v => .power (pwrDec v).1 (pwrDec v).2)
      rfl hs ha (class_paConfig hok) (by rw [pwrDec_slices])
  case pre =>
    obtain ⟨t, ht, hchain⟩ := getPreambleLengthOp_chain (hs.enter 0x2D#8) (ha.enter 0x2D#8)
    obtain ⟨hexec, hres, hdone, hframe⟩ := exec_of_chain (i := .getPreambleLength) rfl ht hchain
    exact ⟨_, hexec, hdone, hframe, hres⟩
  case sync =>
    exact exec_of_plain_read (i := .getSyncWord) (op := 0x2F#8) Params.regSyncWord (fun _ v => .byte v) rfl hs ha
      (class_syncWord hok) rfl

/-- Settles O51. -/
theorem signalGetters : Obligations.SignalGetters := by
  intro s hs ha
  have hclass : ∀ a ∈ statusRegs s.par, regClass s.par a ≠ .window := fun a h => by rw [class_status hs.params a h]; decide
  refine ⟨?rssi, ?snr⟩
  case rssi =>
    obtain ⟨t, hexec, hres, hdone, hframe⟩ := exec_of_read (i := .getRssi) (op := 0x2A#8) Params.regPktRssi
      (fun _ v => .int (rssiDec v)) rfl hs ha (hclass _ (by simp [statusRegs]))
    exact ⟨t, hexec, hdone, hframe, hres⟩
  case snr =>
    obtain ⟨t, hexec, hres, hdone, hframe⟩ := exec_of_read (i := .getSnr) (op := 0x2B#8) Params.regPktSnr
      (fun _ v => .rat (snrDec v)) rfl hs ha (hclass _ (by simp [statusRegs]))
    exact ⟨t, hexec, hdone, hframe, hres⟩

/-! ### Each getter after its setter -/

/-- What an integer kept in a field of `n` bits is read back as. -/
theorem toNat_ofInt_of_lt {n : Nat} {x : Int} (h0 : 0 ≤ x) (h : x < 2 ^ n) : ((BitVec.ofInt n x).toNat : Int) = x := by
  rw [BitVec.toNat_ofInt, Int.toNat_of_nonneg (Int.emod_nonneg _ (by positivity))]
  exact Int.emod_eq_of_lt h0 (by exact_mod_cast h)

/-- The three slices of a 24-bit word give it back. -/
theorem word_of_slices (v : BitVec 24) : v.extractLsb' 16 8 ++ v.extractLsb' 8 8 ++ v.extractLsb' 0 8 = v := by
  rw [BitVec.extractLsb'_append_extractLsb'_eq_extractLsb' (by rfl), BitVec.extractLsb'_append_extractLsb'_eq_extractLsb' (by rfl)]
  exact BitVec.extractLsb'_eq_self

theorem half_of_slices (v : BitVec 16) : v.extractLsb' 8 8 ++ v.extractLsb' 0 8 = v := by
  rw [BitVec.extractLsb'_append_extractLsb'_eq_extractLsb' (by rfl)]
  exact BitVec.extractLsb'_eq_self

/-- Settles O52: each setter leaves the session ready, and the getter reads the registers the setter has written. -/
theorem getterAfterSetter : Obligations.GetterAfterSetter := by
  refine ⟨fun s den hs ha => ?cr, fun s sf hs ha => ?sf, fun s level boost hs ha => ?pwr, fun s v hs ha => ?pre,
    fun s w hs ha => ?sync, fun s b hs ha => ?bw, fun s f hs ha h0 hfit => ?freq⟩
  case cr =>
    obtain ⟨t, ht, hchain, hval⟩ := rmw_codingRate (hs.enter 0x26#8) ((ha.enter 0x26#8).mono (by decide)) den
    obtain ⟨hready, hans⟩ := hchain.resume (n := 6) ha (by simp) .unit
    obtain ⟨-, -, -, hget, -⟩ := plainGetters _ hready
    obtain ⟨u, hu, -, -, hres⟩ := hget hans
    refine ⟨_, u, (exec_of_chain (i := .setCodingRate den) rfl (congrArg (Prod.mk Result.unit) ht) hchain).1, hu, hres.trans ?_⟩
    have hlo := le_clamp den (show (5 : Int) ≤ 8 by decide)
    have hhi := clamp_le den (show (5 : Int) ≤ 8 by decide)
    have hfield : (((t.leave .unit).reg (t.leave .unit).par.regModemConfig1).extractLsb' 1 3) = BitVec.ofInt 3 (clamp den 5 8 - 4) := by
      rw [State.leave_reg, State.leave_par, hchain.par, hval, extractLsb_mid]
    rw [hfield, toNat_ofInt_of_lt (by omega) (by omega)]
    congr 2; omega
  case sf =>
    obtain ⟨t, ht, hchain, hval, -, -⟩ := setSpreadingFactorOp_chain (hs.enter 0x24#8) ((ha.enter 0x24#8).mono (by decide)) sf
    obtain ⟨hready, hans⟩ := hchain.resume (n := 6) ha (by simp) .unit
    obtain ⟨-, -, hget, -⟩ := plainGetters _ hready
    obtain ⟨u, hu, -, -, hres⟩ := hget hans
    refine ⟨_, u, (exec_of_chain (i := .setSpreadingFactor sf) rfl ht hchain).1, hu, hres.trans ?_⟩
    have hlo := le_clamp sf (show (6 : Int) ≤ 12 by decide)
    have hhi := clamp_le sf (show (6 : Int) ≤ 12 by decide)
    have hfield : (((t.leave .unit).reg (t.leave .unit).par.regModemConfig2).extractLsb' 4 4) = BitVec.ofInt 4 (clamp sf 6 12) := by
      rw [State.leave_reg, State.leave_par, hchain.par, hval, extractLsb_high]
    rw [hfield, toNat_ofInt_of_lt (by omega) (by omega)]
  case pwr =>
    obtain ⟨hchain, hval⟩ := writeReg_plain_chain (hs.enter 0x28#8) ((ha.enter 0x28#8).mono (by decide)) (.access 1)
      s.par.regPaConfig (pwrEnc level boost) (class_paConfig hs.params)
    obtain ⟨hready, hans⟩ := hchain.resume (n := 6) ha (by simp) .unit
    obtain ⟨u, hu, -, -, hres⟩ := exec_of_plain_read (i := .getTxPower) (op := 0x29#8) Params.regPaConfig
      (fun _ v => .power (pwrDec v).1 (pwrDec v).2) rfl hready hans (class_paConfig hready.params) rfl
    refine ⟨_, u, (exec_of_chain (i := .setTxPower level boost)
      (t := writeReg (.access 1) s.par.regPaConfig (pwrEnc level boost) (s.enter 0x28#8)) rfl rfl hchain).1, hu, hres.trans ?_⟩
    rw [State.leave_reg, State.leave_par, hchain.par, State.enter_par, hval, pwrDec_pwrEnc]
  case pre =>
    obtain ⟨t, ht, hchain, hmsb, hlsb⟩ := setPreambleLengthOp_chain (hs.enter 0x2C#8) ((ha.enter 0x2C#8).mono (by decide)) v
    obtain ⟨hready, hans⟩ := hchain.resume (n := 12) ha (by simp) .unit
    obtain ⟨-, -, -, -, -, hget, -⟩ := plainGetters _ hready
    obtain ⟨u, hu, -, -, hres⟩ := hget hans
    refine ⟨_, u, (exec_of_chain (i := .setPreambleLength v) rfl ht hchain).1, hu, hres.trans ?_⟩
    rw [State.leave_reg, State.leave_reg, State.leave_par, hchain.par, hmsb, hlsb, half_of_slices]
  case sync =>
    obtain ⟨hchain, hval⟩ := writeReg_plain_chain (hs.enter 0x2E#8) ((ha.enter 0x2E#8).mono (by decide)) (.access 1)
      s.par.regSyncWord w (class_syncWord hs.params)
    obtain ⟨hready, hans⟩ := hchain.resume (n := 6) ha (by simp) .unit
    obtain ⟨-, -, -, -, -, -, hget⟩ := plainGetters _ hready
    obtain ⟨u, hu, -, -, hres⟩ := hget hans
    refine ⟨_, u, (exec_of_chain (i := .setSyncWord w)
      (t := writeReg (.access 1) s.par.regSyncWord w (s.enter 0x2E#8)) rfl rfl hchain).1, hu, hres.trans ?_⟩
    rw [State.leave_reg, State.leave_par, hchain.par, State.enter_par, hval]
  case bw =>
    obtain ⟨t, ht, hchain, hval⟩ := rmw_bandwidth (hs.enter 0x22#8) ((ha.enter 0x22#8).mono (by decide)) b
    obtain ⟨hready, hans⟩ := hchain.resume (n := 6) ha (by simp) .unit
    obtain ⟨-, hget, -⟩ := plainGetters _ hready
    obtain ⟨u, hu, -, -, hres⟩ := hget hans
    have hle := bwIdx_le_nine b
    obtain ⟨e, he⟩ : ∃ e, Config.bwTable[bwIdx b]? = some e :=
      ⟨_, List.getElem?_eq_getElem (show bwIdx b < 10 by omega)⟩
    have hfield : (((t.leave .unit).reg (t.leave .unit).par.regModemConfig1).extractLsb' 4 4).toNat = bwIdx b := by
      rw [State.leave_reg, State.leave_par, hchain.par, hval, extractLsb_high, BitVec.toNat_ofNat]
      omega
    refine ⟨_, u, e, (exec_of_chain (i := .setBandwidth b) rfl (congrArg (Prod.mk Result.unit) ht) hchain).1, hu, he, hres.trans ?_⟩
    rw [hfield, he]
  case freq =>
    obtain ⟨t, ht, hchain, hmsb, hmid, hlsb⟩ := setFrequencyOp_chain (hs.enter 0x20#8) ((ha.enter 0x20#8).mono (by decide)) h0 hfit
    obtain ⟨hready, hans⟩ := hchain.resume (n := 18) ha (by simp) .unit
    obtain ⟨hget, -⟩ := plainGetters _ hready
    obtain ⟨u, hu, -, -, hres⟩ := hget hans
    refine ⟨_, u, frfDec (frfWord f), (exec_of_chain (i := .setFrequency f) rfl ht hchain).1, hu, hres.trans ?_,
      frfDec_frfWord h0 hfit⟩
    rw [State.leave_reg, State.leave_reg, State.leave_reg, State.leave_par, hchain.par, hmsb, hmid, hlsb, word_of_slices, frfDec_eq]

end Sys2Proof.Machine
end

section
/-! SUPPORT. The pieces of the packet sequencers (47_packet_sequencers.md): IQ polarity, the staging and the draining of the FIFO, and
what RADIO's own steps before one access make of the radio. -/

namespace Sys2Proof.Machine

/-! ### The answers to come, by position -/

theorem forall_mem_take_iff {α : Type} {P : α → Prop} {l : List α} {n : Nat} :
    (∀ x ∈ l.take n, P x) ↔ ∀ (i : Nat) (x : α), i < n → l[i]? = some x → P x := by
  constructor
  · intro h i x hi hx
    exact h x (List.mem_of_getElem? (i := i) (by rw [List.getElem?_take_of_lt hi]; exact hx))
  · intro h x hx
    obtain ⟨i, hi⟩ := List.getElem?_of_mem hx
    rw [List.getElem?_take] at hi
    split at hi
    · next hlt => exact h i x hlt hi
    · cases hi

/-! ### RADIO's own steps -/

theorem Radio.reg_setIfSome_same {r : Radio} (h : r.Wf) (a : RegAddr) (o : Option Byte) :
    (r.setIfSome a o).reg a = o.getD (r.reg a) := by
  cases o with
  | none => rfl
  | some v => exact Radio.reg_setReg_same r a v h

theorem Radio.fifoByte_setIfSome (r : Radio) (a : RegAddr) (o : Option Byte) (b : Byte) :
    (r.setIfSome a o).fifoByte b = r.fifoByte b := by
  cases o <;> rfl

/-- The last byte a list of FIFO writes gives for an address is what the address holds. -/
theorem Radio.fifoByte_fillFifo {r : Radio} (h : r.Wf) (l : List (Byte × Byte)) (a : Byte) :
    (r.fillFifo l).fifoByte a = (l.reverse.lookup a).getD (r.fifoByte a) := by
  induction l generalizing r with
  | nil => rfl
  | cons x l ih =>
    obtain ⟨b, v⟩ := x
    rw [Radio.fillFifo, ih (h.setFifo b v), List.reverse_cons, List.lookup_append]
    cases hl : l.reverse.lookup a with
    | some y => rfl
    | none =>
      by_cases hab : a = b
      · rw [hab, Radio.fifoByte_setFifo_same r b v h]; simp
      · rw [Radio.fifoByte_setFifo_other r b a v hab, List.lookup_cons, beq_false_of_ne hab]; rfl

/-- The radio before its volatile registers are changed. -/
def Radio.flagged (p : Params) (e : RadioEvent) (r : Radio) : Radio :=
  if e.setFlags = 0#8 then r else r.setReg p.regIrqFlags (irqSet (r.reg p.regIrqFlags) e.setFlags)

theorem Radio.act_eq (p : Params) (e : RadioEvent) (r : Radio) : r.act p e =
    (((((((r.flagged p e).setIfSome p.regOpMode e.opMode).setIfSome p.regPktRssi e.rssi).setIfSome p.regPktSnr e.snr).setIfSome
      p.regRxNbBytes e.nbBytes).setIfSome p.regFifoRxCurrent e.rxCurrent).setIfSome p.regTemp e.temp).fillFifo e.fifo := rfl

theorem Radio.Wf.flagged {r : Radio} (h : r.Wf) (p : Params) (e : RadioEvent) : (r.flagged p e).Wf := by
  unfold Radio.flagged; split
  · exact h
  · exact h.setReg _ _

theorem Radio.reg_flagged_other (p : Params) (e : RadioEvent) (r : Radio) {a : RegAddr} (h : a ≠ p.regIrqFlags) :
    (r.flagged p e).reg a = r.reg a := by
  unfold Radio.flagged; split
  · rfl
  · exact Radio.reg_setReg_other _ _ _ _ h

theorem Radio.fifoByte_flagged (p : Params) (e : RadioEvent) (r : Radio) (b : Byte) :
    (r.flagged p e).fifoByte b = r.fifoByte b := by
  unfold Radio.flagged; split <;> rfl

section
variable {p : Params} (hp : p.Ok) (e : RadioEvent) {r : Radio} (hr : r.Wf)
include hp hr

theorem Radio.reg_act_opMode : (r.act p e).reg p.regOpMode = e.opMode.getD (r.reg p.regOpMode) := by
  rw [Radio.act_eq, Radio.reg_fillFifo]
  refine (Radio.reg_setIfSome_other _ _ _ _ (reg_ne_reg hp 1 29 (by decide))).trans <| (Radio.reg_setIfSome_other _ _ _ _ (reg_ne_reg hp 1 10 (by decide))).trans ?_
  refine (Radio.reg_setIfSome_other _ _ _ _ (reg_ne_reg hp 1 12 (by decide))).trans <| (Radio.reg_setIfSome_other _ _ _ _ (reg_ne_reg hp 1 13 (by decide))).trans ?_
  refine (Radio.reg_setIfSome_other _ _ _ _ (reg_ne_reg hp 1 14 (by decide))).trans ?_
  refine (Radio.reg_setIfSome_same (hr.flagged p e) _ _).trans (congrArg e.opMode.getD ?_)
  exact Radio.reg_flagged_other _ _ _ (reg_ne_reg hp 1 11 (by decide))

theorem Radio.reg_act_nbBytes : (r.act p e).reg p.regRxNbBytes = e.nbBytes.getD (r.reg p.regRxNbBytes) := by
  rw [Radio.act_eq, Radio.reg_fillFifo]
  refine (Radio.reg_setIfSome_other _ _ _ _ (reg_ne_reg hp 12 29 (by decide))).trans <| (Radio.reg_setIfSome_other _ _ _ _ (reg_ne_reg hp 12 10 (by decide))).trans ?_
  refine (Radio.reg_setIfSome_same ((((hr.flagged p e).setIfSome _ _).setIfSome _ _).setIfSome _ _) _ _).trans (congrArg e.nbBytes.getD ?_)
  refine (Radio.reg_setIfSome_other _ _ _ _ (reg_ne_reg hp 12 13 (by decide))).trans <| (Radio.reg_setIfSome_other _ _ _ _ (reg_ne_reg hp 12 14 (by decide))).trans ?_
  refine (Radio.reg_setIfSome_other _ _ _ _ (reg_ne_reg hp 12 1 (by decide))).trans ?_
  exact Radio.reg_flagged_other _ _ _ (reg_ne_reg hp 12 11 (by decide))

theorem Radio.reg_act_rxCurrent : (r.act p e).reg p.regFifoRxCurrent = e.rxCurrent.getD (r.reg p.regFifoRxCurrent) := by
  rw [Radio.act_eq, Radio.reg_fillFifo]
  refine (Radio.reg_setIfSome_other _ _ _ _ (reg_ne_reg hp 10 29 (by decide))).trans ?_
  refine (Radio.reg_setIfSome_same (((((hr.flagged p e).setIfSome _ _).setIfSome _ _).setIfSome _ _).setIfSome _ _) _ _).trans (congrArg e.rxCurrent.getD ?_)
  refine (Radio.reg_setIfSome_other _ _ _ _ (reg_ne_reg hp 10 12 (by decide))).trans <| (Radio.reg_setIfSome_other _ _ _ _ (reg_ne_reg hp 10 13 (by decide))).trans ?_
  refine (Radio.reg_setIfSome_other _ _ _ _ (reg_ne_reg hp 10 14 (by decide))).trans <| (Radio.reg_setIfSome_other _ _ _ _ (reg_ne_reg hp 10 1 (by decide))).trans ?_
  exact Radio.reg_flagged_other _ _ _ (reg_ne_reg hp 10 11 (by decide))

end

theorem Radio.fifoByte_act (p : Params) (e : RadioEvent) {r : Radio} (hr : r.Wf) (a : Byte) :
    (r.act p e).fifoByte a = (e.fifo.reverse.lookup a).getD (r.fifoByte a) := by
  rw [Radio.act_eq, Radio.fifoByte_fillFifo (((((((hr.flagged p e).setIfSome _ _).setIfSome _ _).setIfSome _ _).setIfSome _ _).setIfSome
    _ _).setIfSome _ _)]
  simp only [Radio.fifoByte_setIfSome, Radio.fifoByte_flagged]

/-- Steps of RADIO that set flags and change the mode touch no other register and no FIFO byte. -/
theorem Radio.act_flags_mode (p : Params) (flags : Byte) (mode : Option Byte) (r : Radio) :
    (∀ a, a ∉ [p.regIrqFlags, p.regOpMode] →
      (r.act p { RadioEvent.nothing with setFlags := flags, opMode := mode }).reg a = r.reg a) ∧
    ∀ b, (r.act p { RadioEvent.nothing with setFlags := flags, opMode := mode }).fifoByte b = r.fifoByte b := by
  have hact : r.act p { RadioEvent.nothing with setFlags := flags, opMode := mode } =
      (r.flagged p { RadioEvent.nothing with setFlags := flags, opMode := mode }).setIfSome p.regOpMode mode := rfl
  rw [hact]
  refine ⟨fun a ha => ?_, fun b => ?_⟩
  · obtain ⟨h1, h2⟩ : a ≠ p.regIrqFlags ∧ a ≠ p.regOpMode := by simpa using ha
    rw [Radio.reg_setIfSome_other _ _ _ _ h2, Radio.reg_flagged_other _ _ _ h1]
  · rw [Radio.fifoByte_setIfSome, Radio.fifoByte_flagged]

/-! ### IQ polarity -/

theorem State.IqOnly.plain {s : State} (h : s.IqOnly) (hok : s.par.Ok) (inv : Bool) :
    ∀ av ∈ s.par.iqWrites inv, regClass s.par av.1 = .plain := fun av hav => by
  rcases h inv av hav with e | e <;> rw [e]
  · exact class_invertIq hok
  · exact class_invertIq2 hok

/-- What a list of IQ writes has left stays while its registers stay. -/
theorem State.IqWritten.congr {ws : List (RegAddr × Byte)} {s t : State} (h : s.IqWritten ws)
    (hreg : ∀ a ∈ ws.map Prod.fst, t.reg a = s.reg a) : t.IqWritten ws := fun a ha => by rw [hreg a ha]; exact h a ha

theorem setIQ_chain {s : State} (hr : s.Running) (hiq : s.IqOnly) (l : Label) (inv : Bool)
    (ha : s.Answers (6 * (s.par.iqWrites inv).length)) :
    Chain (writesOf (s.par.iqWrites inv)) [s.par.regInvertIq, s.par.regInvertIq2] [] s (setIQ l inv s) ∧
      (setIQ l inv s).IqWritten (s.par.iqWrites inv) := by
  obtain ⟨hchain, hlast⟩ := writeAll_chain l (s.par.iqWrites inv) hr ha (hiq.plain hr.params inv)
  refine ⟨hchain.mono (fun a ha => ?_) (fun _ h => h), hlast⟩
  obtain ⟨av, hav, rfl⟩ := List.mem_map.mp ha
  simpa using hiq inv av hav

@[simp] theorem writesOf_length (ws : List (RegAddr × Byte)) : (writesOf ws).length = ws.length := by
  rw [writesOf, List.length_map]

/-- `RestoreIQ` leaves normal polarity, written now or before (R290). -/
theorem restoreIQ_chain {s : State} (hr : s.Running) (hiq : s.IqOnly) (l : Label) (inv : Bool)
    (ha : s.Answers (6 * (restoreAccesses s.par inv).length)) (hbefore : s.IqWritten (s.par.iqWrites inv)) :
    Chain (restoreAccesses s.par inv) [s.par.regInvertIq, s.par.regInvertIq2] [] s (restoreIQ l inv s) ∧
      (restoreIQ l inv s).IqWritten s.par.iqNormal := by
  cases inv with
  | true => exact setIQ_chain hr hiq l false (by simpa [restoreAccesses, Params.iqWrites] using ha)
  | false => exact ⟨(Chain.refl hr).mono (by simp) (by simp), hbefore⟩

/-! ### The FIFO -/

theorem ofNat_succ_byte (j : Nat) : BitVec.ofNat 8 (j + 1) = 1#8 + BitVec.ofNat 8 j := by
  rw [Nat.add_comm, BitVec.ofNat_add]

/-- The first of up to 256 addresses in a row is none of the others. -/
theorem byte_ne_add_succ {p : Byte} {j : Nat} (h : j < 255) : p ≠ p + 1#8 + BitVec.ofNat 8 j := fun e => by
  have hval := congrArg BitVec.toNat e
  have hlt := p.isLt
  simp only [BitVec.toNat_add, BitVec.toNat_ofNat] at hval
  omega

/-- Bytes written through the window land in a row from the pointer on (R289). -/
theorem fillFifo_chain (l : Label) (data : List Byte) {s : State} (hr : s.Running) (ha : s.Answers (6 * data.length))
    (hlen : data.length ≤ 256) :
    Chain (data.map (.write s.par.regFifo ·)) [s.par.regFifoAddrPtr]
      ((List.range data.length).map fun j => s.reg s.par.regFifoAddrPtr + BitVec.ofNat 8 j) s (fillFifo l data s) ∧
    (fillFifo l data s).reg s.par.regFifoAddrPtr = s.reg s.par.regFifoAddrPtr + BitVec.ofNat 8 data.length ∧
    ∀ own, s.RadioOnly (6 * data.length) own → ∀ (j : Nat) b, data[j]? = some b →
      (fillFifo l data s).fifoAt (s.reg s.par.regFifoAddrPtr + BitVec.ofNat 8 j) = b := by
  induction data generalizing s with
  | nil => exact ⟨(Chain.refl hr).mono (by simp) (by simp), by simp [fillFifo], fun _ _ j b h => by simp at h⟩
  | cons v data ih =>
    rw [List.length_cons] at ha hlen
    obtain ⟨hone, hbyte, hptr⟩ := writeReg_fifo_chain hr (ha.mono (by omega)) l v
    obtain ⟨hrest, hptr', hbytes⟩ := ih hone.running (hone.answers ha (by simp; omega)) (by omega)
    have hpar := hone.par
    rw [hpar] at hrest hptr' hbytes
    rw [hptr] at hrest hptr' hbytes
    refine ⟨(hone.trans hrest).mono (by simp) (fun x hx => ?_), ?_, fun own hown j b hj => ?_⟩
    · rcases List.mem_append.mp hx with hx | hx
      · exact List.mem_map.mpr ⟨0, by simp, by rw [List.mem_singleton.mp hx]; simp⟩
      · obtain ⟨j, hj, rfl⟩ := List.mem_map.mp hx
        exact List.mem_map.mpr ⟨j + 1, by simpa using hj, by rw [ofNat_succ_byte, BitVec.add_assoc]⟩
    · rw [fillFifo, hptr', List.length_cons, ofNat_succ_byte data.length, BitVec.add_assoc]
    · have hown' : State.RadioOnly (6 * data.length) own (writeReg l s.par.regFifo v s) :=
        hone.only (hown.mono (by simp; omega))
      cases j with
      | zero =>
        obtain rfl : v = b := by simpa using hj
        have hkeep := hrest.fifo own (by rw [List.length_map]; exact hown') (s.reg s.par.regFifoAddrPtr) (fun hmem => by
          obtain ⟨i, hi, he⟩ := List.mem_map.mp hmem
          exact byte_ne_add_succ (by have := List.mem_range.mp hi; omega) he.symm)
        rw [fillFifo, show s.reg s.par.regFifoAddrPtr + BitVec.ofNat 8 0 = s.reg s.par.regFifoAddrPtr by simp, hkeep, hbyte]
      | succ j =>
        rw [fillFifo, ofNat_succ_byte, ← BitVec.add_assoc]
        exact hbytes own hown' j b (by simpa using hj)

/-- `StageFifo`: the payload from address 0 on, its length, and the pointer past it (R289). -/
theorem stageFifo_chain (l : Label) (data : List Byte) {s : State} (hr : s.Running) {n : Nat} (ha : s.Answers n)
    (hn : 6 * (2 + data.length) ≤ n) (hlen : data.length ≤ 255) :
    Chain (stageAccesses s.par data) [s.par.regFifoAddrPtr, s.par.regPayloadLength] ((List.range data.length).map (BitVec.ofNat 8)) s
      (stageFifo l data s) ∧
    (stageFifo l data s).reg s.par.regPayloadLength = BitVec.ofNat 8 data.length ∧
    (stageFifo l data s).reg s.par.regFifoAddrPtr = BitVec.ofNat 8 data.length ∧
    ∀ own, s.RadioOnly (6 * (2 + data.length)) own → ∀ (j : Nat) b, data[j]? = some b →
      (stageFifo l data s).fifoAt (BitVec.ofNat 8 j) = b := by
  have hok := hr.params
  obtain ⟨h1, v1⟩ := writeReg_plain_chain hr (ha.mono (by omega)) l s.par.regFifoAddrPtr 0x00#8 (class_fifoAddrPtr hok)
  obtain ⟨h2, v2, k2⟩ := h1.write ha (by simp; omega) l s.par.regPayloadLength (BitVec.ofNat 8 data.length) (class_payloadLength hok)
  have hptr : (writeReg l s.par.regPayloadLength (BitVec.ofNat 8 data.length) (writeReg l s.par.regFifoAddrPtr 0x00#8 s)).reg
      s.par.regFifoAddrPtr = 0x00#8 := (k2 _ (class_fifoAddrPtr hok) (reg_ne_reg hok 7 19 (by decide))).trans v1
  obtain ⟨h3, p3, b3⟩ := fillFifo_chain l data h2.running (h2.answers ha (by simp; omega)) (by omega)
  have hrun : stageFifo l data s = fillFifo l data
      (writeReg l s.par.regPayloadLength (BitVec.ofNat 8 data.length) (writeReg l s.par.regFifoAddrPtr 0x00#8 s)) := by
    simp only [stageFifo, h1.par]
  rw [h2.par, hptr] at h3 p3 b3
  simp only [BitVec.zero_add] at h3 p3 b3
  rw [hrun]
  refine ⟨(h2.trans h3).mono (by simp) (by simp), ?_, p3, fun own hown j b hj => b3 own (h2.only (hown.mono (by simp; omega))) j b hj⟩
  exact (h3.frame.plain s.par.regPayloadLength (by rw [h2.par]; exact class_payloadLength hok)
    fun hm => reg_ne_reg hok 19 7 (by decide) (List.mem_singleton.mp hm)).trans v2

@[simp] theorem stageAccesses_length (p : Params) (data : List Byte) : (stageAccesses p data).length = 2 + data.length := by
  simp only [stageAccesses, List.length_append, List.length_cons, List.length_nil, List.length_map]

/-- The FIFO read in a row from the pointer on, with no byte of it changed by RADIO (R296 V6). -/
theorem drainFifo_chain (l : Label) (n : Nat) {s : State} (hr : s.Running) (ha : s.Answers (6 * n)) {own : List RegAddr}
    (hown : s.RadioOnly (6 * n) own) :
    ∃ t, drainFifo l n s = ((List.range n).map fun i => s.fifoAt (s.reg s.par.regFifoAddrPtr + BitVec.ofNat 8 i), t) ∧
      Chain (List.replicate n (.read s.par.regFifo)) [s.par.regFifoAddrPtr] [] s t ∧
      t.reg s.par.regFifoAddrPtr = s.reg s.par.regFifoAddrPtr + BitVec.ofNat 8 n := by
  induction n generalizing s with
  | zero => exact ⟨s, rfl, (Chain.refl hr).mono (by simp) (by simp), by simp⟩
  | succ n ih =>
    obtain ⟨u, hu, hone, hptr⟩ := readReg_fifo_chain hr (ha.mono (by omega)) l
    have hpar := hone.par
    have hkeep : ∀ b, u.fifoAt b = s.fifoAt b := fun b => hone.fifo own (hown.mono (by simp)) b List.not_mem_nil
    obtain ⟨t, ht, hrest, hptr'⟩ := ih hone.running (hone.answers ha (by simp; omega)) (hone.only (hown.mono (by simp; omega)))
    rw [hpar, hptr] at hptr' ht
    rw [hpar] at hrest
    refine ⟨t, ?_, (hone.trans hrest).mono (by simp) (by simp), by rw [hptr', ofNat_succ_byte n, BitVec.add_assoc]⟩
    simp only [drainFifo, hu, ht, List.range_succ_eq_map, List.map_cons, List.map_map, hkeep]
    congr 2
    · simp
    · refine List.map_congr_left fun i _ => ?_
      rw [Function.comp, Nat.succ_eq_add_one, ofNat_succ_byte i, BitVec.add_assoc]

end Sys2Proof.Machine
end

section
/-! SUPPORT. `send` and the beacon (47_packet_sequencers.md R289 to R292, R302, R304): the steps before the first look at the flags, the
poll loop, and the end. -/

namespace Sys2Proof.Machine

/-! ### RADIO's own steps by position -/

/-- RADIO's own steps before the bulk transaction number `i` to come; past the tape none is known. -/
def State.radioAt (i : Nat) (s : State) : RadioEvent := (s.env.ticks[i]?.map Tick.radio).getD RadioEvent.nothing

theorem State.radioAt_of_getElem {s : State} {i : Nat} {tk : Tick} (h : s.env.ticks[i]? = some tk) : s.radioAt i = tk.radio := by
  simp only [State.radioAt, h, Option.map_some, Option.getD_some]

theorem State.radioStill_of_radioAt {n : Nat} {s : State} (h : ∀ i < n, s.radioAt i = RadioEvent.nothing) : s.RadioStill n :=
  forall_mem_take_iff.mpr fun i _ hi htk => (State.radioAt_of_getElem htk).symm.trans (h i hi)

theorem State.radioOnly_of_radioAt {n : Nat} {own : List RegAddr} {s : State}
    (h : ∀ i < n, ∀ r : Radio, (∀ a, a ∉ own → (r.act s.par (s.radioAt i)).reg a = r.reg a) ∧
      ∀ b, (r.act s.par (s.radioAt i)).fifoByte b = r.fifoByte b) : s.RadioOnly n own :=
  forall_mem_take_iff.mpr fun i _ hi htk => State.radioAt_of_getElem htk ▸ h i hi

theorem State.RadioActs.radioAt {n : Nat} {acts : List (Nat × RadioEvent)} {s : State} (h : s.RadioActs n acts) (ha : s.Answers n)
    {i : Nat} (hi : i < n) : s.radioAt i = (acts.lookup i).getD RadioEvent.nothing := by
  have hlt : i < s.env.ticks.length := lt_of_lt_of_le hi ha.given
  have htk := List.getElem?_eq_getElem hlt
  rw [State.radioAt_of_getElem htk]
  exact h i _ hi htk

theorem State.RadioStill.radioAt {n : Nat} {s : State} (h : s.RadioStill n) {i : Nat} (hi : i < n) :
    s.radioAt i = RadioEvent.nothing := by
  unfold State.radioAt
  cases htk : s.env.ticks[i]? with
  | none => rfl
  | some tk => exact forall_mem_take_iff.mp h i tk hi htk

theorem State.quiet_eq_act (s : State) : s.quiet = s.radio.act s.par (s.radioAt 0) := by
  unfold State.quiet State.radioAt
  cases s.env.ticks <;> rfl

section
variable {accs : List RegAccess} {w : List RegAddr} {f : List Byte} {s t u : State}

theorem Chain.radioAt (h : Chain accs w f s t) (i : Nat) : t.radioAt i = s.radioAt (6 * accs.length + i) := by
  rw [State.radioAt, State.radioAt, h.ticks, List.getElem?_drop]

/-- A flag RADIO never sets by itself in a chain, and that was clear before it, is clear after it. -/
theorem Chain.flag_clear (h : Chain accs w f s t) (hw : s.par.regIrqFlags ∉ w) {never : Byte}
    (hev : ∀ i < 6 * accs.length, (s.radioAt i).setFlags &&& never = 0#8) (h0 : s.reg s.par.regIrqFlags &&& never = 0#8) :
    t.reg s.par.regIrqFlags &&& never = 0#8 :=
  h.flags never hw (forall_mem_take_iff.mpr fun i _ hi htk => State.radioAt_of_getElem htk ▸ hev i hi) h0

/-- A further chain that writes no FIFO byte. -/
theorem Chain.andThen {accs' : List RegAccess} {w' : List RegAddr} (h : Chain accs w f s t) (k : Chain accs' w' [] t u) :
    Chain (accs ++ accs') (w ++ w') f s u := (h.trans k).mono (fun _ h => h) (by simp)

/-! ### The values of `elapsed()` drawn between two accesses -/

/-- The state with other values of `elapsed()` to come. -/
def State.withClocks (c : List (List Rat)) (s : State) : State := { s with env := { s.env with clocks := c } }

theorem State.drawClock_eq {clk : List Rat} {more : List (List Rat)} (h : s.env.clocks = clk :: more) :
    s.drawClock = (clk, { s with env := { s.env with clocks := more, drawn := s.env.drawn + 1 } }) := by
  simp only [State.drawClock, h]

theorem State.Running.withClocks {c : List (List Rat)} {d : Nat} (h : s.Running) :
    State.Running { s with env := { s.env with clocks := c, drawn := d } } :=
  ⟨⟨h.params, h.isOpen, h.msbFirst, h.csHigh, h.csOutput, h.latchOut, h.latchDir, h.inQEmpty, h.txnEmpty,
    h.regsWf, h.fifoWf⟩, h.noFault⟩

/-- The values of `elapsed()` are no part of an access: a chain from the state that has drawn them is one from the state before. -/
theorem Chain.overClocks {c : List (List Rat)} {d : Nat}
    (h : Chain accs w f { s with env := { s.env with clocks := c, drawn := d } } t) :
    Chain accs w f s (t.withClocks s.env.clocks) :=
  have k := h.access
  ⟨⟨⟨k.par, k.isOpen, k.handle, k.dir, k.lsbFirst, k.irqCfg, k.cbSet, k.irqEn, k.lastLevel, k.lastCause, k.pseq, k.inbox, k.res,
      k.enums, rfl, k.opFault⟩, k.out, k.busFault, rfl, k.latchOut, k.latchDir, k.inQ, k.txn, k.ticks, k.frames⟩,
    h.running.withClocks, h.frame.congr rfl rfl rfl (fun _ => rfl) (fun _ => rfl), h.regs, h.fifo, h.flags⟩

/-- A chain of accesses that ends with other values of `elapsed()` to come is complete all the same. -/
theorem Chain.completed_withClocks {c : List (List Rat)} (op : Byte) (r : Result) (h : Chain accs w f (s.enter op) (t.withClocks c)) :
    Completed accs s (t.leave r) :=
  have k := h.completed op r
  ⟨k.session.congr rfl rfl, k.noFault, k.latchOut, k.latchDir, k.inQ, k.txn, k.seq, k.buf, k.ticks, k.frames⟩

/-- The cause an operation records at its end is no part of its accesses. -/
theorem Completed.fail {r : Result} {c : Cause} (h : Completed accs s (t.leave r)) :
    Completed accs s { (t.fail c).leave r with lastCause := s.lastCause } :=
  have k := h.session
  ⟨⟨k.par, k.isOpen, k.handle, k.dir, k.out, k.lsbFirst, k.irqCfg, k.cbSet, k.irqEn, k.lastLevel, rfl, k.busFault, k.pseq, k.inbox⟩,
    h.noFault, h.latchOut, h.latchDir, h.inQ, h.txn, h.seq, h.buf, h.ticks, h.frames⟩

/-! ### A write of the mode and the clearing of the flags as further links -/

variable {m : Nat}

theorem Chain.mode (h : Chain accs w f s t) (ha : s.Answers m) (hm : 6 * accs.length + 6 ≤ m) (l : Label) (md : OpMode) :
    Chain (accs ++ [.write s.par.regOpMode (modeByte s.par md)]) (w ++ [s.par.regOpMode]) f s (putMode l md t) ∧
      (putMode l md t).reg s.par.regOpMode = modeByte s.par md := by
  obtain ⟨hone, hval⟩ := putMode_chain h.running (h.answers ha hm) l md
  have hpar := h.par
  exact ⟨by simpa only [hpar] using h.andThen hone, by simpa only [hpar] using hval⟩

theorem Chain.cleared (h : Chain accs w f s t) (ha : s.Answers m) (hm : 6 * accs.length + 6 ≤ m) (l : Label) :
    Chain (accs ++ [.write s.par.regIrqFlags 0xFF#8]) (w ++ [s.par.regIrqFlags]) f s (clearFlags l t) ∧
      (clearFlags l t).reg s.par.regIrqFlags = 0#8 := by
  obtain ⟨hone, hval⟩ := clearFlags_chain h.running (h.answers ha hm) l
  have hpar := h.par
  exact ⟨by simpa only [hpar] using h.andThen hone, by simpa only [hpar] using hval⟩

end

theorem State.IqOnly.congr {s t : State} (h : s.IqOnly) (hp : t.par = s.par) : t.IqOnly := by
  rw [State.IqOnly, hp]; exact h

end Sys2Proof.Machine
end

section
/-! SUPPORT. `send` (47_packet_sequencers.md R289 to R292): the steps before the first look at the flags, the poll loop, the two ends. -/

namespace Sys2Proof.Machine

theorem not_mem_one {a b : RegAddr} (h : a ≠ b) : a ∉ [b] := by simpa using h

theorem not_mem_two {a b c : RegAddr} (h : a ≠ b) (h' : a ≠ c) : a ∉ [b, c] := by simp [h, h']

/-! ### Steps S2 to S6 -/

/-- The registers the steps before the first look at the flags write. -/
def sendWritten (p : Params) : List RegAddr :=
  [p.regInvertIq, p.regInvertIq2, p.regDioMapping1, p.regOpMode, p.regFifoAddrPtr, p.regPayloadLength]

/-- What the steps before the first look at the flags leave (R291 S2 to S6). -/
structure SendSet (data : List Byte) (inv : Bool) (s t : State) : Prop where
  chain : Chain (sendSetupAccesses s.par data inv) (sendWritten s.par) ((List.range data.length).map (BitVec.ofNat 8)) s t
  length : t.reg s.par.regPayloadLength = BitVec.ofNat 8 data.length
  pointer : t.reg s.par.regFifoAddrPtr = BitVec.ofNat 8 data.length
  mapping : t.reg s.par.regDioMapping1 = s.par.dioMapTxDone
  polarity : t.IqWritten (s.par.iqWrites inv)
  mode : t.reg s.par.regOpMode = modeByte s.par .transmit
  payload : ∀ own, s.RadioOnly (6 * (sendSetupAccesses s.par data inv).length) own → ∀ (j : Nat) b, data[j]? = some b →
    t.fifoAt (BitVec.ofNat 8 j) = b

@[simp] theorem sendSetupAccesses_length (p : Params) (data : List Byte) (inv : Bool) :
    (sendSetupAccesses p data inv).length = (p.iqWrites inv).length + (5 + data.length) := by
  simp only [sendSetupAccesses, List.length_append, writesOf_length, stageAccesses_length, List.length_cons, List.length_nil]
  omega

theorem sendSetup_set {s : State} (hr : s.Running) (hiq : s.IqOnly) (data : List Byte) (inv : Bool) (hlen : data.length ≤ 255) {n : Nat}
    (ha : s.Answers n) (hn : 6 * (sendSetupAccesses s.par data inv).length ≤ n) : SendSet data inv s (sendSetup data inv s) := by
  have hok := hr.params
  rw [sendSetupAccesses_length] at hn
  obtain ⟨c1, hpol⟩ := setIQ_chain hr hiq (.main 'S' 2) inv (ha.mono (by omega))
  obtain ⟨s1, hs1⟩ : ∃ s1, s1 = setIQ (.main 'S' 2) inv s := ⟨_, rfl⟩
  rw [← hs1] at c1 hpol
  obtain ⟨p2, v2⟩ := writeReg_plain_chain c1.running (c1.answers ha (by rw [writesOf_length]; omega)) (.main 'S' 3) s.par.regDioMapping1
    s.par.dioMapTxDone (by rw [c1.par]; exact class_dioMapping1 hok)
  obtain ⟨s2, hs2⟩ : ∃ s2, s2 = writeReg (.main 'S' 3) s.par.regDioMapping1 s.par.dioMapTxDone s1 := ⟨_, rfl⟩
  rw [← hs2] at p2 v2
  have c2 := c1.andThen p2
  obtain ⟨p3, -⟩ := putMode_chain p2.running (c2.answers ha (by simp; omega)) (.main 'S' 4) .standby
  obtain ⟨s3, hs3⟩ : ∃ s3, s3 = putMode (.main 'S' 4) .standby s2 := ⟨_, rfl⟩
  rw [← hs3] at p3
  have c3 := c2.andThen p3
  obtain ⟨p4, hlength, hptr, hbytes⟩ := stageFifo_chain (.main 'S' 5) data p3.running
    (c3.answers ha (n := 6 * (2 + data.length)) (by simp; omega)) le_rfl hlen
  obtain ⟨s4, hs4⟩ : ∃ s4, s4 = stageFifo (.main 'S' 5) data s3 := ⟨_, rfl⟩
  rw [← hs4] at p4 hlength hptr hbytes
  have c4 := c3.trans p4
  obtain ⟨p5, hmode⟩ := putMode_chain p4.running (c4.answers ha (by simp; omega)) (.main 'S' 6) .transmit
  have hrun : sendSetup data inv s = putMode (.main 'S' 6) .transmit s4 := by
    simp only [sendSetup, ← hs1, c1.par, ← hs2, ← hs3, ← hs4]
  have e1 := c1.par
  have e2 := c2.par
  have e3 := c3.par
  have e4 := c4.par
  rw [← hrun] at p5 hmode
  have c5 := c4.andThen p5
  rw [e2] at p3 c3 c4 c5
  rw [e3] at p4 hlength hptr c4 c5
  rw [e4] at p5 hmode c5
  have hplain4 : ∀ a, regClass s.par a = .plain → (sendSetup data inv s).reg a = s4.reg a := fun a hc =>
    p5.frame.plain a (by rw [e4]; exact hc) (not_mem_one (plain_ne hc).2.2.1)
  have hplain2 : ∀ a, regClass s.par a = .plain → a ∉ [s.par.regFifoAddrPtr, s.par.regPayloadLength] →
      (sendSetup data inv s).reg a = s2.reg a := fun a hc hne =>
    (hplain4 a hc).trans ((p4.frame.plain a (by rw [e3]; exact hc) hne).trans
      (p3.frame.plain a (by rw [e2]; exact hc) (not_mem_one (plain_ne hc).2.2.1)))
  refine ⟨?_, (hplain4 _ (class_payloadLength hok)).trans hlength, (hplain4 _ (class_fifoAddrPtr hok)).trans hptr, ?_, ?_, hmode, ?_⟩
  · have haccs : sendSetupAccesses s.par data inv = (((writesOf (s.par.iqWrites inv) ++
        [.write s.par.regDioMapping1 s.par.dioMapTxDone]) ++ [.write s.par.regOpMode (modeByte s.par .standby)]) ++
        stageAccesses s.par data) ++ [.write s.par.regOpMode (modeByte s.par .transmit)] := by
      simp [sendSetupAccesses, modeByte, modeCode]
    rw [haccs]
    refine c5.mono (fun a ha => ?_) (fun _ h => h)
    simp only [List.mem_append, List.mem_cons, List.not_mem_nil, or_false] at ha
    simp only [sendWritten, List.mem_cons, List.not_mem_nil, or_false]
    tauto
  · exact (hplain2 _ (class_dioMapping1 hok) (not_mem_two (reg_ne_reg hok 26 7 (by decide)) (reg_ne_reg hok 26 19 (by decide)))).trans v2
  · refine hpol.congr fun a ha => ?_
    obtain ⟨av, hav, rfl⟩ := List.mem_map.mp ha
    have hc := hiq.plain hok inv av hav
    have hne : av.1 ∉ [s.par.regFifoAddrPtr, s.par.regPayloadLength] ∧ av.1 ≠ s.par.regDioMapping1 := by
      rcases hiq inv av hav with e | e <;> rw [e]
      · exact ⟨not_mem_two (reg_ne_reg hok 22 7 (by decide)) (reg_ne_reg hok 22 19 (by decide)), reg_ne_reg hok 22 26 (by decide)⟩
      · exact ⟨not_mem_two (reg_ne_reg hok 25 7 (by decide)) (reg_ne_reg hok 25 19 (by decide)), reg_ne_reg hok 25 26 (by decide)⟩
    exact (hplain2 _ hc hne.1).trans (p2.frame.plain _ (by rw [e1]; exact hc) (not_mem_one hne.2))
  · intro own hown j b hj
    rw [sendSetupAccesses_length] at hown
    have hown4 : s3.RadioOnly (6 * (2 + data.length)) own := c3.only (hown.mono (by simp; omega))
    have hown5 : s4.RadioOnly 6 own := c4.only (hown.mono (by simp; omega))
    exact (p5.fifo own hown5 _ List.not_mem_nil).trans (hbytes own hown4 j b hj)

/-! ### The poll loop (R292) -/

theorem txDone_eq_false {p : Params} {f : Byte} (h : f &&& p.irqTxDone = 0#8) : txDone p f = false := by
  simp [txDone, h]

theorem txDone_eq_true {p : Params} {f : Byte} (h : f &&& p.irqTxDone ≠ 0#8) : txDone p f = true := by
  simp [txDone, h]

/-- A flag that is set among others is not lost. -/
theorem or_and_ne_zero {a b m : Byte} (h : b &&& m ≠ 0#8) : (a ||| b) &&& m ≠ 0#8 := fun e => h (by
  apply BitVec.eq_of_getLsbD_eq
  intro i hi
  have hbit := congrArg (fun x => x.getLsbD i) e
  simp only [BitVec.getLsbD_and, BitVec.getLsbD_or, BitVec.getLsbD_zero] at hbit ⊢
  cases ha : a.getLsbD i <;> simp_all)

theorem or_and_eq_zero {a b m : Byte} (h : a &&& m = 0#8) (h' : b &&& m = 0#8) : (a ||| b) &&& m = 0#8 := by
  rw [BitVec.and_comm] at h h' ⊢
  rw [BitVec.and_or_distrib_left, h, h']; rfl

section
variable {s : State} (hr : s.Running)
include hr

/-- One look at the flags shows those there were and those RADIO has set just before. -/
theorem readFlags_chain (ha : s.Answers 6) (l : Label) :
    ∃ t, readReg l s.par.regIrqFlags s = (t.reg s.par.regIrqFlags, t) ∧ Chain [.read s.par.regIrqFlags] [] [] s t ∧
      t.reg s.par.regIrqFlags = s.reg s.par.regIrqFlags ||| (s.radioAt 0).setFlags ∧
      t.radio = { s.radio.act s.par (s.radioAt 0) with txn := [] } := by
  obtain ⟨t, ht, hchain, hrad⟩ := readReg_chain hr ha l s.par.regIrqFlags (by rw [class_irqFlags hr.params]; decide)
  rw [s.quiet_eq_act] at hrad
  refine ⟨t, ht, hchain, ?_, hrad⟩
  rw [State.reg, hrad]
  exact Radio.reg_act_flags hr.params _ _ ⟨hr.regsWf, hr.fifoWf⟩

/-- A poll that shows TX-done ends the loop, whatever the time. -/
theorem sendPoll_done (ha : s.Answers 6) (hset : (s.radioAt 0).setFlags &&& s.par.irqTxDone ≠ 0#8) (clk : List Rat) (now : Rat) :
    ∃ t, sendPoll clk now s = (.done, t) ∧ Chain [.read s.par.regIrqFlags] [] [] s t := by
  obtain ⟨t, ht, hchain, hflags, -⟩ := readFlags_chain hr ha (.main 'L' 1)
  have hdone : txDone t.par (t.reg s.par.regIrqFlags) = true := txDone_eq_true (by
    rw [hflags, hchain.par]; exact or_and_ne_zero hset)
  refine ⟨t, ?_, hchain⟩
  cases clk <;> simp only [sendPoll, ht, hdone, if_true]

/-- A poll that does not show TX-done ends the loop where no value of `elapsed()` short of the bound is left. -/
theorem sendPoll_timedOut (ha : s.Answers 6) (hflag : s.reg s.par.regIrqFlags &&& s.par.irqTxDone = 0#8)
    (hset : (s.radioAt 0).setFlags &&& s.par.irqTxDone = 0#8) {clk : List Rat} (hclk : ∀ x, clk[0]? = some x → 2 ≤ x) (now : Rat) :
    ∃ t, sendPoll clk now s = (.timedOut, t) ∧ Chain [.read s.par.regIrqFlags] [] [] s t := by
  obtain ⟨t, ht, hchain, hflags, -⟩ := readFlags_chain hr ha (.main 'L' 1)
  have hdone : txDone t.par (t.reg s.par.regIrqFlags) = false := txDone_eq_false (by
    rw [hflags, hchain.par]; exact or_and_eq_zero hflag hset)
  refine ⟨t, ?_, hchain⟩
  cases clk with
  | nil => simp only [sendPoll, ht, hdone, Bool.false_eq_true, if_false]
  | cons x clk =>
    have hlate : Config.sendTimeout ≤ max now x := le_max_of_le_right (hclk x rfl)
    simp only [sendPoll, ht, hdone, Bool.false_eq_true, if_false, hlate, if_true]

/-- The polls that show nothing while the time is short of the bound only read the flags, and sleep. -/
theorem sendPoll_skip (k : Nat) {clk : List Rat} {now : Rat} {n : Nat} (ha : s.Answers n) (hn : 6 * k ≤ n) (hk : k ≤ clk.length)
    (hclk : ∀ x ∈ clk.take k, x < 2) (hnow : now < 2) (hflag : s.reg s.par.regIrqFlags &&& s.par.irqTxDone = 0#8)
    (hset : ∀ j < k, (s.radioAt (6 * j)).setFlags &&& s.par.irqTxDone = 0#8) :
    ∃ t now', sendPoll clk now s = sendPoll (clk.drop k) now' t ∧ Chain (List.replicate k (.read s.par.regIrqFlags)) [] [] s t ∧
      t.reg s.par.regIrqFlags &&& s.par.irqTxDone = 0#8 := by
  induction k generalizing clk now s n with
  | zero => exact ⟨s, now, rfl, .refl hr, hflag⟩
  | succ k ih =>
    cases clk with
    | nil => exact absurd hk (Nat.not_succ_le_zero k)
    | cons x clk =>
      obtain ⟨u, hu, hone, hflags, -⟩ := readFlags_chain hr (ha.mono (by omega)) (.main 'L' 1)
      have hclear : u.reg s.par.regIrqFlags &&& s.par.irqTxDone = 0#8 := by
        rw [hflags]; exact or_and_eq_zero hflag (hset 0 (Nat.succ_pos k))
      have hpar := hone.par
      have hdone : txDone u.par (u.reg s.par.regIrqFlags) = false := txDone_eq_false (by rw [hpar]; exact hclear)
      have hshort : max now x < 2 := max_lt hnow (hclk x (by simp))
      have hstep : sendPoll (x :: clk) now s = sendPoll clk (max now x) (u.sleepFor u.par.pollTxInterval) := by
        simp only [sendPoll, hu, hdone, Bool.false_eq_true, if_false, not_le.mpr (show max now x < Config.sendTimeout from hshort)]
      have hslept := hone.trans (.sleepFor hone.running u.par.pollTxInterval)
      have hpar' : (u.sleepFor u.par.pollTxInterval).par = s.par := hpar
      obtain ⟨t, now', ht, hrest, hclear'⟩ := ih hslept.running (clk := clk) (now := max now x)
        (hslept.answers ha (n := 6 * k) (by simp; omega)) le_rfl (by simpa using hk)
        (fun y hy => hclk y (by simp [hy])) hshort (by rw [hpar']; exact hclear)
        (fun j hj => by
          rw [hslept.radioAt, hpar']
          have hnext := hset (j + 1) (by omega)
          rwa [Nat.mul_add, Nat.add_comm] at hnext)
      rw [hpar'] at hrest hclear'
      exact ⟨t, now', hstep.trans ht, by rw [List.replicate_succ]; exact hslept.trans hrest, hclear'⟩

end

/-! ### The two ends -/

/-- What a whole `send` leaves at the radio: its steps before the first look, and a chain behind them that writes no more than the mode,
the flags and the polarity. -/
theorem SendSet.staged {data : List Byte} {inv : Bool} {s t u : State} (h : SendSet data inv s t) (hok : s.par.Ok)
    (hlen : data.length ≤ 255) {accs : List RegAccess}
    (k : Chain accs [s.par.regIrqFlags, s.par.regOpMode, s.par.regInvertIq, s.par.regInvertIq2] [] t u)
    (hown : s.RadioOnly (6 * ((sendSetupAccesses s.par data inv).length + accs.length)) [s.par.regIrqFlags, s.par.regOpMode])
    (hpol : u.IqWritten s.par.iqNormal) : Staged data s u := by
  rw [Nat.mul_add] at hown
  have hown1 := hown.mono (Nat.le_add_right _ _)
  have hown2 := h.chain.only hown
  have hplain : ∀ a, regClass s.par a = .plain → a ≠ s.par.regInvertIq → a ≠ s.par.regInvertIq2 → u.reg a = t.reg a :=
    fun a hc h1 h2 => by
      obtain ⟨-, h3, h4, -⟩ := plain_ne hc
      exact k.frame.plain a (by rw [h.chain.par]; exact hc) (by simp [h1, h2, h3, h4])
  refine ⟨?_, ?_, fun j b hj => ?_, fun b hb => ?_, ?_, hpol, fun a ha => ?_⟩
  · exact (hplain _ (class_payloadLength hok) (reg_ne_reg hok 19 22 (by decide)) (reg_ne_reg hok 19 25 (by decide))).trans h.length
  · exact (hplain _ (class_fifoAddrPtr hok) (reg_ne_reg hok 7 22 (by decide)) (reg_ne_reg hok 7 25 (by decide))).trans h.pointer
  · exact (k.fifo _ hown2 _ List.not_mem_nil).trans (h.payload _ hown1 j b hj)
  · refine (k.fifo _ hown2 _ List.not_mem_nil).trans (h.chain.fifo _ hown1 b fun hmem => ?_)
    obtain ⟨j, hj, rfl⟩ := List.mem_map.mp hmem
    have hj := List.mem_range.mp hj
    rw [BitVec.toNat_ofNat] at hb
    omega
  · exact (hplain _ (class_dioMapping1 hok) (reg_ne_reg hok 26 22 (by decide)) (reg_ne_reg hok 26 25 (by decide))).trans h.mapping
  · simp only [List.mem_cons, List.not_mem_nil, or_false, not_or] at ha
    obtain ⟨hm, hf, hl, hp, hd, hi, hi2⟩ := ha
    exact (k.regs _ hown2 a (by simp [hm, hf, hi, hi2]) (by simp [hm, hf])).trans
      (h.chain.regs _ hown1 a (by simp [sendWritten, hm, hl, hp, hd, hi, hi2]) (by simp [hm, hf]))

theorem sendOp_open {s : State} (hopen : s.isOpen = true) {data : List Byte} (hlen : data.length ≤ 255) (inv : Bool) :
    sendOp data inv s =
      match sendPoll (sendSetup data inv s).drawClock.1 0 (sendSetup data inv s).drawClock.2 with
      | (.done, x) => (.bool true, restoreIQ (.main 'S' 8) inv (putMode (.main 'S' 8) .standby (clearFlags (.main 'S' 8) x)))
      | (.timedOut, x) => (.bool false, (restoreIQ (.main 'S' 9) inv x).fail .timeout) := by
  simp only [sendOp, show ¬ Config.maxPayload < data.length from Nat.not_lt.mpr hlen, if_false, hopen, Bool.not_true,
    Bool.false_eq_true]
  generalize sendPoll (sendSetup data inv s).drawClock.1 0 (sendSetup data inv s).drawClock.2 = x
  obtain ⟨e, u⟩ := x
  cases e <;> rfl

end Sys2Proof.Machine
end

section
/-! SUPPORT. Whole runs of `send` (47_packet_sequencers.md R291), and the beacon (R302, R304). -/

namespace Sys2Proof.Machine

theorem Staged.returned {data : List Byte} {s u : State} {op : Byte} {c : List (List Rat)} (r : Result)
    (h : Staged data (s.enter op) (u.withClocks c)) : Staged data s (u.leave r) :=
  ⟨h.length, h.pointer, h.payload, h.otherFifo, h.mapping, h.polarity, h.others⟩

theorem Staged.fail {data : List Byte} {s u : State} {r : Result} (c : Cause) (h : Staged data s (u.leave r)) :
    Staged data s ((u.fail c).leave r) :=
  ⟨h.length, h.pointer, h.payload, h.otherFifo, h.mapping, h.polarity, h.others⟩

/-- The state in which the poll loop starts: the steps before it are done, the values of `elapsed()` drawn. -/
structure Polling (accs : List RegAccess) (s t : State) (clk : List Rat) (more : List (List Rat)) (u : State) : Prop where
  drawn : t.drawClock = (clk, u)
  running : u.Running
  par : u.par = s.par
  reg : ∀ a, u.reg a = t.reg a
  fifo : ∀ b, u.fifoAt b = t.fifoAt b
  radioAt : ∀ i, u.radioAt i = s.radioAt (6 * accs.length + i)
  answers : ∀ {m n : Nat}, s.Answers m → 6 * accs.length + n ≤ m → u.Answers n
  chain : ∀ {xs : List RegAccess} {w : List RegAddr} {f : List Byte} {v : State}, Chain xs w f u v → Chain xs w f t (v.withClocks s.env.clocks)
  sleeps : ∀ e : Event, u.trace.count e = t.trace.count e

theorem Chain.polling {accs : List RegAccess} {w : List RegAddr} {f : List Byte} {s t : State} (h : Chain accs w f s t) {clk : List Rat}
    {more : List (List Rat)} (hclk : s.env.clocks = clk :: more) : ∃ u, Polling accs s t clk more u := by
  have hclocks := h.clocks.trans hclk
  refine ⟨_, State.drawClock_eq hclocks, h.running.withClocks, h.par, fun _ => rfl, fun _ => rfl, h.radioAt,
    fun ha hm => (h.answers ha hm).congr rfl rfl rfl, fun k => ?_, fun _ => rfl⟩
  have hk := k.overClocks
  rwa [h.clocks] at hk

/-- Step S8 (R291): the flags cleared, Standby, normal polarity. -/
theorem sendEnd_chain {s : State} (hr : s.Running) (hiq : s.IqOnly) (inv : Bool) {n : Nat} (ha : s.Answers n)
    (hn : 6 * (2 + (restoreAccesses s.par inv).length) ≤ n) (hstill : s.RadioStill (6 * (2 + (restoreAccesses s.par inv).length)))
    (hpol : s.IqWritten (s.par.iqWrites inv)) :
    ∃ u, restoreIQ (.main 'S' 8) inv (putMode (.main 'S' 8) .standby (clearFlags (.main 'S' 8) s)) = u ∧
      Chain ([.write s.par.regIrqFlags 0xFF#8, .write s.par.regOpMode (modeByte s.par .standby)] ++ restoreAccesses s.par inv)
        [s.par.regIrqFlags, s.par.regOpMode, s.par.regInvertIq, s.par.regInvertIq2] [] s u ∧
      u.IqWritten s.par.iqNormal ∧ u.reg s.par.regOpMode = modeByte s.par .standby ∧ u.reg s.par.regIrqFlags = 0#8 := by
  have hok := hr.params
  obtain ⟨c1, hflags⟩ := clearFlags_chain hr (ha.mono (by omega)) (.main 'S' 8)
  obtain ⟨s1, hs1⟩ : ∃ s1, s1 = clearFlags (.main 'S' 8) s := ⟨_, rfl⟩
  rw [← hs1] at c1 hflags ⊢
  obtain ⟨p2, hmode⟩ := putMode_chain c1.running (c1.answers ha (by simp; omega)) (.main 'S' 8) .standby
  obtain ⟨s2, hs2⟩ : ∃ s2, s2 = putMode (.main 'S' 8) .standby s1 := ⟨_, rfl⟩
  rw [← hs2] at p2 hmode ⊢
  rw [c1.par] at p2 hmode
  have c2 := c1.trans p2
  have e2 : s2.par = s.par := c2.par
  have hkept : ∀ a, regClass s.par a = .plain → s2.reg a = s.reg a := fun a hc => by
    obtain ⟨-, h1, h2, -⟩ := plain_ne hc
    exact c2.frame.plain a hc (not_mem_two h1 h2)
  have hpol2 : s2.IqWritten (s2.par.iqWrites inv) := by
    rw [e2]
    refine hpol.congr fun a hmem => ?_
    obtain ⟨av, hav, rfl⟩ := List.mem_map.mp hmem
    exact hkept _ (hiq.plain hok inv av hav)
  obtain ⟨p3, hnormal⟩ := restoreIQ_chain p2.running (hiq.congr e2) (.main 'S' 8) inv
    (by rw [e2]; exact c2.answers ha (by simp; omega)) hpol2
  obtain ⟨u, hu⟩ : ∃ u, u = restoreIQ (.main 'S' 8) inv s2 := ⟨_, rfl⟩
  rw [← hu] at p3 hnormal ⊢
  rw [e2] at p3 hnormal
  have hstill2 : s2.RadioStill (6 * (restoreAccesses s.par inv).length) := c2.still hstill (by simp; omega)
  have hstill1 : s1.RadioStill 6 := c1.still hstill (by simp; omega)
  refine ⟨u, rfl, c2.trans p3, hnormal, ?_, ?_⟩
  · exact (p3.regs [] (hstill2.only []) _ (not_mem_two (reg_ne_reg hok 1 22 (by decide)) (reg_ne_reg hok 1 25 (by decide)))
      List.not_mem_nil).trans hmode
  · exact (p3.regs [] (hstill2.only []) _ (not_mem_two (reg_ne_reg hok 11 22 (by decide)) (reg_ne_reg hok 11 25 (by decide)))
      List.not_mem_nil).trans ((p2.regs [] (hstill1.only []) _ (not_mem_one (reg_ne_reg hok 11 1 (by decide)))
      List.not_mem_nil).trans hflags)

theorem irqFlags_notMem_sendWritten {p : Params} (hok : p.Ok) : p.regIrqFlags ∉ sendWritten p := fun hmem => by
  simp only [sendWritten, List.mem_cons, List.not_mem_nil, or_false] at hmem
  rcases hmem with e | e | e | e | e | e
  · exact reg_ne_reg hok 11 22 (by decide) e
  · exact reg_ne_reg hok 11 25 (by decide) e
  · exact reg_ne_reg hok 11 26 (by decide) e
  · exact reg_ne_reg hok 11 1 (by decide) e
  · exact reg_ne_reg hok 11 7 (by decide) e
  · exact reg_ne_reg hok 11 19 (by decide) e

/-- The setup and the polls that show nothing: where a `send` stands before its poll number `k`. -/
structure SendPolled (data : List Byte) (inv : Bool) (k : Nat) (clk : List Rat) (more : List (List Rat)) (s t1 t2 t3 : State) (now : Rat) :
    Prop where
  setup : sendSetup data inv s = t1
  set : SendSet data inv s t1
  polling : Polling (sendSetupAccesses s.par data inv) s t1 clk more t2
  skip : sendPoll clk 0 t2 = sendPoll (clk.drop k) now t3
  polls : Chain (List.replicate k (.read s.par.regIrqFlags)) [] [] t2 t3
  clear : t3.reg s.par.regIrqFlags &&& s.par.irqTxDone = 0#8

theorem sendPolled {s : State} (hr : s.Running) (hiq : s.IqOnly) {data : List Byte} (hlen : data.length ≤ 255) (inv : Bool) (k : Nat)
    {n : Nat} (ha : s.Answers n) (hn : 6 * ((sendSetupAccesses s.par data inv).length + k) ≤ n) {clk : List Rat} {more : List (List Rat)}
    (hclk : s.env.clocks = clk :: more) (hk : k ≤ clk.length) (hshort : ∀ x ∈ clk.take k, x < 2)
    (hflag : s.reg s.par.regIrqFlags &&& s.par.irqTxDone = 0#8)
    (hquiet : ∀ i < 6 * ((sendSetupAccesses s.par data inv).length + k), (s.radioAt i).setFlags &&& s.par.irqTxDone = 0#8) :
    ∃ t1 t2 t3 now, SendPolled data inv k clk more s t1 t2 t3 now := by
  have hset := sendSetup_set hr hiq data inv hlen ha (by omega)
  obtain ⟨t2, h2⟩ := hset.chain.polling hclk
  have hclear : t2.reg t2.par.regIrqFlags &&& t2.par.irqTxDone = 0#8 := by
    rw [h2.par, h2.reg]
    exact hset.chain.flag_clear (irqFlags_notMem_sendWritten hr.params) (fun i hi => hquiet i (by omega)) hflag
  obtain ⟨t3, now, hskip, c3, h3⟩ := sendPoll_skip h2.running k (h2.answers ha (n := 6 * k) (by omega)) le_rfl hk hshort (now := 0)
    (by norm_num) hclear (fun j hj => by rw [h2.radioAt, h2.par]; exact hquiet _ (by omega))
  rw [h2.par] at c3 h3
  exact ⟨_, t2, t3, now, rfl, hset, h2, hskip, c3, h3⟩

namespace SendPolled
variable {data : List Byte} {inv : Bool} {k : Nat} {clk : List Rat} {more : List (List Rat)} {s t1 t2 t3 t4 u : State} {now : Rat}

/-- Where poll number `k` stands among the answers. -/
theorem radioAt (h : SendPolled data inv k clk more s t1 t2 t3 now) (i : Nat) :
    t3.radioAt i = s.radioAt (6 * ((sendSetupAccesses s.par data inv).length + k) + i) := by
  rw [h.polls.radioAt, h.polling.radioAt, List.length_replicate, Nat.mul_add, Nat.add_assoc]

theorem answers (h : SendPolled data inv k clk more s t1 t2 t3 now) {m n : Nat} (ha : s.Answers m)
    (hm : 6 * ((sendSetupAccesses s.par data inv).length + k) + n ≤ m) : t3.Answers n :=
  h.polls.answers (h.polling.answers ha (n := 6 * k + n) (by omega)) (by rw [List.length_replicate])

theorem par (h : SendPolled data inv k clk more s t1 t2 t3 now) : t3.par = s.par := h.polls.par.trans h.polling.par

/-- The polarity set at the start is still there after poll number `k`. -/
theorem polarity (h : SendPolled data inv k clk more s t1 t2 t3 now) (hok : s.par.Ok) (hiq : s.IqOnly)
    (k4 : Chain [.read s.par.regIrqFlags] [] [] t3 t4) : t4.IqWritten (s.par.iqWrites inv) :=
  h.set.polarity.congr fun a hmem => by
    obtain ⟨av, hav, rfl⟩ := List.mem_map.mp hmem
    have hc := hiq.plain hok inv av hav
    exact (k4.frame.plain _ (by rw [h.par]; exact hc) List.not_mem_nil).trans
      ((h.polls.frame.plain _ (by rw [h.polling.par]; exact hc) List.not_mem_nil).trans (h.polling.reg _))

/-- Poll number `k` and what follows it, as a chain from the end of the setup. -/
theorem tail (h : SendPolled data inv k clk more s t1 t2 t3 now) {accs : List RegAccess} {w : List RegAddr}
    (k4 : Chain [.read s.par.regIrqFlags] [] [] t3 t4) (k5 : Chain accs w [] t4 u) :
    Chain (List.replicate (k + 1) (.read s.par.regIrqFlags) ++ accs) w [] t1 (u.withClocks s.env.clocks) := by
  have hk := h.polling.chain ((h.polls.trans k4).trans k5)
  rwa [← List.replicate_succ'] at hk

end SendPolled

/-- Settles O53: the setup, `k` polls that show nothing, the poll that shows TX-done, step S8. -/
theorem sendSucceeds : Obligations.SendSucceeds := by
  intro s data inv k n clk more flags mode hs hiq hlen hn ha hclk hk hshort hflag hset hacts
  have hr := hs.enter 0x40#8
  obtain ⟨L, hL⟩ : ∃ L, L = (sendSetupAccesses s.par data inv).length := ⟨_, rfl⟩
  have hL' : (sendSetupAccesses (s.enter 0x40#8).par data inv).length = L := hL.symm
  obtain ⟨R, hR⟩ : ∃ R, R = (restoreAccesses s.par inv).length := ⟨_, rfl⟩
  have hevent : s.radioAt (6 * (L + k)) = { RadioEvent.nothing with setFlags := flags, opMode := mode } := by
    rw [hacts.radioAt ha (by rw [hn]; omega), hL]; exact congrArg (fun o => Option.getD o _) (List.lookup_cons_self ..)
  have hquiet : ∀ i < n, i ≠ 6 * (L + k) → s.radioAt i = RadioEvent.nothing := fun i hi hne => by
    rw [hL] at hne
    rw [hacts.radioAt ha hi, List.lookup_cons, beq_false_of_ne hne]; rfl
  have hn : n = 6 * (L + k + 3 + R) := by rw [hn, hL, hR]
  have honly : (s.enter 0x40#8).RadioOnly n [s.par.regIrqFlags, s.par.regOpMode] :=
    State.radioOnly_of_radioAt fun i hi r => by
      by_cases hne : i = 6 * (L + k)
      · rw [hne]; exact hevent ▸ Radio.act_flags_mode s.par flags mode r
      · rw [show (s.enter 0x40#8).radioAt i = RadioEvent.nothing from hquiet i hi hne]
        exact ⟨fun _ _ => rfl, fun _ => rfl⟩
  obtain ⟨t1, t2, t3, now, h⟩ := sendPolled hr (hiq.congr rfl) hlen inv k (ha.enter 0x40#8) (by rw [hL']; omega) hclk hk hshort hflag
    (fun i hi => by
      rw [hL'] at hi
      rw [show (s.enter 0x40#8).radioAt i = RadioEvent.nothing from hquiet i (by omega) (by omega)]
      exact BitVec.zero_and)
  have hans : ∀ m, 6 * (L + k) + m ≤ n → t3.Answers m := fun m hm => h.answers (ha.enter 0x40#8) (by rw [hL']; exact hm)
  have hat : ∀ i, t3.radioAt i = s.radioAt (6 * (L + k) + i) := fun i => (h.radioAt i).trans (by rw [hL']; rfl)
  obtain ⟨t4, hdone, c4⟩ := sendPoll_done h.polls.running (hans 6 (by omega)) (by rw [hat, h.par, Nat.add_zero, hevent]; exact hset)
    (clk.drop k) now
  rw [h.par] at c4
  have hpar4 : t4.par = s.par := c4.par.trans h.par
  obtain ⟨u, hu, c5, hnormal, hmode, hzero⟩ := sendEnd_chain c4.running (hiq.congr hpar4) inv
    (c4.answers (hans (6 * (3 + R)) (by omega)) (n := 6 * (2 + R)) (by simp; omega)) (by rw [hpar4, hR])
    (State.radioStill_of_radioAt fun i hi => by
      rw [hpar4, ← hR] at hi
      rw [c4.radioAt, hat]
      exact hquiet _ (by simp; omega) (by simp))
    (by rw [hpar4]; exact h.polarity hs.params (hiq.congr rfl) c4)
  rw [hpar4] at c5 hnormal hmode hzero
  have htail := h.tail c4 c5
  have hbody : sendOp data inv (s.enter 0x40#8) = (.bool true, u) := by
    rw [sendOp_open hr.isOpen hlen inv, h.setup, h.polling.drawn, h.skip, hdone]
    exact congrArg (Prod.mk (Result.bool true)) hu
  have hstaged := h.set.staged hs.params hlen htail (honly.mono (by
    rw [hL']
    simp only [List.length_append, List.length_replicate, List.length_cons, List.length_nil, ← hR]
    omega)) hnormal
  refine ⟨_, exec_of_body (exec_send data inv s) hbody, rfl, ?_, hstaged.returned _, hmode, hzero⟩
  have hall := (h.set.chain.andThen htail).completed_withClocks 0x40#8 (.bool true)
  rw [List.append_assoc, List.append_assoc]
  exact hall

/-- Settles O54: the setup, `k` polls in time, a last one, and the end after the bound. -/
theorem sendTimesOut : Obligations.SendTimesOut := by
  intro s data inv k n clk more hs hiq hlen hn ha hclk hk hshort hlate hflag hstill
  have hr := hs.enter 0x40#8
  have hok := hs.params
  obtain ⟨L, hL⟩ : ∃ L, L = (sendSetupAccesses s.par data inv).length := ⟨_, rfl⟩
  have hL' : (sendSetupAccesses (s.enter 0x40#8).par data inv).length = L := hL.symm
  obtain ⟨R, hR⟩ : ∃ R, R = (restoreAccesses s.par inv).length := ⟨_, rfl⟩
  have hn : n = 6 * (L + k + 1 + R) := by rw [hn, hL, hR]
  have hquiet : ∀ i < n, (s.enter 0x40#8).radioAt i = RadioEvent.nothing := fun i hi => hstill.radioAt hi
  have hnone : ∀ i < n, ((s.enter 0x40#8).radioAt i).setFlags &&& s.par.irqTxDone = 0#8 := fun i hi => by
    rw [hquiet i hi]; exact BitVec.zero_and
  obtain ⟨t1, t2, t3, now, h⟩ := sendPolled hr (hiq.congr rfl) hlen inv k (ha.enter 0x40#8) (by rw [hL']; omega) hclk hk hshort hflag
    (fun i hi => hnone i (by rw [hL'] at hi; omega))
  have hans : ∀ m, 6 * (L + k) + m ≤ n → t3.Answers m := fun m hm => h.answers (ha.enter 0x40#8) (by rw [hL']; exact hm)
  obtain ⟨t4, hdone, c4⟩ := sendPoll_timedOut h.polls.running (hans 6 (by omega)) (by rw [h.par]; exact h.clear)
    (by rw [h.radioAt, h.par, hL']; exact hnone _ (by omega)) (clk := clk.drop k)
    (fun x hx => hlate x (by simpa using hx)) now
  rw [h.par] at c4
  have hpar4 : t4.par = s.par := c4.par.trans h.par
  obtain ⟨c5, hnormal⟩ := restoreIQ_chain c4.running (hiq.congr hpar4) (.main 'S' 9) inv
    (by rw [hpar4, ← hR]; exact c4.answers (hans (6 * (1 + R)) (by omega)) (by simp; omega))
    (by rw [hpar4]; exact h.polarity hok (hiq.congr rfl) c4)
  obtain ⟨u, hu⟩ : ∃ u, u = restoreIQ (.main 'S' 9) inv t4 := ⟨_, rfl⟩
  rw [← hu] at c5 hnormal
  rw [hpar4] at c5 hnormal
  have htail := h.tail c4 c5
  have hbody : sendOp data inv (s.enter 0x40#8) = (.bool false, u.fail .timeout) := by
    rw [sendOp_open hr.isOpen hlen inv, h.setup, h.polling.drawn, h.skip, hdone, hu]
  have hall := h.set.chain.andThen htail
  have htailLen : (List.replicate (k + 1) (RegAccess.read (s.enter 0x40#8).par.regIrqFlags) ++ restoreAccesses s.par inv).length = k + 1 + R := by
    rw [List.length_append, List.length_replicate, hR]
  have honly : ∀ own, (s.enter 0x40#8).RadioOnly n own := fun own => (hstill.only own : s.RadioOnly n own)
  have hstaged := h.set.staged hok hlen (htail.mono (fun _ ha => by simp at ha ⊢; tauto) (fun _ h => h))
    ((honly _).mono (by rw [hL', htailLen]; omega)) hnormal
  refine ⟨_, exec_of_body (exec_send data inv s) hbody, rfl, rfl, ?_, (hstaged.returned _).fail .timeout, ?_, ?_⟩
  · have hdone := (hall.completed_withClocks 0x40#8 (.bool false)).fail (c := .timeout)
    rw [List.append_assoc]
    exact hdone
  · have hown : t1.RadioOnly (6 * (k + 1 + R)) [] := h.set.chain.only ((honly []).mono (by rw [hL']; omega))
    exact (htail.regs [] (htailLen ▸ hown) _ (not_mem_two (reg_ne_reg hok 1 22 (by decide)) (reg_ne_reg hok 1 25 (by decide)))
      List.not_mem_nil).trans h.set.mode
  · refine hall.regs [] ((honly []).mono ?_) _ (fun hmem => ?_) List.not_mem_nil
    · rw [List.length_append, hL', htailLen]; omega
    · rcases List.mem_append.mp hmem with hmem | hmem
      · exact irqFlags_notMem_sendWritten hok hmem
      · exact not_mem_two (reg_ne_reg hok 11 22 (by decide)) (reg_ne_reg hok 11 25 (by decide)) hmem

end Sys2Proof.Machine
end

section
/-! SUPPORT. The beacon (47_packet_sequencers.md R302, R304). -/

namespace Sys2Proof.Machine

/-- What the steps of a beacon that fits leave (R302 B2 to B4). -/
structure BeaconSet (ms : Nat) (s t : State) : Prop where
  chain : Chain (stageAccesses s.par s.par.beaconPayload ++ [.write s.par.regBeaconA (t.reg s.par.regBeaconA),
    .write s.par.regBeaconB (t.reg s.par.regBeaconB), .write s.par.regOpMode s.par.modeBeacon])
    [s.par.regOpMode, s.par.regBeaconA, s.par.regBeaconB, s.par.regPayloadLength, s.par.regFifoAddrPtr]
    ((List.range s.par.beaconPayload.length).map (BitVec.ofNat 8)) s t
  mode : t.reg s.par.regOpMode = s.par.modeBeacon
  first : t.reg s.par.regBeaconA = (s.par.beaconEnc.apply (beaconSecs ms)).1
  second : t.reg s.par.regBeaconB = (s.par.beaconEnc.apply (beaconSecs ms)).2
  length : t.reg s.par.regPayloadLength = BitVec.ofNat 8 s.par.beaconPayload.length
  pointer : t.reg s.par.regFifoAddrPtr = BitVec.ofNat 8 s.par.beaconPayload.length
  payload : s.RadioStill (6 * (5 + s.par.beaconPayload.length)) → ∀ (j : Nat) b, s.par.beaconPayload[j]? = some b →
    t.fifoAt (BitVec.ofNat 8 j) = b

theorem startBeaconOp_set {s : State} (hr : s.Running) {ms n : Nat} (hms : ms / 1000 ≤ 65535) (ha : s.Answers n)
    (hn : 6 * (5 + s.par.beaconPayload.length) ≤ n) : ∃ t, startBeaconOp ms s = (.unit, t) ∧ BeaconSet ms s t := by
  have hok := hr.params
  obtain ⟨c1, hlength, hptr, hbytes⟩ := stageFifo_chain (.main 'B' 2) s.par.beaconPayload hr ha (by omega) hok.beaconLen
  obtain ⟨s1, hs1⟩ : ∃ s1, s1 = stageFifo (.main 'B' 2) s.par.beaconPayload s := ⟨_, rfl⟩
  rw [← hs1] at c1 hlength hptr hbytes
  obtain ⟨p2, v2⟩ := writeReg_plain_chain c1.running (c1.answers ha (by simp; omega)) (.main 'B' 3) s.par.regBeaconA
    (s.par.beaconEnc.apply (beaconSecs ms)).1 (by rw [c1.par]; exact class_beaconA hok)
  obtain ⟨s2, hs2⟩ : ∃ s2, s2 = writeReg (.main 'B' 3) s.par.regBeaconA (s.par.beaconEnc.apply (beaconSecs ms)).1 s1 := ⟨_, rfl⟩
  rw [← hs2] at p2 v2
  have c2 := c1.andThen p2
  obtain ⟨p3, v3⟩ := writeReg_plain_chain p2.running (c2.answers ha (by simp; omega)) (.main 'B' 3) s.par.regBeaconB
    (s.par.beaconEnc.apply (beaconSecs ms)).2 (by rw [c2.par]; exact class_beaconB hok)
  obtain ⟨s3, hs3⟩ : ∃ s3, s3 = writeReg (.main 'B' 3) s.par.regBeaconB (s.par.beaconEnc.apply (beaconSecs ms)).2 s2 := ⟨_, rfl⟩
  rw [← hs3] at p3 v3
  have c3 := c2.andThen p3
  obtain ⟨p4, v4⟩ := writeReg_opMode_chain p3.running (c3.answers ha (by simp; omega)) (.main 'B' 4) s.par.modeBeacon
  rw [c3.par] at p4 v4
  obtain ⟨t, ht⟩ : ∃ t, t = writeReg (.main 'B' 4) s.par.regOpMode s.par.modeBeacon s3 := ⟨_, rfl⟩
  rw [← ht] at p4 v4
  have e1 := c1.par
  have e2 := c2.par
  have e3 := c3.par
  have hrun : startBeaconOp ms s = (.unit, t) := by
    simp only [startBeaconOp, beaconSecs, Nat.not_lt.mpr hms, if_false]
    simp only [← hs1, e1]
    simp only [show ms / 1000 = beaconSecs ms from rfl, ← hs2, e2, ← hs3, e3, ← ht]
  have hafter : ∀ a, regClass s.par a = .plain → t.reg a = s3.reg a := fun a hc =>
    p4.frame.plain a (by rw [e3]; exact hc) (not_mem_one (plain_ne hc).2.2.1)
  have hA : t.reg s.par.regBeaconA = (s.par.beaconEnc.apply (beaconSecs ms)).1 := (hafter _ (class_beaconA hok)).trans
    ((p3.frame.plain _ (by rw [e2]; exact class_beaconA hok) (not_mem_one (reg_ne_reg hok 27 28 (by decide)))).trans v2)
  have hB := (hafter _ (class_beaconB hok)).trans v3
  have hstage : ∀ a, regClass s.par a = .plain → a ≠ s.par.regBeaconA → a ≠ s.par.regBeaconB → t.reg a = s1.reg a := fun a hc h1 h2 =>
    (hafter a hc).trans ((p3.frame.plain a (by rw [e2]; exact hc) (not_mem_one h2)).trans
      (p2.frame.plain a (by rw [e1]; exact hc) (not_mem_one h1)))
  refine ⟨t, hrun, ?_, v4, hA, hB, ?_, ?_, fun hstill j b hj => ?_⟩
  · rw [hA, hB]
    have c4 := c3.andThen p4
    rw [List.append_assoc, List.append_assoc] at c4
    refine c4.mono (fun a ha => ?_) (fun _ h => h)
    simp only [List.mem_append, List.mem_cons, List.not_mem_nil, or_false] at ha ⊢
    tauto
  · exact (hstage _ (class_payloadLength hok) (reg_ne_reg hok 19 27 (by decide)) (reg_ne_reg hok 19 28 (by decide))).trans hlength
  · exact (hstage _ (class_fifoAddrPtr hok) (reg_ne_reg hok 7 27 (by decide)) (reg_ne_reg hok 7 28 (by decide))).trans hptr
  · have htail := (p2.trans p3).trans p4
    have hstill1 : s1.RadioStill 18 := c1.still hstill (by simp; omega)
    exact (htail.fifo [] (hstill1.only []) _ List.not_mem_nil).trans
      (hbytes [] ((hstill.mono (by omega)).only []) j b hj)

/-- Settles O59. -/
theorem beaconEffect : Obligations.BeaconEffect := by
  refine ⟨fun s ms n hs hms hn ha => ?_, fun s hs ha => ?_⟩
  · obtain ⟨t, ht, h⟩ := startBeaconOp_set (hs.enter 0x42#8) hms (ha.enter 0x42#8) hn.ge
    obtain ⟨hexec, hres, hdone, hframe⟩ := exec_of_chain (exec_startBeacon ms s) ht h.chain
    have hlen : 6 * (stageAccesses (s.enter 0x42#8).par (s.enter 0x42#8).par.beaconPayload ++
        [.write (s.enter 0x42#8).par.regBeaconA (t.reg (s.enter 0x42#8).par.regBeaconA),
          .write (s.enter 0x42#8).par.regBeaconB (t.reg (s.enter 0x42#8).par.regBeaconB),
          RegAccess.write (s.enter 0x42#8).par.regOpMode (s.enter 0x42#8).par.modeBeacon]).length = n := by
      rw [hn, List.length_append, stageAccesses_length, State.enter_par]
      simp only [List.length_cons, List.length_nil]
      omega
    rw [hlen] at hframe
    refine ⟨_, hexec, hres, hdone, h.mode, h.first, h.second, fun henc => ?_, h.length, h.pointer, fun hstill => ?_, hframe⟩
    · have hA := h.first
      have hB := h.second
      rw [State.enter_par, henc] at hA hB
      exact ⟨hA, hB⟩
    · exact h.payload (hn ▸ hstill)
  · obtain ⟨hchain, hval⟩ := putMode_chain (hs.enter 0x43#8) (ha.enter 0x43#8) (.access 1) .standby
    obtain ⟨hexec, hres, hdone, hframe⟩ := exec_of_chain (i := .stopBeacon) rfl rfl hchain
    have hval : (putMode (.access 1) .standby (s.enter 0x43#8)).reg s.par.regOpMode = modeByte s.par .standby := hval
    refine ⟨_, hexec, hres, ?_, hframe, hval⟩
    rw [State.leave_reg, hval]; exact hdone

end Sys2Proof.Machine
end

section
/-! SUPPORT. `receive` (47_packet_sequencers.md R296 to R298): the steps before the first look at the flags, the looks, the payload. -/

namespace Sys2Proof.Machine

/-! ### Steps V1 to V4 -/

/-- The registers the steps before the first look at the flags write. -/
def receiveWritten (p : Params) : List RegAddr :=
  [p.regInvertIq, p.regInvertIq2, p.regDioMapping1, p.regOpMode, p.regIrqFlags]

theorem opMode_notMem_statusRegs {p : Params} (hok : p.Ok) : p.regOpMode ∉ statusRegs p := fun h => by
  simp only [statusRegs, List.mem_cons, List.not_mem_nil, or_false] at h
  rcases h with e | e | e | e | e
  · exact reg_ne_reg hok 1 14 (by decide) e
  · exact reg_ne_reg hok 1 13 (by decide) e
  · exact reg_ne_reg hok 1 12 (by decide) e
  · exact reg_ne_reg hok 1 10 (by decide) e
  · exact reg_ne_reg hok 1 29 (by decide) e

/-- A receiver at work: the mode, the DIO mapping, the polarity asked for, and every register that only FG writes as it was. -/
structure Listening (inv : Bool) (s t : State) : Prop where
  par : t.par = s.par
  mode : t.reg s.par.regOpMode = modeByte s.par .receiveContinuous
  mapping : t.reg s.par.regDioMapping1 = s.par.dioMapRxDone
  polarity : t.IqWritten (s.par.iqWrites inv)
  others : ∀ a, a ∉ [s.par.regOpMode, s.par.regIrqFlags, s.par.regFifoAddrPtr, s.par.regDioMapping1, s.par.regInvertIq,
    s.par.regInvertIq2] → a ∉ statusRegs s.par → t.reg a = s.reg a

/-- It stays so while nothing but the flags and the volatile status registers changes. -/
theorem Listening.keep {inv : Bool} {s t u : State} (h : Listening inv s t) (hok : s.par.Ok) (hiq : s.IqOnly) (hp : u.par = t.par)
    (hreg : ∀ a, a ≠ s.par.regIrqFlags → a ∉ statusRegs s.par → u.reg a = t.reg a) : Listening inv s u := by
  have hplain : ∀ a, regClass s.par a = .plain → u.reg a = t.reg a := fun a hc => by
    obtain ⟨-, hflags, -, hstatus⟩ := plain_ne hc
    exact hreg a hflags hstatus
  refine ⟨hp.trans h.par, (hreg _ (reg_ne_reg hok 1 11 (by decide)) (opMode_notMem_statusRegs hok)).trans h.mode,
    (hplain _ (class_dioMapping1 hok)).trans h.mapping, h.polarity.congr fun a ha => ?_, fun a ha hs => ?_⟩
  · obtain ⟨av, hav, rfl⟩ := List.mem_map.mp ha
    exact hplain _ (hiq.plain hok inv av hav)
  · exact (hreg a (fun e => ha (by simp [e])) hs).trans (h.others a ha hs)

/-- What the steps before the first look at the flags leave (R296 V1 to V4), with RADIO setting flags at most. -/
structure ReceiveSet (inv : Bool) (s t : State) : Prop where
  chain : Chain (receiveSetupAccesses s.par inv) (receiveWritten s.par) [] s t
  flags : t.reg s.par.regIrqFlags = 0#8
  listening : s.RadioOnly (6 * (receiveSetupAccesses s.par inv).length) [s.par.regIrqFlags] → Listening inv s t

@[simp] theorem receiveSetupAccesses_length (p : Params) (inv : Bool) :
    (receiveSetupAccesses p inv).length = (p.iqWrites inv).length + 3 := by
  simp only [receiveSetupAccesses, List.length_append, writesOf_length, List.length_cons, List.length_nil]

theorem receiveSetup_set {s : State} (hr : s.Running) (hiq : s.IqOnly) (inv : Bool) {n : Nat} (ha : s.Answers n)
    (hn : 6 * (receiveSetupAccesses s.par inv).length ≤ n) : ReceiveSet inv s (receiveSetup inv s) := by
  have hok := hr.params
  rw [receiveSetupAccesses_length] at hn
  obtain ⟨c1, hpol⟩ := setIQ_chain hr hiq (.main 'V' 1) inv (ha.mono (by omega))
  obtain ⟨s1, hs1⟩ : ∃ s1, s1 = setIQ (.main 'V' 1) inv s := ⟨_, rfl⟩
  rw [← hs1] at c1 hpol
  obtain ⟨p2, v2⟩ := writeReg_plain_chain c1.running (c1.answers ha (by simp; omega)) (.main 'V' 2) s.par.regDioMapping1
    s.par.dioMapRxDone (by rw [c1.par]; exact class_dioMapping1 hok)
  obtain ⟨s2, hs2⟩ : ∃ s2, s2 = writeReg (.main 'V' 2) s.par.regDioMapping1 s.par.dioMapRxDone s1 := ⟨_, rfl⟩
  rw [← hs2] at p2 v2
  have c2 := c1.andThen p2
  obtain ⟨p3, hmode⟩ := putMode_chain p2.running (c2.answers ha (by simp; omega)) (.main 'V' 3) .receiveContinuous
  obtain ⟨s3, hs3⟩ : ∃ s3, s3 = putMode (.main 'V' 3) .receiveContinuous s2 := ⟨_, rfl⟩
  rw [← hs3, c2.par] at p3 hmode
  have c3 := c2.andThen p3
  obtain ⟨p4, hflags⟩ := clearFlags_chain p3.running (c3.answers ha (by simp; omega)) (.main 'V' 4)
  have hrun : receiveSetup inv s = clearFlags (.main 'V' 4) s3 := by
    simp only [receiveSetup, ← hs1, c1.par, ← hs2, ← hs3]
  rw [← hrun, c3.par] at p4 hflags
  have c4 := c3.andThen p4
  have e1 := c1.par
  have e2 := c2.par
  have e3 := c3.par
  have hafter : ∀ a, regClass s.par a = .plain → (receiveSetup inv s).reg a = s2.reg a := fun a hc => by
    obtain ⟨-, hf, hm, -⟩ := plain_ne hc
    exact (p4.frame.plain a (by rw [e3]; exact hc) (not_mem_one hf)).trans
      (p3.frame.plain a (by rw [e2]; exact hc) (not_mem_one hm))
  have hchain : Chain (receiveSetupAccesses s.par inv) (receiveWritten s.par) [] s (receiveSetup inv s) := by
    have haccs : receiveSetupAccesses s.par inv = ((writesOf (s.par.iqWrites inv) ++
        [.write s.par.regDioMapping1 s.par.dioMapRxDone]) ++ [.write s.par.regOpMode (modeByte s.par .receiveContinuous)]) ++
        [.write s.par.regIrqFlags 0xFF#8] := by
      simp [receiveSetupAccesses, modeByte, modeCode]
    rw [haccs]
    exact c4
  refine ⟨hchain, hflags, fun hown => ⟨hchain.par, ?_, (hafter _ (class_dioMapping1 hok)).trans v2, hpol.congr fun a ha => ?_,
    fun a ha hs => ?_⟩⟩
  · have hown4 : s3.RadioOnly 6 [s.par.regIrqFlags] := c3.only (hown.mono (by simp; omega))
    exact (p4.regs _ hown4 _ (not_mem_one (reg_ne_reg hok 1 11 (by decide))) (not_mem_one (reg_ne_reg hok 1 11 (by decide)))).trans hmode
  · obtain ⟨av, hav, rfl⟩ := List.mem_map.mp ha
    have hc := hiq.plain hok inv av hav
    have hne : av.1 ≠ s.par.regDioMapping1 := by
      rcases hiq inv av hav with e | e <;> rw [e]
      · exact reg_ne_reg hok 22 26 (by decide)
      · exact reg_ne_reg hok 25 26 (by decide)
    exact (hafter _ hc).trans (p2.frame.plain _ (by rw [e1]; exact hc) (not_mem_one hne))
  · simp only [List.mem_cons, List.not_mem_nil, or_false, not_or] at ha
    obtain ⟨hm, hf, -, hd, hi, hi2⟩ := ha
    exact hchain.regs _ hown a (by simp [receiveWritten, hm, hf, hd, hi, hi2]) (by simp [hf])

/-! ### Looks at the flags (R297, R298) -/

theorem rxDone_eq_false {p : Params} {f : Byte} (h : f &&& p.irqRxDone = 0#8) : rxDone p f = false := by
  simp [rxDone, h]

theorem rxDone_eq_true {p : Params} {f : Byte} (h : f &&& p.irqRxDone ≠ 0#8) : rxDone p f = true := by
  have hne : f ≠ 0#8 := fun e => h (by rw [e]; exact BitVec.zero_and)
  simp [rxDone, h, hne]

theorem crcError_eq_false {p : Params} {f : Byte} (h : f &&& p.irqCrcError = 0#8) : crcError p f = false := by
  simp [crcError, h]

theorem crcError_eq_true {p : Params} {f : Byte} (h : f &&& p.irqCrcError ≠ 0#8) : crcError p f = true := by
  simp [crcError, h]

/-- The state after one look at the flags, with the radio as RADIO's own steps before it have left it. -/
structure Looked (s t : State) : Prop where
  read : readReg (.main 'L' 1) s.par.regIrqFlags s = (t.reg s.par.regIrqFlags, t)
  chain : Chain [.read s.par.regIrqFlags] [] [] s t
  flags : t.reg s.par.regIrqFlags = s.reg s.par.regIrqFlags ||| (s.radioAt 0).setFlags
  radio : t.radio = { s.radio.act s.par (s.radioAt 0) with txn := [] }

theorem exists_looked {s : State} (hr : s.Running) (ha : s.Answers 6) : ∃ t, Looked s t := by
  obtain ⟨t, h1, h2, h3, h4⟩ := readFlags_chain hr ha (.main 'L' 1)
  exact ⟨t, h1, h2, h3, h4⟩

section
variable {s t : State} (h : Looked s t)
include h

/-- RADIO's own steps before a look, where they leave the mode alone, change only the flags and the volatile status registers. -/
theorem Looked.reg (hr : s.Running) (hm : (s.radioAt 0).opMode = none) {a : RegAddr} (hf : a ≠ s.par.regIrqFlags)
    (hs : a ∉ statusRegs s.par) : t.reg a = s.reg a := by
  rw [State.reg, h.radio, Radio.reg_withTxn]
  by_cases ha : a = s.par.regOpMode
  · rw [ha, Radio.reg_act_opMode hr.params _ ⟨hr.regsWf, hr.fifoWf⟩, hm]; rfl
  · exact Radio.reg_act_other _ _ _ _ hf ha hs

theorem Looked.nbBytes (hr : s.Running) : t.reg s.par.regRxNbBytes = (s.radioAt 0).nbBytes.getD (s.reg s.par.regRxNbBytes) := by
  rw [State.reg, h.radio, Radio.reg_withTxn]
  exact Radio.reg_act_nbBytes hr.params _ ⟨hr.regsWf, hr.fifoWf⟩

theorem Looked.rxCurrent (hr : s.Running) :
    t.reg s.par.regFifoRxCurrent = (s.radioAt 0).rxCurrent.getD (s.reg s.par.regFifoRxCurrent) := by
  rw [State.reg, h.radio, Radio.reg_withTxn]
  exact Radio.reg_act_rxCurrent hr.params _ ⟨hr.regsWf, hr.fifoWf⟩

theorem Looked.fifoAt (hr : s.Running) (a : Byte) : t.fifoAt a = ((s.radioAt 0).fifo.reverse.lookup a).getD (s.fifoAt a) := by
  rw [State.fifoAt, h.radio, Radio.fifoByte_withTxn]
  exact Radio.fifoByte_act _ _ ⟨hr.regsWf, hr.fifoWf⟩ a

theorem receiveLook_nothing (h0 : t.reg s.par.regIrqFlags &&& s.par.irqRxDone = 0#8) : receiveLook s = (.nothing, t) := by
  have hdone : rxDone t.par (t.reg s.par.regIrqFlags) = false := rxDone_eq_false (by rw [h.chain.par]; exact h0)
  simp only [receiveLook, h.read, hdone, Bool.false_eq_true, if_false]

theorem receiveLook_packet (h1 : t.reg s.par.regIrqFlags &&& s.par.irqRxDone ≠ 0#8)
    (h0 : t.reg s.par.regIrqFlags &&& s.par.irqCrcError = 0#8) : receiveLook s = (.packet, t) := by
  have hdone : rxDone t.par (t.reg s.par.regIrqFlags) = true := rxDone_eq_true (by rw [h.chain.par]; exact h1)
  have hcrc : crcError t.par (t.reg s.par.regIrqFlags) = false := crcError_eq_false (by rw [h.chain.par]; exact h0)
  simp only [receiveLook, h.read, hdone, hcrc, Bool.false_eq_true, if_false, if_true]

theorem receiveLook_crcError (h1 : t.reg s.par.regIrqFlags &&& s.par.irqRxDone ≠ 0#8)
    (h2 : t.reg s.par.regIrqFlags &&& s.par.irqCrcError ≠ 0#8) : receiveLook s = (.crcError, clearFlags (.main 'L' 2) t) := by
  have hdone : rxDone t.par (t.reg s.par.regIrqFlags) = true := rxDone_eq_true (by rw [h.chain.par]; exact h1)
  have hcrc : crcError t.par (t.reg s.par.regIrqFlags) = true := crcError_eq_true (by rw [h.chain.par]; exact h2)
  simp only [receiveLook, h.read, hdone, hcrc, if_true]

end

/-! ### The poll loop -/

theorem receivePoll_packet {s t : State} (h : receiveLook s = (.packet, t)) (bound : Rat) (clk : List Rat) (now : Rat) :
    receivePoll bound clk now s = (.done, t) := by
  cases clk <;> simp [receivePoll, h]

theorem receivePoll_late {s t : State} (h : receiveLook s = (.nothing, t)) {bound : Rat} {clk : List Rat}
    (hclk : ∀ x, clk[0]? = some x → bound ≤ x) (now : Rat) : receivePoll bound clk now s = (.timedOut, t) := by
  cases clk with
  | nil => simp [receivePoll, h]
  | cons x clk =>
    have hlate : bound ≤ max now x := le_max_of_le_right (hclk x rfl)
    simp [receivePoll, h, hlate]

theorem receivePoll_early {s t : State} {look : Look} (h : receiveLook s = (look, t)) (hne : look ≠ .packet) {bound x now : Rat}
    (hx : max now x < bound) (clk : List Rat) : receivePoll bound (x :: clk) now s =
      receivePoll bound clk (max now x) (if look = .crcError then t else t.sleepFor t.par.pollRxInterval) := by
  simp only [receivePoll, h, hne, if_false, not_le.mpr hx]

/-- The looks that show nothing while the time is short of the bound only read the flags, and sleep. -/
theorem receivePoll_skip (k : Nat) {s : State} (hr : s.Running) {bound : Rat} {clk : List Rat} {now : Rat} {n : Nat} (ha : s.Answers n)
    (hn : 6 * k ≤ n) (hk : k ≤ clk.length) (hclk : ∀ x ∈ clk.take k, max now x < bound)
    (hflag : s.reg s.par.regIrqFlags &&& s.par.irqRxDone = 0#8)
    (hset : ∀ j < k, (s.radioAt (6 * j)).setFlags &&& s.par.irqRxDone = 0#8) :
    ∃ t now', receivePoll bound clk now s = receivePoll bound (clk.drop k) now' t ∧
      Chain (List.replicate k (.read s.par.regIrqFlags)) [] [] s t ∧ t.reg s.par.regIrqFlags &&& s.par.irqRxDone = 0#8 := by
  induction k generalizing clk now s n with
  | zero => exact ⟨s, now, rfl, .refl hr, hflag⟩
  | succ k ih =>
    cases clk with
    | nil => exact absurd hk (Nat.not_succ_le_zero k)
    | cons x clk =>
      obtain ⟨u, hu⟩ := exists_looked hr (ha.mono (by omega))
      have hclear : u.reg s.par.regIrqFlags &&& s.par.irqRxDone = 0#8 := by
        rw [hu.flags]; exact or_and_eq_zero hflag (hset 0 (Nat.succ_pos k))
      have hshort : max now x < bound := hclk x (by simp)
      have hslept := hu.chain.trans (.sleepFor hu.chain.running u.par.pollRxInterval)
      have hpar' : (u.sleepFor u.par.pollRxInterval).par = s.par := hu.chain.par
      obtain ⟨t, now', ht, hrest, hclear'⟩ := ih hslept.running (clk := clk) (now := max now x)
        (hslept.answers ha (n := 6 * k) (by simp; omega)) le_rfl (by simpa using hk)
        (fun y hy => by rw [max_assoc, max_comm x y, ← max_assoc]; exact max_lt (hclk y (by simp [hy])) ((le_max_right _ _).trans_lt hshort))
        (by rw [hpar']; exact hclear)
        (fun j hj => by
          rw [hslept.radioAt, hpar']
          have hnext := hset (j + 1) (by omega)
          rwa [Nat.mul_add, Nat.add_comm] at hnext)
      rw [hpar'] at hrest hclear'
      refine ⟨t, now', ?_, by rw [List.replicate_succ]; exact hslept.trans hrest, hclear'⟩
      rw [receivePoll_early (receiveLook_nothing hu hclear) (by decide) hshort, if_neg (by decide)]
      exact ht

/-! ### Step V6 -/

theorem deliverPayload_noFault (l : List Byte) {s : State} (h : s.opFault = false) : deliverPayload l s = (.bytes l, s) := by
  simp only [deliverPayload, h, Bool.false_eq_true, if_false]

/-- The end of `receive` that both exits share: the flags cleared, normal polarity (R296 V6, V7). -/
theorem receiveEnd_chain {s : State} (hr : s.Running) (hiq : s.IqOnly) (l : Label) (inv : Bool) {n : Nat} (ha : s.Answers n)
    (hn : 6 * (1 + (restoreAccesses s.par inv).length) ≤ n)
    (hstill : ∀ i < 6 * (restoreAccesses s.par inv).length, s.radioAt (6 + i) = RadioEvent.nothing)
    (hpol : s.IqWritten (s.par.iqWrites inv)) :
    ∃ u, restoreIQ l inv (clearFlags l s) = u ∧
      Chain ([.write s.par.regIrqFlags 0xFF#8] ++ restoreAccesses s.par inv)
        [s.par.regIrqFlags, s.par.regInvertIq, s.par.regInvertIq2] [] s u ∧
      u.IqWritten s.par.iqNormal ∧ u.reg s.par.regIrqFlags = 0#8 := by
  have hok := hr.params
  obtain ⟨c1, hflags⟩ := clearFlags_chain hr (ha.mono (by omega)) l
  obtain ⟨s1, hs1⟩ : ∃ s1, s1 = clearFlags l s := ⟨_, rfl⟩
  rw [← hs1] at c1 hflags ⊢
  have e1 := c1.par
  have hpol1 : s1.IqWritten (s1.par.iqWrites inv) := by
    rw [e1]
    refine hpol.congr fun a hmem => ?_
    obtain ⟨av, hav, rfl⟩ := List.mem_map.mp hmem
    have hc := hiq.plain hok inv av hav
    exact c1.frame.plain _ hc (not_mem_one (plain_ne hc).2.1)
  obtain ⟨c2, hnormal⟩ := restoreIQ_chain c1.running (hiq.congr e1) l inv (by rw [e1]; exact c1.answers ha (by simp; omega)) hpol1
  rw [e1] at c2 hnormal
  have hown : s1.RadioOnly (6 * (restoreAccesses s.par inv).length) [] :=
    (State.radioStill_of_radioAt fun i hi => (c1.radioAt i).trans (hstill i hi)).only []
  refine ⟨_, rfl, c1.trans c2, hnormal, ?_⟩
  exact (c2.regs [] hown _ (not_mem_two (reg_ne_reg hok 11 22 (by decide)) (reg_ne_reg hok 11 25 (by decide))) List.not_mem_nil).trans hflags

@[simp] theorem payloadAccesses_length (p : Params) (n : Nat) (a : Byte) : (payloadAccesses p n a).length = n + 4 := by
  simp only [payloadAccesses, List.length_append, List.length_replicate, List.length_cons, List.length_nil]
  omega

/-- The packet read from the FIFO, as many bytes as the radio says, from where it says (R296 V6). -/
theorem receivePayload_chain {s : State} (hr : s.Running) (hiq : s.IqOnly) (inv : Bool) {n nb : Nat} (ha : s.Answers n)
    (hn : 6 * (nb + 4 + (restoreAccesses s.par inv).length) ≤ n)
    (hstill : s.RadioStill (6 * (nb + 4 + (restoreAccesses s.par inv).length)))
    (hnb : (s.reg s.par.regRxNbBytes).toNat = nb) (hpol : s.IqWritten (s.par.iqWrites inv)) :
    ∃ u, receivePayload inv s =
        (.bytes ((List.range nb).map fun i => s.fifoAt (s.reg s.par.regFifoRxCurrent + BitVec.ofNat 8 i)), u) ∧
      Chain (payloadAccesses s.par nb (s.reg s.par.regFifoRxCurrent) ++ restoreAccesses s.par inv)
        [s.par.regFifoAddrPtr, s.par.regIrqFlags, s.par.regInvertIq, s.par.regInvertIq2] [] s u ∧
      u.IqWritten s.par.iqNormal ∧ u.reg s.par.regIrqFlags = 0#8 ∧
      u.reg s.par.regFifoAddrPtr = s.reg s.par.regFifoRxCurrent + BitVec.ofNat 8 nb := by
  have hok := hr.params
  have hclass : ∀ a ∈ statusRegs s.par, regClass s.par a ≠ .window := fun a h => by rw [class_status hok a h]; decide
  obtain ⟨s1, e1, c1, -⟩ := readReg_chain hr (ha.mono (by omega)) (.main 'V' 6) s.par.regRxNbBytes (hclass _ (by simp [statusRegs]))
  have hkeep1 := c1.regs [] ((hstill.mono (by simp; omega)).only [])
  obtain ⟨s2, e2, p2, -⟩ := readReg_chain c1.running (c1.answers ha (by simp; omega)) (.main 'V' 6) s.par.regFifoRxCurrent
    (by rw [c1.par]; exact hclass _ (by simp [statusRegs]))
  have c2 := c1.trans p2
  have hkeep2 := c2.regs [] ((hstill.mono (by simp; omega)).only [])
  rw [hkeep1 _ List.not_mem_nil List.not_mem_nil] at e1
  rw [hkeep2 _ List.not_mem_nil List.not_mem_nil] at e2
  obtain ⟨p3, v3⟩ := writeReg_plain_chain c2.running (c2.answers ha (by simp; omega)) (.main 'V' 6) s.par.regFifoAddrPtr
    (s.reg s.par.regFifoRxCurrent) (by rw [c2.par]; exact class_fifoAddrPtr hok)
  obtain ⟨s3, hs3⟩ : ∃ s3, s3 = writeReg (.main 'V' 6) s.par.regFifoAddrPtr (s.reg s.par.regFifoRxCurrent) s2 := ⟨_, rfl⟩
  rw [← hs3] at p3 v3
  have c3 := c2.trans p3
  have hpar3 := c3.par
  have hkept3 : ∀ b, s3.fifoAt b = s.fifoAt b := fun b => c3.fifo [] ((hstill.mono (by simp; omega)).only []) b List.not_mem_nil
  obtain ⟨s4, e4, p4, v4⟩ := drainFifo_chain (.main 'V' 6) nb c3.running (c3.answers ha (by simp; omega)) (own := [])
    ((c3.still hstill (by simp; omega)).only [])
  rw [hpar3, v3] at v4 e4
  rw [hpar3] at p4
  have c4 := c3.trans p4
  have hpar4 := c4.par
  have hpol4 : s4.IqWritten (s4.par.iqWrites inv) := by
    rw [hpar4]
    refine hpol.congr fun a hmem => ?_
    obtain ⟨av, hav, rfl⟩ := List.mem_map.mp hmem
    have hne : av.1 ≠ s.par.regFifoAddrPtr := by
      rcases hiq inv av hav with e | e <;> rw [e]
      · exact reg_ne_reg hok 22 7 (by decide)
      · exact reg_ne_reg hok 25 7 (by decide)
    exact c4.frame.plain _ (hiq.plain hok inv av hav) (by simp [hne])
  obtain ⟨u, hu, p5, hnormal, hflags⟩ := receiveEnd_chain c4.running (hiq.congr hpar4) (.main 'V' 6) inv
    (c4.answers ha (n := 6 * (1 + (restoreAccesses s.par inv).length)) (by simp; omega)) (by rw [hpar4])
    (by rw [hpar4]; exact fun i hi => State.RadioStill.radioAt (c4.still hstill (n := 6 * (1 + (restoreAccesses s.par inv).length))
      (by simp; omega)) (by omega)) hpol4
  rw [hpar4] at p5 hnormal hflags
  refine ⟨u, ?_, ?_, hnormal, hflags, ?_⟩
  · simp only [receivePayload, e1, c1.par, e2, c2.par, ← hs3, hnb, e4, hu, deliverPayload_noFault _ p5.running.noFault, hkept3]
  · have hall := c4.trans p5
    have haccs : payloadAccesses s.par nb (s.reg s.par.regFifoRxCurrent) ++ restoreAccesses s.par inv =
        [.read s.par.regRxNbBytes] ++ [.read s.par.regFifoRxCurrent] ++ [.write s.par.regFifoAddrPtr (s.reg s.par.regFifoRxCurrent)] ++
          List.replicate nb (.read s.par.regFifo) ++ ([.write s.par.regIrqFlags 0xFF#8] ++ restoreAccesses s.par inv) := by
      simp [payloadAccesses]
    rw [haccs]
    refine hall.mono (fun a ha => ?_) (fun _ h => h)
    simp only [List.mem_append, List.mem_cons, List.not_mem_nil, or_false, false_or] at ha ⊢
    tauto
  · refine (p5.frame.plain _ (by rw [hpar4]; exact class_fifoAddrPtr hok) (fun hmem => ?_)).trans v4
    simp only [List.mem_cons, List.not_mem_nil, or_false] at hmem
    rcases hmem with e | e | e
    · exact reg_ne_reg hok 7 11 (by decide) e
    · exact reg_ne_reg hok 7 22 (by decide) e
    · exact reg_ne_reg hok 7 25 (by decide) e

end Sys2Proof.Machine
end

section
/-! SUPPORT. Whole runs of `receive` (47_packet_sequencers.md R296 to R298). -/

namespace Sys2Proof.Machine

theorem exec_receive (bound : Rat) (inv : Bool) (s : State) :
    exec (.receive bound inv) s = .next (runOp 0x41#8 (receiveOp bound inv) s) := rfl

theorem receiveOp_open {s : State} (hopen : s.isOpen = true) (bound : Rat) (inv : Bool) :
    receiveOp bound inv s =
      match receivePoll bound (receiveSetup inv s).drawClock.1 0 (receiveSetup inv s).drawClock.2 with
      | (.done, x) => receivePayload inv x
      | (.timedOut, x) => (.bytes [], (restoreIQ (.main 'V' 7) inv (clearFlags (.main 'V' 7) x)).fail .timeout) := by
  simp only [receiveOp, hopen, Bool.not_true, Bool.false_eq_true, if_false]
  rcases receivePoll bound (receiveSetup inv s).drawClock.1 0 (receiveSetup inv s).drawClock.2 with ⟨_ | _, x⟩ <;> rfl

/-! ### RADIO setting flags at most -/

/-- Before the next `n` bulk transactions RADIO by itself only sets flags, none of those in `never`. -/
def State.SetsOnly (n : Nat) (never : Byte) (s : State) : Prop :=
  ∀ i < n, ∃ f, f &&& never = 0#8 ∧ s.radioAt i = { RadioEvent.nothing with setFlags := f }

theorem State.SetsOnly.mono {m n : Nat} {never : Byte} {s : State} (h : s.SetsOnly n never) (hm : m ≤ n) : s.SetsOnly m never :=
  fun i hi => h i (by omega)

theorem State.SetsOnly.flags {n : Nat} {never : Byte} {s : State} (h : s.SetsOnly n never) {i : Nat} (hi : i < n) :
    (s.radioAt i).setFlags &&& never = 0#8 := by
  obtain ⟨f, hf, he⟩ := h i hi
  rw [he]; exact hf

theorem State.SetsOnly.only {n : Nat} {never : Byte} {s : State} (h : s.SetsOnly n never) : s.RadioOnly n [s.par.regIrqFlags] :=
  State.radioOnly_of_radioAt fun i hi r => by
    obtain ⟨f, -, he⟩ := h i hi
    rw [he]
    exact ⟨fun a ha => Radio.reg_flagged_other _ _ _ (by simpa using ha), fun b => Radio.fifoByte_flagged _ _ _ _⟩

theorem State.SetsOnly.of_nothing {n : Nat} {s : State} (h : ∀ i < n, s.radioAt i = RadioEvent.nothing) (never : Byte) :
    s.SetsOnly n never := fun i hi => ⟨0#8, BitVec.zero_and, h i hi⟩

theorem State.RadioSets.setsOnly {m n : Nat} {never : Byte} {s : State} (h : s.RadioSets m n never) : s.SetsOnly n never :=
  fun i hi => by
    cases htk : s.env.ticks[i]? with
    | none => exact ⟨0#8, BitVec.zero_and, by simp only [State.radioAt, htk]; rfl⟩
    | some tk =>
      rw [State.radioAt_of_getElem htk]
      rcases h i tk hi htk with e | ⟨-, f, hf, e⟩
      · exact ⟨0#8, BitVec.zero_and, e⟩
      · exact ⟨f, hf, e⟩

theorem State.RadioSets.still {m n : Nat} {never : Byte} {s : State} (h : s.RadioSets m n never) {i : Nat} (hm : m ≤ i) (hi : i < n) :
    s.radioAt i = RadioEvent.nothing := by
  cases htk : s.env.ticks[i]? with
  | none => simp only [State.radioAt, htk]; rfl
  | some tk =>
    rw [State.radioAt_of_getElem htk]
    rcases h i tk hi htk with e | ⟨hlt, -⟩
    · exact e
    · omega

/-! ### The setup and the looks that show nothing -/

theorem irqFlags_notMem_statusRegs {p : Params} (hok : p.Ok) : p.regIrqFlags ∉ statusRegs p := fun h => by
  simp only [statusRegs, List.mem_cons, List.not_mem_nil, or_false] at h
  rcases h with e | e | e | e | e
  · exact reg_ne_reg hok 11 14 (by decide) e
  · exact reg_ne_reg hok 11 13 (by decide) e
  · exact reg_ne_reg hok 11 12 (by decide) e
  · exact reg_ne_reg hok 11 10 (by decide) e
  · exact reg_ne_reg hok 11 29 (by decide) e

/-- What RADIO alone writes is none of the registers of the setup, nor of the end. -/
theorem status_notMem_written {p : Params} (hok : p.Ok) {a : RegAddr} (ha : a ∈ statusRegs p) :
    a ∉ receiveWritten p ∧ a ∉ [p.regFifoAddrPtr, p.regIrqFlags, p.regInvertIq, p.regInvertIq2] := by
  have hplain : ∀ b, regClass p b = .plain → a ≠ b := fun b hb e => by
    have hv := class_status hok a ha
    rw [e, hb] at hv; exact absurd hv (by decide)
  have h1 : a ≠ p.regOpMode := fun e => opMode_notMem_statusRegs hok (e ▸ ha)
  have h2 : a ≠ p.regIrqFlags := fun e => irqFlags_notMem_statusRegs hok (e ▸ ha)
  have h3 := hplain _ (class_invertIq hok)
  have h4 := hplain _ (class_invertIq2 hok)
  have h5 := hplain _ (class_dioMapping1 hok)
  have h6 := hplain _ (class_fifoAddrPtr hok)
  simp only [receiveWritten, List.mem_cons, List.not_mem_nil, or_false, not_or]
  exact ⟨⟨h3, h4, h5, h1, h2⟩, h6, h2, h3, h4⟩

/-- Where a `receive` stands before its look number `k`. -/
structure ReceivePolled (bound : Rat) (inv : Bool) (k : Nat) (clk : List Rat) (more : List (List Rat)) (s t1 t2 t3 : State) (now : Rat) :
    Prop where
  setup : receiveSetup inv s = t1
  set : ReceiveSet inv s t1
  polling : Polling (receiveSetupAccesses s.par inv) s t1 clk more t2
  skip : receivePoll bound clk 0 t2 = receivePoll bound (clk.drop k) now t3
  polls : Chain (List.replicate k (.read s.par.regIrqFlags)) [] [] t2 t3
  clear : t3.reg s.par.regIrqFlags &&& s.par.irqRxDone = 0#8
  listening : Listening inv s t3
  regs : ∀ a, a ∉ receiveWritten s.par → t3.reg a = s.reg a
  fifo : ∀ b, t3.fifoAt b = s.fifoAt b

theorem receivePolled {s : State} (hr : s.Running) (hiq : s.IqOnly) {bound : Rat} (inv : Bool) (k : Nat) {n : Nat} (ha : s.Answers n)
    (hn : 6 * ((receiveSetupAccesses s.par inv).length + k) ≤ n) {clk : List Rat} {more : List (List Rat)}
    (hclk : s.env.clocks = clk :: more) (hk : k ≤ clk.length) (hshort : ∀ x ∈ clk.take k, 0 ≤ x ∧ x < bound)
    (hsets : s.SetsOnly (6 * ((receiveSetupAccesses s.par inv).length + k)) s.par.irqRxDone) :
    ∃ t1 t2 t3 now, ReceivePolled bound inv k clk more s t1 t2 t3 now := by
  have hset := receiveSetup_set hr hiq inv ha (by omega)
  obtain ⟨t2, h2⟩ := hset.chain.polling hclk
  have hclear : t2.reg t2.par.regIrqFlags &&& t2.par.irqRxDone = 0#8 := by
    rw [h2.par, h2.reg, hset.flags]; exact BitVec.zero_and
  obtain ⟨t3, now, hskip, c3, h3⟩ := receivePoll_skip k h2.running (bound := bound) (h2.answers ha (n := 6 * k) (by omega)) le_rfl hk
    (now := 0) (fun x hx => by obtain ⟨h0, hb⟩ := hshort x hx; rwa [max_eq_right h0]) hclear
    (fun j hj => by rw [h2.radioAt, h2.par]; exact hsets.flags (by omega))
  rw [h2.par] at c3 h3
  have hlisten := hset.listening (hsets.mono (by omega)).only
  have honly : t2.RadioOnly (6 * k) [t2.par.regIrqFlags] :=
    State.SetsOnly.only (never := s.par.irqRxDone) fun i hi => by rw [h2.radioAt]; exact hsets _ (by omega)
  have honly' : t2.RadioOnly (6 * (List.replicate k (RegAccess.read s.par.regIrqFlags)).length) [s.par.regIrqFlags] := by
    rw [List.length_replicate, ← h2.par]; exact honly
  have hkeep : ∀ a, a ≠ s.par.regIrqFlags → t3.reg a = (receiveSetup inv s).reg a := fun a hf =>
    (c3.regs _ honly' a List.not_mem_nil (not_mem_one hf)).trans (h2.reg a)
  have hsetup := (hsets.mono (m := 6 * (receiveSetupAccesses s.par inv).length) (by omega)).only
  refine ⟨_, t2, t3, now, rfl, hset, h2, hskip, c3, h3, hlisten.keep hr.params hiq (c3.par.trans (h2.par.trans hset.chain.par.symm))
    fun a hf _ => hkeep a hf, fun a ha => ?_, fun b => ?_⟩
  · have hf : a ≠ s.par.regIrqFlags := fun e => ha (by simp [receiveWritten, e])
    exact (hkeep a hf).trans (hset.chain.regs _ hsetup a ha (not_mem_one hf))
  · exact (c3.fifo _ honly' b List.not_mem_nil).trans ((h2.fifo b).trans (hset.chain.fifo _ hsetup b List.not_mem_nil))

namespace ReceivePolled
variable {bound : Rat} {inv : Bool} {k : Nat} {clk : List Rat} {more : List (List Rat)} {s t1 t2 t3 t4 u : State} {now : Rat}

/-- Where look number `k` stands among the answers. -/
theorem radioAt (h : ReceivePolled bound inv k clk more s t1 t2 t3 now) (i : Nat) :
    t3.radioAt i = s.radioAt (6 * ((receiveSetupAccesses s.par inv).length + k) + i) := by
  rw [h.polls.radioAt, h.polling.radioAt, List.length_replicate, Nat.mul_add, Nat.add_assoc]

theorem answers (h : ReceivePolled bound inv k clk more s t1 t2 t3 now) {m n : Nat} (ha : s.Answers m)
    (hm : 6 * ((receiveSetupAccesses s.par inv).length + k) + n ≤ m) : t3.Answers n :=
  h.polls.answers (h.polling.answers ha (n := 6 * k + n) (by omega)) (by rw [List.length_replicate])

theorem par (h : ReceivePolled bound inv k clk more s t1 t2 t3 now) : t3.par = s.par := h.listening.par

/-- Look number `k` and what follows it, as a chain from the end of the setup. -/
theorem tail (h : ReceivePolled bound inv k clk more s t1 t2 t3 now) {accs : List RegAccess} {w : List RegAddr}
    (k4 : Chain [.read s.par.regIrqFlags] [] [] t3 t4) (k5 : Chain accs w [] t4 u) :
    Chain (List.replicate (k + 1) (.read s.par.regIrqFlags) ++ accs) w [] t1 (u.withClocks s.env.clocks) := by
  have hk := h.polling.chain ((h.polls.trans k4).trans k5)
  rwa [← List.replicate_succ'] at hk

end ReceivePolled

/-! ### What the ends leave -/

/-- The end of `receive` leaves what a receiver at work has, with the flags cleared and normal polarity. -/
theorem Listening.received {inv : Bool} {s t u : State} {accs : List RegAccess} {w : List RegAddr} (h : Listening inv s t) (hok : s.par.Ok)
    (c : Chain accs w [] t u) (hw : w ⊆ [s.par.regFifoAddrPtr, s.par.regIrqFlags, s.par.regInvertIq, s.par.regInvertIq2])
    (honly : t.RadioOnly (6 * accs.length) [s.par.regIrqFlags]) (hnormal : u.IqWritten s.par.iqNormal)
    (hflags : u.reg s.par.regIrqFlags = 0#8) : Received s u := by
  have hkeep : ∀ a, a ∉ [s.par.regFifoAddrPtr, s.par.regIrqFlags, s.par.regInvertIq, s.par.regInvertIq2] → u.reg a = t.reg a :=
    fun a ha => c.regs _ honly a (fun hm => ha (hw hm)) (fun hm => ha (by simp [List.mem_singleton.mp hm]))
  have hmode : s.par.regOpMode ∉ [s.par.regFifoAddrPtr, s.par.regIrqFlags, s.par.regInvertIq, s.par.regInvertIq2] := fun hm => by
    simp only [List.mem_cons, List.not_mem_nil, or_false] at hm
    rcases hm with e | e | e | e
    · exact reg_ne_reg hok 1 7 (by decide) e
    · exact reg_ne_reg hok 1 11 (by decide) e
    · exact reg_ne_reg hok 1 22 (by decide) e
    · exact reg_ne_reg hok 1 25 (by decide) e
  have hmap : s.par.regDioMapping1 ∉ [s.par.regFifoAddrPtr, s.par.regIrqFlags, s.par.regInvertIq, s.par.regInvertIq2] := fun hm => by
    simp only [List.mem_cons, List.not_mem_nil, or_false] at hm
    rcases hm with e | e | e | e
    · exact reg_ne_reg hok 26 7 (by decide) e
    · exact reg_ne_reg hok 26 11 (by decide) e
    · exact reg_ne_reg hok 26 22 (by decide) e
    · exact reg_ne_reg hok 26 25 (by decide) e
  refine ⟨(hkeep _ hmode).trans h.mode, hflags, (hkeep _ hmap).trans h.mapping, hnormal, fun a ha hs => ?_⟩
  refine (hkeep a fun hm => ha ?_).trans (h.others a ha hs)
  simp only [List.mem_cons, List.not_mem_nil, or_false] at hm ⊢
  tauto

theorem Received.returned {s u : State} {op : Byte} {c : List (List Rat)} (r : Result) (h : Received (s.enter op) (u.withClocks c)) :
    Received s (u.leave r) :=
  ⟨h.mode, h.flags, h.mapping, h.polarity, h.others⟩

theorem Received.fail {s u : State} {r : Result} (c : Cause) (h : Received s (u.leave r)) : Received s ((u.fail c).leave r) :=
  ⟨h.mode, h.flags, h.mapping, h.polarity, h.others⟩

theorem Received.withClocks {s u : State} (c : List (List Rat)) (h : Received s u) : Received s (u.withClocks c) :=
  ⟨h.mode, h.flags, h.mapping, h.polarity, h.others⟩

/-- What is delivered of a packet that has arrived: the state after it, in terms of the radio as it then is. -/
structure Delivered (inv : Bool) (nb : Nat) (s t u : State) : Prop where
  run : receivePayload inv t =
    (.bytes ((List.range nb).map fun i => u.fifoAt (u.reg s.par.regFifoRxCurrent + BitVec.ofNat 8 i)), u)
  chain : Chain (payloadAccesses s.par nb (u.reg s.par.regFifoRxCurrent) ++ restoreAccesses s.par inv)
    [s.par.regFifoAddrPtr, s.par.regIrqFlags, s.par.regInvertIq, s.par.regInvertIq2] [] t u
  received : Received s u
  count : (u.reg s.par.regRxNbBytes).toNat = nb
  current : u.reg s.par.regFifoRxCurrent = t.reg s.par.regFifoRxCurrent
  pointer : u.reg s.par.regFifoAddrPtr = u.reg s.par.regFifoRxCurrent + BitVec.ofNat 8 nb
  fifo : ∀ a, u.fifoAt a = t.fifoAt a

theorem Listening.delivered {inv : Bool} {s t : State} (h : Listening inv s t) (hr : t.Running) (hiq : s.IqOnly) {n nb : Nat}
    (ha : t.Answers n) (hn : 6 * (nb + 4 + (restoreAccesses s.par inv).length) ≤ n)
    (hstill : t.RadioStill (6 * (nb + 4 + (restoreAccesses s.par inv).length))) (hnb : (t.reg s.par.regRxNbBytes).toNat = nb) :
    ∃ u, Delivered inv nb s t u := by
  have hok : s.par.Ok := h.par ▸ hr.params
  obtain ⟨u, hrun, c, hnormal, hflags, hptr⟩ := receivePayload_chain hr (hiq.congr h.par) inv ha (nb := nb) (by rw [h.par]; exact hn)
    (by rw [h.par]; exact hstill) (by rw [h.par]; exact hnb) (by rw [h.par]; exact h.polarity)
  rw [h.par] at hrun c hnormal hflags hptr
  have hlen : (payloadAccesses s.par nb (t.reg s.par.regFifoRxCurrent) ++ restoreAccesses s.par inv).length =
      nb + 4 + (restoreAccesses s.par inv).length := by rw [List.length_append, payloadAccesses_length]
  have hstill' : ∀ own, t.RadioOnly (6 * (payloadAccesses s.par nb (t.reg s.par.regFifoRxCurrent) ++
      restoreAccesses s.par inv).length) own := fun own => by rw [hlen]; exact hstill.only own
  have hstatus : ∀ a ∈ statusRegs s.par, u.reg a = t.reg a := fun a ha =>
    c.regs [] (hstill' []) a (status_notMem_written hok ha).2 List.not_mem_nil
  have hcur : u.reg s.par.regFifoRxCurrent = t.reg s.par.regFifoRxCurrent :=
    hstatus _ (by simp [statusRegs])
  have hcount : u.reg s.par.regRxNbBytes = t.reg s.par.regRxNbBytes :=
    hstatus _ (by simp [statusRegs])
  have hfifo : ∀ a, u.fifoAt a = t.fifoAt a := fun a => c.fifo [] (hstill' []) a List.not_mem_nil
  rw [← hcur] at hrun c hptr
  refine ⟨u, ?_, c, h.received hok c (fun _ h => h) ?_ hnormal hflags, by rw [hcount]; exact hnb, hcur, hptr, hfifo⟩
  · rw [hrun]; simp only [hfifo]
  · rw [hcur]; exact hstill' _

/-- A look at the flags leaves a receiver at work, where RADIO leaves the mode alone. -/
theorem Looked.listening {inv : Bool} {s t v : State} (h : Looked t v) (hl : Listening inv s t) (hr : t.Running) (hiq : s.IqOnly)
    (hm : (t.radioAt 0).opMode = none) : Listening inv s v := by
  have hok : s.par.Ok := hl.par ▸ hr.params
  refine hl.keep hok hiq h.chain.par fun a hf hs => h.reg hr hm ?_ ?_
  · rw [hl.par]; exact hf
  · rw [hl.par]; exact hs

/-- Settles O55: the setup, `k` looks that show nothing, the look that shows the packet, step V6. -/
theorem receiveSucceeds : Obligations.ReceiveSucceeds := by
  intro s bound inv k n nb clk more e hs hiq _ hnb hn ha hclk hk hshort hdone hcrc hmode hacts
  have hr := hs.enter 0x41#8
  obtain ⟨L, hL⟩ : ∃ L, L = (receiveSetupAccesses s.par inv).length := ⟨_, rfl⟩
  have hL' : (receiveSetupAccesses (s.enter 0x41#8).par inv).length = L := hL.symm
  obtain ⟨R, hR⟩ : ∃ R, R = (restoreAccesses s.par inv).length := ⟨_, rfl⟩
  have hn : n = 6 * (L + k + 5 + nb + R) := by rw [hn, hL, hR]
  have hevent : s.radioAt (6 * (L + k)) = e := by
    rw [hacts.radioAt ha (by rw [hn]; omega), hL]; exact congrArg (fun o => Option.getD o _) (List.lookup_cons_self ..)
  have hquiet : ∀ i < n, i ≠ 6 * (L + k) → s.radioAt i = RadioEvent.nothing := fun i hi hne => by
    rw [hL] at hne
    rw [hacts.radioAt ha hi, List.lookup_cons, beq_false_of_ne hne]; rfl
  obtain ⟨t1, t2, t3, now, h⟩ := receivePolled hr (hiq.congr rfl) (bound := bound) inv k (ha.enter 0x41#8) (by rw [hL']; omega) hclk hk
    hshort (.of_nothing (fun i hi => by rw [hL'] at hi; exact hquiet i (by omega) (by omega)) _)
  have hans : ∀ m, 6 * (L + k) + m ≤ n → t3.Answers m := fun m hm => h.answers (ha.enter 0x41#8) (by rw [hL']; exact hm)
  have hat : ∀ i, t3.radioAt i = s.radioAt (6 * (L + k) + i) := fun i => (h.radioAt i).trans (by rw [hL']; rfl)
  have hat0 : t3.radioAt 0 = e := (hat 0).trans hevent
  have hpar3 : t3.par = s.par := h.par
  obtain ⟨t4, h4⟩ := exists_looked h.polls.running (hans 6 (by omega))
  have c4 : Chain [.read s.par.regIrqFlags] [] [] t3 t4 := hpar3 ▸ h4.chain
  have hlisten := h4.listening h.listening h.polls.running (hiq.congr rfl) (by rw [hat0]; exact hmode)
  have hstart : ∀ a ∈ statusRegs s.par, t3.reg a = s.reg a := fun a hmem => h.regs a (status_notMem_written hs.params hmem).1
  have hnbytes : t4.reg s.par.regRxNbBytes = e.nbBytes.getD (s.reg s.par.regRxNbBytes) := by
    have hv := h4.nbBytes h.polls.running
    rwa [hpar3, hat0, hstart _ (by simp [statusRegs])] at hv
  have hcurrent : t4.reg s.par.regFifoRxCurrent = e.rxCurrent.getD (s.reg s.par.regFifoRxCurrent) := by
    have hv := h4.rxCurrent h.polls.running
    rwa [hpar3, hat0, hstart _ (by simp [statusRegs])] at hv
  have hfifo : ∀ a, t4.fifoAt a = (e.fifo.reverse.lookup a).getD (s.fifoAt a) := fun a => by
    rw [h4.fifoAt h.polls.running, hat0, h.fifo]; rfl
  have hzero : t3.reg s.par.regIrqFlags = 0#8 := by
    have hstill2 : t2.RadioStill (6 * k) := State.radioStill_of_radioAt fun i hi => by
      rw [h.polling.radioAt]
      exact (congrArg (fun l => s.radioAt (6 * l + i)) hL').trans (hquiet _ (by omega) (by omega))
    exact (h.polls.regs [] (by rw [List.length_replicate]; exact hstill2.only []) _ List.not_mem_nil List.not_mem_nil).trans
      ((h.polling.reg _).trans h.set.flags)
  have hflags : t4.reg t3.par.regIrqFlags = e.setFlags := by
    rw [h4.flags, hat0, hpar3, hzero]; exact BitVec.zero_or
  have hlook := receiveLook_packet h4 (by rw [hflags, hpar3]; exact hdone) (by rw [hflags, hpar3]; exact hcrc)
  have hans4 : t4.Answers (6 * (nb + 4 + R)) := c4.answers (hans (6 * (nb + 5 + R)) (by omega)) (by simp; omega)
  have hRe : (restoreAccesses (s.enter 0x41#8).par inv).length = R := hR.symm
  obtain ⟨u, hu⟩ := hlisten.delivered c4.running (hiq.congr rfl) hans4 (by rw [hRe]) (by
      rw [hRe]
      refine State.radioStill_of_radioAt fun i hi => ?_
      rw [c4.radioAt, hat]
      exact hquiet _ (by simp; omega) (by simp)) ((congrArg BitVec.toNat hnbytes).trans hnb.symm)
  have htail := h.tail c4 hu.chain
  have hbody : receiveOp bound inv (s.enter 0x41#8) =
      (.bytes ((List.range nb).map fun i => u.fifoAt (u.reg s.par.regFifoRxCurrent + BitVec.ofNat 8 i)), u) := by
    rw [receiveOp_open hr.isOpen bound inv, h.setup, h.polling.drawn, h.skip, receivePoll_packet hlook]
    exact hu.run
  refine ⟨_, exec_of_body (exec_receive bound inv s) hbody, ?_, (hu.received.withClocks s.env.clocks).returned _, rfl, hu.count,
    hu.current.trans hcurrent, hu.pointer, fun a => (hu.fifo a).trans (hfifo a)⟩
  have hall := (h.set.chain.andThen htail).completed_withClocks 0x41#8
    (.bytes ((List.range nb).map fun i => u.fifoAt (u.reg s.par.regFifoRxCurrent + BitVec.ofNat 8 i)))
  rw [List.append_assoc, List.append_assoc]
  exact hall

/-- Settles O56: the setup, `k` looks in time, a last one, and step V7 after the bound. -/
theorem receiveTimesOut : Obligations.ReceiveTimesOut := by
  intro s bound inv k n clk more hs hiq _ hn ha hclk hk hshort hlate hsets
  have hr := hs.enter 0x41#8
  have hok := hs.params
  obtain ⟨L, hL⟩ : ∃ L, L = (receiveSetupAccesses s.par inv).length := ⟨_, rfl⟩
  have hL' : (receiveSetupAccesses (s.enter 0x41#8).par inv).length = L := hL.symm
  obtain ⟨R, hR⟩ : ∃ R, R = (restoreAccesses s.par inv).length := ⟨_, rfl⟩
  rw [← hL] at hsets
  have hn : n = 6 * (L + k + 2 + R) := by rw [hn, hL, hR]
  have hsets' : (s.enter 0x41#8).SetsOnly n s.par.irqRxDone := (hsets.setsOnly : s.SetsOnly n _)
  obtain ⟨t1, t2, t3, now, h⟩ := receivePolled hr (hiq.congr rfl) (bound := bound) inv k (ha.enter 0x41#8) (by rw [hL']; omega) hclk hk
    hshort (hsets'.mono (by rw [hL']; omega))
  have hans : ∀ m, 6 * (L + k) + m ≤ n → t3.Answers m := fun m hm => h.answers (ha.enter 0x41#8) (by rw [hL']; exact hm)
  have hat : ∀ i, t3.radioAt i = s.radioAt (6 * (L + k) + i) := fun i => (h.radioAt i).trans (by rw [hL']; rfl)
  have hsets3 : t3.SetsOnly (6 * (2 + R)) s.par.irqRxDone := fun i hi => by rw [hat]; exact hsets' _ (by omega)
  have hpar3 : t3.par = s.par := h.par
  obtain ⟨t4, h4⟩ := exists_looked h.polls.running (hans 6 (by omega))
  have c4 : Chain [.read s.par.regIrqFlags] [] [] t3 t4 := hpar3 ▸ h4.chain
  obtain ⟨f, -, hf⟩ := hsets3 0 (by omega)
  have hlisten := h4.listening h.listening h.polls.running (hiq.congr rfl) (by rw [hf]; rfl)
  have hpar4 : t4.par = s.par := hlisten.par
  have hlook := receiveLook_nothing h4 (by
    rw [h4.flags, hpar3]; exact or_and_eq_zero h.clear (hsets3.flags (by omega)))
  have hpoll := receivePoll_late hlook (bound := bound) (clk := clk.drop k) (fun x hx => hlate x (by simpa using hx)) now
  obtain ⟨u, hu, c5, hnormal, hzero⟩ := receiveEnd_chain c4.running (hiq.congr hpar4) (.main 'V' 7) inv
    (c4.answers (hans (6 * (2 + R)) (by omega)) (n := 6 * (1 + R)) (by simp; omega)) (by rw [hpar4, hR])
    (fun i hi => by
      rw [hpar4, ← hR] at hi
      rw [c4.radioAt, hat]
      exact hsets.still (by simp; omega) (by simp; omega))
    (by rw [hpar4]; exact hlisten.polarity)
  rw [hpar4] at c5 hnormal hzero
  have htail := h.tail c4 c5
  have hbody : receiveOp bound inv (s.enter 0x41#8) = (.bytes [], u.fail .timeout) := by
    rw [receiveOp_open hr.isOpen bound inv, h.setup, h.polling.drawn, h.skip, hpoll]
    exact congrArg (fun x => (Result.bytes [], State.fail .timeout x)) hu
  have hall := h.set.chain.andThen htail
  have hsub : [s.par.regIrqFlags, s.par.regInvertIq, s.par.regInvertIq2] ⊆
      [s.par.regFifoAddrPtr, s.par.regIrqFlags, s.par.regInvertIq, s.par.regInvertIq2] := List.subset_cons_self _ _
  have hlen : ([RegAccess.write s.par.regIrqFlags 0xFF#8] ++ restoreAccesses s.par inv).length = 1 + R := by
    rw [List.length_append, hR]; rfl
  have honly5 : t4.RadioOnly (6 * ([RegAccess.write s.par.regIrqFlags 0xFF#8] ++ restoreAccesses s.par inv).length) [s.par.regIrqFlags] := by
    rw [hlen, ← hpar4]
    exact State.SetsOnly.only (never := s.par.irqRxDone) fun i hi => by rw [c4.radioAt]; exact hsets3 _ (by simp; omega)
  have hreceived := hlisten.received hok c5 hsub honly5 hnormal hzero
  have hallLen : (receiveSetupAccesses (s.enter 0x41#8).par inv ++ (List.replicate (k + 1) (RegAccess.read (s.enter 0x41#8).par.regIrqFlags) ++
      ([RegAccess.write s.par.regIrqFlags 0xFF#8] ++ restoreAccesses s.par inv))).length = L + (k + 1 + (1 + R)) := by
    rw [List.length_append, List.length_append, hlen, hL', List.length_replicate]
  have honly : (s.enter 0x41#8).RadioOnly (6 * (L + (k + 1 + (1 + R)))) [s.par.regIrqFlags] := (hsets'.mono (by omega)).only
  rw [← hallLen] at honly
  have hkept : ∀ a, a ∉ receiveWritten s.par → u.reg a = s.reg a := fun a ha => by
    refine hall.regs _ honly a (fun hm => ?_) (fun hm => ha (by simp [receiveWritten, List.mem_singleton.mp hm]))
    rcases List.mem_append.mp hm with hm | hm
    · exact ha hm
    · refine ha ?_
      simp only [receiveWritten, List.mem_cons, List.not_mem_nil, or_false] at hm ⊢
      tauto
  refine ⟨_, exec_of_body (exec_receive bound inv s) hbody, rfl, rfl, ?_, Received.fail .timeout
    ((hreceived.withClocks s.env.clocks).returned (.bytes [])), hkept _ (fun hm => ?_),
    fun a ha => hkept a (status_notMem_written hok ha).1, fun a => hall.fifo _ honly a List.not_mem_nil⟩
  · have hdone := (hall.completed_withClocks 0x41#8 (.bytes [])).fail (c := .timeout)
    rw [List.append_assoc, List.append_assoc]
    exact hdone
  · simp only [receiveWritten, List.mem_cons, List.not_mem_nil, or_false] at hm
    rcases hm with e | e | e | e | e
    · exact reg_ne_reg hok 7 22 (by decide) e
    · exact reg_ne_reg hok 7 25 (by decide) e
    · exact reg_ne_reg hok 7 26 (by decide) e
    · exact reg_ne_reg hok 7 1 (by decide) e
    · exact reg_ne_reg hok 7 11 (by decide) e

end Sys2Proof.Machine
end

section
/-! SUPPORT. What a register access of a serialised session puts in the trace: no sleep (45_register_access.md R215, R217); and the run
of `receive` that meets a CRC error (47_packet_sequencers.md R297 L2, R298). -/

namespace Sys2Proof.Machine

/-- At most `k` bulk transactions have been made, none by POLLER, and nothing has slept. -/
structure Silent (k : Nat) (s t : State) : Prop where
  par : t.par = s.par
  pseq : t.pseq = s.pseq
  irqEn : t.irqEn = s.irqEn
  used : ∃ m ≤ k, t.env.ticks = s.env.ticks.drop m
  sleeps : ∀ q, t.trace.count (.sleep q) = s.trace.count (.sleep q)

/-- An act that draws no answer and adds nothing to the trace. -/
theorem Silent.of_same {s t : State} (hp : t.par = s.par) (hq : t.pseq = s.pseq) (he : t.irqEn = s.irqEn)
    (hticks : t.env.ticks = s.env.ticks) (htrace : t.trace = s.trace) : Silent 0 s t :=
  ⟨hp, hq, he, ⟨0, le_rfl, hticks⟩, fun _ => by rw [htrace]⟩

theorem Silent.mono {j k : Nat} {s t : State} (h : Silent j s t) (hk : j ≤ k) : Silent k s t := by
  obtain ⟨m, hm, hticks⟩ := h.used
  exact ⟨h.par, h.pseq, h.irqEn, ⟨m, hm.trans hk, hticks⟩, h.sleeps⟩

theorem Silent.trans {j k : Nat} {s t u : State} (h : Silent j s t) (g : Silent k t u) : Silent (j + k) s u := by
  obtain ⟨m, hm, hticks⟩ := h.used
  obtain ⟨n, hn, hticks'⟩ := g.used
  exact ⟨g.par.trans h.par, g.pseq.trans h.pseq, g.irqEn.trans h.irqEn,
    ⟨m + n, by omega, by rw [hticks', hticks, List.drop_drop]⟩, fun q => (g.sleeps q).trans (h.sleeps q)⟩

theorem Silent.same {k : Nat} {s t u : State} (h : Silent k s t) (hp : u.par = t.par) (hq : u.pseq = t.pseq) (he : u.irqEn = t.irqEn)
    (hticks : u.env.ticks = t.env.ticks) (htrace : u.trace = t.trace) : Silent k s u :=
  h.trans (.of_same hp hq he hticks htrace)

theorem Silent.answers {j k : Nat} {s t : State} (h : Silent j s t) (ha : s.Answers (j + k)) : t.Answers k := by
  obtain ⟨m, hm, hticks⟩ := h.used
  obtain ⟨⟨hidle, hpoll⟩, hlen, hok⟩ := ha
  have hsub : ∀ tk ∈ t.env.ticks.take k, tk ∈ s.env.ticks.take (j + k) := fun tk hmem => by
    rw [hticks, List.take_drop] at hmem
    exact List.take_subset_take_left _ (by omega) (List.mem_of_mem_drop hmem)
  refine ⟨⟨h.pseq.trans hidle, fun he tk hmem => hpoll (h.irqEn ▸ he) tk (hsub tk hmem)⟩, ?_, fun tk hmem => hok tk (hsub tk hmem)⟩
  rw [hticks, List.length_drop]; omega

theorem sendAt_ticks (who : Who) (c : WireCmd) (tk : Tick) (s : State) : (sendAt who c tk s).2.env.ticks = s.env.ticks := by
  simp only [sendAt]; split <;> simp

theorem takeAt_ticks (who : Who) (tk : Tick) (s : State) : (takeAt who tk s).2.env.ticks = s.env.ticks := by
  simp only [takeAt]; split <;> simp

theorem bulkOut_silent {s : State} (ha : s.Answers 1) (c : WireCmd) : Silent 1 s (bulkOut c s).2 := by
  obtain ⟨tk, rest, ht, hg⟩ := ha.one
  rw [bulkOut_alone hg.alone ht]
  refine ⟨?_, by simp, by simp, ⟨1, le_rfl, ?_⟩, fun q => by simp [sendAt_trace]⟩
  · simpa using (Beside.sendAt (.fg s.seq) c tk s.drawTick.2).par
  · rw [sendAt_ticks, s.drawTick_ticks tk rest ht, ht]; rfl

theorem bulkIn_silent {s : State} (ha : s.Answers 1) : Silent 1 s (bulkIn s).2 := by
  obtain ⟨tk, rest, ht, hg⟩ := ha.one
  rw [bulkIn_alone hg.alone ht]
  refine ⟨?_, by simp, by simp, ⟨1, le_rfl, ?_⟩, fun q => by simp [takeAt_trace]⟩
  · simpa using (Beside.takeAt (.fg s.seq) tk s.drawTick.2).par
  · rw [takeAt_ticks, s.drawTick_ticks tk rest ht, ht]; rfl

theorem roundTrip_silent {s : State} (ha : s.Answers 2) (num i : Nat) (d : Byte) : Silent 2 s (roundTrip num i d s).2 := by
  have h0 : Silent 0 s (s.atBus (.round 'T' num i .sending)) := .of_same rfl rfl rfl rfl rfl
  have h1 := h0.trans (bulkOut_silent ((h0.answers (k := 2) ha).mono (by omega)) (.clock d))
  unfold roundTrip
  dsimp only
  split
  · obtain ⟨u, hu⟩ : ∃ u, u = (bulkOut (.clock d) (s.atBus (.round 'T' num i .sending))).2 := ⟨_, rfl⟩
    rw [← hu] at h1 ⊢
    have h2 : Silent 1 s (u.atBus (.round 'T' num i .taking)) := 
      Silent.mono (j := 0 + 1) (h1.same rfl rfl rfl rfl rfl) (by omega)
    exact h2.trans (bulkIn_silent (h2.answers (k := 1) ha))
  · exact h1.mono (by omega)

theorem writePhase_silent (w : List Byte) (i : Nat) {s : State} (ha : s.Answers (2 * w.length)) :
    Silent (2 * w.length) s (writePhase w i s).2 := by
  induction w generalizing i s with
  | nil => exact .of_same rfl rfl rfl rfl rfl
  | cons b w ih =>
    rw [List.length_cons, Nat.mul_add, Nat.add_comm] at ha ⊢
    have h := roundTrip_silent (ha.mono (by omega)) 2 i (inBitOrder s.lsbFirst b)
    unfold writePhase
    dsimp only
    split
    · exact h.trans (ih _ (h.answers ha))
    · exact h.mono (by omega)

theorem readPhase_silent (n i : Nat) {s : State} (ha : s.Answers (2 * n)) : Silent (2 * n) s (readPhase n i s).2 := by
  induction n generalizing i s with
  | zero => exact .of_same rfl rfl rfl rfl rfl
  | succ n ih =>
    rw [Nat.mul_add, Nat.add_comm] at ha ⊢
    have h := roundTrip_silent (ha.mono (by omega)) 3 i Config.dummy
    unfold readPhase
    dsimp only
    split
    · rename_i e _
      have h' := h.trans (Silent.of_same (t := (roundTrip 3 i Config.dummy s).2.keepEcho
        (inBitOrder (roundTrip 3 i Config.dummy s).2.lsbFirst e)) rfl rfl rfl rfl rfl)
      exact h'.trans (ih _ (h'.answers ha))
    · exact h.mono (by omega)

theorem chipSelect_silent {s : State} (ha : s.Answers 1) (high : Bool) : Silent 1 s (chipSelect high s).2 := by
  have h0 : Silent 0 s (s.atBus (.main 'T' (if high then 4 else 1))) := .of_same rfl rfl rfl rfl rfl
  obtain ⟨tk, rest, ht, hg⟩ := (h0.answers (k := 1) ha).one
  have h1 : Silent 0 s ((MaskUpdate.out s.par.csPin.val high).apply (s.atBus (.main 'T' (if high then 4 else 1)))) :=
    .of_same rfl rfl rfl rfl rfl
  rw [chipSelect, updatePins_alone hg.alone ht]
  exact h1.trans (bulkOut_silent (h1.answers (k := 1) ha) _)

theorem Silent.andThen {j k : Nat} {s : State} {r : Bool × State} {f : State → Bool × State} (h : Silent j s r.2)
    (g : Silent k r.2 (f r.2).2) : Silent (j + k) s (Machine.andThen r f).2 := by
  unfold Machine.andThen
  split
  · exact h.trans g
  · exact h.mono (by omega)

theorem transferBytes_silent (w : List Byte) (n : Nat) {s : State} (ha : s.Answers (2 + 2 * (w.length + n))) :
    Silent (2 + 2 * (w.length + n)) s (transferBytes w n s).2 := by
  unfold transferBytes
  split
  · have h0 : Silent 0 s (s.startBuffers w n) := .of_same rfl rfl rfl rfl rfl
    have ha0 : (s.startBuffers w n).Answers (1 + (2 * w.length + (2 * n + 1))) :=
      (h0.answers (k := 2 + 2 * (w.length + n)) (by rwa [Nat.zero_add])).mono (by omega)
    have h : Silent (1 + (2 * w.length + (2 * n + 1))) (s.startBuffers w n) (transferSteps w n (s.startBuffers w n)).2 := by
      have h1 := chipSelect_silent (ha0.mono (by omega)) false
      have ha1 := h1.answers ha0
      have h2 := writePhase_silent w 0 (ha1.mono (by omega))
      have ha2 := h2.answers ha1
      have h3 := readPhase_silent n 0 (ha2.mono (by omega))
      exact h1.andThen (h2.andThen (h3.andThen (chipSelect_silent (h3.answers ha2) true)))
    have h' := (h0.trans h).mono (k := 2 + 2 * (w.length + n)) (by omega)
    dsimp only
    split
    · exact h'.same rfl rfl rfl rfl rfl
    · exact h'.same rfl rfl rfl rfl rfl
  · exact Silent.mono (Silent.of_same (t := s.fail .sessionClosed) rfl rfl rfl rfl rfl) (by omega)

theorem orFree_silent (b : Byte) (s : State) : Silent 0 s (orFree b s).2 := by
  unfold orFree freeIf
  split <;> exact .of_same rfl rfl rfl rfl rfl

theorem readReg_silent {s : State} (ha : s.Answers 6) (l : Label) (a : RegAddr) : Silent 6 s (readReg l a s).2 := by
  have h0 : Silent 0 s (s.atStep l) := .of_same rfl rfl rfl rfl rfl
  have h := h0.trans (transferBytes_silent [readAddrByte (a.setWidth 8)] 1 (ha.atStep l))
  unfold readReg readAt
  dsimp only
  split
  · exact (h.trans (orFree_silent _ _)).mono (by simp)
  · exact Silent.mono (j := 0 + (2 + 2 * (1 + 1))) (h.same rfl rfl rfl rfl rfl) (by omega)

theorem writeReg_silent {s : State} (ha : s.Answers 6) (l : Label) (a : RegAddr) (v : Byte) : Silent 6 s (writeReg l a v s) := by
  have h0 : Silent 0 s (s.atStep l) := .of_same rfl rfl rfl rfl rfl
  exact h0.trans (transferBytes_silent [writeAddrByte (a.setWidth 8), v] 0 (ha.atStep l))

theorem writeAll_silent (l : Label) (ws : List (RegAddr × Byte)) {s : State} (ha : s.Answers (6 * ws.length)) :
    Silent (6 * ws.length) s (writeAll l ws s) := by
  induction ws generalizing s with
  | nil => exact .of_same rfl rfl rfl rfl rfl
  | cons av ws ih =>
    rw [List.length_cons, Nat.mul_add, Nat.add_comm] at ha ⊢
    have h := writeReg_silent (ha.mono (by omega)) l av.1 av.2
    exact h.trans (ih (h.answers ha))

theorem restoreIQ_silent (l : Label) (inv : Bool) {s : State} (ha : s.Answers (6 * (restoreAccesses s.par inv).length)) :
    Silent (6 * (restoreAccesses s.par inv).length) s (restoreIQ l inv s) := by
  cases inv with
  | false => exact .of_same rfl rfl rfl rfl rfl
  | true =>
    simp only [restoreAccesses, if_true, writesOf_length] at ha ⊢
    exact writeAll_silent l _ ha

theorem drainFifo_silent (l : Label) (n : Nat) {s : State} (ha : s.Answers (6 * n)) : Silent (6 * n) s (drainFifo l n s).2 := by
  induction n generalizing s with
  | zero => exact .of_same rfl rfl rfl rfl rfl
  | succ n ih =>
    rw [Nat.mul_add, Nat.add_comm] at ha ⊢
    have h := readReg_silent (ha.mono (by omega)) l s.par.regFifo
    exact h.trans (ih (h.answers ha))

theorem receiveSetup_silent (inv : Bool) {s : State} (ha : s.Answers (6 * (receiveSetupAccesses s.par inv).length)) :
    Silent (6 * (receiveSetupAccesses s.par inv).length) s (receiveSetup inv s) := by
  rw [receiveSetupAccesses_length] at ha ⊢
  have h1 := writeAll_silent (.main 'V' 1) (s.par.iqWrites inv) (ha.mono (by omega))
  obtain ⟨s1, hs1⟩ : ∃ s1, s1 = setIQ (.main 'V' 1) inv s := ⟨_, rfl⟩
  have h1' : Silent (6 * (s.par.iqWrites inv).length) s s1 := hs1 ▸ h1
  have h2 := h1'.trans (writeReg_silent (h1'.answers (k := 6) (ha.mono (by omega))) (.main 'V' 2) s1.par.regDioMapping1 s1.par.dioMapRxDone)
  obtain ⟨s2, hs2⟩ : ∃ s2, s2 = writeReg (.main 'V' 2) s1.par.regDioMapping1 s1.par.dioMapRxDone s1 := ⟨_, rfl⟩
  rw [← hs2] at h2
  have h3 : Silent ((6 * (s.par.iqWrites inv).length + 6) + 6) s (putMode (.main 'V' 3) .receiveContinuous s2) :=
    h2.trans (writeReg_silent (h2.answers (k := 6) (ha.mono (by omega))) (.main 'V' 3) _ _)
  obtain ⟨s3, hs3⟩ : ∃ s3, s3 = putMode (.main 'V' 3) .receiveContinuous s2 := ⟨_, rfl⟩
  rw [← hs3] at h3
  have h4 : Silent (((6 * (s.par.iqWrites inv).length + 6) + 6) + 6) s (clearFlags (.main 'V' 4) s3) :=
    h3.trans (writeReg_silent (h3.answers (k := 6) (ha.mono (by omega))) (.main 'V' 4) _ 0xFF#8)
  simp only [receiveSetup, ← hs1, ← hs2, ← hs3]
  exact h4.mono (by omega)

theorem receivePayload_silent (inv : Bool) {s : State} {nb : Nat}
    (hnb : (readReg (.main 'V' 6) s.par.regRxNbBytes s).1.toNat = nb)
    (ha : s.Answers (6 * (nb + 4 + (restoreAccesses s.par inv).length))) :
    Silent (6 * (nb + 4 + (restoreAccesses s.par inv).length)) s (receivePayload inv s).2 := by
  obtain ⟨R, hR⟩ : ∃ R, R = (restoreAccesses s.par inv).length := ⟨_, rfl⟩
  rw [← hR] at ha ⊢
  have h1 := readReg_silent (ha.mono (by omega)) (.main 'V' 6) s.par.regRxNbBytes
  obtain ⟨s1, hs1⟩ : ∃ s1, s1 = (readReg (.main 'V' 6) s.par.regRxNbBytes s).2 := ⟨_, rfl⟩
  rw [← hs1] at h1
  have h2 := h1.trans (readReg_silent ((h1.answers (k := 6) (ha.mono (by omega)))) (.main 'V' 6) s1.par.regFifoRxCurrent)
  obtain ⟨r2, hr2⟩ : ∃ r2, r2 = readReg (.main 'V' 6) s1.par.regFifoRxCurrent s1 := ⟨_, rfl⟩
  rw [← hr2] at h2
  have h3 := h2.trans (writeReg_silent (h2.answers (k := 6) (ha.mono (by omega))) (.main 'V' 6) r2.2.par.regFifoAddrPtr r2.1)
  obtain ⟨s3, hs3⟩ : ∃ s3, s3 = writeReg (.main 'V' 6) r2.2.par.regFifoAddrPtr r2.1 r2.2 := ⟨_, rfl⟩
  rw [← hs3] at h3
  have h4 := h3.trans (drainFifo_silent (.main 'V' 6) nb (h3.answers (ha.mono (by omega))))
  obtain ⟨r4, hr4⟩ : ∃ r4, r4 = drainFifo (.main 'V' 6) nb s3 := ⟨_, rfl⟩
  rw [← hr4] at h4
  have h5 : Silent (6 + 6 + 6 + 6 * nb + 6) s (clearFlags (.main 'V' 6) r4.2) :=
    h4.trans (writeReg_silent (h4.answers (k := 6) (ha.mono (by omega))) (.main 'V' 6) _ 0xFF#8)
  obtain ⟨s5, hs5⟩ : ∃ s5, s5 = clearFlags (.main 'V' 6) r4.2 := ⟨_, rfl⟩
  rw [← hs5] at h5
  have hR5 : (restoreAccesses s5.par inv).length = R := by rw [h5.par, hR]
  have h6 := h5.trans (restoreIQ_silent (.main 'V' 6) inv (s := s5) (by rw [hR5]; exact h5.answers (ha.mono (by omega))))
  rw [hR5] at h6
  have hrun : receivePayload inv s = deliverPayload r4.1 (restoreIQ (.main 'V' 6) inv s5) := by
    simp only [receivePayload, hnb, ← hs1, ← hr2, ← hs3, ← hr4, ← hs5]
  have hdeliver : Silent 0 (restoreIQ (.main 'V' 6) inv s5) (deliverPayload r4.1 (restoreIQ (.main 'V' 6) inv s5)).2 := by
    unfold deliverPayload
    split <;> exact .of_same rfl rfl rfl rfl rfl
  rw [hrun]
  exact (h6.trans hdeliver).mono (by omega)

/-! ### The two looks -/

theorem Looked.sleeps {s t : State} (h : Looked s t) (ha : s.Answers 6) (q : Rat) :
    t.trace.count (.sleep q) = s.trace.count (.sleep q) := by
  have hs := (readReg_silent ha (.main 'L' 1) s.par.regIrqFlags).sleeps q
  rwa [h.read] at hs

/-- What a look that finds a CRC error leaves: the flags cleared, nothing slept (R298). -/
structure Retried (inv : Bool) (s t u : State) : Prop where
  look : receiveLook t = (.crcError, u)
  chain : Chain [.read s.par.regIrqFlags, .write s.par.regIrqFlags 0xFF#8] [s.par.regIrqFlags] [] t u
  flags : u.reg s.par.regIrqFlags = 0#8
  listening : Listening inv s u
  nbBytes : u.reg s.par.regRxNbBytes = (t.radioAt 0).nbBytes.getD (t.reg s.par.regRxNbBytes)
  sleeps : ∀ q, u.trace.count (.sleep q) = t.trace.count (.sleep q)

section
variable {inv : Bool} {s t : State} (hl : Listening inv s t) (hr : t.Running) (hiq : s.IqOnly)
  (h0 : t.reg s.par.regIrqFlags = 0#8) (hmode : (t.radioAt 0).opMode = none)
  (hdone : (t.radioAt 0).setFlags &&& s.par.irqRxDone ≠ 0#8)
include hl hr hiq h0 hmode hdone

/-- A look that finds a packet, where no flag was set before it. -/
theorem Listening.found (ha : t.Answers 6) (hcrc : (t.radioAt 0).setFlags &&& s.par.irqCrcError = 0#8) :
    ∃ v, Looked t v ∧ receiveLook t = (.packet, v) ∧ Listening inv s v := by
  obtain ⟨v, hv⟩ := exists_looked hr ha
  have hflags : v.reg t.par.regIrqFlags = (t.radioAt 0).setFlags := by
    rw [hv.flags, hl.par, h0]; exact BitVec.zero_or
  exact ⟨v, hv, receiveLook_packet hv (by rw [hflags, hl.par]; exact hdone) (by rw [hflags, hl.par]; exact hcrc),
    hv.listening hl hr hiq hmode⟩

theorem Listening.retried (ha : t.Answers 12) (hcrc : (t.radioAt 0).setFlags &&& s.par.irqCrcError ≠ 0#8)
    (hstill : ∀ i < 6, t.radioAt (6 + i) = RadioEvent.nothing) : ∃ u, Retried inv s t u := by
  have hok : s.par.Ok := hl.par ▸ hr.params
  obtain ⟨v, hv⟩ := exists_looked hr (ha.mono (by omega))
  have c1 : Chain [.read s.par.regIrqFlags] [] [] t v := hl.par ▸ hv.chain
  have hlisten := hv.listening hl hr hiq hmode
  have hflags : v.reg t.par.regIrqFlags = (t.radioAt 0).setFlags := by
    rw [hv.flags, hl.par, h0]; exact BitVec.zero_or
  have hlook := receiveLook_crcError hv (by rw [hflags, hl.par]; exact hdone) (by rw [hflags, hl.par]; exact hcrc)
  have ha' : v.Answers 6 := c1.answers ha (by simp)
  obtain ⟨p2, hzero⟩ := clearFlags_chain c1.running ha' (.main 'L' 2)
  rw [hlisten.par] at p2 hzero
  have hown : v.RadioOnly 6 [] := (State.radioStill_of_radioAt fun i hi => by rw [c1.radioAt]; exact hstill i hi).only []
  have hkeep : ∀ a, a ≠ s.par.regIrqFlags → (clearFlags (.main 'L' 2) v).reg a = v.reg a := fun a ha =>
    p2.regs [] hown a (not_mem_one ha) List.not_mem_nil
  refine ⟨_, hlook, c1.trans p2, hzero, hlisten.keep hok hiq p2.par fun a ha _ => hkeep a ha, ?_, fun q => ?_⟩
  · have hn := hv.nbBytes hr
    rw [hl.par] at hn
    exact (hkeep _ (reg_ne_reg hok 12 11 (by decide))).trans hn
  · exact ((writeReg_silent ha' (.main 'L' 2) _ 0xFF#8).sleeps q).trans (hv.sleeps (ha.mono (by omega)) q)

end

/-- Nothing is slept while a packet is delivered. -/
theorem Delivered.sleeps {inv : Bool} {nb : Nat} {s t u : State} (h : Delivered inv nb s t u) (hr : t.Running) (hp : t.par = s.par)
    (hnb : (t.reg s.par.regRxNbBytes).toNat = nb) (hstill : t.RadioStill 1)
    (ha : t.Answers (6 * (nb + 4 + (restoreAccesses s.par inv).length))) (q : Rat) :
    u.trace.count (.sleep q) = t.trace.count (.sleep q) := by
  have hclass : regClass t.par t.par.regRxNbBytes ≠ .window := by
    rw [class_status hr.params _ (by simp [statusRegs])]; decide
  have hval := (readReg_value hr (ha.mono (by omega)) (.main 'V' 6) t.par.regRxNbBytes hclass).1
  rw [State.quiet_still hstill] at hval
  rw [← hp] at ha hnb
  have hs := (receivePayload_silent inv ((congrArg BitVec.toNat hval).trans hnb) ha).sleeps q
  rwa [h.run] at hs

/-- Settles O57: the setup, the look that shows the CRC error, the flags cleared, the look that shows the packet, step V6. -/
theorem receiveRetriesAfterCrcError : Obligations.ReceiveRetriesAfterCrcError := by
  intro s bound inv n nb x clk more e1 e2 hs hiq h0 hx hnb hn ha hclk hdone1 hcrc1 hmode1 hdone2 hcrc2 hmode2 hacts
  have hr := hs.enter 0x41#8
  have hok := hs.params
  obtain ⟨L, hL⟩ : ∃ L, L = (receiveSetupAccesses s.par inv).length := ⟨_, rfl⟩
  have hL' : (receiveSetupAccesses (s.enter 0x41#8).par inv).length = L := hL.symm
  obtain ⟨R, hR⟩ : ∃ R, R = (restoreAccesses s.par inv).length := ⟨_, rfl⟩
  have hRe : (restoreAccesses (s.enter 0x41#8).par inv).length = R := hR.symm
  rw [← hL] at hacts
  have hn : n = 6 * (L + 7 + nb + R) := by rw [hn, hL, hR]
  have hevent1 : s.radioAt (6 * L) = e1 := by
    rw [hacts.radioAt ha (by rw [hn]; omega)]; exact congrArg (fun o => Option.getD o _) (List.lookup_cons_self ..)
  have hevent2 : s.radioAt (6 * (L + 2)) = e2 := by
    rw [hacts.radioAt ha (by rw [hn]; omega), List.lookup_cons, beq_false_of_ne (by omega)]
    exact congrArg (fun o => Option.getD o _) (List.lookup_cons_self ..)
  have hquiet : ∀ i < n, i ≠ 6 * L → i ≠ 6 * (L + 2) → s.radioAt i = RadioEvent.nothing := fun i hi hne hne' => by
    rw [hacts.radioAt ha hi, List.lookup_cons, beq_false_of_ne hne, List.lookup_cons, beq_false_of_ne hne']; rfl
  -- the setup, and the values of `elapsed()` drawn
  have hans := ha.enter 0x41#8
  have hset := receiveSetup_set hr (hiq.congr rfl) inv hans (by rw [hL']; omega)
  obtain ⟨t1, ht1⟩ : ∃ t1, t1 = receiveSetup inv (s.enter 0x41#8) := ⟨_, rfl⟩
  rw [← ht1] at hset
  obtain ⟨t2, h2⟩ := hset.chain.polling (clk := x :: clk) hclk
  have hsetup : (s.enter 0x41#8).SetsOnly (6 * (receiveSetupAccesses (s.enter 0x41#8).par inv).length) s.par.irqRxDone :=
    .of_nothing (fun i hi => by rw [hL'] at hi; exact hquiet i (by omega) (by omega) (by omega)) _
  have hlisten2 : Listening inv (s.enter 0x41#8) t2 := (hset.listening hsetup.only).keep hok (hiq.congr rfl)
    (h2.par.trans hset.chain.par.symm) fun a _ _ => h2.reg a
  have hat2 : ∀ i, t2.radioAt i = s.radioAt (6 * L + i) := fun i => (h2.radioAt i).trans (by rw [hL']; rfl)
  have hans2 : ∀ m, 6 * L + m ≤ n → t2.Answers m := fun m hm => h2.answers hans (by rw [hL']; exact hm)
  have hflags2 : t2.reg s.par.regIrqFlags = 0#8 := (h2.reg _).trans hset.flags
  -- the look that shows the CRC error, and the flags cleared
  have hat2z : t2.radioAt 0 = e1 := (hat2 0).trans hevent1
  obtain ⟨t4, h4⟩ := hlisten2.retried h2.running (hiq.congr rfl) hflags2 (by rw [hat2z]; exact hmode1) (by rw [hat2z]; exact hdone1)
    (hans2 12 (by omega)) (by rw [hat2z]; exact hcrc1) fun i hi => by rw [hat2]; exact hquiet _ (by omega) (by omega) (by omega)
  have hat4 : ∀ i, t4.radioAt i = s.radioAt (6 * (L + 2) + i) := fun i =>
    (h4.chain.radioAt i).trans ((hat2 _).trans (congrArg (State.radioAt · s) (by simp; omega)))
  have hans4 : ∀ m, 6 * (L + 2) + m ≤ n → t4.Answers m := fun m hm => h4.chain.answers (hans2 (12 + m) (by omega)) (by simp)
  -- the look that shows the packet
  have hat4z : t4.radioAt 0 = e2 := (hat4 0).trans hevent2
  obtain ⟨t5, h5, hlook, hlisten5⟩ := h4.listening.found h4.chain.running (hiq.congr rfl) h4.flags (by rw [hat4z]; exact hmode2)
    (by rw [hat4z]; exact hdone2) (hans4 6 (by omega)) (by rw [hat4z]; exact hcrc2)
  have hpar4 : t4.par = s.par := h4.listening.par
  have c5 : Chain [.read s.par.regIrqFlags] [] [] t4 t5 := hpar4 ▸ h5.chain
  have hnbytes : t5.reg s.par.regRxNbBytes = (e2.nbBytes.or e1.nbBytes).getD (s.reg s.par.regRxNbBytes) := by
    have hmem : s.par.regRxNbBytes ∈ statusRegs s.par := by simp [statusRegs]
    have hv1 : t4.reg s.par.regRxNbBytes = e1.nbBytes.getD (s.reg s.par.regRxNbBytes) :=
      h4.nbBytes.trans (congrArg₂ Option.getD (congrArg RadioEvent.nbBytes hat2z) ((h2.reg _).trans
        (hset.chain.regs _ hsetup.only _ (status_notMem_written hok hmem).1
          (not_mem_one fun e => irqFlags_notMem_statusRegs hok (e ▸ hmem)))))
    have hv2 := h5.nbBytes h4.chain.running
    rw [hat4z, hpar4, hv1] at hv2
    rw [hv2]
    cases e2.nbBytes <;> rfl
  -- step V6
  have hcount : (t5.reg s.par.regRxNbBytes).toNat = nb := (congrArg BitVec.toNat hnbytes).trans hnb.symm
  have hans5 : t5.Answers (6 * (nb + 4 + R)) := c5.answers (hans4 (6 * (nb + 5 + R)) (by omega)) (by simp; omega)
  have hstill5 : t5.RadioStill (6 * (nb + 4 + R)) := State.radioStill_of_radioAt fun i hi => by
    rw [c5.radioAt, hat4]
    exact hquiet _ (by simp; omega) (by simp; omega) (by simp)
  obtain ⟨u, hu⟩ := hlisten5.delivered c5.running (hiq.congr rfl) hans5 (by rw [hRe]) (by rw [hRe]; exact hstill5) hcount
  have hpoll : receivePoll bound (x :: clk) 0 t2 = (.done, t5) := by
    rw [receivePoll_early h4.look (by decide) (by rw [max_eq_right h0]; exact hx), if_pos rfl, receivePoll_packet hlook]
  have hbody : receiveOp bound inv (s.enter 0x41#8) =
      (.bytes ((List.range nb).map fun i => u.fifoAt (u.reg s.par.regFifoRxCurrent + BitVec.ofNat 8 i)), u) := by
    rw [receiveOp_open hr.isOpen bound inv, ← ht1, h2.drawn, hpoll]
    exact hu.run
  refine ⟨_, exec_of_body (exec_receive bound inv s) hbody, ?_, (hu.received.withClocks s.env.clocks).returned _, rfl, hu.count, fun q => ?_⟩
  · have htail := h2.chain ((h4.chain.trans c5).trans hu.chain)
    have hall := ((hset.chain.trans htail).mono (fun _ h => h) (f' := []) (by simp)).completed_withClocks 0x41#8
      (.bytes ((List.range nb).map fun i => u.fifoAt (u.reg s.par.regFifoRxCurrent + BitVec.ofNat 8 i)))
    rw [List.append_assoc, List.append_assoc]
    exact hall
  · have hlast := hu.sleeps c5.running hlisten5.par hcount (hstill5.mono (by omega)) (by rw [hRe]; exact hans5) q
    have hfirst := (receiveSetup_silent inv (hans.mono (by rw [hL']; omega))).sleeps q
    rw [← ht1] at hfirst
    exact hlast.trans ((h5.sleeps (hans4 6 (by omega)) q).trans ((h4.sleeps q).trans ((h2.sleeps _).trans hfirst)))

end Sys2Proof.Machine
end

section
/-! SUPPORT. `transfer` in a serialised session (42_transfer.md R166 to R172): what it puts on the wire when every transaction answers,
and where it stops when one fails. -/

namespace Sys2Proof.Machine

theorem exec_transfer (w : List Byte) (n : Nat) (s : State) : exec (.transfer w n) s =
    .next (runOp 0x02#8 (fun s => (.bytes (transferBytes w n s).1, (transferBytes w n s).2)) s) := rfl

theorem transferBytes_open {s : State} (h : s.isOpen = true) (w : List Byte) (n : Nat) : transferBytes w n s =
    (if (transferSteps w n (s.startBuffers w n)).1 then
      ((transferSteps w n (s.startBuffers w n)).2.echoesKept, (transferSteps w n (s.startBuffers w n)).2.dropBuffers)
    else ([], ((transferSteps w n (s.startBuffers w n)).2.fail .bulkTransferError).dropBuffers)) := by
  simp only [transferBytes, h, if_true]

/-! ### The steps that answer -/

/-- The state with the chip-select bit of `OUT` changed. -/
def State.csOut (high : Bool) (s : State) : State := { s with out := putBit s.par.csPin.val high s.out }

/-- The frame of the shadow masks with the chip-select bit changed. -/
def State.csLine (high : Bool) (s : State) : WireLine := .out (pinFrame s.par (putBit s.par.csPin.val high s.out) s.dir)

theorem chipSelect_answered (high : Bool) {s : State} (ha : s.Answers 1) : ∃ u, chipSelect high s = (true, u) ∧
    Framed [s.csLine high] (s.env.ticks.drop 1) (s.csOut high) u ∧ u.buf = s.buf ∧ u.pinsOut = (s.csOut high).out ∧ u.pinsDir = s.dir := by
  obtain ⟨t, rest, ht, g⟩ := ha.one
  obtain ⟨h1, h2, h3, h4, h5⟩ := chipSelect_framed high g.alone ht g.ok
  exact ⟨_, Prod.ext h1 rfl, by rw [ht]; exact h2, h3, h4, h5⟩

theorem Framed.session {lines : List WireLine} {rest : List Tick} {s t : State} (h : Framed lines rest s t) : SameSession s t :=
  have k := h.toKept
  ⟨k.par, k.isOpen, k.handle, k.dir, h.out, k.lsbFirst, k.irqCfg, k.cbSet, k.irqEn, k.lastLevel, k.lastCause, h.busFault, k.pseq, k.inbox⟩

/-- Where a transfer stands at a step of its own: what is on the wire, and what is left of the answers. -/
structure Standing (lines : List WireLine) (s u : State) : Prop where
  framed : Framed lines (s.env.ticks.drop lines.length) (s.csOut false) u
  answered : ∀ l ∈ lines, (∃ f, l = .out f) ∨ ∃ b, l = .back b

theorem Standing.kept {lines : List WireLine} {s u : State} (h : Standing lines s u) : Kept s u := by
  have k := h.framed.toKept
  exact ⟨k.par, k.isOpen, k.handle, k.dir, k.lsbFirst, k.irqCfg, k.cbSet, k.irqEn, k.lastLevel, k.lastCause, k.pseq, k.inbox, k.res,
    k.enums, k.clocks, k.opFault⟩

theorem Standing.out {lines : List WireLine} {s u : State} (h : Standing lines s u) : u.out = s.out &&& ~~~pinMask s.par.csPin.val :=
  h.framed.out

theorem Standing.answers {lines : List WireLine} {s u : State} (h : Standing lines s u) {m n : Nat} (ha : s.Answers m)
    (hn : lines.length + n ≤ m) : u.Answers n :=
  h.kept.answers (m := lines.length) (ha.mono hn) h.framed.ticks

theorem Standing.further {lines more : List WireLine} {s u v : State} (h : Standing lines s u)
    (g : Framed more (u.env.ticks.drop more.length) u v) (hm : ∀ l ∈ more, (∃ f, l = .out f) ∨ ∃ b, l = .back b) :
    Standing (lines ++ more) s v := by
  refine ⟨?_, fun l hl => ?_⟩
  · have hg := h.framed.trans g
    rwa [h.framed.ticks, List.drop_drop, ← List.length_append] at hg
  · rcases List.mem_append.mp hl with hl | hl
    · exact h.answered l hl
    · exact hm l hl

section
variable (w : List Byte) (n : Nat) {s : State}

/-- The lines of the write phase. -/
def writeLines (p : Params) (lsb : Bool) (w es : List Byte) : List WireLine :=
  (w.zip es).flatMap fun be => [.out (clockFrame p (inBitOrder lsb be.1)), .back be.2]

/-- The lines of the read phase. -/
def readLines (p : Params) (rs : List Byte) : List WireLine :=
  rs.flatMap fun e => [.out (clockFrame p Config.dummy), .back e]

theorem length_flatMap_pair {α β : Type} (f g : α → β) (l : List α) : (l.flatMap fun x => [f x, g x]).length = 2 * l.length := by
  induction l with
  | nil => rfl
  | cons x l ih => simp only [List.flatMap_cons, List.length_append, List.length_cons, List.length_nil, ih]; omega

theorem length_writeLines (p : Params) (lsb : Bool) {w es : List Byte} (h : es.length = w.length) :
    (writeLines p lsb w es).length = 2 * w.length := by
  rw [writeLines, length_flatMap_pair, List.length_zip, h, Nat.min_self]

theorem length_readLines (p : Params) (rs : List Byte) : (readLines p rs).length = 2 * rs.length := length_flatMap_pair _ _ _

theorem writeLines_answered (p : Params) (lsb : Bool) (w es : List Byte) :
    ∀ l ∈ writeLines p lsb w es, (∃ f, l = .out f) ∨ ∃ b, l = .back b := fun l hl => by
  obtain ⟨be, -, hl⟩ := List.mem_flatMap.mp hl
  simp only [List.mem_cons, List.not_mem_nil, or_false] at hl
  rcases hl with rfl | rfl
  · exact .inl ⟨_, rfl⟩
  · exact .inr ⟨_, rfl⟩

theorem readLines_answered (p : Params) (rs : List Byte) : ∀ l ∈ readLines p rs, (∃ f, l = .out f) ∨ ∃ b, l = .back b := fun l hl => by
  obtain ⟨e, -, hl⟩ := List.mem_flatMap.mp hl
  simp only [List.mem_cons, List.not_mem_nil, or_false] at hl
  rcases hl with rfl | rfl
  · exact .inl ⟨_, rfl⟩
  · exact .inr ⟨_, rfl⟩

/-- T1 done. -/
theorem transferSteps_selected (ha : s.Answers 1) : ∃ u, Standing [s.csLine false] s u ∧ u.buf = s.buf ∧
    transferSteps w n s = andThen (writePhase w 0 u) fun s => andThen (readPhase n 0 s) (chipSelect true) := by
  obtain ⟨u, e, f, b, -, -⟩ := chipSelect_answered false ha
  refine ⟨u, ⟨f, fun l hl => .inl ⟨_, List.mem_singleton.mp hl⟩⟩, b, ?_⟩
  simp only [transferSteps, andThen, e, if_true]

/-- T2 done. -/
theorem transferSteps_written (ha : s.Answers (1 + 2 * w.length)) : ∃ es u, es.length = w.length ∧
    Standing ([s.csLine false] ++ writeLines s.par s.lsbFirst w es) s u ∧ u.buf = s.buf ∧
    transferSteps w n s = andThen (readPhase n 0 u) (chipSelect true) := by
  obtain ⟨u, hu, hb, e⟩ := transferSteps_selected w n (ha.mono (by omega))
  obtain ⟨es, hes, e2, f2, b2⟩ := writePhase_framed w 0 (hu.answers ha (n := 2 * w.length) (by simp))
  rw [hu.kept.par, hu.kept.lsbFirst] at f2
  refine ⟨es, (writePhase w 0 u).2, hes, hu.further ?_ (writeLines_answered _ _ _ _), b2.trans hb, ?_⟩
  · rw [length_writeLines _ _ hes]; exact f2
  · rw [e, andThen, if_pos e2]

/-- T3 done. -/
theorem transferSteps_read (ha : s.Answers (1 + 2 * w.length + 2 * n)) (hb : s.buf = some { w := w, n := n, r := [] }) :
    ∃ es rs u, es.length = w.length ∧ rs.length = n ∧
      Standing ([s.csLine false] ++ writeLines s.par s.lsbFirst w es ++ readLines s.par rs) s u ∧
      u.buf = some { w := w, n := n, r := rs.map (inBitOrder s.lsbFirst) } ∧ transferSteps w n s = chipSelect true u := by
  obtain ⟨es, u, hes, hu, hb2, e⟩ := transferSteps_written w n (s := s) (ha.mono (by omega))
  obtain ⟨rs, hrs, e3, f3, b3⟩ := readPhase_framed n 0 (hu.answers ha (n := 2 * n) (by simp [length_writeLines _ _ hes])) w n []
    (hb2.trans hb)
  rw [hu.kept.par] at f3
  rw [hu.kept.lsbFirst, List.nil_append] at b3
  refine ⟨es, rs, (readPhase n 0 u).2, hes, hrs, hu.further ?_ (readLines_answered _ _), b3, ?_⟩
  · rw [length_readLines, hrs]; exact f3
  · rw [e, andThen, if_pos e3]

end

theorem set_after_clear (p : Fin 6) (m : PinMask) : (m &&& ~~~pinMask p.val) ||| pinMask p.val = m ||| pinMask p.val := by
  apply BitVec.eq_of_getLsbD_eq
  intro i hi
  simp only [BitVec.getLsbD_or, BitVec.getLsbD_and, BitVec.getLsbD_not, getLsbD_pinMask, hi, decide_true, Bool.true_and]
  by_cases h : i = p.val <;> simp [h]

/-- Chip-select set again, in the shadow mask of a state between T1 and T4. -/
theorem Standing.csOut_out {lines : List WireLine} {s u : State} (h : Standing lines s u) :
    (u.csOut true).out = s.out ||| pinMask s.par.csPin.val := by
  have hout : (u.csOut true).out = u.out ||| pinMask u.par.csPin.val := rfl
  rw [hout, h.kept.par, h.out, set_after_clear]

/-- Settles O26: T1, a round trip for each byte of `W`, a round trip for each byte asked for, T4. -/
theorem transferFraming : Obligations.TransferFraming := by
  intro s w n ho ha
  obtain ⟨v, hv⟩ : ∃ v, v = (s.enter 0x02#8).startBuffers w n := ⟨_, rfl⟩
  have hva : v.Answers (2 + 2 * (w.length + n)) := hv ▸ ha.congr rfl rfl rfl
  obtain ⟨es, rs, u, hes, hrs, hu, hb, e⟩ := transferSteps_read w n (s := v) (hva.mono (by omega)) (by rw [hv]; rfl)
  have hlen : ([v.csLine false] ++ writeLines v.par v.lsbFirst w es ++ readLines v.par rs).length = 1 + 2 * w.length + 2 * n := by
    simp [length_writeLines _ _ hes, length_readLines, hrs]; omega
  obtain ⟨t, e4, f4, b4, o4, d4⟩ := chipSelect_answered true (hu.answers hva (n := 1) (by rw [hlen]; omega))
  have hout : t.out = s.out ||| pinMask s.par.csPin.val := by
    rw [f4.out, hu.csOut_out, hv]; rfl
  have hticks : t.env.ticks = s.env.ticks.drop (2 + 2 * (w.length + n)) := by
    rw [f4.ticks, hu.framed.ticks, List.drop_drop, hlen, hv]
    exact congrArg (fun k => s.env.ticks.drop k) (by omega)
  have hline : u.csLine true = .out (pinFrame s.par (s.out ||| pinMask s.par.csPin.val) s.dir) := by
    have hmask : putBit u.par.csPin.val true u.out = s.out ||| pinMask s.par.csPin.val := hu.csOut_out.trans (by rw [hv]; rfl)
    rw [State.csLine, hmask, hu.kept.par, hu.kept.dir, hv]; rfl
  have hbytes : transferBytes w n (s.enter 0x02#8) = (rs.map (inBitOrder s.lsbFirst), t.dropBuffers) := by
    rw [transferBytes_open (s := s.enter 0x02#8) ho, ← hv, e, e4, if_pos rfl]
    simp only [State.echoesKept, b4, hb]
    rw [hv]; rfl
  have hsession : SameSession s { t with out := s.out } :=
    (((hu.framed.session.withOut s.out).trans (f4.session.withOut s.out)).congr (by rw [hv]; rfl) rfl)
  have hlog : t.wireLog = s.wireLog ++ ([v.csLine false] ++ writeLines v.par v.lsbFirst w es ++ readLines v.par rs) ++ [u.csLine true] := by
    rw [f4.log, show (u.csOut true).wireLog = u.wireLog from rfl, hu.framed.log, hv]; rfl
  have hinQ : t.inQ.length = s.inQ.length := f4.inQ.trans (hu.framed.inQ.trans (by rw [hv]; rfl))
  have hbody := exec_of_body (exec_transfer w n s) (congrArg (fun x : List Byte × State => (Result.bytes x.1, x.2)) hbytes)
  refine ⟨_, es, rs, hbody, hes, hrs, rfl, ?_, hout, hsession.congr rfl rfl, hinQ,
    o4.trans f4.out.symm, d4.trans f4.dir.symm, hticks, rfl, rfl⟩
  refine (State.wireLog_congr (s := t) rfl).trans (hlog.trans ?_)
  rw [hline, hv, ← List.append_assoc, ← List.append_assoc]
  rfl

end Sys2Proof.Machine
end

section
/-! SUPPORT. A transfer one of whose transactions fails (42_transfer.md R169, 60_exceptions.md). -/

namespace Sys2Proof.Machine

/-- The next answers are those of `pre`, all `ok`, and then `bad`, which is not; POLLER has no steps among them. -/
structure Cut (pre : List Tick) (bad : Tick) (rest : List Tick) (s : State) : Prop where
  serialised : s.Serialised (pre.length + 1)
  ticks : s.env.ticks = pre ++ bad :: rest
  ok : ∀ tk ∈ pre, tk.answer = .ok
  bad : bad.answer ≠ .ok

section
variable {pre rest : List Tick} {bad : Tick} {s u : State}

theorem Cut.answers (h : Cut pre bad rest s) {n : Nat} (hn : n ≤ pre.length) : s.Answers n := by
  refine ⟨h.serialised.mono (by omega), ?_, fun tk htk => ?_⟩
  · rw [h.ticks, List.length_append]; omega
  · rw [h.ticks, List.take_append_of_le_length hn] at htk
    exact h.ok tk (List.mem_of_mem_take htk)

theorem Cut.congr (h : Cut pre bad rest s) (hp : u.pseq = s.pseq) (he : u.irqEn = s.irqEn) (ht : u.env.ticks = s.env.ticks) :
    Cut pre bad rest u :=
  ⟨⟨hp.trans h.serialised.1, fun e => by rw [ht]; exact h.serialised.2 (he ▸ e)⟩, ht.trans h.ticks, h.ok, h.bad⟩

theorem Cut.drop (h : Cut pre bad rest s) (k : Kept s u) {m : Nat} (hm : m ≤ pre.length) (ht : u.env.ticks = s.env.ticks.drop m) :
    Cut (pre.drop m) bad rest u := by
  have hticks : u.env.ticks = pre.drop m ++ bad :: rest := by rw [ht, h.ticks, List.drop_append_of_le_length hm]
  refine ⟨⟨k.pseq.trans h.serialised.1, fun e tk htk => ?_⟩, hticks, fun tk htk => h.ok tk (List.mem_of_mem_drop htk), h.bad⟩
  refine h.serialised.2 (k.irqEn ▸ e) tk ?_
  rw [ht, List.take_drop] at htk
  exact List.take_subset_take_left _ (by rw [List.length_drop]; omega) (List.mem_of_mem_drop htk)

/-- The answer that fails comes next. -/
theorem Cut.next (h : Cut [] bad rest s) : Alone bad s ∧ s.env.ticks = bad :: rest :=
  ⟨⟨h.serialised.1, fun e => h.serialised.2 e bad (by rw [h.ticks]; simp)⟩, h.ticks⟩

end

/-- What a piece of a transfer that meets the failing answer after `m` others leaves; `taking` says which kind of transaction failed. -/
structure Broken (m : Nat) (taking : Bool) (rest : List Tick) (s t : State) : Prop where
  kept : Kept s { t with opFault := s.opFault }
  out : t.out = s.out
  busFault : t.busFault = true
  ticks : t.env.ticks = rest
  log : ∃ lines last, t.wireLog = s.wireLog ++ lines ++ [last] ∧ lines.length = m ∧
    (∀ l ∈ lines, (∃ f, l = WireLine.out f) ∨ ∃ b, l = .back b) ∧ if taking then last = .backFailed else ∃ f, last = .outFailed f

section
variable {pre rest : List Tick} {bad : Tick} {s u t : State}

/-- What has been answered before the piece. -/
theorem Broken.after {lines : List WireLine} {m : Nat} {tk : Bool} (b : Broken m tk rest u t) (k : Kept s u) (hout : u.out = s.out)
    (hlog : u.wireLog = s.wireLog ++ lines) (hl : ∀ l ∈ lines, (∃ f, l = WireLine.out f) ∨ ∃ b, l = .back b) :
    Broken (lines.length + m) tk rest s t := by
  obtain ⟨more, last, hlast', hlen, hmore, hlast⟩ := b.log
  have j := b.kept
  refine ⟨⟨j.par.trans k.par, j.isOpen.trans k.isOpen, j.handle.trans k.handle, j.dir.trans k.dir, j.lsbFirst.trans k.lsbFirst,
    j.irqCfg.trans k.irqCfg, j.cbSet.trans k.cbSet, j.irqEn.trans k.irqEn, j.lastLevel.trans k.lastLevel, j.lastCause.trans k.lastCause,
    j.pseq.trans k.pseq, j.inbox.trans k.inbox, j.res.trans k.res, j.enums.trans k.enums, j.clocks.trans k.clocks, rfl⟩,
    b.out.trans hout, b.busFault, b.ticks, lines ++ more, last, ?_, ?_, fun l h => ?_, hlast⟩
  · rw [hlast', hlog, List.append_assoc s.wireLog]
  · rw [List.length_append, hlen]
  · rcases List.mem_append.mp h with h | h
    · exact hl l h
    · exact hmore l h

theorem Missed.broken {tk : Bool} {last : WireLine} (h : Missed rest s t) (hlog : t.wireLog = s.wireLog ++ [last])
    (hlast : if tk then last = .backFailed else ∃ f, last = .outFailed f) : Broken 0 tk rest s t :=
  ⟨h.kept, h.out, h.busFault, h.ticks, [], last, by rw [hlog, List.append_nil], rfl, fun _ h => absurd h List.not_mem_nil, hlast⟩

/-- A step noted in FG's position is nothing on the wire. -/
theorem Broken.ofAtBus {l : Label} {m : Nat} {tk : Bool} (b : Broken m tk rest (s.atBus l) t) : Broken m tk rest s t := by
  have h := b.after (s := s) (lines := []) (by constructor <;> rfl) rfl (List.append_nil _).symm (fun _ h => absurd h List.not_mem_nil)
  rwa [List.length_nil, Nat.zero_add] at h

theorem bulkOut_broken (h : Cut [] bad rest s) (c : WireCmd) : (bulkOut c s).1 = false ∧ Broken 0 false rest s (bulkOut c s).2 := by
  obtain ⟨ha, ht⟩ := h.next
  obtain ⟨h1, h2⟩ := bulkOut_missed ha ht h.bad c
  exact ⟨h1, h2.broken (bulkOut_fail_log ha ht h.bad c) ⟨_, rfl⟩⟩

theorem bulkIn_broken (h : Cut [] bad rest s) : (bulkIn s).1 = none ∧ Broken 0 true rest s (bulkIn s).2 := by
  obtain ⟨ha, ht⟩ := h.next
  obtain ⟨h1, h2⟩ := bulkIn_missed ha ht h.bad
  exact ⟨h1, h2.broken (bulkIn_fail_log ha ht h.bad) rfl⟩

theorem chipSelect_broken (h : Cut [] bad rest s) (high : Bool) :
    ∃ t, chipSelect high s = (false, t) ∧ Broken 0 false rest (s.csOut high) t := by
  obtain ⟨ha, ht⟩ := h.next
  have hu : Cut [] bad rest ((MaskUpdate.out s.par.csPin.val high).apply (s.atBus (.main 'T' (if high then 4 else 1)))) :=
    h.congr rfl rfl rfl
  have heq : chipSelect high s = _ := updatePins_alone (s := s.atBus (.main 'T' (if high then 4 else 1))) ha ht _
  obtain ⟨h1, h2⟩ := bulkOut_broken hu (.pins ((MaskUpdate.out s.par.csPin.val high).apply (s.atBus (.main 'T' (if high then 4 else 1)))).out
    ((MaskUpdate.out s.par.csPin.val high).apply (s.atBus (.main 'T' (if high then 4 else 1)))).dir)
  exact ⟨_, heq.trans (Prod.ext h1 rfl), Broken.ofAtBus (s := s.csOut high) (l := .main 'T' (if high then 4 else 1)) h2⟩

theorem roundTrip_broken (h : Cut pre bad rest s) (hpre : pre.length ≤ 1) (num i : Nat) (d : Byte) :
    (roundTrip num i d s).1 = none ∧ Broken pre.length (decide (pre.length = 1)) rest s (roundTrip num i d s).2 := by
  have hv : Cut pre bad rest (s.atBus (.round 'T' num i .sending)) := h.congr rfl rfl rfl
  cases pre with
  | nil =>
    obtain ⟨h1, h2⟩ := bulkOut_broken hv (.clock d)
    simp only [roundTrip, h1, Bool.false_eq_true, if_false, true_and]
    exact h2.ofAtBus
  | cons tk pre =>
    obtain rfl : pre = [] := List.length_eq_zero_iff.mp (by simpa using hpre)
    obtain ⟨tk', rest', ht, g⟩ := (hv.answers (n := 1) (by simp)).one
    have a1 := bulkOut_answered g.alone ht g.ok (.clock d)
    have l1 := bulkOut_log g.alone ht g.ok (.clock d)
    have e1 := bulkOut_ok g.alone ht g.ok (.clock d)
    have h1 : (bulkOut (.clock d) (s.atBus (.round 'T' num i .sending))).1 = true := by rw [e1]
    obtain ⟨w, hw⟩ : ∃ w, w = (bulkOut (.clock d) (s.atBus (.round 'T' num i .sending))).2 := ⟨_, rfl⟩
    rw [← hw] at a1 l1
    have hcut : Cut [] bad rest (w.atBus (.round 'T' num i .taking)) :=
      (hv.drop a1.toKept (m := 1) (by simp) (by rw [a1.ticks, ht]; rfl)).congr rfl rfl rfl
    obtain ⟨h2, b2⟩ := bulkIn_broken hcut
    simp only [roundTrip, h1, if_true, ← hw, h2, true_and]
    have b3 := b2.ofAtBus.after (s := s) (lines := [.out ((WireCmd.clock d).frame s.par)])
      (Kept.trans (by constructor <;> rfl) a1.toKept) a1.out l1 fun l hl => .inl ⟨_, List.mem_singleton.mp hl⟩
    exact b3

theorem writePhase_broken (w : List Byte) (i : Nat) (h : Cut pre bad rest s) (hpre : pre.length < 2 * w.length) :
    (writePhase w i s).1 = false ∧ Broken pre.length (decide (pre.length % 2 = 1)) rest s (writePhase w i s).2 := by
  induction w generalizing i pre s with
  | nil => exact absurd hpre (Nat.not_lt_zero _)
  | cons b w ih =>
    by_cases hshort : pre.length ≤ 1
    · obtain ⟨h1, h2⟩ := roundTrip_broken h hshort 2 i (inBitOrder s.lsbFirst b)
      have hodd : decide (pre.length % 2 = 1) = decide (pre.length = 1) := decide_eq_decide.mpr (by omega)
      simp only [writePhase, h1, true_and, hodd]
      exact h2
    · obtain ⟨t, t', rest', ht, g1, g2⟩ := (h.answers (n := 2) (by omega)).two
      obtain ⟨e, g, f, -⟩ := roundTrip_framed g1.alone g2.alone ht g1.ok g2.ok 2 i (inBitOrder s.lsbFirst b)
      obtain ⟨h1, h2⟩ := ih (i + 1) (h.drop f.toKept (m := 2) (by omega) (by rw [f.ticks, ht]; rfl))
        (by rw [List.length_drop]; rw [List.length_cons] at hpre; omega)
      have h3 := h2.after f.toKept f.out f.log fun l hl => by
        simp only [List.mem_cons, List.not_mem_nil, or_false] at hl
        rcases hl with rfl | rfl
        · exact .inl ⟨_, rfl⟩
        · exact .inr ⟨_, rfl⟩
      rw [List.length_drop] at h3
      simp only [writePhase, g, h1, true_and]
      have hodd : decide ((pre.length - 2) % 2 = 1) = decide (pre.length % 2 = 1) := decide_eq_decide.mpr (by omega)
      rw [hodd] at h3
      have hlen : [WireLine.out (clockFrame s.par (inBitOrder s.lsbFirst b)), WireLine.back e].length + (pre.length - 2) = pre.length := by
        simp only [List.length_cons, List.length_nil]; omega
      rwa [hlen] at h3

theorem readPhase_broken (n i : Nat) (h : Cut pre bad rest s) (hpre : pre.length < 2 * n) :
    (readPhase n i s).1 = false ∧ Broken pre.length (decide (pre.length % 2 = 1)) rest s (readPhase n i s).2 := by
  induction n generalizing i pre s with
  | zero => exact absurd hpre (Nat.not_lt_zero _)
  | succ n ih =>
    by_cases hshort : pre.length ≤ 1
    · obtain ⟨h1, h2⟩ := roundTrip_broken h hshort 3 i Config.dummy
      have hodd : decide (pre.length % 2 = 1) = decide (pre.length = 1) := decide_eq_decide.mpr (by omega)
      simp only [readPhase, h1, true_and, hodd]
      exact h2
    · obtain ⟨t, t', rest', ht, g1, g2⟩ := (h.answers (n := 2) (by omega)).two
      obtain ⟨e, g, f, -⟩ := roundTrip_framed g1.alone g2.alone ht g1.ok g2.ok 3 i Config.dummy
      obtain ⟨u, hu⟩ : ∃ u, u = (roundTrip 3 i Config.dummy s).2.keepEcho (inBitOrder (roundTrip 3 i Config.dummy s).2.lsbFirst e) :=
        ⟨_, rfl⟩
      have ku : Kept s u := f.toKept.trans (by rw [hu]; constructor <;> rfl)
      obtain ⟨h1, h2⟩ := ih (i + 1) (h.drop ku (m := 2) (by omega) (by rw [hu]; exact f.ticks.trans (by rw [ht]; rfl)))
        (by rw [List.length_drop]; omega)
      have h3 := h2.after ku (by rw [hu]; exact f.out) (by rw [hu]; exact f.log) fun l hl => by
        simp only [List.mem_cons, List.not_mem_nil, or_false] at hl
        rcases hl with rfl | rfl
        · exact .inl ⟨_, rfl⟩
        · exact .inr ⟨_, rfl⟩
      rw [List.length_drop] at h3
      simp only [readPhase, g, ← hu, h1, true_and]
      have hodd : decide ((pre.length - 2) % 2 = 1) = decide (pre.length % 2 = 1) := decide_eq_decide.mpr (by omega)
      rw [hodd] at h3
      have hlen : [WireLine.out (clockFrame s.par Config.dummy), WireLine.back e].length + (pre.length - 2) = pre.length := by
        simp only [List.length_cons, List.length_nil]; omega
      rwa [hlen] at h3

/-- `OUT` where a transfer has stopped: chip-select low, but high where the last frame was the one that failed (R169). -/
def stoppedOut (total m : Nat) (s : State) : PinMask :=
  if m = total then s.out ||| pinMask s.par.csPin.val else s.out &&& ~~~pinMask s.par.csPin.val

theorem Standing.broken {lines : List WireLine} {m k : Nat} {tk tk' : Bool} (hu : Standing lines s u) (b : Broken m tk rest u t)
    (hk : lines.length + m = k) (htk : tk = tk') : Broken k tk' rest (s.csOut false) t :=
  hk ▸ htk ▸ b.after hu.framed.toKept hu.framed.out hu.framed.log hu.answered

theorem Standing.broken_last {lines : List WireLine} (hu : Standing lines s u) (b : Broken 0 false rest (u.csOut true) t) :
    Broken lines.length false rest { s with out := s.out ||| pinMask s.par.csPin.val } t := by
  have k := hu.kept
  exact b.after (s := { s with out := s.out ||| pinMask s.par.csPin.val })
    ⟨k.par, k.isOpen, k.handle, k.dir, k.lsbFirst, k.irqCfg, k.cbSet, k.irqEn, k.lastLevel, k.lastCause, k.pseq, k.inbox, k.res,
      k.enums, k.clocks, k.opFault⟩ hu.csOut_out hu.framed.log hu.answered

theorem transferSteps_broken (w : List Byte) (n : Nat) (h : Cut pre bad rest s) (hpre : pre.length ≤ 1 + 2 * (w.length + n))
    (hb : s.buf = some { w := w, n := n, r := [] }) : ∃ t, transferSteps w n s = (false, t) ∧
      Broken pre.length (decide (pre.length % 2 = 0 ∧ 0 < pre.length)) rest
        { s with out := stoppedOut (1 + 2 * (w.length + n)) pre.length s } t := by
  have hlow : pre.length ≠ 1 + 2 * (w.length + n) →
      { s with out := stoppedOut (1 + 2 * (w.length + n)) pre.length s } = s.csOut false := fun hne => by
    rw [stoppedOut, if_neg hne]; rfl
  by_cases h0 : pre.length = 0
  · -- T1
    rw [hlow (by omega)]
    obtain rfl := List.length_eq_zero_iff.mp h0
    obtain ⟨t, e, b⟩ := chipSelect_broken h false
    exact ⟨t, by simp only [transferSteps, andThen, e, Bool.false_eq_true, if_false], b⟩
  by_cases h1 : pre.length < 1 + 2 * w.length
  · -- T2
    rw [hlow (by omega)]
    obtain ⟨u, hu, -, e⟩ := transferSteps_selected w n (h.answers (n := 1) (by omega))
    obtain ⟨h2, b2⟩ := writePhase_broken w 0 (h.drop hu.kept (m := 1) (by omega) hu.framed.ticks) (by rw [List.length_drop]; omega)
    refine ⟨(writePhase w 0 u).2, ?_, hu.broken b2 ?_ (decide_eq_decide.mpr ?_)⟩
    · rw [e]; exact (if_neg (by rw [h2]; decide)).trans (Prod.ext h2 rfl)
    all_goals simp only [List.length_drop, List.length_cons, List.length_nil]; omega
  by_cases h2 : pre.length < 1 + 2 * w.length + 2 * n
  · -- T3
    rw [hlow (by omega)]
    obtain ⟨es, u, hes, hu, -, e⟩ := transferSteps_written w n (h.answers (n := 1 + 2 * w.length) (by omega))
    have hlen : ([s.csLine false] ++ writeLines s.par s.lsbFirst w es).length = 1 + 2 * w.length := by
      rw [List.length_append, length_writeLines _ _ hes]; rfl
    obtain ⟨h3, b3⟩ := readPhase_broken n 0 (h.drop hu.kept (m := 1 + 2 * w.length) (by omega) (by rw [hu.framed.ticks, hlen]))
      (by rw [List.length_drop]; omega)
    refine ⟨(readPhase n 0 u).2, ?_, hu.broken b3 ?_ (decide_eq_decide.mpr ?_)⟩
    · rw [e]; exact (if_neg (by rw [h3]; decide)).trans (Prod.ext h3 rfl)
    · rw [hlen, List.length_drop]; omega
    · rw [List.length_drop]; omega
  · -- T4
    have hall : pre.length = 1 + 2 * w.length + 2 * n := by omega
    obtain ⟨es, rs, u, hes, hrs, hu, -, e⟩ := transferSteps_read w n (h.answers (n := 1 + 2 * w.length + 2 * n) (by omega)) hb
    have hlen : ([s.csLine false] ++ writeLines s.par s.lsbFirst w es ++ readLines s.par rs).length = pre.length := by
      rw [List.length_append, List.length_append, length_writeLines _ _ hes, length_readLines, hrs, hall]; rfl
    have hcut := h.drop hu.kept le_rfl (by rw [hu.framed.ticks, hlen])
    rw [List.drop_length] at hcut
    obtain ⟨t, e4, b4⟩ := chipSelect_broken hcut true
    have hout : stoppedOut (1 + 2 * (w.length + n)) pre.length s = s.out ||| pinMask s.par.csPin.val := if_pos (by omega)
    have hodd : decide (pre.length % 2 = 0 ∧ 0 < pre.length) = false := decide_eq_false (by omega)
    rw [hout, hodd, ← hlen]
    exact ⟨t, e.trans e4, hu.broken_last b4⟩

/-- What a transfer that has stopped leaves to the operation that made it. -/
structure Stopped (total m : Nat) (rest : List Tick) (s t : State) : Prop where
  log : ∃ lines last, t.wireLog = s.wireLog ++ lines ++ [last] ∧ lines.length = m ∧
    (∀ l ∈ lines, (∃ f, l = WireLine.out f) ∨ ∃ b, l = .back b) ∧
    if m % 2 = 0 ∧ 0 < m then last = .backFailed else ∃ f, last = .outFailed f
  cause : t.lastCause = .bulkTransferError
  busFault : t.busFault = true
  ticks : t.env.ticks = rest
  out : t.out = stoppedOut total m s
  session : SameSession s { t with out := s.out, lastCause := s.lastCause, busFault := s.busFault }

theorem transferBytes_stopped (w : List Byte) (n : Nat) (ho : s.isOpen = true) (h : Cut pre bad rest s)
    (hpre : pre.length ≤ 1 + 2 * (w.length + n)) : ∃ t, transferBytes w n s = ([], t) ∧
      Stopped (1 + 2 * (w.length + n)) pre.length rest s t := by
  obtain ⟨t, e, b⟩ := transferSteps_broken w n (s := s.startBuffers w n) (h.congr rfl rfl rfl) hpre rfl
  refine ⟨(t.fail .bulkTransferError).dropBuffers, (transferBytes_open ho w n).trans (by rw [e]; exact if_neg Bool.false_ne_true), ?_, rfl, b.busFault, b.ticks, b.out, ?_⟩
  · obtain ⟨lines, last, h1, h2, h3, h4⟩ := b.log
    exact ⟨lines, last, h1, h2, h3, by simpa only [decide_eq_true_eq] using h4⟩
  · have k := b.kept
    exact ⟨k.par, k.isOpen, k.handle, k.dir, rfl, k.lsbFirst, k.irqCfg, k.cbSet, k.irqEn, k.lastLevel, rfl, rfl, k.pseq, k.inbox⟩

end

/-- Settles O27. -/
theorem transferStopsAtFailure : Obligations.TransferStopsAtFailure := by
  intro s w n pre bad rest ho hser ht hpre hok hbad
  have hcut : Cut pre bad rest (s.enter 0x02#8) := ⟨hser, ht, hok, hbad⟩
  obtain ⟨t, e, h⟩ := transferBytes_stopped w n (s := s.enter 0x02#8) ho hcut hpre
  obtain ⟨lines, last, h1, h2, h3, h4⟩ := h.log
  exact ⟨t.leave (.bytes []), lines, last,
    exec_of_body (exec_transfer w n s) (congrArg (fun x : List Byte × State => (Result.bytes x.1, x.2)) e), rfl, h.cause, h.busFault,
    h.ticks, h1, h2, h3, h4, h.out, h.session.congr rfl rfl, rfl, rfl⟩

/-- Settles O41: the transfer of a closed session answers empty, and so does one that fails. -/
theorem failedReadIsFree : Obligations.FailedReadIsFree := by
  refine ⟨fun s addr hc => ?_, fun s addr pre bad rest ho hser ht hpre hok hbad => ?_⟩
  · have hbody : readAt addr (s.enter 0x10#8) = ((s.enter 0x10#8).fail .sessionClosed).drawLostByte := by
      rw [readAt, transferBytes_closed _ _ (s.enter 0x10#8) hc]
    exact ⟨_, exec_of_body rfl (congrArg (fun x : Byte × State => (Result.byte x.1, x.2)) hbody), rfl, rfl, by constructor <;> rfl⟩
  · obtain ⟨t, e, h⟩ := transferBytes_stopped [readAddrByte addr] 1 (s := s.enter 0x10#8) ho ⟨hser, ht, hok, hbad⟩
      (by simp only [List.length_cons, List.length_nil]; omega)
    have hbody : readAt addr (s.enter 0x10#8) = t.drawLostByte := by rw [readAt, e]
    exact ⟨_, t.env.drawn, exec_of_body rfl (congrArg (fun x : Byte × State => (Result.byte x.1, x.2)) hbody), rfl, h.cause, h.busFault,
      h.ticks⟩

end Sys2Proof.Machine
end

section
/-! SUPPORT. `BUS_FAULT` and the failed transactions of the trace (10_state.md R35): every act of either agent keeps the two in step. -/

namespace Sys2Proof.Machine

/-- What was shown before is shown after. -/
def Shown (s t : State) : Prop := s.FaultsShown → t.FaultsShown

theorem Shown.refl (s : State) : Shown s s := id

theorem Shown.trans {s t u : State} (h : Shown s t) (k : Shown t u) : Shown s u := k ∘ h

/-- An act that touches neither the flag nor the trace. -/
theorem Shown.same {s t : State} (hb : t.busFault = s.busFault) (ht : t.trace = s.trace) : Shown s t := fun h => by
  rw [State.FaultsShown, hb, ht]; exact h

/-- An event that is no failed transaction. -/
theorem Shown.emit {e : Event} (he : e.failed = false) (s : State) : Shown s (s.emit e) := fun h => by
  rw [State.FaultsShown, State.emit_trace, List.any_cons, he, Bool.false_or]; exact h

/-- A failed transaction sets the flag. -/
theorem Shown.failed {e : Event} (he : e.failed = true) (s : State) : Shown s (s.emit e).busFailed := fun _ => by
  rw [State.FaultsShown, State.busFailed_trace, State.emit_trace, List.any_cons, he, Bool.true_or]; rfl

/-! ### One transaction of either agent -/

theorem Shown.drawTick (s : State) : Shown s s.drawTick.2 := .same (by simp) (by simp)

theorem Shown.arrive (t : Tick) (s : State) : Shown s (s.arrive t) := .same (by simp) (by simp)

theorem Shown.adapterRun (t : Tick) (c : WireCmd) (s : State) : Shown s (adapterRun t c s) := .same (by simp) (by simp)

theorem Shown.sendAt (who : Who) (c : WireCmd) (t : Tick) (s : State) : Shown s (sendAt who c t s).2 := by
  simp only [Machine.sendAt]
  split
  · exact ((Shown.arrive t s).trans (.adapterRun _ _ _)).trans (.emit rfl _)
  · exact (Shown.arrive t s).trans (.failed rfl _)
  · exact ((Shown.arrive t s).trans (.adapterRun _ _ _)).trans (.failed rfl _)

theorem Shown.takeAt (who : Who) (t : Tick) (s : State) : Shown s (takeAt who t s).2 := by
  have hq : ∀ q, Shown s { s.arrive t with inQ := q } := fun q => (Shown.arrive t s).trans (.same rfl rfl)
  simp only [Machine.takeAt]
  split
  · exact (hq _).trans (.emit rfl _)
  · exact (hq _).trans (.failed rfl _)
  all_goals exact (Shown.arrive t s).trans (.failed rfl _)

/-! ### POLLER -/

theorem Shown.fail (c : Cause) (s : State) : Shown s (s.fail c) := .same rfl rfl

theorem Shown.sleepFor (q : Rat) (s : State) : Shown s (s.sleepFor q) := .emit rfl s

theorem Shown.recordFailure (ok : Bool) {s t : State} (h : Shown s t) : Shown s (recordFailure ok t) := by
  unfold Machine.recordFailure; split; exacts [h, h.trans (.fail _ t)]

theorem Shown.freeIf (lost : Bool) (b : Byte) (s : State) : Shown s (freeIf lost b s).2 := by
  unfold Machine.freeIf; split; exacts [.same rfl rfl, .refl s]

theorem Shown.orFree (b : Byte) (s : State) : Shown s (orFree b s).2 := .freeIf _ b s

theorem Shown.unconfigure (s : State) : Shown s (unconfigure s).2 := by
  unfold Machine.unconfigure; split <;> exact .same rfl rfl

theorem Shown.registerCallback (s : State) : Shown s (registerCallback s).2 := by
  unfold Machine.registerCallback; split <;> exact .same rfl rfl

theorem Shown.startLoop (s : State) : Shown s (startLoop s).2 := by
  unfold Machine.startLoop
  split
  · exact .fail _ s
  · split
    · exact .fail _ s
    · split
      · exact .fail _ s
      · split
        · exact .refl s
        · exact .same rfl rfl

theorem Shown.requestAct (i : Instr) (s : State) : Shown s (requestAct i s) := by
  cases i with
  | configureInterrupt pin enable => cases enable; exacts [.unconfigure s, .refl s]
  | setInterruptCallback fn => exact .registerCallback s
  | enableInterrupt en => cases en; exacts [.refl s, .startLoop s]
  | _ => exact .refl s

theorem Shown.beginRequest (r : CbRequest) (c : Callback) (s : State) : Shown s (beginRequest r c s).2 := by
  have h : Shown s { s with cbFault := false } := .same rfl rfl
  simp only [Machine.beginRequest]; split
  · exact h.trans (.fail _ _)
  · exact h.trans (.requestAct _ _)

theorem Shown.callbackByte (c : Callback) (s : State) : Shown s (callbackByte c s).2 := by
  unfold Machine.callbackByte; split; exacts [.freeIf _ _ s, .same rfl rfl]

theorem Shown.beginTask (t : CbTask) (c : Callback) (s : State) : Shown s (beginTask t c s).2 := by
  cases t with
  | access w n => simp only [Machine.beginTask]; split; exacts [.refl s, .fail _ s]
  | insert a hi lo v => exact (Shown.callbackByte c s).trans (.freeIf _ _ _)
  | putBack a v => exact .freeIf _ _ s
  | sleep q => exact .sleepFor _ s
  | temperature o => simp only [Machine.beginTask]; split; exacts [.fail _ s, .callbackByte c s]
  | checked => simp only [Machine.beginTask]; split; exacts [.fail _ s, .refl s]
  | failWith e => exact .fail _ s
  | _ => exact .callbackByte c s

theorem Shown.callbackAfter (ok : Bool) (c : Callback) (s : State) : Shown s (callbackAfter ok c s) :=
  .recordFailure ok (.same rfl rfl)

theorem Shown.callbackSend (cmd : WireCmd) (c : Callback) (s : State) : Shown s (callbackSend cmd c s) :=
  ((Shown.drawTick s).trans (.sendAt _ _ _ _)).trans (.callbackAfter _ _ _)

theorem Shown.store (u : MaskUpdate) (m : PinMask) (s : State) : Shown s (u.store m s) := .same (by simp) (by simp)

theorem Shown.callbackAct (a : CbStep) (c : Callback) (s : State) : Shown s (callbackAct a c s) := by
  cases a with
  | loadMask u => exact .same rfl rfl
  | storeMask u => exact (Shown.store u c.held s).trans (.same rfl rfl)
  | buildFrame => exact .same rfl rfl
  | sendFrame | clock d | askPins => exact .callbackSend _ c s
  | take keep => exact ((Shown.drawTick s).trans (.takeAt _ _ _)).trans (.callbackAfter _ _ _)
  | configured => exact .same rfl rfl

theorem Shown.callbackMicro (c : Callback) (s : State) : Shown s (callbackMicro c s) := by
  unfold Machine.callbackMicro; split
  · exact .callbackAct _ _ s
  · exact (Shown.beginTask _ _ s).trans (.same rfl rfl)
  · exact (Shown.beginRequest _ _ s).trans (.same rfl rfl)
  · exact .same rfl rfl

theorem Shown.pollMicro (s : State) : Shown s (pollMicro s) := by
  unfold Machine.pollMicro
  split
  · split
    · have h := (Shown.drawTick s).trans (.sendAt (.poller s.pseq) .askPins s.drawTick.1 _)
      exact .recordFailure _ (h.trans (.same rfl rfl))
    · exact .refl s
  · have h := (Shown.drawTick s).trans (.takeAt (.poller s.pseq) s.drawTick.1 _)
    simp only [pollTake]
    split <;> exact h.trans (.same rfl rfl)
  · simp only [pollTest]
    split
    · exact ((Shown.drawTick s).trans (.emit (e := .callback) rfl _)).trans (.same rfl rfl)
    · exact .same rfl rfl
  · exact .callbackMicro _ s
  · exact .emit (e := .sleep s.par.pollIrqInterval) rfl s

theorem Shown.pollSteps (n : Nat) (s : State) : Shown s (pollSteps n s) := by
  induction n generalizing s with
  | zero => exact .refl s
  | succ n ih => exact (Shown.pollMicro s).trans (ih _)

theorem Shown.polledTo {s t : State} (h : PolledTo s t) : Shown s t := by
  obtain ⟨n, rfl⟩ := h
  exact .pollSteps n s

/-! ### FG's transactions and register accesses -/

theorem Shown.bulkOut (c : WireCmd) (s : State) : Shown s (bulkOut c s).2 :=
  (((Shown.drawTick s).trans (.pollSteps _ _)).trans (.sendAt _ _ _ _)).trans (.pollSteps _ _)

theorem Shown.bulkIn (s : State) : Shown s (bulkIn s).2 :=
  (((Shown.drawTick s).trans (.pollSteps _ _)).trans (.takeAt _ _ _)).trans (.pollSteps _ _)

theorem Shown.updatePins (u : MaskUpdate) (s : State) : Shown s (updatePins u s).2 :=
  (((((((Shown.drawTick s).trans (.pollSteps _ _)).trans (.pollSteps _ _)).trans (.store _ _ _)).trans (.pollSteps _ _)).trans
    (.pollSteps _ _)).trans (.sendAt _ _ _ _)).trans (.pollSteps _ _)

theorem Shown.sendPins (s : State) : Shown s (sendPins s).2 := .bulkOut _ s

theorem Shown.andThen {s : State} {r : Bool × State} {k : State → Bool × State} (h : Shown s r.2) (hk : ∀ u, Shown u (k u).2) :
    Shown s (andThen r k).2 := by
  unfold Machine.andThen; split; exacts [h.trans (hk _), h]

theorem Shown.atBus (l : Label) (s : State) : Shown s (s.atBus l) := .same rfl rfl

theorem Shown.roundTrip (num i : Nat) (d : Byte) (s : State) : Shown s (roundTrip num i d s).2 := by
  have h := (Shown.atBus (.round 'T' num i .sending) s).trans (.bulkOut (.clock d) _)
  simp only [Machine.roundTrip]
  split
  · exact (h.trans (.atBus _ _)).trans (.bulkIn _)
  · exact h

theorem Shown.writePhase (w : List Byte) (i : Nat) (s : State) : Shown s (writePhase w i s).2 := by
  induction w generalizing i s with
  | nil => exact .refl s
  | cons b w ih =>
    have h := Shown.roundTrip 2 i (inBitOrder s.lsbFirst b) s
    simp only [Machine.writePhase]
    split
    · exact h.trans (ih _ _)
    · exact h

theorem Shown.readPhase (n j : Nat) (s : State) : Shown s (readPhase n j s).2 := by
  induction n generalizing j s with
  | zero => exact .refl s
  | succ n ih =>
    have h := Shown.roundTrip 3 j Config.dummy s
    simp only [Machine.readPhase]
    split
    · rename_i e _
      have hkeep : ∀ u : State, Shown u (u.keepEcho (inBitOrder u.lsbFirst e)) := fun _ => .same rfl rfl
      exact (h.trans (hkeep _)).trans (ih _ _)
    · exact h

theorem Shown.chipSelect (high : Bool) (s : State) : Shown s (chipSelect high s).2 := (Shown.atBus _ s).trans (.updatePins _ _)

theorem Shown.transferSteps (w : List Byte) (n : Nat) (s : State) : Shown s (transferSteps w n s).2 :=
  .andThen (.chipSelect _ s) fun _ => .andThen (.writePhase _ _ _) fun _ => .andThen (.readPhase _ _ _) fun _ => .chipSelect _ _

theorem Shown.transferBytes (w : List Byte) (n : Nat) (s : State) : Shown s (transferBytes w n s).2 := by
  have hstart : Shown s (s.startBuffers w n) := .same rfl rfl
  have h := hstart.trans (.transferSteps w n _)
  simp only [Machine.transferBytes]
  split
  · split <;> exact h.trans (.same rfl rfl)
  · exact .fail _ s

theorem Shown.readAt (addr : Byte) (s : State) : Shown s (readAt addr s).2 := by
  have h := Shown.transferBytes [readAddrByte addr] 1 s
  simp only [Machine.readAt]
  split
  · exact h.trans (.orFree _ _)
  · exact h.trans (.same rfl rfl)

theorem Shown.atStep (l : Label) (s : State) : Shown s (s.atStep l) := .same rfl rfl

theorem Shown.readReg (l : Label) (a : RegAddr) (s : State) : Shown s (readReg l a s).2 := (Shown.atStep l s).trans (.readAt _ _)

theorem Shown.writeReg (l : Label) (a : RegAddr) (v : Byte) (s : State) : Shown s (writeReg l a v s) :=
  (Shown.atStep l s).trans (.transferBytes _ _ _)

theorem Shown.writeBack (l : Label) (a : RegAddr) (v : Byte) (s : State) : Shown s (writeBack l a v s) :=
  (Shown.orFree v s).trans (.writeReg _ _ _ _)

theorem Shown.readChecked (l : Label) (a : RegAddr) (s : State) : Shown s (readChecked l a s).2 := by
  have h := (Shown.atStep l s).trans (.transferBytes [readAddrByte (a.setWidth 8)] 1 _)
  simp only [Machine.readChecked]
  split
  · exact h.trans (.orFree _ _)
  · exact h

theorem Shown.writeAll (l : Label) (ws : List (RegAddr × Byte)) (s : State) : Shown s (writeAll l ws s) := by
  induction ws generalizing s with
  | nil => exact .refl s
  | cons av ws ih => exact (Shown.writeReg l av.1 av.2 s).trans (ih _)

theorem Shown.rmw (a : RegAddr) (hi lo : Nat) (v : Byte) (s : State) : Shown s (rmw a hi lo v s) :=
  (Shown.readReg _ a s).trans (.writeBack _ _ _ _)

theorem Shown.fillFifo (l : Label) (data : List Byte) (s : State) : Shown s (fillFifo l data s) := by
  induction data generalizing s with
  | nil => exact .refl s
  | cons b data ih => exact (Shown.writeReg l _ b s).trans (ih _)

theorem Shown.stageFifo (l : Label) (data : List Byte) (s : State) : Shown s (stageFifo l data s) :=
  ((Shown.writeReg l _ _ s).trans (.writeReg _ _ _ _)).trans (.fillFifo _ _ _)

theorem Shown.drainFifo (l : Label) (n : Nat) (s : State) : Shown s (drainFifo l n s).2 := by
  induction n generalizing s with
  | zero => exact .refl s
  | succ n ih => exact (Shown.readReg l _ s).trans (ih _)

theorem Shown.restoreIQ (l : Label) (inv : Bool) (s : State) : Shown s (restoreIQ l inv s) := by
  unfold Machine.restoreIQ; split; exacts [.writeAll _ _ s, .refl s]

theorem Shown.clearFlags (l : Label) (s : State) : Shown s (clearFlags l s) := .writeReg _ _ _ _

theorem Shown.setFrequencyOp (f : Rat) (s : State) : Shown s (setFrequencyOp f s).2 := by
  simp only [Machine.setFrequencyOp]
  split
  · exact ((Shown.writeReg _ _ _ s).trans (.writeReg _ _ _ _)).trans (.writeReg _ _ _ _)
  · exact .fail _ s

/-! ### The packet sequencers -/

theorem Shown.drawClock (s : State) : Shown s s.drawClock.2 := .same (by simp) (by simp)

theorem Shown.sendPoll (clk : List Rat) (now : Rat) (s : State) : Shown s (sendPoll clk now s).2 := by
  induction clk generalizing now s with
  | nil => exact .readReg _ _ s
  | cons e clk ih =>
    have h := Shown.readReg (.main 'L' 1) s.par.regIrqFlags s
    simp only [Machine.sendPoll]; split
    · exact h
    · split
      · exact h
      · exact (h.trans (.sleepFor _ _)).trans (ih _ _)

theorem Shown.receiveLook (s : State) : Shown s (receiveLook s).2 := by
  have h := Shown.readReg (.main 'L' 1) s.par.regIrqFlags s
  simp only [Machine.receiveLook]; split
  · split
    · exact h.trans (.clearFlags _ _)
    · exact h
  · exact h

theorem Shown.receivePoll (bound : Rat) (clk : List Rat) (now : Rat) (s : State) : Shown s (receivePoll bound clk now s).2 := by
  induction clk generalizing now s with
  | nil => exact .receiveLook s
  | cons e clk ih =>
    have h := Shown.receiveLook s
    simp only [Machine.receivePoll]; split
    · exact h
    · split
      · exact h
      · refine Shown.trans ?_ (ih _ _)
        split; exacts [h, h.trans (.sleepFor _ _)]

theorem Shown.sendOp (data : List Byte) (inv : Bool) (s : State) : Shown s (sendOp data inv s).2 := by
  simp only [Machine.sendOp]
  split
  · exact .fail _ s
  · split
    · exact .fail _ s
    · have hsetup : Shown s (sendSetup data inv s) := ((((Shown.writeAll _ _ s).trans (.writeReg _ _ _ _)).trans
        (.writeReg _ _ _ _)).trans (.stageFifo _ _ _)).trans (.writeReg _ _ _ _)
      have h := (hsetup.trans (.drawClock _)).trans (.sendPoll (sendSetup data inv s).drawClock.1 0 _)
      split
      · exact ((h.trans (.clearFlags _ _)).trans (.writeReg _ _ _ _)).trans (.restoreIQ _ _ _)
      · exact (h.trans (.restoreIQ _ _ _)).trans (.fail _ _)

theorem Shown.deliverPayload (l : List Byte) (s : State) : Shown s (deliverPayload l s).2 := by
  unfold Machine.deliverPayload; split; exacts [.same rfl rfl, .refl s]

theorem Shown.receivePayload (inv : Bool) (s : State) : Shown s (receivePayload inv s).2 :=
  ((((((Shown.readReg _ _ s).trans (.readReg _ _ _)).trans (.writeReg _ _ _ _)).trans (.drainFifo _ _ _)).trans
    (.clearFlags _ _)).trans (.restoreIQ _ _ _)).trans (.deliverPayload _ _)

theorem Shown.receiveOp (bound : Rat) (inv : Bool) (s : State) : Shown s (receiveOp bound inv s).2 := by
  simp only [Machine.receiveOp]
  split
  · exact .fail _ s
  · have hsetup : Shown s (receiveSetup inv s) := (((Shown.writeAll _ _ s).trans (.writeReg _ _ _ _)).trans
      (.writeReg _ _ _ _)).trans (.clearFlags _ _)
    have h := (hsetup.trans (.drawClock _)).trans (.receivePoll bound (receiveSetup inv s).drawClock.1 0 _)
    split
    · exact h.trans (.receivePayload _ _)
    · exact ((h.trans (.clearFlags _ _)).trans (.restoreIQ _ _ _)).trans (.fail _ _)

theorem Shown.startBeaconOp (ms : Nat) (s : State) : Shown s (startBeaconOp ms s).2 := by
  simp only [Machine.startBeaconOp]; split
  · exact .fail _ s
  · exact (((Shown.stageFifo _ _ s).trans (.writeReg _ _ _ _)).trans (.writeReg _ _ _ _)).trans (.writeReg _ _ _ _)

theorem Shown.enterTempMode (s : State) : Shown s (enterTempMode s) := (Shown.writeReg _ _ _ s).trans (.sleepFor _ _)

theorem Shown.leaveTempMode (prev : Byte) (s : State) : Shown s (leaveTempMode prev s) :=
  (Shown.writeBack _ _ _ s).trans (.sleepFor _ _)

theorem Shown.readTemperatureOp (s : State) : Shown s (readTemperatureOp s).2 := by
  simp only [Machine.readTemperatureOp]
  split
  · exact .fail _ s
  · have h1 := Shown.readChecked (.main 'K' 1) s.par.regOpMode s
    split
    · exact h1.trans (.fail _ _)
    · have h2 := fun a => (h1.trans (.enterTempMode _)).trans (.readChecked (.main 'K' 3) a _)
      split
      · exact (h2 _).trans (.fail _ _)
      · have h3 := fun a b => (h2 a).trans (.readChecked (.main 'K' 3) b _)
        split
        · exact (h3 _ _).trans (.fail _ _)
        · exact ((((h3 _ _).trans (.sleepFor _ _)).trans (.leaveTempMode _ _)).trans (.orFree _ _)).trans (.orFree _ _)

theorem Shown.calibrateTemperatureOp (offset : Byte) (s : State) : Shown s (calibrateTemperatureOp offset s).2 := by
  simp only [Machine.calibrateTemperatureOp]
  split
  · exact .fail _ s
  · have h1 := Shown.readChecked (.main 'K' 1) s.par.regOpMode s
    split
    · exact h1.trans (.fail _ _)
    · exact (((h1.trans (.enterTempMode _)).trans (.writeReg _ _ _ _)).trans (.sleepFor _ _)).trans (.leaveTempMode _ _)

/-! ### The pins, the loop and the session -/

theorem Shown.sendShadow (l : Label) (u : MaskUpdate) (s : State) : Shown s (sendShadow l u s).2 := by
  have h := (Shown.atBus l s).trans (.updatePins u _)
  simp only [Machine.sendShadow]
  split; exacts [h, h.trans (.fail _ _)]

theorem Shown.digitalWriteOp (pin : Nat) (v : Bool) (s : State) : Shown s (digitalWriteOp pin v s).2 := by
  simp only [Machine.digitalWriteOp]; split; exacts [.fail _ s, .sendShadow _ _ s]

theorem Shown.pinModeOp (pin mode : Nat) (s : State) : Shown s (pinModeOp pin mode s).2 := by
  simp only [Machine.pinModeOp]; split; exacts [.fail _ s, .sendShadow _ _ s]

theorem Shown.digitalReadOp (pin : Nat) (s : State) : Shown s (digitalReadOp pin s).2 := by
  simp only [Machine.digitalReadOp]; split
  · exact .fail _ s
  · have h1 := (Shown.atBus (.main 'G' 2) s).trans (.bulkOut .askPins _)
    split
    · have h2 := (h1.trans (.atBus (.main 'G' 3) _)).trans (.bulkIn _)
      split; exacts [h2, h2.trans (.fail _ _)]
    · exact h1.trans (.fail _ _)

theorem Shown.configureInterruptOp (pin : Nat) (en : Bool) (s : State) : Shown s (configureInterruptOp pin en s).2 := by
  simp only [Machine.configureInterruptOp]
  split
  · exact .fail _ s
  · split
    · have h := (Shown.atStep (.main 'I' 2) s).trans (.sendShadow (.main 'M' 4) (.dir s.par.irqPin.val false) _)
      split; exacts [h.trans (.same rfl rfl), h]
    · exact .unconfigure s

theorem Shown.stopPoller (s : State) : Shown s (stopPoller s) := by
  have h : Shown s { s with irqEn := false } := .same rfl rfl
  unfold Machine.stopPoller; split
  · exact h.trans (.polledTo (.joinPoller _))
  · exact .refl s

theorem Shown.enableInterruptOp (en : Bool) (s : State) : Shown s (enableInterruptOp en s).2 := by
  simp only [Machine.enableInterruptOp]
  split
  · exact .startLoop s
  · split
    · exact (Shown.stopPoller s).trans (.same rfl rfl)
    · exact .refl s

theorem Shown.openBus (s : State) : Shown s (openBus s).2 := by
  have h0 : Shown s (s.openedProvisionally.atBus (.main 'O' 7)) := .same rfl rfl
  have h1 := h0.trans (.bulkOut (.speed s.openedProvisionally.par.speedValue) _)
  simp only [Machine.openBus]
  split
  · have hmasks : ∀ u : State, Shown u (u.openMasks.atBus (.main 'O' 9)) := fun _ => .same rfl rfl
    have h2 := (h1.trans (hmasks _)).trans (.sendPins _)
    split
    · exact h2.trans (.same rfl rfl)
    · exact h2.trans (.same rfl rfl)
  · exact h1.trans (.same rfl rfl)

theorem Shown.openOp (s : State) : Shown s (openOp s).2 := by
  simp only [Machine.openOp]
  split
  · exact .refl s
  · have hdraw : Shown s s.drawEnumeration.2 := .same (by simp) (by simp)
    have h := hdraw.trans (.emit (e := .enumerated s.par.usbVid s.par.usbPid) rfl _)
    split
    · exact h.trans (.same rfl rfl)
    · exact h.trans (.openBus _)

theorem Shown.closeOp (s : State) : Shown s (closeOp s).2 := by
  have hmasks : ∀ u : State, Shown u (u.closeMasks.atBus (.main 'C' 4)) := fun _ => .same rfl rfl
  simp only [Machine.closeOp]
  split
  · exact (((Shown.stopPoller s).trans (hmasks _)).trans (.sendPins _)).trans (.same rfl rfl)
  · exact .refl s

/-! ### Every instruction -/

theorem Shown.runOp {op : Byte} {body : State → Result × State} {s : State} (h : Shown (s.enter op) (body (s.enter op)).2) :
    Shown s (runOp op body s) := h

theorem Shown.exec {i : Instr} {s t : State} (h : exec i s = .next t) : Shown s t := by
  have hrun : ∀ {op : Byte} {body : State → Result × State}, Machine.exec i s = .next (Machine.runOp op body s) →
      (∀ u, Shown u (body u).2) → Shown s t := fun he hbody => by
    cases h.symm.trans he; exact .runOp (hbody _)
  cases hlevel : i.level with
  | wire | serial =>
    obtain ⟨u, hu, hsame, -, -, htrace, -⟩ := exec_farEnd i s (by simp [hlevel])
    cases h.symm.trans hu
    exact .same hsame.busFault htrace
  | agent =>
    cases i with
    | pollStep => cases h; exact .polledTo (.pollStepRun s)
    | _ => exact Level.noConfusion hlevel
  | operation =>
    cases i with
    | pinSet | pinGet | clkByte | speedCfg | regRead | regWrite | pollStep => exact Level.noConfusion hlevel
    | openSession => exact hrun rfl fun u => .openOp u
    | closeSession => exact hrun rfl fun u => .closeOp u
    | transfer w n => exact hrun rfl fun u => .transferBytes w n u
    | digitalWrite pin v => exact hrun rfl fun u => .digitalWriteOp pin v u
    | digitalRead pin => exact hrun rfl fun u => .digitalReadOp pin u
    | pinMode pin m => exact hrun rfl fun u => .pinModeOp pin m u
    | configureInterrupt pin en => exact hrun rfl fun u => .configureInterruptOp pin en u
    | setInterruptCallback fn => exact hrun rfl fun u => .registerCallback u
    | enableInterrupt en => exact hrun rfl fun u => .enableInterruptOp en u
    | isActive => exact hrun rfl fun u => .refl u
    | readRegister a => exact hrun rfl fun u => .readAt a u
    | writeRegister a v => exact hrun rfl fun u => .transferBytes _ _ u
    | setMode | clearIrqFlags | setTxPower | setSyncWord | stopBeacon => exact hrun rfl fun u => .writeReg _ _ _ u
    | getMode | getIrqFlags | getBandwidth | getSpreadingFactor | getCodingRate | getTxPower | getRssi | getSnr | getSyncWord =>
      exact hrun rfl fun u => .readReg _ _ u
    | setFrequency f => exact hrun rfl fun u => .setFrequencyOp f u
    | getFrequency => exact hrun rfl fun u => ((((Shown.readReg _ _ u).trans (.readReg _ _ _)).trans (.readReg _ _ _)).trans
        (.orFree _ _)).trans (.orFree _ _)
    | setBandwidth | setCodingRate => exact hrun rfl fun u => .rmw _ _ _ _ u
    | setSpreadingFactor sf => exact hrun rfl fun u => ((Shown.rmw _ _ _ _ u).trans (.writeReg _ _ _ _)).trans (.writeReg _ _ _ _)
    | setPreambleLength v => exact hrun rfl fun u => (Shown.writeReg _ _ _ u).trans (.writeReg _ _ _ _)
    | getPreambleLength => exact hrun rfl fun u => ((Shown.readReg _ _ u).trans (.readReg _ _ _)).trans (.orFree _ _)
    | setInvertIQ inv => exact hrun rfl fun u => .writeAll _ _ u
    | send data inv => exact hrun rfl fun u => .sendOp data inv u
    | receive b inv => exact hrun rfl fun u => .receiveOp b inv u
    | startBeacon ms => exact hrun rfl fun u => .startBeaconOp ms u
    | readTemperature => exact hrun rfl fun u => .readTemperatureOp u
    | calibrateTemperature o => exact hrun rfl fun u => .calibrateTemperatureOp o u

/-- Settles O11. -/
theorem faultsRecorded : Obligations.FaultsRecorded := fun _ _ _ hs h => Shown.exec h hs

end Sys2Proof.Machine
end

section
/-! SUPPORT. Operations on a closed session (60_exceptions.md R333): nothing is sent, and what is refused records `SessionClosed`. -/

namespace Sys2Proof.Machine

/-! ### The last access of an operation records the cause -/

section
variable {s : State} (h : s.isOpen = false)
include h

theorem pinChecks_closed (pin : Nat) : pinChecks pin s = some .sessionClosed := by
  simp only [pinChecks, h, Bool.not_false, if_true]

theorem configureChecks_closed (pin : Nat) : configureChecks pin s = some .sessionClosed := by
  simp only [configureChecks, h, Bool.not_false, if_true]

theorem startLoop_closed : startLoop s = (false, s.fail .sessionClosed) := by
  simp only [startLoop, h, Bool.not_false, if_true]

theorem readAt_closed_cause (a : Byte) : (readAt a s).2.lastCause = .sessionClosed := by
  rw [readAt, transferBytes_closed _ _ s h]; rfl

theorem writeAt_closed_cause (a v : Byte) : (writeAt a v s).lastCause = .sessionClosed := by
  rw [writeAt, transferBytes_closed _ _ s h]; rfl

theorem readReg_closed_cause (l : Label) (a : RegAddr) : (readReg l a s).2.lastCause = .sessionClosed := by
  rw [readReg, readAt, transferBytes_closed _ _ (s.atStep l) h]; rfl

theorem writeReg_closed_cause (l : Label) (a : RegAddr) (v : Byte) : (writeReg l a v s).lastCause = .sessionClosed := by
  rw [writeReg, writeAt, transferBytes_closed _ _ (s.atStep l) h]; rfl

theorem writeBack_closed_cause (l : Label) (a : RegAddr) (v : Byte) : (writeBack l a v s).lastCause = .sessionClosed :=
  writeReg_closed_cause ((Contained.orFree s v).isOpen.trans h) l a _

theorem rmw_closed_cause (a : RegAddr) (hi lo : Nat) (v : Byte) : (rmw a hi lo v s).lastCause = .sessionClosed :=
  writeBack_closed_cause ((Contained.readReg (.access 1) a s).isOpen.trans h) _ _ _

theorem writeAll_closed_cause (l : Label) {ws : List (RegAddr × Byte)} (hne : ws ≠ []) :
    (writeAll l ws s).lastCause = .sessionClosed := by
  induction ws generalizing s with
  | nil => exact absurd rfl hne
  | cons av ws ih =>
    have hopen := (Contained.writeReg l av.1 av.2 s).isOpen.trans h
    cases ws with
    | nil => exact writeReg_closed_cause h l av.1 av.2
    | cons bw ws => exact ih hopen (List.cons_ne_nil _ _)

end

theorem orFree_lastCause (b : Byte) (s : State) : (orFree b s).2.lastCause = s.lastCause := by
  unfold orFree freeIf; split <;> rfl

/-! ### What is refused -/

/-- An operation that its own body refuses on a closed session. -/
theorem closed_of_body {i : Instr} {op : Byte} {body : State → Result × State} {s : State} (hc : s.isOpen = false)
    (he : exec i s = .next (runOp op body s)) (hcont : Contained (s.enter op) (body (s.enter op)).2)
    (hcause : (body (s.enter op)).2.lastCause = .sessionClosed)
    (hres : ∀ r, closedAnswer i = some r → (body (s.enter op)).1 = r) :
    ∃ t, exec i s = .next t ∧ t.lastCause = .sessionClosed ∧ NothingSent s t ∧ ∀ r, closedAnswer i = some r → t.res = some r :=
  ⟨_, he, hcause, (Contained.runOp op body s hcont).closed hc, fun r hr => congrArg some (hres r hr)⟩

/-- The operations that check the session before anything else. -/
theorem closed_of_fail {i : Instr} {op : Byte} {body : State → Result × State} {s : State} {r : Result} (hc : s.isOpen = false)
    (he : exec i s = .next (runOp op body s)) (hbody : body (s.enter op) = (r, (s.enter op).fail .sessionClosed))
    (hres : closedAnswer i = some r) :
    ∃ t, exec i s = .next t ∧ t.lastCause = .sessionClosed ∧ NothingSent s t ∧ ∀ r, closedAnswer i = some r → t.res = some r :=
  closed_of_body hc he (by rw [hbody]; exact .fail _ _) (by rw [hbody]; rfl) fun r' hr' => by
    rw [hbody]; exact Option.some.inj (hres.symm.trans hr')

theorem closed_of_needsOpen {i : Instr} {s : State} (hc : s.isOpen = false) (hneed : needsOpen s.par i = true) :
    ∃ t, exec i s = .next t ∧ t.lastCause = .sessionClosed ∧ NothingSent s t ∧ ∀ r, closedAnswer i = some r → t.res = some r := by
  have hce : ∀ op, (s.enter op).isOpen = false := fun _ => hc
  cases i with
  | pinSet | pinGet | clkByte | speedCfg | regRead | regWrite | openSession | closeSession | setInterruptCallback | isActive | pollStep =>
    cases hneed
  | transfer w n =>
    have hb := transferBytes_closed w n (s.enter 0x02#8) hc
    exact closed_of_fail hc (exec_transfer w n s) (congrArg (fun x : List Byte × State => (Result.bytes x.1, x.2)) hb) rfl
  | digitalWrite pin v => exact closed_of_fail hc rfl (by simp only [digitalWriteOp, pinChecks_closed (hce _)]) rfl
  | digitalRead pin => exact closed_of_fail hc rfl (by simp only [digitalReadOp, pinChecks_closed (hce _)]) rfl
  | pinMode pin m => exact closed_of_fail hc rfl (by simp only [pinModeOp, pinModeChecks, pinChecks_closed (hce _)]) rfl
  | configureInterrupt pin en => exact closed_of_fail hc rfl (by simp only [configureInterruptOp, configureChecks_closed (hce _)]) rfl
  | enableInterrupt en =>
    obtain rfl : en = true := hneed
    exact closed_of_fail hc rfl (by simp only [enableInterruptOp_true, startLoop_closed (hce _)]) rfl
  | send data inv =>
    have hlen : ¬ Config.maxPayload < data.length := Nat.not_lt.mpr (of_decide_eq_true hneed)
    exact closed_of_fail hc (exec_send data inv s) (by simp only [sendOp, hlen, hce, if_false, Bool.not_false, if_true]) rfl
  | receive b inv => exact closed_of_fail hc (exec_receive b inv s) (by simp only [receiveOp, hce, Bool.not_false, if_true]) rfl
  | readTemperature => exact closed_of_fail hc rfl (by simp only [readTemperatureOp, hce, Bool.not_false, if_true]) rfl
  | calibrateTemperature o => exact closed_of_fail hc rfl (by simp only [calibrateTemperatureOp, hce, Bool.not_false, if_true]) rfl
  | readRegister a =>
    exact closed_of_body hc rfl (.readAt _ _) (readAt_closed_cause (hce _) a) fun r hr => (nomatch hr)
  | getMode | getIrqFlags | getBandwidth | getSpreadingFactor | getCodingRate | getTxPower | getRssi | getSnr | getSyncWord =>
    exact closed_of_body hc rfl (.readReg _ _ _) (readReg_closed_cause (hce _) _ _) fun r hr => (nomatch hr)
  | getFrequency =>
    refine closed_of_body hc rfl (.getFrequencyOp _) ?_ fun r hr => (nomatch hr)
    exact (orFree_lastCause _ _).trans ((orFree_lastCause _ _).trans (readReg_closed_cause
      (((Contained.readReg _ _ _).trans (.readReg _ _ _)).isOpen.trans (hce _)) _ _))
  | getPreambleLength =>
    refine closed_of_body hc rfl (.getPreambleLengthOp _) ?_ fun r hr => (nomatch hr)
    exact (orFree_lastCause _ _).trans (readReg_closed_cause ((Contained.readReg _ _ _).isOpen.trans (hce _)) _ _)
  | writeRegister a v =>
    exact closed_of_body hc rfl (.writeAt _ _ _) (writeAt_closed_cause (hce _) a v) fun r hr => Option.some.inj hr
  | setMode | clearIrqFlags | setTxPower | setSyncWord | stopBeacon =>
    exact closed_of_body hc rfl (.writeReg _ _ _ _) (writeReg_closed_cause (hce _) _ _ _) fun r hr => Option.some.inj hr
  | setBandwidth | setCodingRate =>
    exact closed_of_body hc rfl (.rmw _ _ _ _ _) (rmw_closed_cause (hce _) _ _ _ _) fun r hr => Option.some.inj hr
  | setFrequency f =>
    have hfits : frfFits f = true := hneed
    have hbody : ∀ u, (setFrequencyOp f u) = _ := fun u => if_pos hfits
    refine closed_of_body hc rfl (.setFrequencyOp f _) ?_ fun r hr => ?_ <;> rw [hbody]
    · exact writeReg_closed_cause (((Contained.writeReg _ _ _ _).trans (.writeReg _ _ _ _)).isOpen.trans (hce _)) _ _ _
    · exact Option.some.inj hr
  | setSpreadingFactor sf =>
    exact closed_of_body hc rfl (.setSpreadingFactorOp sf _)
      (writeReg_closed_cause (((Contained.rmw _ _ _ _ _).trans (.writeReg _ _ _ _)).isOpen.trans (hce _)) _ _ _)
      fun r hr => Option.some.inj hr
  | setPreambleLength v =>
    exact closed_of_body hc rfl (.setPreambleLengthOp v _)
      (writeReg_closed_cause ((Contained.writeReg _ _ _ _).isOpen.trans (hce _)) _ _ _) fun r hr => Option.some.inj hr
  | setInvertIQ inv =>
    have hne : s.par.iqWrites inv ≠ [] := of_decide_eq_true hneed
    exact closed_of_body hc rfl (.setIQ _ inv _) (writeAll_closed_cause (hce _) _ hne) fun r hr => Option.some.inj hr
  | startBeacon ms =>
    have hfits : ¬ 65535 < beaconSecs ms := Nat.not_lt.mpr (of_decide_eq_true hneed)
    have hbody : ∀ u, (startBeaconOp ms u) = _ := fun u => if_neg hfits
    refine closed_of_body hc (exec_startBeacon ms s) (.startBeaconOp ms _) ?_ fun r hr => ?_ <;> rw [hbody]
    · exact writeReg_closed_cause ((((Contained.stageFifo _ _ _).trans (.writeReg _ _ _ _)).trans (.writeReg _ _ _ _)).isOpen.trans (hce _))
        _ _ _
    · exact Option.some.inj hr

/-- Settles O28. -/
theorem closedSession : Obligations.ClosedSession := by
  refine ⟨fun i s t hc hoff hlevel hne h => ?_, fun i s hc hneed => closed_of_needsOpen hc hneed⟩
  have hsteered : ∀ {u : State}, Steered s u → u.cbSet = s.cbSet →
      NothingSent s { u with cbSet := s.cbSet } ∧ (u.cbSet ≠ s.cbSet → ∃ fn, i = .setInterruptCallback fn) := fun hu hset =>
    ⟨hu.closed hc, fun hdiff => absurd hset hdiff⟩
  have hcontained : ∀ {u : State}, Contained s u →
      NothingSent s { u with cbSet := s.cbSet } ∧ (u.cbSet ≠ s.cbSet → ∃ fn, i = .setInterruptCallback fn) := fun hu => by
    obtain ⟨-, -, -, hset, -⟩ := hu.quiet hoff
    exact hsteered hu.steered hset
  have hsame : ∀ {r : Result} {op : Byte}, NothingSent s { (s.enter op).leave r with cbSet := s.cbSet } := by
    intro r op; constructor <;> rfl
  cases Ran.of_exec h with
  | farEnd hi =>
    obtain ⟨u, hu, hcont, -, -⟩ := exec_contained i s hlevel hi
    cases h.symm.trans hu
    exact hcontained hcont
  | poller => cases hlevel
  | contained _ h => exact hcontained h
  | opened => exact absurd rfl hne
  | closed => rw [runOp, closeOp_closed (s := s.enter 0x01#8) hc]; exact ⟨hsame, fun hd => absurd rfl hd⟩
  | configured pin en =>
    obtain ⟨hst, hidle⟩ := Steered.configureInterruptOp pin en (s.enter 0x06#8)
    exact hsteered hst.runOp (hidle hoff).2
  | registered fn =>
    exact ⟨(Steered.setInterruptCallbackOp fn (s.enter 0x07#8)).1.runOp.closed hc, fun _ => ⟨fn, rfl⟩⟩
  | steered en =>
    cases en with
    | true =>
      obtain ⟨hst, hset⟩ := Steered.startLoop (s.enter 0x08#8)
      exact hsteered (Steered.runOp (body := enableInterruptOp true) hst) hset
    | false => rw [runOp, enableInterruptOp_false_off (s := s.enter 0x08#8) hoff.1]; exact ⟨hsame, fun hd => absurd rfl hd⟩

end Sys2Proof.Machine
end

section
/-! SUPPORT. Requests refused before any bus activity, of FG and of a callback on the bridge (60_exceptions.md R343, R348;
44_interrupt_emulation.md R203, R204). -/

namespace Sys2Proof.Machine

/-- The refusals of the pin and interrupt operations on an open session. -/
inductive Rejects (s : State) : Instr → Cause → Prop where
  | digitalWrite {pin : Nat} (v : Bool) (h : 5 < pin) : Rejects s (.digitalWrite pin v) .invalidPin
  | digitalRead {pin : Nat} (h : 5 < pin) : Rejects s (.digitalRead pin) .invalidPin
  | pinMode {pin : Nat} (mode : Nat) (h : 5 < pin) : Rejects s (.pinMode pin mode) .invalidPin
  | mode {pin mode : Nat} (h : pin ≤ 5) (hm : 1 < mode) : Rejects s (.pinMode pin mode) .invalidMode
  | configure {pin : Nat} (en : Bool) (h : pin ≠ s.par.irqPin) : Rejects s (.configureInterrupt pin en) .invalidPin
  | disable (h : s.irqEn = true) : Rejects s (.configureInterrupt s.par.irqPin false) .interruptActive
  | register (fn : Nat) (h : s.irqEn = true) : Rejects s (.setInterruptCallback fn) .interruptActive
  | start (h : s.irqCfg = false ∨ s.cbSet = false) : Rejects s (.enableInterrupt true) .notConfigured

section
variable {s : State} (ho : s.isOpen = true)
include ho

theorem pinChecks_badPin {pin : Nat} (h : 5 < pin) : pinChecks pin s = some .invalidPin := by
  simp only [pinChecks, ho, h, Bool.not_true, Bool.false_eq_true, if_false, if_true]

theorem pinModeChecks_badPin {pin : Nat} (h : 5 < pin) (mode : Nat) : pinModeChecks pin mode s = some .invalidPin := by
  simp only [pinModeChecks, pinChecks_badPin ho h]

theorem pinModeChecks_badMode {pin mode : Nat} (h : pin ≤ 5) (hm : 1 < mode) : pinModeChecks pin mode s = some .invalidMode := by
  simp only [pinModeChecks, pinChecks_ok ho h, hm, if_true]

theorem configureChecks_badPin {pin : Nat} (h : pin ≠ s.par.irqPin) : configureChecks pin s = some .invalidPin := by
  simp only [configureChecks, ho, h, ne_eq, not_false_eq_true, Bool.not_true, Bool.false_eq_true, if_false, if_true]

theorem startLoop_refused (h : s.irqCfg = false ∨ s.cbSet = false) : startLoop s = (false, s.fail .notConfigured) := by
  unfold startLoop
  rcases h with h | h
  · simp [ho, h]
  · cases hcfg : s.irqCfg <;> simp [ho, h]

end

theorem unconfigure_refused {s : State} (h : s.irqEn = true) : unconfigure s = (false, s.fail .interruptActive) := if_pos h

theorem registerCallback_refused {s : State} (h : s.irqEn = true) : registerCallback s = (false, s.fail .interruptActive) := if_pos h

/-- FG's own request: the body answers `false` and records the cause. -/
theorem Rejects.exec {s : State} {i : Instr} {c : Cause} (h : Rejects s i c) (ho : s.isOpen = true) :
    ∃ op, Machine.exec i s = .next (((s.enter op).fail c).leave (.bool false)) := by
  have hoe : ∀ op, (s.enter op).isOpen = true := fun _ => ho
  cases h with
  | digitalWrite v h => exact ⟨0x03#8, exec_of_body (exec_digitalWrite _ v s) (by simp only [digitalWriteOp, pinChecks_badPin (hoe _) h])⟩
  | digitalRead h => exact ⟨0x04#8, exec_of_body (exec_digitalRead _ s) (by simp only [digitalReadOp, pinChecks_badPin (hoe _) h])⟩
  | pinMode m h => exact ⟨0x05#8, exec_of_body (exec_pinMode _ m s) (by simp only [pinModeOp, pinModeChecks_badPin (hoe _) h])⟩
  | mode h hm => exact ⟨0x05#8, exec_of_body (exec_pinMode _ _ s) (by simp only [pinModeOp, pinModeChecks_badMode (hoe _) h hm])⟩
  | configure en h =>
    have hcheck := configureChecks_badPin (hoe 0x06#8) h
    exact ⟨0x06#8, exec_of_body (exec_configureInterrupt _ en s) (by simp only [configureInterruptOp, hcheck])⟩
  | disable h =>
    have hcheck : configureChecks s.par.irqPin (s.enter 0x06#8) = none := configureChecks_ok ho
    have hrun : unconfigure (s.enter 0x06#8) = _ := unconfigure_refused h
    exact ⟨0x06#8, exec_of_body (exec_configureInterrupt _ false s)
      (by simp only [configureInterruptOp, hcheck, Bool.false_eq_true, if_false, hrun])⟩
  | register fn h =>
    have hrun : registerCallback (s.enter 0x07#8) = _ := registerCallback_refused h
    exact ⟨0x07#8, exec_of_body (exec_setInterruptCallback fn s) (by simp only [setInterruptCallbackOp, hrun])⟩
  | start h =>
    have hrun : startLoop (s.enter 0x08#8) = _ := startLoop_refused ho h
    exact ⟨0x08#8, exec_of_body (exec_enableInterrupt true s) (by simp only [enableInterruptOp_true, hrun])⟩

/-! ### POLL_STEP and the join, step by step -/

theorem pollMicro_callback {s : State} {c : Callback} (h : s.pseq = .callback c) : pollMicro s = callbackMicro c s := by
  simp only [pollMicro, h]

theorem pollMicro_stored {s : State} {l : PinLevel} (h : s.pseq = .store l) : pollMicro s = pollStore l s := by
  simp only [pollMicro, h]

theorem finishCallback_store (n : Nat) {s : State} {l : PinLevel} (h : s.pseq = .store l) : finishCallback n s = s := by
  cases n with
  | zero => rfl
  | succ n => simp only [finishCallback, h]

/-- Steps beyond the end of a callback are none: the number of steps allowed does not matter once it is enough. -/
theorem finishCallback_enough (n : Nat) {m : Nat} {s : State} {c : Callback} (h : s.pseq = .callback c) (hn : c.size s.par ≤ n)
    (hm : c.size s.par ≤ m) : finishCallback n s = finishCallback m s := by
  have hpos : 0 < c.size s.par := by simp only [Callback.size]; omega
  induction n generalizing m s c with
  | zero => omega
  | succ n ih =>
    obtain ⟨k, rfl⟩ : ∃ k, m = k + 1 := ⟨m - 1, by omega⟩
    have hpar : (callbackMicro c s).par = s.par := (Beside.callbackMicro c s).par
    rw [finishCallback_succ n s c h, finishCallback_succ k s c h, pollMicro_callback h]
    rcases callbackMicro_pseq c s with ⟨d, hd, hlt⟩ | hd
    · exact ih hd (by rw [hpar]; omega) (by rw [hpar]; omega) (by simp only [Callback.size]; omega)
    · rw [finishCallback_store n hd, finishCallback_store k hd]

/-- One step of a running callback, and the rest of the POLL_STEP. -/
theorem joinPoller_callbackMicro {s : State} {c : Callback} (h : s.pseq = .callback c) : joinPoller s = joinPoller (callbackMicro c s) := by
  have hpar : (callbackMicro c s).par = s.par := (Beside.callbackMicro c s).par
  obtain ⟨n, hn⟩ : ∃ n, c.size s.par = n + 1 := ⟨c.size s.par - 1, by simp only [Callback.size]; omega⟩
  rw [joinPoller_callback s c h, hn, finishCallback_succ n s c h, pollMicro_callback h]
  rcases callbackMicro_pseq c s with ⟨d, hd, hlt⟩ | hd
  · rw [joinPoller_callback _ d hd, finishCallback_enough n hd (by rw [hpar]; omega) le_rfl]
  · rw [joinPoller_store _ _ hd, finishCallback_store n hd]

theorem joinPoller_pollStore {s : State} {l : PinLevel} (h : s.pseq = .store l) : joinPoller s = pollStore l s := by
  rw [joinPoller_store s l h, pollMicro_stored h]

theorem pollStepRun_busy {s : State} (h : s.pseq ≠ .idle) : pollStepRun s = joinPoller s := by
  rw [pollStepRun, if_neg h]

/-- A callback with nothing left to do: the level is remembered low, POLLER sleeps. -/
theorem joinPoller_ended {s : State} {c : Callback} (h : s.pseq = .callback c) (h1 : c.steps = []) (h2 : c.tasks = []) (h3 : c.rest = []) :
    joinPoller s = pollStore .low { s with pseq := .store .low } := by
  rw [joinPoller_callbackMicro h, callbackMicro_end c s h1 h2 h3, joinPoller_pollStore rfl]

/-! ### The same request of a callback -/

theorem Callback.start_admitted {r : CbRequest} (h : requestAdmitted r = true) : Callback.start [r] =
    { steps := [], held := 0x00#6, frameOut := 0x00#6, frameDir := 0x00#6, got := [], tasks := [], rest := [r] } := by
  simp only [Callback.start, List.filter_cons, h, if_true, List.filter_nil]

theorem Rejects.admitted {s : State} {i : Instr} {c : Cause} (h : Rejects s i c) (elapsed : List Rat) :
    requestAdmitted { op := i, elapsed := elapsed } = true := by
  cases h <;> rfl

/-- It begins and ends at once, with the cause recorded. -/
theorem Rejects.begin {s : State} {i : Instr} {e : Cause} (h : Rejects s i e) (ho : s.isOpen = true) (elapsed : List Rat) (c : Callback) :
    beginRequest { op := i, elapsed := elapsed } c s = ({ c with steps := [], tasks := [] }, { s with cbFault := false }.fail e) := by
  have hoe : ({ s with cbFault := false } : State).isOpen = true := ho
  cases h with
  | digitalWrite v h | digitalRead h => simp only [beginRequest, requestCheck, pinChecks_badPin hoe h]
  | pinMode m h => simp only [beginRequest, requestCheck, pinModeChecks_badPin hoe h]
  | mode h hm => simp only [beginRequest, requestCheck, pinModeChecks_badMode hoe h hm]
  | configure en h =>
    have hcheck := configureChecks_badPin hoe h
    simp only [beginRequest, requestCheck, hcheck]
  | disable h =>
    have hcheck : configureChecks s.par.irqPin ({ s with cbFault := false } : State) = none := configureChecks_ok hoe
    have hrun : unconfigure ({ s with cbFault := false } : State) = _ := unconfigure_refused h
    simp only [beginRequest, requestCheck, hcheck, requestSteps, requestTasks, requestAct, Bool.false_eq_true, if_false, hrun]
  | register fn h =>
    have hrun : registerCallback ({ s with cbFault := false } : State) = _ := registerCallback_refused h
    simp only [beginRequest, requestCheck, requestSteps, requestTasks, requestAct, hrun]
  | start h =>
    have hrun : startLoop ({ s with cbFault := false } : State) = _ := startLoop_refused hoe h
    simp only [beginRequest, requestCheck, requestSteps, requestTasks, requestAct, if_true, hrun]

/-- The callback's request is refused, and the callback ends with it. -/
theorem pollStepRun_rejected {s : State} {i : Instr} {e : Cause} (h : Rejects s i e) (ho : s.isOpen = true) {elapsed : List Rat}
    (hs : s.pseq = .callback (Callback.start [{ op := i, elapsed := elapsed }])) :
    ∃ u, pollStepRun s = pollStore .low u ∧ NothingSent s { u with pseq := s.pseq } ∧ u.lastCause = e ∧ u.env = s.env ∧
      u.trace = s.trace ∧ u.seq = s.seq ∧ u.buf = s.buf ∧ u.res = s.res := by
  rw [Callback.start_admitted (h.admitted elapsed)] at hs
  have hrun : pollStepRun s = pollStore .low { ({ s with cbFault := false } : State).fail e with pseq := .store .low } := by
    rw [pollStepRun_busy (by rw [hs]; exact PSeq.noConfusion), joinPoller_callbackMicro hs, callbackMicro_request _ _ _ _ rfl rfl rfl,
      h.begin ho elapsed]
    exact joinPoller_ended rfl rfl rfl rfl
  exact ⟨_, hrun, by constructor <;> rfl, rfl, rfl, rfl, rfl, rfl, rfl⟩

/-- Settles O32. -/
theorem requestsRejected : Obligations.RequestsRejected := by
  intro i c s ho hcases
  have h : Rejects s i c := by
    rcases hcases with ⟨pin, v, rfl, h, rfl⟩ | ⟨pin, rfl, h, rfl⟩ | ⟨pin, mode, rfl, h, rfl⟩ | ⟨pin, mode, rfl, h, hm, rfl⟩ |
      ⟨pin, en, rfl, h, rfl⟩ | ⟨rfl, h, rfl⟩ | ⟨fn, rfl, h, rfl⟩ | ⟨rfl, h, rfl⟩
    · exact .digitalWrite v h
    · exact .digitalRead h
    · exact .pinMode mode h
    · exact .mode h hm
    · exact .configure en h
    · exact .disable h
    · exact .register fn h
    · exact .start h
  refine ⟨?_, fun elapsed hs => ?_⟩
  · obtain ⟨op, he⟩ := h.exec ho
    exact ⟨_, he, rfl, rfl, (NothingSent.fail (s.enter op) c).returned, rfl⟩
  · obtain ⟨u, hu, hsent, hcause, henv, htrace, hseq, hbuf, hres⟩ := pollStepRun_rejected h ho hs
    refine ⟨pollStore .low u, (exec_pollStep s).trans (congrArg _ hu), hcause, rfl, rfl, henv, ?_, hseq, hbuf, hres, ?_⟩
    · show Event.sleep u.par.pollIrqInterval :: u.trace = _
      rw [htrace, hsent.par]
    · exact ⟨hsent.par, hsent.isOpen, hsent.handle, hsent.dir, hsent.out, hsent.lsbFirst, hsent.irqCfg, hsent.cbSet, hsent.irqEn, rfl,
        hsent.busFault, rfl, hsent.inbox, rfl, hsent.pinsDir, hsent.pinsOut, hsent.pinsExt, hsent.inQ, hsent.radio⟩

end Sys2Proof.Machine
end

section
/-! SUPPORT. What a running callback leaves of the loop and of the callback events, and the join that waits for it
(44_interrupt_emulation.md R201, R203, R204). -/

namespace Sys2Proof.Machine

/-! ### A callback counts no event of its own and leaves the loop -/

/-- The loop and the number of callback events are as before. -/
structure Unmoved (s t : State) : Prop where
  callbacks : t.callbacks = s.callbacks
  irqEn : t.irqEn = s.irqEn

theorem Unmoved.trans {s t u : State} (h : Unmoved s t) (k : Unmoved t u) : Unmoved s u :=
  ⟨k.callbacks.trans h.callbacks, k.irqEn.trans h.irqEn⟩

theorem Unmoved.same {s t : State} (ht : t.trace = s.trace) (he : t.irqEn = s.irqEn) : Unmoved s t :=
  ⟨by rw [State.callbacks, ht]; rfl, he⟩

theorem Unmoved.event {s t : State} {e : Event} (ht : t.trace = e :: s.trace) (hne : e ≠ .callback) (he : t.irqEn = s.irqEn) :
    Unmoved s t :=
  ⟨by rw [State.callbacks, ht, List.count_cons_of_ne hne]; rfl, he⟩

theorem Unmoved.drawTick (s : State) : Unmoved s s.drawTick.2 := .same (by simp) (by simp)

theorem Unmoved.sendAt (who : Who) (c : WireCmd) (tk : Tick) (s : State) : Unmoved s (sendAt who c tk s).2 :=
  .event (sendAt_trace who c tk s) (by simp) (by simp)

theorem Unmoved.takeAt (who : Who) (tk : Tick) (s : State) : Unmoved s (takeAt who tk s).2 :=
  .event (takeAt_trace who tk s) (by simp) (by simp)

theorem Unmoved.recordFailure (ok : Bool) {s t : State} (h : Unmoved s t) : Unmoved s (recordFailure ok t) := by
  unfold Machine.recordFailure; split; exacts [h, h.trans (.same rfl rfl)]

theorem Unmoved.freeIf (lost : Bool) (b : Byte) (s : State) : Unmoved s (freeIf lost b s).2 := by
  unfold Machine.freeIf; split <;> exact .same rfl rfl

theorem Unmoved.callbackByte (c : Callback) (s : State) : Unmoved s (callbackByte c s).2 := by
  unfold Machine.callbackByte; split; exacts [.freeIf _ _ s, .same rfl rfl]

theorem Unmoved.beginTask (t : CbTask) (c : Callback) (s : State) : Unmoved s (beginTask t c s).2 := by
  cases t with
  | access w n => simp only [Machine.beginTask]; split <;> exact .same rfl rfl
  | insert a hi lo v => exact (Unmoved.callbackByte c s).trans (.freeIf _ _ _)
  | putBack a v => exact .freeIf _ _ s
  | sleep q => exact .event (e := .sleep q) rfl (by simp) rfl
  | temperature o => simp only [Machine.beginTask]; split; exacts [.same rfl rfl, .callbackByte c s]
  | checked => simp only [Machine.beginTask]; split <;> exact .same rfl rfl
  | failWith e => exact .same rfl rfl
  | _ => exact .callbackByte c s

theorem Unmoved.callbackAct (a : CbStep) (c : Callback) (s : State) : Unmoved s (callbackAct a c s) := by
  have hsend : ∀ cmd, Unmoved s (callbackSend cmd c s) := fun cmd =>
    .recordFailure _ (((Unmoved.drawTick s).trans (.sendAt _ _ _ _)).trans (.same rfl rfl))
  cases a with
  | loadMask u | buildFrame | configured => exact .same rfl rfl
  | storeMask u => exact .same (by simp [Machine.callbackAct]) (by simp [Machine.callbackAct])
  | sendFrame | clock d | askPins => exact hsend _
  | take keep => exact .recordFailure _ (((Unmoved.drawTick s).trans (.takeAt _ _ _)).trans (.same rfl rfl))

/-- A request that does not ask for the loop leaves it. -/
theorem requestAct_irqEn {i : Instr} (h : i ≠ .enableInterrupt true) (s : State) : (requestAct i s).irqEn = s.irqEn := by
  cases i with
  | configureInterrupt pin en =>
    cases en
    · obtain ⟨-, -, -, hen, -⟩ := unconfigure_idle s
      exact hen
    · rfl
  | setInterruptCallback fn =>
    obtain ⟨-, hen, -⟩ := registerCallback_idle s
    exact hen
  | enableInterrupt en =>
    cases en
    · rfl
    · exact absurd rfl h
  | _ => rfl

theorem requestAct_trace (i : Instr) (s : State) : (requestAct i s).trace = s.trace := by
  cases i with
  | configureInterrupt pin en =>
    cases en
    · obtain ⟨-, -, htrace, -, -⟩ := unconfigure_idle s
      exact htrace
    · rfl
  | setInterruptCallback fn =>
    obtain ⟨-, -, h⟩ := registerCallback_idle s
    exact h.trace
  | enableInterrupt en =>
    cases en
    · rfl
    · obtain ⟨-, htrace, -⟩ := startLoop_idle s
      exact htrace
  | _ => rfl

theorem beginRequest_trace (r : CbRequest) (c : Callback) (s : State) : (beginRequest r c s).2.trace = s.trace := by
  simp only [beginRequest]; split
  · rfl
  · exact requestAct_trace _ _

theorem beginRequest_irqEn {r : CbRequest} (h : r.op ≠ .enableInterrupt true) (c : Callback) (s : State) :
    (beginRequest r c s).2.irqEn = s.irqEn := by
  simp only [beginRequest]; split
  · rfl
  · exact requestAct_irqEn h _

/-! ### What a callback has left to ask -/

theorem beginRequest_rest (r : CbRequest) (c : Callback) (s : State) : (beginRequest r c s).1.rest = c.rest := by
  simp only [beginRequest]; split <;> rfl

theorem beginTask_rest (t : CbTask) (c : Callback) (s : State) : (beginTask t c s).1.rest = c.rest := by
  cases t with
  | access | temperature | checked => simp only [beginTask]; split <;> rfl
  | _ => rfl

theorem callbackAct_rest (a : CbStep) (c : Callback) (s : State) : ∃ d, (callbackAct a c s).pseq = .callback d ∧ d.rest = c.rest := by
  have hafter : ∀ (ok : Bool) (e : Callback) (u : State), e.rest = c.rest →
      ∃ d, (callbackAfter ok e u).pseq = .callback d ∧ d.rest = c.rest := fun ok e u he =>
    ⟨_, recordFailure_pseq ok _, by cases ok <;> exact he⟩
  cases a with
  | loadMask u | storeMask u | buildFrame | configured => exact ⟨_, rfl, rfl⟩
  | sendFrame | clock d | askPins => exact hafter _ _ _ rfl
  | take keep => exact hafter _ _ _ (by unfold Callback.keep; split <;> rfl)

/-- POLLER in or after a callback that does not ask for the loop, while none runs. -/
structure Ending (s : State) : Prop where
  irqEn : s.irqEn = false
  unasked : ∀ c, s.pseq = .callback c → NoLoopAsked c.rest

theorem Ending.callbackMicro {s : State} {c : Callback} (h : s.pseq = .callback c) (he : Ending s) : Ending (callbackMicro c s) := by
  have hrest := he.unasked c h
  rcases hs : c.steps with _ | ⟨a, steps⟩
  · rcases ht : c.tasks with _ | ⟨t, tasks⟩
    · rcases hr : c.rest with _ | ⟨r, rest⟩
      · rw [callbackMicro_end c s hs ht hr]
        exact ⟨he.irqEn, fun e hpe => nomatch hpe⟩
      · rw [callbackMicro_request c s r rest hs ht hr]
        rw [hr] at hrest
        refine ⟨(beginRequest_irqEn (hrest r (by simp)) _ s).trans he.irqEn, fun e hpe => ?_⟩
        cases hpe
        rw [beginRequest_rest]; exact fun q hq => hrest q (by simp [hq])
    · rw [callbackMicro_task c s t tasks hs ht]
      refine ⟨(Unmoved.beginTask _ _ s).irqEn.trans he.irqEn, fun e hpe => ?_⟩
      cases hpe
      rw [beginTask_rest]; exact hrest
  · rw [callbackMicro_step c s a steps hs]
    obtain ⟨d, hd, hr⟩ := callbackAct_rest a { c with steps := steps } s
    refine ⟨(Unmoved.callbackAct _ _ s).irqEn.trans he.irqEn, fun e hpe => ?_⟩
    obtain rfl : d = e := PSeq.callback.inj (hd.symm.trans hpe)
    rw [hr]; exact hrest

theorem callbackMicro_callbacks (c : Callback) (s : State) : (callbackMicro c s).callbacks = s.callbacks := by
  unfold callbackMicro
  split
  · exact (Unmoved.callbackAct _ _ s).callbacks
  · exact (Unmoved.beginTask _ _ s).callbacks
  · exact congrArg (List.count Event.callback) (beginRequest_trace _ _ s)
  · rfl

theorem pollStore_callbacks (l : PinLevel) (s : State) : (pollStore l s).callbacks = s.callbacks :=
  List.count_cons_of_ne (by simp)

/-! ### The join of a callback -/

/-- What every step of a callback keeps, and the storing of the level after it, the join keeps. -/
theorem joinPoller_keeps {P : State → Prop} (hmicro : ∀ s c, s.pseq = .callback c → P s → P (callbackMicro c s))
    (hstore : ∀ s l, s.pseq = .store l → P s → P (pollStore l s)) {s : State}
    (h : (∃ c, s.pseq = .callback c) ∨ ∃ l, s.pseq = .store l) (hp : P s) : P (joinPoller s) := by
  rcases h with ⟨c, h⟩ | ⟨l, h⟩
  · obtain ⟨n, hn⟩ : ∃ n, c.size s.par ≤ n := ⟨_, le_rfl⟩
    induction n generalizing s c with
    | zero => simp only [Callback.size] at hn; omega
    | succ n ih =>
      have hpar : (callbackMicro c s).par = s.par := (Beside.callbackMicro c s).par
      rw [joinPoller_callbackMicro h]
      rcases callbackMicro_pseq c s with ⟨d, hd, hlt⟩ | hd
      · exact ih (hmicro s c h hp) d hd (by rw [hpar]; omega)
      · rw [joinPoller_pollStore hd]; exact hstore _ _ hd (hmicro s c h hp)
  · rw [joinPoller_pollStore h]; exact hstore s l h hp

theorem joinPoller_callbacks {s : State} (h : (∃ c, s.pseq = .callback c) ∨ ∃ l, s.pseq = .store l) :
    (joinPoller s).callbacks = s.callbacks :=
  joinPoller_keeps (P := fun u => u.callbacks = s.callbacks) (fun u c _ hu => (callbackMicro_callbacks c u).trans hu)
    (fun u l _ hu => (pollStore_callbacks l u).trans hu) h rfl

theorem Ending.joinPoller {s : State} (h : (∃ c, s.pseq = .callback c) ∨ ∃ l, s.pseq = .store l) (he : Ending s) :
    (joinPoller s).irqEn = false :=
  (joinPoller_keeps (P := Ending) (fun _ _ hc hu => hu.callbackMicro hc) (fun _ _ _ hu => ⟨hu.irqEn, fun _ hpe => nomatch hpe⟩) h he).irqEn

/-! ### The edge test -/

theorem pollTest_pseq (b : Bool) (s : State) : (∃ c, (pollTest b s).pseq = .callback c) ∨ ∃ l, (pollTest b s).pseq = .store l := by
  unfold pollTest
  dsimp only
  split
  · exact .inl ⟨_, rfl⟩
  · exact .inr ⟨_, rfl⟩

theorem joinPoller_pollTest {s : State} {b : Bool} (h : s.pseq = .test b) : joinPoller s = joinPoller (pollTest b s) := by
  rw [joinPoller_test s b h, pollMicro, h]

theorem joinPoller_pollTake {s : State} (h : s.pseq = .takeResponse) : joinPoller s = joinPoller (pollTake s) := by
  rw [joinPoller_takeResponse s h, pollMicro, h]

/-- A falling edge with a callback registered (R203 P3). -/
theorem pollTest_edge {s : State} (hl : s.lastLevel = .high) (hc : s.cbSet = true) :
    pollTest false s = { s.drawTick.2.emit .callback with pseq := .callback (Callback.start s.drawTick.1.callback) } := by
  simp [pollTest, edgeSeen, levelOf, hl, hc]

theorem pollTake_irqEn (s : State) : (pollTake s).irqEn = s.irqEn := by
  simp only [pollTake]; split <;> simp

theorem pollTake_pseq (s : State) : ∃ b, (pollTake s).pseq = .test b := by
  simp only [pollTake]; split <;> exact ⟨_, rfl⟩

theorem pollTake_ticks (s : State) : (pollTake s).env.ticks = s.drawTick.2.env.ticks := by
  simp only [pollTake]; split <;> simp [takeAt_ticks]

/-- The edge test lets no callback ask for the loop where the next answer's callback does not. -/
theorem Ending.pollTest {s : State} (b : Bool) (he : s.irqEn = false) (hask : NoLoopAsked s.drawTick.1.callback) :
    Ending (pollTest b s) := by
  unfold Machine.pollTest
  dsimp only
  split
  · refine ⟨by simpa using he, fun c hc => ?_⟩
    cases hc
    exact fun r hr => hask r (List.mem_of_mem_filter hr)
  · exact ⟨he, fun c hc => nomatch hc⟩

/-- Where no callback asks for the loop the join leaves it stopped. -/
theorem joinPoller_stopped {s : State} (he : s.irqEn = false) (h : s.NoRestart) : (joinPoller s).irqEn = false := by
  obtain ⟨hrun, hlen, hask⟩ := h
  obtain ⟨t1, t2, rest, ht⟩ : ∃ t1 t2 rest, s.env.ticks = t1 :: t2 :: rest := by
    rcases hs : s.env.ticks with _ | ⟨t1, _ | ⟨t2, rest⟩⟩
    · rw [hs] at hlen; simp at hlen
    · rw [hs] at hlen; simp at hlen
    · exact ⟨t1, t2, rest, rfl⟩
  have hask1 : NoLoopAsked t1.callback := hask t1 (by simp [ht])
  have hask2 : NoLoopAsked t2.callback := hask t2 (by simp [ht])
  cases hp : s.pseq with
  | idle => rw [joinPoller_idle s hp]; exact he
  | takeResponse =>
    obtain ⟨b, hb⟩ := pollTake_pseq s
    have hticks : (pollTake s).env.ticks = t2 :: rest := by rw [pollTake_ticks, s.drawTick_ticks t1 _ ht]
    rw [joinPoller_pollTake hp, joinPoller_pollTest hb]
    exact (Ending.pollTest b ((pollTake_irqEn s).trans he) (by rw [State.drawTick_fst _ _ _ hticks]; exact hask2)).joinPoller
      (pollTest_pseq b _)
  | test b =>
    rw [joinPoller_pollTest hp]
    exact (Ending.pollTest b he (by rw [State.drawTick_fst _ _ _ ht]; exact hask1)).joinPoller (pollTest_pseq b s)
  | callback c => exact Ending.joinPoller (.inl ⟨c, hp⟩) ⟨he, fun d hd => hrun d hd⟩
  | store l => exact Ending.joinPoller (.inr ⟨l, hp⟩) ⟨he, fun d hd => hrun d hd⟩

/-- A callback whose only request asks for the loop starts it. -/
theorem joinPoller_restarted {s : State} {c : Callback} {r : CbRequest} (h : s.pseq = .callback c) (h1 : c.steps = []) (h2 : c.tasks = [])
    (h3 : c.rest = [r]) (hr : r.op = .enableInterrupt true) (ho : s.isOpen = true) (hcfg : s.irqCfg = true) (hset : s.cbSet = true) :
    (joinPoller s).irqEn = true := by
  have hstart : ∀ u : State, u.isOpen = true → u.irqCfg = true → u.cbSet = true → (startLoop u).2.irqEn = true := fun u h1 h2 h3 => by
    unfold startLoop
    cases he : u.irqEn <;> simp [h1, h2, h3, he]
  have hbegin : beginRequest r { c with rest := [] } s =
      ({ c with rest := [], steps := [], tasks := [] }, (startLoop { s with cbFault := false }).2) := by
    simp only [beginRequest, hr, requestCheck, requestSteps, requestTasks, requestAct, if_true]
  rw [joinPoller_callbackMicro h, callbackMicro_request c s r [] h1 h2 h3, hbegin, joinPoller_ended rfl rfl rfl rfl]
  exact hstart { s with cbFault := false } ho hcfg hset

/-- Settles O36. -/
theorem loopStopped : Obligations.LoopStopped := by
  refine ⟨fun s hoff => ?_, fun s hon => ?_⟩
  · exact ⟨_, exec_of_body (exec_enableInterrupt false s) (enableInterruptOp_false_off (s := s.enter 0x08#8) hoff), rfl,
      by constructor <;> rfl, rfl, rfl⟩
  · obtain ⟨u, hu⟩ : ∃ u, u = ({ s.enter 0x08#8 with irqEn := false } : State) := ⟨_, rfl⟩
    have hbody := enableInterruptOp_false_on (s := s.enter 0x08#8) hon
    rw [← hu] at hbody
    have hb := Beside.joinPoller u
    refine ⟨_, exec_of_body (exec_enableInterrupt false s) hbody, rfl, joinPoller_pseq u, rfl, ?_, ?_, fun h => ?_, ?_, ?_, ?_,
      fun h => ?_, fun h => ?_, fun ht hl hc => ?_, fun c r hp h1 h2 h3 hr ho hcfg hset => ?_⟩
    · exact hb.isOpen.trans (by rw [hu]; rfl)
    · exact hb.handle.trans (by rw [hu]; rfl)
    · exact hb.cbSet (by rw [hu]; exact h)
    · exact hb.par.trans (by rw [hu]; rfl)
    · exact hb.lsbFirst.trans (by rw [hu]; rfl)
    · exact hb.inbox.trans (by rw [hu]; rfl)
    · have hoff : (joinPoller u).irqEn = false := by
        have hen : u.irqEn = false := by rw [hu]
        rcases h with h | h
        · rw [joinPoller_idle u (by rw [hu]; exact h)]; exact hen
        · exact joinPoller_stopped hen (by rw [hu]; exact h)
      exact ⟨hoff, (exec_pollStep _).trans (congrArg _ (pollStepRun_loopOff _ ⟨hoff, joinPoller_pseq u⟩))⟩
    · rw [joinPoller_idle u (by rw [hu]; exact h), hu]
      exact ⟨by constructor <;> rfl, rfl⟩
    · have hcount : (joinPoller u).callbacks = s.callbacks + 1 := by
        rw [joinPoller_pollTest (b := false) (by rw [hu]; exact ht), joinPoller_callbacks (pollTest_pseq _ _),
          pollTest_edge (by rw [hu]; exact hl) (by rw [hu]; exact hc)]
        have htrace : u.drawTick.2.trace = s.trace := (State.drawTick_trace u).trans (by rw [hu]; rfl)
        exact (List.count_cons_self ..).trans (by rw [htrace]; rfl)
      exact hcount
    · exact joinPoller_restarted (s := u) (by rw [hu]; exact hp) h1 h2 h3 hr (by rw [hu]; exact ho) (by rw [hu]; exact hcfg)
        (by rw [hu]; exact hset)

end Sys2Proof.Machine
end

section
/-! SUPPORT. One whole POLL_STEP: the sample, the edge test and the callback it emits (44_interrupt_emulation.md R203). -/

namespace Sys2Proof.Machine

theorem SameSession.withPseq {s t : State} (h : SameSession s t) (p : PSeq) :
    SameSession { s with pseq := p } { t with pseq := p } :=
  ⟨h.par, h.isOpen, h.handle, h.dir, h.out, h.lsbFirst, h.irqCfg, h.cbSet, h.irqEn, h.lastLevel, h.lastCause, h.busFault, rfl, h.inbox⟩

theorem SameSession.withLevel {s t : State} (h : SameSession s t) (l : PinLevel) :
    SameSession { s with lastLevel := l } { t with lastLevel := l } :=
  ⟨h.par, h.isOpen, h.handle, h.dir, h.out, h.lsbFirst, h.irqCfg, h.cbSet, h.irqEn, rfl, h.lastCause, h.busFault, h.pseq, h.inbox⟩

/-! ### The transactions of a sample, of either agent -/

section
variable {s : State} {tk : Tick} (who : Who)

theorem sendAt_log (ha : tk.answer = .ok) (c : WireCmd) :
    (sendAt who c tk s.drawTick.2).2.wireLog = s.wireLog ++ [.out (c.frame s.par)] := by
  rw [sendAt_drawTick_ok who ha, State.wireLog_emit, State.wireLog_congr (s := s) (by simp)]
  rfl

theorem takeAt_log (ha : tk.answer = .ok) {b : Byte} {q : List Byte} (hq : s.inQ = b :: q) :
    (takeAt who tk s.drawTick.2).2.wireLog = s.wireLog ++ [.back b] := by
  rw [takeAt_drawTick_ok who ha hq, State.wireLog_emit, State.wireLog_congr (s := s) (by simp)]
  rfl

theorem pollAsk_ok {rest : List Tick} (ht : s.env.ticks = tk :: rest) (ha : tk.answer = .ok) :
    pollAsk s = { (sendAt (.poller s.pseq) .askPins tk s.drawTick.2).2 with pseq := .takeResponse } := by
  simp only [pollAsk, State.drawTick_fst _ _ _ ht]
  rw [sendAt_drawTick_ok _ ha]
  rfl

theorem pollAsk_fail {rest : List Tick} (ht : s.env.ticks = tk :: rest) (ha : tk.answer ≠ .ok) :
    pollAsk s = ({ (sendAt (.poller s.pseq) .askPins tk s.drawTick.2).2 with pseq := .test false } : State).fail .bulkTransferError := by
  simp only [pollAsk, State.drawTick_fst _ _ _ ht]
  rw [sendAt_drawTick_fail _ ha]
  rfl

theorem pollTake_ok {rest : List Tick} (ht : s.env.ticks = tk :: rest) (ha : tk.answer = .ok) {b : Byte} {q : List Byte}
    (hq : s.inQ = b :: q) :
    pollTake s = { (takeAt (.poller s.pseq) tk s.drawTick.2).2 with pseq := .test (b.getLsbD s.par.irqPin.val) } := by
  simp only [pollTake, State.drawTick_fst _ _ _ ht]
  rw [takeAt_drawTick_ok _ ha hq]

theorem pollTake_fail {rest : List Tick} (ht : s.env.ticks = tk :: rest) (ha : tk.answer ≠ .ok) :
    pollTake s = ({ (takeAt (.poller s.pseq) tk s.drawTick.2).2 with pseq := .test false } : State).fail .bulkTransferError := by
  simp only [pollTake, State.drawTick_fst _ _ _ ht]
  rw [takeAt_drawTick_fail _ ha]

end

theorem pollStepRun_idle {s : State} (he : s.irqEn = true) (hp : s.pseq = .idle) : pollStepRun s = joinPoller (pollAsk s) := by
  rw [pollStepRun, if_pos hp]
  simp only [pollMicro, hp, he, if_true]

/-! ### The edge test and what follows it -/

/-- The state in which a callback with nothing to do ends, its event emitted. -/
def State.signalled (s : State) : State := { s.drawTick.2.emit .callback with pseq := .store .low }

/-- No falling edge, or no callback registered: the level is remembered and nothing else done. -/
theorem joinPoller_test_quiet {s : State} {b : Bool} (h : s.pseq = .test b)
    (hq : ¬(s.lastLevel = .high ∧ levelOf b = .low ∧ s.cbSet = true)) :
    joinPoller s = pollStore (levelOf b) { s with pseq := .store (levelOf b) } := by
  have hno : edgeSeen s.lastLevel (levelOf b) s.cbSet = false := by
    rw [Bool.eq_false_iff]
    intro he
    simp only [edgeSeen, Bool.and_eq_true, decide_eq_true_eq] at he
    exact hq ⟨he.1.1, he.1.2, he.2⟩
  have htest : pollTest b s = { s with pseq := .store (levelOf b) } := by
    simp only [pollTest, hno, Bool.false_eq_true, if_false]
  rw [joinPoller_pollTest h, htest, joinPoller_pollStore rfl]

/-- A callback that asks for nothing ends at once. -/
theorem joinPoller_test_signalled {s : State} (h : s.pseq = .test false) (hl : s.lastLevel = .high) (hc : s.cbSet = true)
    (hnone : s.drawTick.1.callback = []) : joinPoller s = pollStore .low s.signalled := by
  rw [joinPoller_pollTest h, pollTest_edge hl hc, hnone]
  exact joinPoller_ended rfl rfl rfl rfl

/-- The level remembered after a callback is low. -/
theorem joinPoller_lastLevel {s : State} {c : Callback} (h : s.pseq = .callback c) : (joinPoller s).lastLevel = .low := by
  refine (joinPoller_keeps (P := fun u => (∀ l, u.pseq = .store l → l = .low) ∧ (u.pseq = .idle → u.lastLevel = .low))
    (fun u d hd _ => ?_) (fun u l hl hu => ⟨fun k hk => (nomatch hk), fun _ => hu.1 l hl⟩) (.inl ⟨c, h⟩)
    ⟨fun l hl => (by rw [h] at hl; cases hl), fun hi => (by rw [h] at hi; cases hi)⟩).2 (joinPoller_pseq s)
  rcases callbackMicro_pseq d u with ⟨e, he, -⟩ | he
  · exact ⟨fun l hl => (by rw [he] at hl; cases hl), fun hi => (by rw [he] at hi; cases hi)⟩
  · exact ⟨fun l hl => (by rw [he] at hl; cases hl; rfl), fun hi => (by rw [he] at hi; cases hi)⟩

/-- What every falling edge with a callback registered leaves, whatever the callback does. -/
structure Signalled (s t : State) : Prop extends Beside s t where
  lastLevel : t.lastLevel = .low
  callbacks : t.callbacks = s.callbacks + 1
  idle : t.pseq = .idle

theorem joinPoller_edge {s : State} (h : s.pseq = .test false) (hl : s.lastLevel = .high) (hc : s.cbSet = true) :
    Signalled s (joinPoller s) := by
  refine ⟨Beside.joinPoller s, ?_, ?_, joinPoller_pseq s⟩
  · rw [joinPoller_pollTest h]
    exact joinPoller_lastLevel (congrArg State.pseq (pollTest_edge hl hc))
  · rw [joinPoller_pollTest h, joinPoller_callbacks (pollTest_pseq _ _), pollTest_edge hl hc]
    exact (List.count_cons_self ..).trans (by rw [State.drawTick_trace]; rfl)

/-! ### A sample that is answered -/

/-- What the two answered transactions of a sample leave, before the edge test. -/
structure Sampled (t1 t2 : Tick) (rest : List Tick) (s v : State) : Prop extends Unmoved s v where
  session : SameSession s { v with pseq := s.pseq }
  seq : v.seq = s.seq
  buf : v.buf = s.buf
  res : v.res = s.res
  log : ∃ b, v.wireLog = s.wireLog ++ [.out (askFrame s.par), .back b]
  inQ : v.inQ = []
  pinsOut : v.pinsOut = s.pinsOut
  pinsDir : v.pinsDir = s.pinsDir
  txn : v.radio.txn = s.txnAfter t1 t2
  frame : RadioFrame 2 [] [] s v
  ticks : v.env.ticks = rest

theorem Asked.frame_sampled {t1 t2 : Tick} {rest : List Tick} {s w v w' : State} {q : List Byte} (hs : s.Sound)
    (ht : s.env.ticks = t1 :: t2 :: rest) (h : Asked t1 (t2 :: rest) s w) (hp : w'.par = w.par) (hr : w'.radio = w.radio)
    (he : w'.env = w.env) (k : Took t2 q rest w' v) : RadioFrame 2 [] [] s v :=
  (h.frame hs).andThen h.par (by rw [h.ticks, ht]; rfl)
    ((k.frame ((h.sound hs).congr hp hr)).congr hp.symm hr.symm (by rw [he]) (fun _ => rfl) (fun _ => rfl))

theorem pollStepRun_sampled {s : State} {t1 t2 : Tick} {rest : List Tick} (hs : s.Sound) (he : s.irqEn = true) (hp : s.pseq = .idle)
    (hq : s.inQ = []) (ht : s.env.ticks = t1 :: t2 :: rest) (ha1 : t1.answer = .ok) (ha2 : t2.answer = .ok) :
    ∃ v, pollStepRun s = joinPoller v ∧ Sampled t1 t2 rest s v ∧ v.pseq = .test
      (if s.pinsDir.getLsbD s.par.irqPin then s.pinsOut.getLsbD s.par.irqPin else t1.ext.getLsbD s.par.irqPin) := by
  obtain ⟨w, hw⟩ : ∃ w, w = (sendAt (.poller s.pseq) .askPins t1 s.drawTick.2).2 := ⟨_, rfl⟩
  have hasked : Asked t1 (t2 :: rest) s w := by rw [hw]; exact sendAt_askPins _ ht ha1
  have hlog1 : w.wireLog = s.wireLog ++ [.out (askFrame s.par)] := by rw [hw]; exact sendAt_log _ ha1 _
  have hmove1 : Unmoved s w := by rw [hw]; exact (Unmoved.drawTick s).trans (.sendAt _ _ _ _)
  obtain ⟨x, hx⟩ : ∃ x, x = ({ w with pseq := .takeResponse } : State) := ⟨_, rfl⟩
  have hxq : x.inQ = [t1.echo.extractLsb' 6 2 ++ (s.pinsAt t1).levels] := by rw [hx]; exact hasked.inQ.trans (by rw [hq]; rfl)
  have hxt : x.env.ticks = t2 :: rest := by rw [hx]; exact hasked.ticks
  have hask : pollAsk s = x := by rw [pollAsk_ok ht ha1, hx, hw]
  obtain ⟨v, hv⟩ : ∃ v, v = (takeAt (.poller x.pseq) t2 x.drawTick.2).2 := ⟨_, rfl⟩
  have htook : Took t2 [] rest x v := by rw [hv]; exact takeAt_byte _ hxt ha2 hxq
  have hlog2 := takeAt_log (.poller x.pseq) ha2 hxq
  have hmove2 : Unmoved x v := by rw [hv]; exact (Unmoved.drawTick x).trans (.takeAt _ _ _)
  rw [← hv] at hlog2
  have hrun := pollTake_ok hxt ha2 hxq
  rw [← hv] at hrun
  refine ⟨pollTake x, ?run, ?sampled, ?bit⟩
  case run => rw [pollStepRun_idle he hp, hask, joinPoller_pollTake (by rw [hx])]
  case bit =>
    have hpar : x.par = s.par := by rw [hx]; exact hasked.par
    rw [hrun, ← getLsbD_levels_pinsAt s t1 (t1.echo.extractLsb' 6 2) (by omega), hpar]
  case sampled =>
    rw [hrun]
    exact
      { callbacks := by rw [hx] at hmove2; exact hmove2.callbacks.trans hmove1.callbacks
        irqEn := by rw [hx] at hmove2; exact hmove2.irqEn.trans hmove1.irqEn
        session := ((hasked.sameSession.withPseq s.pseq).trans
          ((htook.sameSession.withPseq s.pseq).congr (by rw [hx]) rfl)).congr rfl rfl
        seq := by rw [hx] at htook; exact htook.seq.trans hasked.seq
        buf := by rw [hx] at htook; exact htook.buf.trans hasked.buf
        res := by rw [hx] at htook; exact htook.res.trans hasked.res
        log := ⟨_, hlog2.trans (by rw [State.wireLog_congr (s := w) (u := x) (by rw [hx]), hlog1]; exact List.append_assoc _ _ _)⟩
        inQ := htook.inQ
        pinsOut := by rw [hx] at htook; exact htook.pinsOut.trans hasked.pinsOut
        pinsDir := by rw [hx] at htook; exact htook.pinsDir.trans hasked.pinsDir
        txn := by rw [hx] at htook; exact htook.txn.trans (hasked.txnAt t2)
        frame := (hasked.frame_sampled hs ht (by rw [hx]) (by rw [hx]) (by rw [hx]) htook).congr rfl rfl rfl (fun _ => rfl) (fun _ => rfl)
        ticks := htook.ticks }

/-- Settles O37. -/
theorem pollStepSample : Obligations.PollStepSample := by
  intro s t1 t2 rest level hs he hp hq ht ha1 ha2 hlevel
  obtain ⟨v, hrun, h, hbit⟩ := pollStepRun_sampled hs he hp hq ht ha1 ha2
  have hexec : exec .pollStep s = .next (joinPoller v) := (exec_pollStep s).trans (congrArg _ hrun)
  have hlast : v.lastLevel = s.lastLevel := h.session.lastLevel
  have hset : v.cbSet = s.cbSet := h.session.cbSet
  rw [← levelOf] at hlevel
  generalize (if s.pinsDir.getLsbD s.par.irqPin then s.pinsOut.getLsbD s.par.irqPin else t1.ext.getLsbD s.par.irqPin) = b at hbit hlevel
  subst hlevel
  refine ⟨fun hquiet => ?quiet, fun hhigh hlow hcb t3 more hmore => ?edge⟩
  case quiet =>
    obtain ⟨b', hlog⟩ := h.log
    rw [joinPoller_test_quiet hbit (by rw [hlast, hset]; exact hquiet)] at hexec
    exact ⟨_, b', hexec, rfl, (pollStore_callbacks _ _).trans h.callbacks, (State.wireLog_emit _ _).trans ((List.append_nil _).trans hlog),
      (h.session.withLevel s.lastLevel).congr rfl (by rw [hp]; rfl), h.inQ, h.pinsOut, h.pinsDir, h.txn,
      h.frame.congr rfl rfl rfl (fun _ => rfl) (fun _ => rfl), h.ticks, h.seq, h.buf, h.res⟩
  case edge =>
    have hb : b = false := by cases b with
      | false => rfl
      | true => cases hlow
    subst hb
    have hedge := joinPoller_edge hbit (hlast.trans hhigh) (hset.trans hcb)
    refine ⟨_, hexec, hedge.lastLevel, hedge.callbacks.trans (by rw [h.callbacks]), hedge.idle, hedge.isOpen.trans h.session.isOpen,
      (hedge.loop (h.irqEn.trans he)).1, hedge.cbSet (hset.trans hcb), hedge.seq.trans h.seq, hedge.buf.trans h.buf,
      hedge.res.trans h.res, fun hnone => ?_⟩
    have htick : v.env.ticks = t3 :: more := h.ticks.trans hmore
    rw [joinPoller_test_signalled hbit (hlast.trans hhigh) (hset.trans hcb) (by rw [State.drawTick_fst _ _ _ htick]; exact hnone)]
    have hdrawn : SameSession s { v.drawTick.2 with pseq := s.pseq } := h.session.congr rfl (by simp [State.sessionRegs])
    refine ⟨(hdrawn.withLevel s.lastLevel).congr rfl (by rw [hp]; rfl), ?_, ?_, ?_, ?_, ?_, ?_⟩
    · exact (State.drawTick_inQ v).trans h.inQ
    · exact (State.drawTick_pinsOut v).trans h.pinsOut
    · exact (State.drawTick_pinsDir v).trans h.pinsDir
    · exact (congrArg Radio.txn (State.drawTick_radio v)).trans h.txn
    · have hradio : (pollStore .low v.signalled).radio = v.radio := State.drawTick_radio v
      exact h.frame.congr rfl rfl rfl (fun a => by rw [State.reg, hradio]; rfl) (fun a => by rw [State.fifoAt, hradio]; rfl)
    · exact State.drawTick_ticks v _ _ htick

/-! ### A sample that fails -/

/-- What a sample that fails leaves, at the request or at the response: the pin is taken for low. -/
structure SampleMissed (rest : List Tick) (s v : State) : Prop extends Unmoved s v where
  session : SameSession s { v with pseq := s.pseq, lastCause := s.lastCause, busFault := s.busFault }
  cause : v.lastCause = .bulkTransferError
  busFault : v.busFault = true
  ticks : v.env.ticks = rest
  low : v.pseq = .test false

/-- After the transaction that fails the cause is recorded and the test of a low sample is next. -/
theorem Missed.sample {rest : List Tick} {s w : State} (h : Missed rest s w) (hm : Unmoved s w) :
    SampleMissed rest s (({ w with pseq := .test false } : State).fail .bulkTransferError) :=
  { callbacks := hm.callbacks
    irqEn := hm.irqEn
    session := ((h.sameSession.withPseq s.pseq).withCause s.lastCause).congr rfl rfl
    cause := rfl
    busFault := h.busFault
    ticks := h.ticks
    low := rfl }

theorem SampleMissed.after {rest : List Tick} {s w v : State} (h : SameSession s { w with pseq := s.pseq }) (hm : Unmoved s w)
    (k : SampleMissed rest w v) : SampleMissed rest s v :=
  { callbacks := k.callbacks.trans hm.callbacks
    irqEn := k.irqEn.trans hm.irqEn
    session := h.trans ((((k.session.withPseq s.pseq).withCause s.lastCause).withFault s.busFault).congr
      (by rw [h.lastCause, h.busFault]) rfl)
    cause := k.cause
    busFault := k.busFault
    ticks := k.ticks
    low := k.low }

theorem pollStepRun_missed {s : State} {pre : List Tick} {bad : Tick} {rest : List Tick} (he : s.irqEn = true) (hp : s.pseq = .idle)
    (ht : s.env.ticks = pre ++ bad :: rest) (hpre : pre.length ≤ 1) (hok : ∀ tk ∈ pre, tk.answer = .ok) (hbad : bad.answer ≠ .ok) :
    ∃ v, pollStepRun s = joinPoller v ∧ SampleMissed rest s v := by
  obtain rfl | ⟨good, rfl⟩ := eq_nil_or_singleton hpre
  · refine ⟨_, (pollStepRun_idle he hp).trans (congrArg _ (pollAsk_fail ht hbad)), ?_⟩
    exact (sendAt_missed _ ht hbad .askPins).sample ((Unmoved.drawTick s).trans (.sendAt _ _ _ _))
  · have hgood := hok good (List.mem_singleton.mpr rfl)
    obtain ⟨w, hw⟩ : ∃ w, w = pollAsk s := ⟨_, rfl⟩
    rw [pollAsk_ok ht hgood] at hw
    have hasked := sendAt_askPins (.poller s.pseq) ht hgood
    have hmove : Unmoved s w := by rw [hw]; exact ((Unmoved.drawTick s).trans (.sendAt _ _ _ _)).trans (.same rfl rfl)
    have hwt : w.env.ticks = bad :: rest := by rw [hw]; exact hasked.ticks
    have hsame : SameSession s { w with pseq := s.pseq } := by
      rw [hw]; exact (hasked.sameSession.withPseq s.pseq).congr rfl rfl
    refine ⟨pollTake w, ?_, ?_⟩
    · rw [pollStepRun_idle he hp, pollAsk_ok ht hgood, ← hw, joinPoller_pollTake (by rw [hw])]
    · rw [pollTake_fail hwt hbad]
      exact SampleMissed.after hsame hmove
        ((takeAt_missed _ hwt hbad).sample ((Unmoved.drawTick w).trans (.takeAt _ _ _)))

/-- Settles O38. -/
theorem pollStepReadFails : Obligations.PollStepReadFails := by
  intro s pre bad rest he hp ht hpre hok hbad
  obtain ⟨v, hrun, h⟩ := pollStepRun_missed he hp ht hpre hok hbad
  have hexec : exec .pollStep s = .next (joinPoller v) := (exec_pollStep s).trans (congrArg _ hrun)
  have hlast : v.lastLevel = s.lastLevel := h.session.lastLevel
  have hset : v.cbSet = s.cbSet := h.session.cbSet
  refine ⟨fun hquiet => ?quiet, fun hhigh hcb t3 more hmore => ?edge⟩
  case quiet =>
    rw [joinPoller_test_quiet h.low (by rw [hlast, hset]; exact fun hq => hquiet ⟨hq.1, hq.2.2⟩)] at hexec
    exact ⟨_, hexec, rfl, (pollStore_callbacks _ _).trans h.callbacks, h.cause, h.busFault, h.ticks,
      (h.session.withLevel s.lastLevel).congr rfl (by rw [hp]; rfl)⟩
  case edge =>
    have hedge := joinPoller_edge h.low (hlast.trans hhigh) (hset.trans hcb)
    refine ⟨_, hexec, hedge.lastLevel, hedge.callbacks.trans (by rw [h.callbacks]), hedge.fault h.busFault, hedge.idle, fun hnone => ?_⟩
    have htick : v.env.ticks = t3 :: more := h.ticks.trans hmore
    rw [joinPoller_test_signalled h.low (hlast.trans hhigh) (hset.trans hcb) (by rw [State.drawTick_fst _ _ _ htick]; exact hnone)]
    exact ⟨(State.drawTick_lastCause v).trans h.cause, State.drawTick_ticks v _ _ htick⟩

end Sys2Proof.Machine
end

section
/-! SUPPORT. The temperature operations where every transaction answers (47_packet_sequencers.md R307, R309). -/

namespace Sys2Proof.Machine

theorem exec_readTemperature (s : State) : exec .readTemperature s = .next (runOp 0x44#8 readTemperatureOp s) := rfl

theorem exec_calibrateTemperature (v : Byte) (s : State) :
    exec (.calibrateTemperature v) s = .next (runOp 0x45#8 (calibrateTemperatureOp v) s) := rfl

theorem class_temp {p : Params} (h : p.Ok) : regClass p p.regTemp = .volatile := class_status h _ (by simp [statusRegs])

theorem temp_ne_opMode {p : Params} (h : p.Ok) : p.regTemp ≠ p.regOpMode := reg_ne_reg h 29 1 (by decide)

theorem tempCal_ne_opMode {p : Params} (h : p.Ok) : p.regTempCal ≠ p.regOpMode := reg_ne_reg h 30 1 (by decide)

section
variable {s : State} (hr : s.Running) (ha : s.Answers 6)
include hr ha

/-- A checked read that does not fail is a read. -/
theorem readChecked_chain (l : Label) (a : RegAddr) (hc : regClass s.par a ≠ .window) :
    ∃ t, readChecked l a s = (some (t.reg a), t) ∧ Chain [.read a] [] [] s t := by
  obtain ⟨t, ht, hchain, -⟩ := readReg_chain hr ha l a hc
  refine ⟨t, ?_, hchain⟩
  have hval := congrArg Prod.fst ht
  have hstate := congrArg Prod.snd ht
  obtain ⟨g, k, -⟩ := transfer_read (hr.atStep l).toReady (ha.atStep l) a
  simp only [readReg, readAt, readAddrByte_eq, setWidth_extract, g, orFree_noFault _ (k.running (hr.atStep l))] at hval hstate
  simp only [readChecked, readAddrByte_eq, setWidth_extract, g, hval, hstate, orFree_noFault _ hchain.running.noFault]

/-- K2. -/
theorem enterTempMode_chain : Chain [.write s.par.regOpMode s.par.tempModeByte] [s.par.regOpMode] [] s (enterTempMode s) ∧
    (enterTempMode s).reg s.par.regOpMode = s.par.tempModeByte := by
  obtain ⟨h, hval⟩ := writeReg_opMode_chain hr ha (.main 'K' 2) s.par.tempModeByte
  exact ⟨(h.andThen (.sleepFor h.running _)).mono (by simp) (by simp), hval⟩

/-- K4. -/
theorem leaveTempMode_chain (prev : Byte) : Chain [.write s.par.regOpMode prev] [s.par.regOpMode] [] s (leaveTempMode prev s) ∧
    (leaveTempMode prev s).reg s.par.regOpMode = prev := by
  obtain ⟨h, hval⟩ := writeReg_opMode_chain hr ha (.main 'K' 4) prev
  have hrun : leaveTempMode prev s = (writeReg (.main 'K' 4) s.par.regOpMode prev s).sleepFor
      (writeReg (.main 'K' 4) s.par.regOpMode prev s).par.settleDelay := by
    simp only [leaveTempMode, writeBack_noFault _ _ _ hr.noFault]
  rw [hrun]
  exact ⟨(h.andThen (.sleepFor h.running _)).mono (by simp) (by simp), hval⟩

end

/-- Where RADIO is still a chain changes only what it writes. -/
theorem Chain.still_regs {accs : List RegAccess} {w : List RegAddr} {f : List Byte} {s t : State} (h : Chain accs w f s t) {n : Nat}
    (hs : s.RadioStill n) (hn : 6 * accs.length ≤ n) {a : RegAddr} (ha : a ∉ w) : t.reg a = s.reg a :=
  h.regs [] ((hs.mono hn).only []) a ha List.not_mem_nil

theorem Chain.still_fifo {accs : List RegAccess} {w : List RegAddr} {s t : State} (h : Chain accs w [] s t) {n : Nat}
    (hs : s.RadioStill n) (hn : 6 * accs.length ≤ n) (a : Byte) : t.fifoAt a = s.fifoAt a :=
  h.fifo [] ((hs.mono hn).only []) a List.not_mem_nil

/-! ### The mode byte read and the alternate mode entered -/

/-- What the mode byte read (K1) and the alternate mode entered (K2) leave. -/
structure Alternate (s t : State) : Prop where
  chain : Chain [.read s.par.regOpMode, .write s.par.regOpMode s.par.tempModeByte] [s.par.regOpMode] [] s t
  mode : t.reg s.par.regOpMode = s.par.tempModeByte

/-- K1 and K2. -/
theorem exists_alternate {s : State} (hr : s.Running) {n : Nat} (ha : s.Answers n) (hn : 12 ≤ n) :
    ∃ u t, readChecked (.main 'K' 1) s.par.regOpMode s = (some (u.reg s.par.regOpMode), u) ∧ enterTempMode u = t ∧ Alternate s t ∧
      (s.RadioStill 6 → u.reg s.par.regOpMode = s.reg s.par.regOpMode) := by
  obtain ⟨u, hread, hu⟩ := readChecked_chain hr (ha.mono (by omega)) (.main 'K' 1) s.par.regOpMode
    (by rw [class_opMode hr.params]; decide)
  obtain ⟨ht, hmode⟩ := enterTempMode_chain hu.running (hu.answers ha (by simp; omega))
  rw [hu.par] at ht hmode
  exact ⟨u, _, hread, rfl, ⟨(hu.andThen ht).mono (by simp) (by simp), hmode⟩, fun hs => hu.still_regs hs (by simp) (by simp)⟩

/-! ### The two operations -/

section
variable {s : State} (hr : s.Running)
include hr

/-- K0 to K5 of `readTemperature`. -/
theorem readTemperatureOp_chain (ha : s.Answers 30) (hs : s.RadioStill 30) :
    ∃ t, readTemperatureOp s = (.temperature (s.reg s.par.regTemp) (s.reg s.par.regTempCal), t) ∧
      Chain [.read s.par.regOpMode, .write s.par.regOpMode s.par.tempModeByte, .read s.par.regTemp, .read s.par.regTempCal,
        .write s.par.regOpMode (s.reg s.par.regOpMode)] [s.par.regOpMode] [] s t ∧
      t.reg s.par.regOpMode = s.reg s.par.regOpMode := by
  have hok := hr.params
  obtain ⟨u, v, e1, e2, hv, hprev⟩ := exists_alternate hr ha (by omega)
  have hprev := hprev (hs.mono (by omega))
  obtain ⟨x, e3, hx⟩ := readChecked_chain hv.chain.running (hv.chain.answers ha (by simp)) (.main 'K' 3) s.par.regTemp
    (by rw [hv.chain.par, class_temp hok]; decide)
  have hx := hv.chain.andThen hx
  obtain ⟨y, e4, hy⟩ := readChecked_chain hx.running (hx.answers ha (by simp)) (.main 'K' 3) s.par.regTempCal
    (by rw [hx.par, class_tempCal hok]; decide)
  have hy := hx.andThen hy
  have hz := hy.andThen (Chain.sleepFor hy.running y.par.settleDelay)
  obtain ⟨ht, hmode⟩ := leaveTempMode_chain hz.running (hz.answers ha (by simp)) (s.reg s.par.regOpMode)
  obtain ⟨t, htd⟩ : ∃ t, t = leaveTempMode (s.reg s.par.regOpMode) (y.sleepFor y.par.settleDelay) := ⟨_, rfl⟩
  rw [hz.par, ← htd] at ht hmode
  have hall := hz.andThen ht
  have htemp : x.reg s.par.regTemp = s.reg s.par.regTemp :=
    hx.still_regs hs (by simp) (by simpa using temp_ne_opMode hok)
  have hcal : y.reg s.par.regTempCal = s.reg s.par.regTempCal :=
    hy.still_regs hs (by simp) (by simpa using tempCal_ne_opMode hok)
  refine ⟨t, ?_, hall.mono (by simp) (by simp), hmode⟩
  have hfault := hall.running.noFault
  simp only [readTemperatureOp, hr.isOpen, Bool.not_true, Bool.false_eq_true, if_false, e1, hprev, e2, hv.chain.par, e3, hx.par, e4,
    htemp, hcal, ← htd, orFree_noFault _ hfault]

/-- K0 to K5 of `calibrateTemperature`. -/
theorem calibrateTemperatureOp_chain (ha : s.Answers 24) (hs : s.RadioStill 24) (offset : Byte) :
    ∃ t, calibrateTemperatureOp offset s = (.bool true, t) ∧
      Chain [.read s.par.regOpMode, .write s.par.regOpMode s.par.tempModeByte, .write s.par.regTempCal offset,
        .write s.par.regOpMode (s.reg s.par.regOpMode)] [s.par.regOpMode, s.par.regTempCal] [] s t ∧
      t.reg s.par.regTempCal = offset ∧ t.reg s.par.regOpMode = s.reg s.par.regOpMode := by
  have hok := hr.params
  obtain ⟨u, v, e1, e2, hv, hprev⟩ := exists_alternate hr ha (by omega)
  have hprev := hprev (hs.mono (by omega))
  obtain ⟨hx, hcal⟩ := writeReg_plain_chain hv.chain.running (hv.chain.answers ha (by simp)) (.main 'K' 3) s.par.regTempCal offset
    (by rw [hv.chain.par]; exact class_tempCal hok)
  obtain ⟨x, hxd⟩ : ∃ x, x = writeReg (.main 'K' 3) s.par.regTempCal offset v := ⟨_, rfl⟩
  rw [← hxd] at hx hcal
  have hx := hv.chain.andThen hx
  have hz := hx.andThen (Chain.sleepFor hx.running x.par.settleDelay)
  obtain ⟨ht, hmode⟩ := leaveTempMode_chain hz.running (hz.answers ha (by simp)) (s.reg s.par.regOpMode)
  obtain ⟨t, htd⟩ : ∃ t, t = leaveTempMode (s.reg s.par.regOpMode) (x.sleepFor x.par.settleDelay) := ⟨_, rfl⟩
  rw [hz.par, ← htd] at ht hmode
  have hall := hz.andThen ht
  refine ⟨t, ?_, hall.mono (by simp) (by simp), ?_, hmode⟩
  · simp only [calibrateTemperatureOp, hr.isOpen, Bool.not_true, Bool.false_eq_true, if_false, e1, hprev, e2, hv.chain.par, ← hxd, ← htd]
  · refine (ht.frame.plain _ (by rw [hz.par]; exact class_tempCal hok) ?_).trans hcal
    simpa using tempCal_ne_opMode hok

end

theorem readTemperature_effect {s : State} (hs : s.Ready) (ha : s.Answers 30) (hstill : s.RadioStill 30) :
    ∃ t, exec .readTemperature s = .next t ∧ t.res = some (.temperature (s.reg s.par.regTemp) (s.reg s.par.regTempCal)) ∧
      Completed [.read s.par.regOpMode, .write s.par.regOpMode s.par.tempModeByte, .read s.par.regTemp, .read s.par.regTempCal,
        .write s.par.regOpMode (s.reg s.par.regOpMode)] s t ∧ (∀ a, t.reg a = s.reg a) ∧ ∀ a, t.fifoAt a = s.fifoAt a := by
  obtain ⟨t, ht, hchain, hmode⟩ := readTemperatureOp_chain (hs.enter 0x44#8) (ha.enter _) hstill
  obtain ⟨hexec, hres, hdone, -⟩ := exec_of_chain (exec_readTemperature s) ht hchain
  refine ⟨_, hexec, hres, hdone, fun a => ?_, fun a => hchain.still_fifo (n := 30) hstill (by simp) a⟩
  by_cases h : a = s.par.regOpMode
  · rw [h]; exact hmode
  · exact hchain.still_regs (n := 30) hstill (by simp) (not_mem_one h)

theorem calibrateTemperature_effect {s : State} (offset : Byte) (hs : s.Ready) (ha : s.Answers 24) (hstill : s.RadioStill 24) :
    ∃ t, exec (.calibrateTemperature offset) s = .next t ∧ t.res = some (.bool true) ∧
      Completed [.read s.par.regOpMode, .write s.par.regOpMode s.par.tempModeByte, .write s.par.regTempCal offset,
        .write s.par.regOpMode (s.reg s.par.regOpMode)] s t ∧
      t.reg s.par.regTempCal = offset ∧ (∀ a, a ≠ s.par.regTempCal → t.reg a = s.reg a) ∧ ∀ a, t.fifoAt a = s.fifoAt a := by
  obtain ⟨t, ht, hchain, hcal, hmode⟩ := calibrateTemperatureOp_chain (hs.enter 0x45#8) (ha.enter _) hstill offset
  obtain ⟨hexec, hres, hdone, -⟩ := exec_of_chain (exec_calibrateTemperature offset s) ht hchain
  refine ⟨_, hexec, hres, hdone, hcal, fun a hne => ?_, fun a => hchain.still_fifo (n := 24) hstill (by simp) a⟩
  by_cases h : a = s.par.regOpMode
  · rw [h]; exact hmode
  · exact hchain.still_regs (n := 24) hstill (by simp) (not_mem_two h hne)

end Sys2Proof.Machine
end

section
/-! SUPPORT. A read of a register cut short by a failed transaction changes no register at the radio (42_transfer.md R169,
40_wire_commands.md R136), and the temperature operations such a read ends (47_packet_sequencers.md R306). -/

namespace Sys2Proof.Machine

/-! ### The answers up to the one that fails -/

/-- The next answers are `ok` up to one that is not, and RADIO does nothing by itself until then. -/
def State.Failing (s : State) : Prop := ∃ pre bad rest, Cut pre bad rest s ∧ s.RadioStill (pre.length + 1)

theorem State.Failing.congr {s u : State} (h : s.Failing) (hp : u.pseq = s.pseq) (he : u.irqEn = s.irqEn) (hv : u.env = s.env) :
    u.Failing := by
  obtain ⟨pre, bad, rest, hcut, hstill⟩ := h
  exact ⟨pre, bad, rest, hcut.congr hp he (by rw [hv]), by simpa only [State.RadioStill, hv] using hstill⟩

/-- The next answer, and what is left after it. -/
theorem State.Failing.head {s : State} (h : s.Failing) : ∃ tk rest, s.env.ticks = tk :: rest ∧ Alone tk s ∧
    tk.radio = RadioEvent.nothing ∧ (tk.answer = .ok → ∀ u, Kept s u → u.env.ticks = rest → u.Failing) := by
  obtain ⟨pre, bad, rest, hcut, hstill⟩ := h
  rcases pre with _ | ⟨t, pre⟩
  · exact ⟨bad, rest, hcut.ticks, hcut.next.1, hstill bad (by simp [hcut.ticks]), fun hok => absurd hok hcut.bad⟩
  · have ht : s.env.ticks = t :: (pre ++ bad :: rest) := hcut.ticks
    refine ⟨t, _, ht, hcut.serialised.alone ht, hstill t (by simp [ht]), fun _ u k hu => ⟨pre, bad, rest, ?_, fun x hx => ?_⟩⟩
    · exact hcut.drop (u := u) k (m := 1) (by simp) (by rw [hu, ht]; rfl)
    · rw [hu] at hx
      refine hstill x ?_
      rw [ht, List.length_cons, List.take_succ_cons]
      exact List.mem_cons_of_mem _ hx

/-! ### One transaction -/

/-- No register at the radio has changed, and `X` holds of the transaction in progress. -/
structure Untouched (X : List Byte → Prop) (s t : State) : Prop where
  par : t.par = s.par
  regs : ∀ a, t.reg a = s.reg a
  txn : X t.radio.txn

theorem Untouched.trans {X Y : List Byte → Prop} {s t u : State} (h : Untouched X s t) (k : Untouched Y t u) : Untouched Y s u :=
  ⟨k.par.trans h.par, fun a => (k.regs a).trans (h.regs a), k.txn⟩

theorem Untouched.mono {X Y : List Byte → Prop} {s t : State} (h : Untouched X s t) (hXY : ∀ l, X l → Y l) : Untouched Y s t :=
  ⟨h.par, h.regs, hXY _ h.txn⟩

theorem Untouched.same {X : List Byte → Prop} {s t : State} (hx : X s.radio.txn) (hp : t.par = s.par) (hr : t.radio = s.radio) :
    Untouched X s t :=
  ⟨hp, fun a => by rw [State.reg, hr]; rfl, by rw [hr]; exact hx⟩

/-- `TXN` between the frames of a read: empty, or the address byte alone. -/
def AddressOnly (d : Byte) (l : List Byte) : Prop := l = [] ∨ l = [d]

section
variable {s : State} {tk : Tick} (hq : tk.radio = RadioEvent.nothing)
include hq

/-- What precedes every transaction: an edge of chip-select may empty `TXN`. -/
theorem arrive_untouched {X : List Byte → Prop} (hx : X s.radio.txn) (hempty : X []) : Untouched X s (s.drawTick.2.arrive tk) := by
  obtain ⟨e, he, -, hradio⟩ := arrive_drawTick_radio s tk
  obtain rfl : e = RadioEvent.nothing := he.elim (·.trans hq) id
  refine ⟨by simp, fun a => by rw [State.reg, hradio]; rfl, ?_⟩
  rw [arrive_drawTick_txn, State.txnAt]
  split
  · exact hx
  · exact hempty

theorem sendAt_untouched {X Y : List Byte → Prop} (who : Who) {c : WireCmd} (hx : X s.radio.txn) (hempty : X []) (hXY : ∀ l, X l → Y l)
    (hrun : ∀ v, Untouched X s v → Untouched Y v (adapterRun tk c v)) : Untouched Y s (sendAt who c tk s.drawTick.2).2 := by
  have harrive := arrive_untouched hq hx hempty
  have hdone := harrive.trans (hrun _ harrive)
  by_cases hok : tk.answer = .ok
  · rw [sendAt_drawTick_ok who hok]
    exact ⟨hdone.par, hdone.regs, hdone.txn⟩
  · rw [sendAt_drawTick_fail who hok]
    split
    · exact ⟨hdone.par, hdone.regs, hdone.txn⟩
    · exact ⟨harrive.par, harrive.regs, hXY _ harrive.txn⟩

theorem takeAt_untouched {X : List Byte → Prop} (who : Who) (hx : X s.radio.txn) (hempty : X []) :
    Untouched X s (takeAt who tk s.drawTick.2).2 := by
  have h : (takeAt who tk s.drawTick.2).2.radio = (s.drawTick.2.arrive tk).radio ∧
      (takeAt who tk s.drawTick.2).2.par = (s.drawTick.2.arrive tk).par := by
    simp only [takeAt]; split <;> exact ⟨rfl, rfl⟩
  have harrive := arrive_untouched hq hx hempty
  exact ⟨h.2.trans harrive.par, fun a => by rw [State.reg, h.1]; exact harrive.regs a, by rw [h.1]; exact harrive.txn⟩

end

theorem adapterRun_pins_untouched {X : List Byte → Prop} (tk : Tick) (o d : PinMask) {s : State} (hx : X s.radio.txn) (hempty : X []) :
    Untouched X s (adapterRun tk (.pins o d) s) := by
  refine ⟨by simp, adapterRun_pins_reg tk o d s, ?_⟩
  rw [adapterRun_pins_txn]
  split
  · exact hx
  · exact hempty

/-- The address byte of a transaction. -/
theorem adapterRun_address (tk : Tick) (d : Byte) {s : State} (hx : s.radio.txn = []) :
    Untouched (AddressOnly d) s (adapterRun tk (.clock d) s) := by
  cases hcs : s.csLow with
  | false =>
    obtain ⟨hradio, -⟩ := adapterRun_clock_high tk d s hcs
    exact .same (.inl hx) (by simp) hradio
  | true =>
    obtain ⟨hradio, -⟩ := adapterRun_clock_low tk d s hcs
    rw [Radio.clock_first _ _ _ _ hx] at hradio
    exact ⟨by simp, fun a => by rw [State.reg, hradio]; rfl, by rw [hradio]; exact .inr rfl⟩

/-- The data byte of a read. -/
theorem adapterRun_readData (tk : Tick) {b : Byte} (d : Byte) {s : State} (hb : b.getLsbD 7 = false)
    (hc : regClass s.par (b.extractLsb' 0 7) ≠ .window) (hx : AddressOnly b s.radio.txn) :
    Untouched (fun _ => True) s (adapterRun tk (.clock d) s) := by
  rcases hx with hx | hx
  · exact (adapterRun_address tk d hx).mono fun _ _ => trivial
  · cases hcs : s.csLow with
    | false =>
      obtain ⟨hradio, -⟩ := adapterRun_clock_high tk d s hcs
      exact .same trivial (by simp) hradio
    | true =>
      obtain ⟨hradio, -⟩ := adapterRun_clock_low tk d s hcs
      rw [Radio.clock_read _ _ _ _ _ hx hb, Radio.regRead_val _ _ _ hc] at hradio
      exact ⟨by simp, fun a => by rw [State.reg, hradio]; rfl, trivial⟩

/-! ### The same transactions of FG -/

/-- A step of an operation that has `ok` in its first part goes on with the answers up to the failing one. -/
structure Goes (X : List Byte → Prop) (s : State) (r : Bool × State) : Prop where
  untouched : Untouched X s r.2
  failing : r.1 = true → r.2.Failing

theorem Goes.andThen {X Y : List Byte → Prop} {s : State} {r : Bool × State} {k : State → Bool × State} (h : Goes X s r)
    (hXY : ∀ l, X l → Y l) (hk : r.2.Failing → Goes Y r.2 (k r.2)) : Goes Y s (andThen r k) := by
  rw [Machine.andThen]
  split
  · next hr =>
    have g := hk (h.failing hr)
    exact ⟨h.untouched.trans g.untouched, g.failing⟩
  · next hr => exact ⟨h.untouched.mono hXY, fun e => absurd e hr⟩

theorem Goes.bulkOut {X Y : List Byte → Prop} {s : State} {c : WireCmd} (h : s.Failing) (hx : X s.radio.txn) (hempty : X [])
    (hXY : ∀ l, X l → Y l) (hrun : ∀ tk v, Untouched X s v → Untouched Y v (adapterRun tk c v)) : Goes Y s (bulkOut c s) := by
  obtain ⟨tk, rest, ht, halone, hq, hnext⟩ := h.head
  rw [bulkOut_alone halone ht]
  refine ⟨sendAt_untouched hq _ hx hempty hXY (hrun tk), fun he => ?_⟩
  by_cases hok : tk.answer = .ok
  · have hans := sendAt_answered (.fg s.seq) ht hok c
    exact hnext hok _ hans.toKept hans.ticks
  · rw [sendAt_drawTick_fail _ hok] at he; cases he

theorem bulkIn_goes {X : List Byte → Prop} {s : State} (h : s.Failing) (hx : X s.radio.txn) (hempty : X []) :
    Untouched X s (bulkIn s).2 ∧ ((bulkIn s).1.isSome = true → (bulkIn s).2.Failing) := by
  obtain ⟨tk, rest, ht, halone, hq, hnext⟩ := h.head
  rw [bulkIn_alone halone ht]
  refine ⟨takeAt_untouched hq _ hx hempty, fun he => ?_⟩
  by_cases hok : tk.answer = .ok
  · cases hin : s.inQ with
    | nil =>
      have hnone : (takeAt (.fg s.seq) tk s.drawTick.2).1 = none := by
        simp only [takeAt, hok, State.arrive_inQ, State.drawTick_inQ, hin]
      rw [hnone] at he; cases he
    | cons b q =>
      have hans := takeAt_answered (.fg s.seq) ht hok hin
      exact hnext hok _ hans.toKept hans.ticks
  · rw [takeAt_drawTick_fail _ hok] at he; cases he

/-! ### The steps of a transfer -/

theorem chipSelect_goes {X : List Byte → Prop} {s : State} (high : Bool) (h : s.Failing) (hx : X s.radio.txn) (hempty : X []) :
    Goes X s (chipSelect high s) := by
  have hf : (s.atBus (.main 'T' (if high then 4 else 1))).Failing := h.congr rfl rfl rfl
  obtain ⟨tk, rest, ht, halone, -, -⟩ := hf.head
  obtain ⟨v, hv⟩ : ∃ v, v = (MaskUpdate.out s.par.csPin.val high).apply (s.atBus (.main 'T' (if high then 4 else 1))) := ⟨_, rfl⟩
  have hrun : chipSelect high s = bulkOut (.pins v.out v.dir) v := by rw [chipSelect, updatePins_alone halone ht, hv]
  rw [hrun]
  have g : Goes X v (bulkOut (.pins v.out v.dir) v) := .bulkOut (h.congr (by rw [hv]; rfl) (by rw [hv]; rfl) (by rw [hv]; rfl))
    (by rw [hv]; exact hx) hempty (fun _ h => h) (fun tk u hu => adapterRun_pins_untouched tk _ _ hu.txn hempty)
  exact ⟨(Untouched.same (X := X) hx (by rw [hv]; rfl) (by rw [hv]; rfl)).trans g.untouched, g.failing⟩

/-- A round trip whose clocked byte takes `TXN` from `X` to `Y`. -/
theorem roundTrip_goes {X Y : List Byte → Prop} {s : State} (num i : Nat) (d : Byte) (h : s.Failing) (hx : X s.radio.txn)
    (hempty : X []) (hXY : ∀ l, X l → Y l) (hrun : ∀ tk v, Untouched X s v → Untouched Y v (adapterRun tk (.clock d) v)) :
    Untouched Y s (roundTrip num i d s).2 ∧ ((roundTrip num i d s).1.isSome = true → (roundTrip num i d s).2.Failing) := by
  have g : Goes Y (s.atBus (.round 'T' num i .sending)) (bulkOut (.clock d) (s.atBus (.round 'T' num i .sending))) :=
    .bulkOut (h.congr rfl rfl rfl) hx hempty hXY (fun tk v hv => hrun tk v ⟨hv.par, hv.regs, hv.txn⟩)
  have hu : Untouched Y s (bulkOut (.clock d) (s.atBus (.round 'T' num i .sending))).2 := ⟨g.untouched.par, g.untouched.regs, g.untouched.txn⟩
  simp only [roundTrip]
  split
  · next hok =>
    obtain ⟨h1, h2⟩ := bulkIn_goes (X := Y) (s := (bulkOut (.clock d) (s.atBus (.round 'T' num i .sending))).2.atBus
      (.round 'T' num i .taking)) ((g.failing hok).congr rfl rfl rfl) g.untouched.txn (hXY _ hempty)
    exact ⟨hu.trans ⟨h1.par, h1.regs, h1.txn⟩, h2⟩
  · exact ⟨hu, fun e => nomatch e⟩

/-- T2 of a read: the address byte. -/
theorem writePhase_goes {s : State} {b : Byte} (i : Nat) (h : s.Failing) (hx : s.radio.txn = []) (hmsb : s.lsbFirst = false) :
    Goes (AddressOnly b) s (writePhase [b] i s) := by
  obtain ⟨hu, hf⟩ := roundTrip_goes (X := (· = [])) 2 i b h hx rfl (fun _ h => .inl h) fun tk v hv => adapterRun_address tk b hv.txn
  have horder : inBitOrder s.lsbFirst b = b := by rw [hmsb]; rfl
  simp only [writePhase, horder]
  split
  · next e he => exact ⟨hu, fun _ => hf (by rw [he]; rfl)⟩
  · exact ⟨hu, fun e => nomatch e⟩

/-- T3 of a read: the data byte. -/
theorem readPhase_goes {s : State} {b : Byte} (j : Nat) (h : s.Failing) (hx : AddressOnly b s.radio.txn) (hb : b.getLsbD 7 = false)
    (hc : regClass s.par (b.extractLsb' 0 7) ≠ .window) : Goes (fun _ => True) s (readPhase 1 j s) := by
  obtain ⟨hu, hf⟩ := roundTrip_goes (X := AddressOnly b) (Y := fun _ => True) 3 j Config.dummy h hx (.inl rfl) (fun _ _ => trivial)
    fun tk v hv => adapterRun_readData tk _ hb (by rw [hv.par]; exact hc) hv.txn
  simp only [readPhase]
  split
  · next e he => exact ⟨⟨hu.par, hu.regs, trivial⟩, fun _ => (hf (by rw [he]; rfl)).congr rfl rfl rfl⟩
  · exact ⟨hu, fun e => nomatch e⟩

/-- A read of a register that is not the FIFO window, cut short anywhere. -/
theorem transferSteps_read_goes {s : State} {b : Byte} (h : s.Failing) (hx : s.radio.txn = []) (hmsb : s.lsbFirst = false)
    (hb : b.getLsbD 7 = false) (hc : regClass s.par (b.extractLsb' 0 7) ≠ .window) : Goes (fun _ => True) s (transferSteps [b] 1 s) := by
  have g1 : Goes (· = []) s (chipSelect false s) := chipSelect_goes false h hx rfl
  refine g1.andThen (fun _ _ => trivial) fun h1 => ?_
  have g2 := writePhase_goes (b := b) 0 h1 g1.untouched.txn ((Calm.chipSelect false s).lsbFirst.trans hmsb)
  refine g2.andThen (fun _ _ => trivial) fun h2 => ?_
  have hpar := g2.untouched.par.trans g1.untouched.par
  have g3 := readPhase_goes (b := b) 0 h2 g2.untouched.txn hb (by rw [hpar]; exact hc)
  exact g3.andThen (fun _ _ => trivial) fun h3 => chipSelect_goes true h3 trivial trivial

/-! ### A checked read that fails -/

/-- What a checked read that fails leaves. -/
structure ReadStopped (rest : List Tick) (s t : State) : Prop where
  busFault : t.busFault = true
  ticks : t.env.ticks = rest
  regs : ∀ a, t.reg a = s.reg a

theorem readChecked_stopped {pre rest : List Tick} {bad : Tick} {s : State} (hr : s.Running) (h : Cut pre bad rest s)
    (hs : s.RadioStill (pre.length + 1)) (hpre : pre.length < 6) (l : Label) (a : RegAddr) (hc : regClass s.par a ≠ .window) :
    ∃ t, readChecked l a s = (none, t) ∧ ReadStopped rest s t := by
  obtain ⟨hread, haddr⟩ := readByte_bits a
  have hbyte : readAddrByte (a.setWidth 8) = (0#1 ++ a : BitVec 8) := by rw [readAddrByte_eq, setWidth_extract]
  have hcut : Cut pre bad rest (s.atStep l) := h.congr rfl rfl rfl
  obtain ⟨t, e, hstop⟩ := transferBytes_stopped [readAddrByte (a.setWidth 8)] 1 (s := s.atStep l) hr.isOpen hcut
    (by simp only [List.length_cons, List.length_nil]; omega)
  obtain ⟨v, hv⟩ : ∃ v, v = (s.atStep l).startBuffers [readAddrByte (a.setWidth 8)] 1 := ⟨_, rfl⟩
  have hfail : v.Failing := ⟨pre, bad, rest, by rw [hv]; exact h.congr rfl rfl rfl, by rw [hv]; exact hs⟩
  have g := transferSteps_read_goes (b := readAddrByte (a.setWidth 8)) hfail (by rw [hv]; exact hr.txnEmpty) (by rw [hv]; exact hr.msbFirst)
    (by rw [hbyte]; exact hread) (by rw [hbyte, haddr, hv]; exact hc)
  have hregs : ∀ b, t.reg b = s.reg b := fun b => by
    have hst : t.reg b = (transferSteps [readAddrByte (a.setWidth 8)] 1 v).2.reg b := by
      have hopen := congrArg Prod.snd (e.symm.trans (transferBytes_open (s := s.atStep l) hr.isOpen _ 1))
      rw [← hv] at hopen
      rw [show t = _ from hopen]
      split <;> rfl
    rw [hst, g.untouched.regs b, hv]; rfl
  exact ⟨t, by simp only [readChecked, e], hstop.busFault, hstop.ticks, hregs⟩

/-! ### The temperature operations -/

theorem Chain.kept {accs : List RegAccess} {w : List RegAddr} {f : List Byte} {s t : State} (h : Chain accs w f s t) : Kept s t :=
  have k := h.access
  ⟨k.par, k.isOpen, k.handle, k.dir, k.lsbFirst, k.irqCfg, k.cbSet, k.irqEn, k.lastLevel, k.lastCause, k.pseq, k.inbox, k.res, k.enums,
    k.clocks, k.opFault⟩

section
variable {pre rest : List Tick} {bad : Tick} {s : State} (hr : s.Running) (h : Cut pre bad rest s)
  (hs : s.RadioStill (pre.length + 1))
include hr h hs

/-- K1 fails. -/
theorem modeRead_stopped (hpre : pre.length < 6) : ∃ t, readChecked (.main 'K' 1) s.par.regOpMode s = (none, t) ∧
    ReadStopped rest s t :=
  readChecked_stopped hr h hs hpre _ _ (by rw [class_opMode hr.params]; decide)

/-- A read of K3 fails. -/
theorem readTemperatureOp_stopped (hlow : 12 ≤ pre.length) (hhigh : pre.length < 24) :
    ∃ t : State, readTemperatureOp s = (.noTemperature, t.fail .temperatureFailed) ∧ t.busFault = true ∧ t.env.ticks = rest ∧
      t.reg s.par.regOpMode = s.par.tempModeByte := by
  have hok := hr.params
  have ha := h.answers le_rfl
  obtain ⟨u, v, e1, e2, hv, -⟩ := exists_alternate hr ha hlow
  have hcut := h.drop (u := v) hv.chain.kept (m := 12) hlow hv.chain.ticks
  have hstill : v.RadioStill ((pre.drop 12).length + 1) := hv.chain.still hs (by simp; omega)
  have hclass : regClass v.par s.par.regTemp ≠ .window := by rw [hv.chain.par, class_temp hok]; decide
  by_cases hfirst : pre.length < 18
  · obtain ⟨t, e3, ht⟩ := readChecked_stopped hv.chain.running hcut hstill (by rw [List.length_drop]; omega) (.main 'K' 3) s.par.regTemp
      hclass
    refine ⟨t, ?_, ht.busFault, ht.ticks, (ht.regs _).trans hv.mode⟩
    simp only [readTemperatureOp, hr.isOpen, Bool.not_true, Bool.false_eq_true, if_false, e1, e2, hv.chain.par, e3]
  · obtain ⟨x, e3, hx⟩ := readChecked_chain hv.chain.running (hv.chain.answers ha (n := 6) (by simp; omega)) (.main 'K' 3) s.par.regTemp hclass
    have hkeep : x.reg s.par.regOpMode = s.par.tempModeByte :=
      (hx.still_regs hstill (by simp; omega) List.not_mem_nil).trans hv.mode
    have hx := hv.chain.andThen hx
    have hcut := h.drop (u := x) hx.kept (m := 18) (by omega) hx.ticks
    obtain ⟨t, e4, ht⟩ := readChecked_stopped hx.running hcut (hx.still hs (by simp; omega)) (by rw [List.length_drop]; omega)
      (.main 'K' 3) s.par.regTempCal (by rw [hx.par, class_tempCal hok]; decide)
    refine ⟨t, ?_, ht.busFault, ht.ticks, (ht.regs _).trans hkeep⟩
    simp only [readTemperatureOp, hr.isOpen, Bool.not_true, Bool.false_eq_true, if_false, e1, e2, hv.chain.par, e3, hx.par, e4]

end

end Sys2Proof.Machine
end

section
/-! SUPPORT. A request of a callback one of whose transactions fails (60_exceptions.md R348, 47_packet_sequencers.md R306). -/

namespace Sys2Proof.Machine

/-! ### A list of steps on the bus, cut short -/

/-- The steps that are bulk transactions. -/
def CbStep.onBus : CbStep → Bool
  | .sendFrame | .clock _ | .askPins | .take _ => true
  | .loadMask _ | .storeMask _ | .buildFrame | .configured => false

/-- The bulk transactions among the steps. -/
def busSteps (l : List CbStep) : Nat := l.countP CbStep.onBus

/-- Every byte taken has been clocked or asked for before, `n` bytes being there at the start. -/
def fed : Nat → List CbStep → Bool
  | _, [] => true
  | n, .take _ :: l => decide (0 < n) && fed (n - 1) l
  | n, .clock _ :: l | n, .askPins :: l => fed (n + 1) l
  | n, .sendFrame :: l | n, .loadMask _ :: l | n, .storeMask _ :: l | n, .buildFrame :: l | n, .configured :: l => fed n l

theorem fed_mono {l : List CbStep} {m n : Nat} (h : fed m l = true) (hmn : m ≤ n) : fed n l = true := by
  induction l generalizing m n with
  | nil => rfl
  | cons a l ih =>
    cases a with
    | take keep =>
      simp only [fed, Bool.and_eq_true, decide_eq_true_eq] at h ⊢
      exact ⟨by omega, ih h.2 (by omega)⟩
    | clock d | askPins => exact ih (m := m + 1) (n := n + 1) h (by omega)
    | sendFrame | loadMask u | storeMask u | buildFrame | configured => exact ih (m := m) (n := n) h hmn

/-- What a failed transaction leaves of the callback that made it: its steps are gone and nothing has been read; the parts of its
request and its other requests are left (R348). -/
structure StepsEnded (c : Callback) (rest : List Tick) (t : State) : Prop where
  callback : ∃ d, t.pseq = .callback d ∧ d.steps = [] ∧ d.got = [] ∧ d.tasks = c.tasks ∧ d.rest = c.rest
  busFault : t.busFault = true
  ticks : t.env.ticks = rest

/-- What a step that does not fail leaves: the callback without it, the answers `tks` and the bytes its later steps take. -/
structure Stepped (c : Callback) (tks : List Tick) (t : State) : Prop where
  callback : ∃ d, t.pseq = .callback d ∧ d.steps = c.steps ∧ d.tasks = c.tasks ∧ d.rest = c.rest
  ticks : t.env.ticks = tks
  fed : fed t.inQ.length c.steps = true

section
variable {c : Callback} {s : State} {tk : Tick} {rest : List Tick} (ht : s.env.ticks = tk :: rest)
include ht

theorem callbackSend_fail (hbad : tk.answer ≠ .ok) (cmd : WireCmd) : StepsEnded c rest (callbackSend cmd c s) := by
  have hmiss := sendAt_missed (.poller s.pseq) ht hbad cmd
  simp only [callbackSend, State.drawTick_fst _ _ _ ht]
  rw [sendAt_drawTick_fail _ hbad] at hmiss ⊢
  exact ⟨⟨_, rfl, rfl, rfl, rfl, rfl⟩, hmiss.busFault, hmiss.ticks⟩

theorem callbackTake_fail (hbad : tk.answer ≠ .ok) (keep : Bool) : StepsEnded c rest (callbackTake keep c s) := by
  have hmiss := takeAt_missed (.poller s.pseq) ht hbad
  simp only [callbackTake, State.drawTick_fst _ _ _ ht]
  rw [takeAt_drawTick_fail _ hbad] at hmiss ⊢
  refine ⟨⟨_, rfl, rfl, rfl, ?_, ?_⟩, hmiss.busFault, hmiss.ticks⟩ <;>
    (simp only [Callback.keep, Bool.false_eq_true, if_false, Option.isSome_none]; split <;> rfl)

theorem callbackSend_ok (hok : tk.answer = .ok) (cmd : WireCmd) : (callbackSend cmd c s).pseq = .callback c ∧
    (callbackSend cmd c s).env.ticks = rest ∧ (callbackSend cmd c s).inQ = (adapterRun tk cmd (s.drawTick.2.arrive tk)).inQ := by
  have hans := sendAt_answered (.poller s.pseq) ht hok cmd
  simp only [callbackSend, State.drawTick_fst _ _ _ ht]
  rw [sendAt_drawTick_ok _ hok] at hans ⊢
  exact ⟨rfl, hans.ticks, rfl⟩

theorem callbackTake_ok (hok : tk.answer = .ok) (keep : Bool) {b : Byte} {q : List Byte} (hq : s.inQ = b :: q) :
    (∃ d, (callbackTake keep c s).pseq = .callback d ∧ d.steps = c.steps ∧ d.tasks = c.tasks ∧ d.rest = c.rest) ∧
    (callbackTake keep c s).env.ticks = rest ∧ (callbackTake keep c s).inQ = q := by
  have hans := takeAt_answered (.poller s.pseq) ht hok hq
  simp only [callbackTake, State.drawTick_fst _ _ _ ht]
  rw [takeAt_drawTick_ok _ hok hq] at hans ⊢
  refine ⟨⟨_, rfl, ?_, ?_, ?_⟩, hans.ticks, rfl⟩ <;> (simp only [Callback.keep, Option.isSome_some, if_true]; split <;> rfl)

/-- A transaction of the callback that fails ends its steps. -/
theorem callbackAct_fail {a : CbStep} (ha : a.onBus = true) (hbad : tk.answer ≠ .ok) : StepsEnded c rest (callbackAct a c s) := by
  cases a with
  | sendFrame | clock d | askPins => exact callbackSend_fail ht hbad _
  | take keep => exact callbackTake_fail ht hbad keep
  | loadMask u | storeMask u | buildFrame | configured => cases ha

/-- One that answers `ok` is behind it. -/
theorem callbackAct_ok {a : CbStep} (ha : a.onBus = true) (hok : tk.answer = .ok) (hf : fed s.inQ.length (a :: c.steps) = true) :
    Stepped c rest (callbackAct a c s) := by
  have hin : (s.drawTick.2.arrive tk).inQ = s.inQ := by simp
  cases a with
  | sendFrame =>
    obtain ⟨h1, h2, h3⟩ := callbackSend_ok (c := c) ht hok (.pins c.frameOut c.frameDir)
    refine ⟨⟨_, h1, rfl, rfl, rfl⟩, h2, ?_⟩
    rw [show (callbackAct .sendFrame c s).inQ = _ from h3, adapterRun_pins_inQ, hin]; exact hf
  | clock d =>
    obtain ⟨h1, h2, h3⟩ := callbackSend_ok (c := c) ht hok (.clock d)
    obtain ⟨e, he⟩ := adapterRun_clock_inQ tk d (s.drawTick.2.arrive tk)
    refine ⟨⟨_, h1, rfl, rfl, rfl⟩, h2, ?_⟩
    rw [show (callbackAct (.clock d) c s).inQ = _ from h3, he, hin, List.length_append]; exact hf
  | askPins =>
    obtain ⟨h1, h2, h3⟩ := callbackSend_ok (c := c) ht hok .askPins
    refine ⟨⟨_, h1, rfl, rfl, rfl⟩, h2, ?_⟩
    rw [show (callbackAct .askPins c s).inQ = _ from h3]
    simp only [adapterRun_askPins_inQ, List.length_append, hin]; exact hf
  | take keep =>
    simp only [fed, Bool.and_eq_true, decide_eq_true_eq] at hf
    obtain ⟨hpos, hf⟩ := hf
    obtain ⟨b, q, hq⟩ := List.exists_cons_of_length_pos hpos
    obtain ⟨h1, h2, h3⟩ := callbackTake_ok (c := c) ht hok keep hq
    refine ⟨h1, h2, ?_⟩
    rw [show (callbackAct (.take keep) c s).inQ = _ from h3]
    rwa [hq] at hf
  | loadMask u | storeMask u | buildFrame | configured => cases ha

end

/-- A step that sends nothing. -/
theorem callbackAct_quiet {c : Callback} {s : State} {a : CbStep} (ha : a.onBus = false) (hf : fed s.inQ.length (a :: c.steps) = true) :
    Stepped c s.env.ticks (callbackAct a c s) := by
  cases a with
  | sendFrame | clock d | askPins | take keep => cases ha
  | loadMask u | buildFrame | configured => exact ⟨⟨_, rfl, rfl, rfl, rfl⟩, rfl, hf⟩
  | storeMask u => cases u <;> exact ⟨⟨_, rfl, rfl, rfl, rfl⟩, rfl, hf⟩

/-- The steps of a callback up to the transaction that fails. -/
theorem joinPoller_cut {l : List CbStep} {s : State} {c : Callback} {pre rest : List Tick} {bad : Tick} (hp : s.pseq = .callback c)
    (hl : c.steps = l) (ht : s.env.ticks = pre ++ bad :: rest) (hok : ∀ tk ∈ pre, tk.answer = .ok) (hbad : bad.answer ≠ .ok)
    (hcount : pre.length < busSteps l) (hf : fed s.inQ.length l = true) :
    ∃ t, joinPoller s = joinPoller t ∧ StepsEnded c rest t := by
  induction l generalizing s c pre with
  | nil => exact absurd hcount (Nat.not_lt_zero _)
  | cons a l ih =>
    have hnext : joinPoller s = joinPoller (callbackAct a { c with steps := l } s) := by
      rw [joinPoller_callbackMicro hp, callbackMicro_step c s a l hl]
    cases ha : a.onBus with
    | false =>
      have h := callbackAct_quiet (c := { c with steps := l }) ha hf
      obtain ⟨d, hd, hsteps, htasks, hrest⟩ := h.callback
      have hcount' : pre.length < busSteps l := by simpa [busSteps, List.countP_cons, ha] using hcount
      obtain ⟨t, e, ht'⟩ := ih hd hsteps (h.ticks.trans ht) hok hcount' h.fed
      obtain ⟨d', h1, h2, h3, h4, h5⟩ := ht'.callback
      exact ⟨t, hnext.trans e, ⟨d', h1, h2, h3, h4.trans htasks, h5.trans hrest⟩, ht'.busFault, ht'.ticks⟩
    | true =>
      rcases pre with _ | ⟨tk, pre⟩
      · have h := callbackAct_fail (c := { c with steps := l }) ht ha hbad
        exact ⟨_, hnext, h.callback, h.busFault, h.ticks⟩
      · have h := callbackAct_ok (c := { c with steps := l }) ht ha (hok tk (by simp)) hf
        obtain ⟨d, hd, hsteps, htasks, hrest⟩ := h.callback
        have hcount' : pre.length < busSteps l := by simpa [busSteps, List.countP_cons, ha] using hcount
        obtain ⟨t, e, ht'⟩ := ih hd hsteps h.ticks (fun x hx => hok x (by simp [hx])) hcount' h.fed
        obtain ⟨d', h1, h2, h3, h4, h5⟩ := ht'.callback
        exact ⟨t, hnext.trans e, ⟨d', h1, h2, h3, h4.trans htasks, h5.trans hrest⟩, ht'.busFault, ht'.ticks⟩

/-! ### The request for a temperature operation -/

/-- The parts a temperature request begins with. -/
theorem requestTasks_temperature {i : Instr} {offset : Byte} (hi : i = .readTemperature ∨ i = .calibrateTemperature offset) (p : Params)
    (elapsed : List Rat) : ∃ o, requestTasks p elapsed i = [cbRead p.regOpMode, .temperature o] := by
  rcases hi with rfl | rfl
  · exact ⟨none, rfl⟩
  · exact ⟨some offset, rfl⟩

/-- The request begins: nothing is refused on an open session, and its first part is the read of the mode. -/
theorem beginRequest_temperature {i : Instr} {offset : Byte} (hi : i = .readTemperature ∨ i = .calibrateTemperature offset) {s : State}
    (ho : s.isOpen = true) (elapsed : List Rat) (c : Callback) :
    beginRequest { op := i, elapsed := elapsed } c s =
      ({ c with steps := [], tasks := requestTasks s.par elapsed i }, { s with cbFault := false }) := by
  rcases hi with rfl | rfl <;> simp only [beginRequest, requestCheck, ho, Bool.not_true, Bool.false_eq_true, if_false] <;> rfl

theorem busSteps_read (p : Params) (lsbFirst : Bool) (b : Byte) : busSteps (transferCbSteps p lsbFirst [b] 1) = 6 := rfl

theorem fed_read (n : Nat) (p : Params) (lsbFirst : Bool) (b : Byte) : fed n (transferCbSteps p lsbFirst [b] 1) = true :=
  fed_mono (m := 0) rfl (Nat.zero_le n)

/-- The read of a register in a callback, up to the transaction that fails. -/
theorem joinPoller_read_cut {s : State} {c : Callback} {a : RegAddr} {tasks : List CbTask} {pre rest : List Tick} {bad : Tick}
    (hp : s.pseq = .callback c) (h1 : c.steps = []) (h2 : c.tasks = cbRead a :: tasks) (ho : s.isOpen = true)
    (ht : s.env.ticks = pre ++ bad :: rest) (hpre : pre.length < 6) (hok : ∀ tk ∈ pre, tk.answer = .ok) (hbad : bad.answer ≠ .ok) :
    ∃ t, joinPoller s = joinPoller t ∧ StepsEnded { c with tasks := tasks } rest t := by
  have hmicro : callbackMicro c s = { s with pseq := .callback { c with
      tasks := tasks, got := [], steps := transferCbSteps s.par s.lsbFirst [readAddrByte (a.setWidth 8)] 1 } } := by
    rw [callbackMicro_task c s _ _ h1 h2]
    simp only [cbRead, beginTask, ho, if_true]
  obtain ⟨t, e, h⟩ := joinPoller_cut (s := callbackMicro c s) (by rw [hmicro]) rfl (by rw [hmicro]; exact ht) hok hbad
    (by rw [busSteps_read]; exact hpre) (fed_read _ _ _ _)
  exact ⟨t, (joinPoller_callbackMicro hp).trans e, h.callback, h.busFault, h.ticks⟩

/-- A temperature request whose read of the mode has failed ends with its own cause, and the callback with it (R306, R348). -/
theorem joinPoller_temperatureFailed {s : State} {c : Callback} {o : Option Byte} {rest : List Tick} (h : StepsEnded c rest s)
    (ht : c.tasks = [.temperature o]) (hr : c.rest = []) :
    (joinPoller s).lastCause = .temperatureFailed ∧ (joinPoller s).busFault = true ∧ (joinPoller s).env.ticks = rest := by
  obtain ⟨d, hd, hsteps, hgot, htasks, hrest⟩ := h.callback
  have hbegin : beginTask (.temperature o) { d with tasks := [] } s = ({ d with tasks := [] }, s.fail .temperatureFailed) := by
    simp only [beginTask, hgot, if_true, callbackFail]
  rw [joinPoller_callbackMicro hd, callbackMicro_task d s _ [] hsteps (htasks.trans ht), hbegin,
    joinPoller_ended (c := { d with tasks := [] }) rfl hsteps rfl (hrest.trans hr)]
  exact ⟨rfl, h.busFault, h.ticks⟩

theorem pollStep_temperatureFailed {s : State} {i : Instr} {offset : Byte} {elapsed : List Rat} {pre rest : List Tick} {bad : Tick}
    (ho : s.isOpen = true) (hi : i = .readTemperature ∨ i = .calibrateTemperature offset)
    (hp : s.pseq = .callback (Callback.start [{ op := i, elapsed := elapsed }])) (ht : s.env.ticks = pre ++ bad :: rest)
    (hpre : pre.length < 6) (hok : ∀ tk ∈ pre, tk.answer = .ok) (hbad : bad.answer ≠ .ok) :
    ∃ t, exec .pollStep s = .next t ∧ t.lastCause = .temperatureFailed ∧ t.busFault = true ∧ t.env.ticks = rest ∧
      t.pseq = .idle ∧ t.isOpen = s.isOpen ∧ t.seq = s.seq ∧ t.buf = s.buf ∧ t.res = s.res := by
  have hadmit : requestAdmitted { op := i, elapsed := elapsed } = true := by rcases hi with rfl | rfl <;> rfl
  obtain ⟨o, htasks⟩ := requestTasks_temperature hi s.par elapsed
  have hexec : exec .pollStep s = .next (joinPoller s) :=
    (exec_pollStep s).trans (congrArg _ (pollStepRun_busy (by rw [hp]; exact PSeq.noConfusion)))
  have hb := Beside.joinPoller s
  rw [Callback.start_admitted hadmit] at hp
  obtain ⟨c, hc⟩ : ∃ c : Callback, c = {
      steps := [], held := 0x00#6, frameOut := 0x00#6, frameDir := 0x00#6, got := []
      tasks := [cbRead s.par.regOpMode, .temperature o]
      rest := [] } := ⟨_, rfl⟩
  have hrun : joinPoller s = joinPoller { s with cbFault := false, pseq := .callback c } := by
    rw [joinPoller_callbackMicro hp, callbackMicro_request _ _ _ _ rfl rfl rfl, beginRequest_temperature hi ho, htasks, hc]
  obtain ⟨t, e, h⟩ := joinPoller_read_cut (s := { s with cbFault := false, pseq := .callback c }) (tasks := [.temperature o]) rfl
    (by rw [hc]) (by rw [hc]) ho ht hpre hok hbad
  have hrun := hrun.trans e
  obtain ⟨h1, h2, h3⟩ := joinPoller_temperatureFailed h rfl (by rw [hc])
  exact ⟨_, hexec, by rw [hrun]; exact h1, by rw [hrun]; exact h2, by rw [hrun]; exact h3, joinPoller_pseq s, hb.isOpen, hb.seq, hb.buf,
    hb.res⟩

/-- Settles O60. -/
theorem temperatureEffect : Obligations.TemperatureEffect := by
  refine ⟨fun s hs ha hstill => readTemperature_effect hs ha hstill,
    fun s offset hs ha hstill => calibrateTemperature_effect offset hs ha hstill,
    fun s offset pre bad rest hs hser ht hok hbad hstill => ⟨fun hpre => ⟨?_, ?_⟩, fun hlow hhigh => ?_⟩,
    fun s i offset elapsed pre bad rest ho hi hp ht hpre hok hbad => pollStep_temperatureFailed ho hi hp ht hpre hok hbad⟩
  · obtain ⟨t, e, h⟩ := modeRead_stopped (hs.enter 0x44#8) ⟨hser, ht, hok, hbad⟩ hstill hpre
    have hbody : readTemperatureOp (s.enter 0x44#8) = (.noTemperature, t.fail .temperatureFailed) := by
      simp only [readTemperatureOp, (hs.enter 0x44#8).isOpen, Bool.not_true, Bool.false_eq_true, if_false, e]
    exact ⟨_, exec_of_body (exec_readTemperature s) hbody, rfl, rfl, h.busFault, h.ticks, h.regs _⟩
  · obtain ⟨t, e, h⟩ := modeRead_stopped (hs.enter 0x45#8) ⟨hser, ht, hok, hbad⟩ hstill hpre
    have hbody : calibrateTemperatureOp offset (s.enter 0x45#8) = (.bool false, t.fail .temperatureFailed) := by
      simp only [calibrateTemperatureOp, (hs.enter 0x45#8).isOpen, Bool.not_true, Bool.false_eq_true, if_false, e]
    exact ⟨_, exec_of_body (exec_calibrateTemperature offset s) hbody, rfl, rfl, h.busFault, h.ticks, h.regs _⟩
  · obtain ⟨t, e, hbus, hticks, hmode⟩ := readTemperatureOp_stopped (hs.enter 0x44#8) ⟨hser, ht, hok, hbad⟩ hstill hlow hhigh
    exact ⟨_, exec_of_body (exec_readTemperature s) e, rfl, rfl, hbus, hticks, hmode⟩

end Sys2Proof.Machine
end
